-- ==== Sys2Proof/Word.lean ====
section
/-! DEFINITION. The word types of the TU4620: fields the manual sends and counts as bits, and the numbers that name its
four ports, 32 locks, 512 rows and 8 slots (spec/00_scope.md, Table 0-1; spec/01_aperture_map.md, Table 1-1). -/

namespace Sys2Proof

/-- One byte of a frame. -/
abbrev Byte := BitVec 8

/-- A two-byte field: generations, revisions, rows as sent, leases, owner tags (spec/10, Table 10-4). -/
abbrev Half := BitVec 16

/-- A four-byte field: shared-view addresses as sent, codes, write sequences, configuration values (spec/10, Table 10-4). -/
abbrev Word := BitVec 32

/-- A pool address, 40 bits (R2). -/
abbrev PoolAddr := BitVec 40

/-- A host port, A to D as 0 to 3. -/
abbrev Port := Fin 4

/-- A lock number, 0 to 31. -/
abbrev Lock := Fin 32

/-- A row index of the shared view, 0 to 511 (R1). -/
abbrev Row := Fin 512

/-- A slot of the pool bus master, 0 to 7 (R108). -/
abbrev SlotNo := Fin 8

end Sys2Proof
end

