-- ==== Sys2Proof/Machine/Message.lean ====
section
/-! DEFINITION. What travels on a host link into the part: the frame, and the request a frame that passes the receipt
checks stands for, with its fields as sent (spec/10_messages_status_codes_and_configuration.md, 10.1 to 10.3). -/

namespace Sys2Proof.Machine

/-- One message on a host link (Table 10-1): header, body and check value. The body length of bytes 4 and 5 is the
length of `body`; `spare` is bytes 6 and 7. -/
structure Frame where
  kind : Byte
  tag : Byte
  status : Byte
  flags : Byte
  spare : Half
  body : List Byte
  check : Word
deriving DecidableEq, Repr

/-- A row record as MAP_STAGE carries it (Table 10-3), its fields as sent: `cls`, `frame`, `rights` and `guard` may be
ill formed. -/
structure RawRow where
  row : Half
  valid : Bool
  cls : Byte
  frame : Word
  rights : Byte
  posting : Bool
  guard : Byte
deriving DecidableEq, Repr

/-- A request's kind and fields, as Table 10-4 names them. A field the flags mark absent is `none` (R164). -/
inductive ReqOp where
  | hello (revision fault : Byte)
  | leave
  | read (addr : Word) (len : Half)
  | write (addr : Word) (len : Half) (data : List Byte)
  | mapRead (row : Half) (view : Byte)
  | mapOpen (expected : Option Half)
  | mapStage (row : RawRow)
  | mapUnstage (row : Half)
  | mapAbort
  | mapCommit
  | lockAcquire (lock : Byte) (wait yield : Bool) (owner : Half) (lease : Option Half)
  | lockRelease (lock : Byte) (gen : Half)
  | lockRenew (lock : Byte) (gen : Half) (lease : Option Half)
  | lockCancel (lock : Byte)
  | lockQuery (lock : Byte)
  | notify (target : Byte) (code : Word)
  | noticeAck (seq : Half)
  | faultTake
  | configRead (item index : Byte)
  | configWrite (item index : Byte) (value : Word)
deriving DecidableEq, Repr

/-- A request in an intake queue or a hold slot: its tag as received, and its kind and fields. -/
structure Request where
  tag : Byte
  op : ReqOp
deriving DecidableEq, Repr

end Sys2Proof.Machine
end

