-- ==== Sys2Proof/Syntax.lean ====
section
/-! DEFINITION. The commands of the TU4620: one constructor for each row of spec/opcode_table.json. A request command is
the taking of one request by its port's intake and names the port, the tag and the request's fields (log 2). -/

namespace Sys2Proof

open Sys2Proof.Machine

inductive Instr where
  /-- HELLO taken (R153, R154). -/
  | hello (p : Port) (tag revision fault : Byte)
  /-- LEAVE taken (R155). -/
  | leave (p : Port) (tag : Byte)
  /-- READ taken (R7 to R17). -/
  | read (p : Port) (tag : Byte) (addr : Word) (len : Half)
  /-- WRITE taken (R7 to R18). -/
  | write (p : Port) (tag : Byte) (addr : Word) (len : Half) (data : List Byte)
  /-- MAP_READ taken (R21). -/
  | mapRead (p : Port) (tag : Byte) (row : Half) (view : Byte)
  /-- MAP_OPEN taken (R25, R26). -/
  | mapOpen (p : Port) (tag : Byte) (expected : Option Half)
  /-- MAP_STAGE taken (R27, R28). -/
  | mapStage (p : Port) (tag : Byte) (row : RawRow)
  /-- MAP_UNSTAGE taken (R29). -/
  | mapUnstage (p : Port) (tag : Byte) (row : Half)
  /-- MAP_ABORT taken (R30). -/
  | mapAbort (p : Port) (tag : Byte)
  /-- MAP_COMMIT taken (R34, R35). -/
  | mapCommit (p : Port) (tag : Byte)
  /-- LOCK_ACQUIRE taken (R50 to R52). -/
  | lockAcquire (p : Port) (tag : Byte) (lock : Byte) (wait yield : Bool) (owner : Half) (lease : Option Half)
  /-- LOCK_RELEASE taken (R55, R56). -/
  | lockRelease (p : Port) (tag : Byte) (lock : Byte) (gen : Half)
  /-- LOCK_RENEW taken (R72, R73). -/
  | lockRenew (p : Port) (tag : Byte) (lock : Byte) (gen : Half) (lease : Option Half)
  /-- LOCK_CANCEL taken (R60). -/
  | lockCancel (p : Port) (tag : Byte) (lock : Byte)
  /-- LOCK_QUERY taken (R61). -/
  | lockQuery (p : Port) (tag : Byte) (lock : Byte)
  /-- NOTIFY taken (R126, R127). -/
  | notify (p : Port) (tag : Byte) (target : Byte) (code : Word)
  /-- NOTICE_ACK taken (R131). -/
  | noticeAck (p : Port) (tag : Byte) (seq : Half)
  /-- FAULT_TAKE taken (R148). -/
  | faultTake (p : Port) (tag : Byte)
  /-- CONFIG_READ taken (R168). -/
  | configRead (p : Port) (tag : Byte) (item index : Byte)
  /-- CONFIG_WRITE taken, of an item other than SLOT_QUOTA and SUBSCRIBE (R169). -/
  | configWrite (p : Port) (tag : Byte) (item index : Byte) (value : Word)
  /-- CONFIG_WRITE of SUBSCRIBE taken (R144, R169). -/
  | configWriteSubscribe (p : Port) (tag : Byte) (index : Byte) (value : Word)
  /-- CONFIG_WRITE of SLOT_QUOTA taken (R122, R169). -/
  | configWriteSlotQuota (p : Port) (tag : Byte) (index : Byte) (value : Word)
  /-- The last byte of a frame, the frame being these bytes, has arrived on the port's link (R163, R165). -/
  | frameReceipt (p : Port) (bytes : List Byte)
  /-- The port's link-state signal rises (R152). -/
  | linkUp (p : Port)
  /-- The port's link-state signal falls (R152, R158). -/
  | linkDown (p : Port)
  /-- RESET_N goes low (R161). -/
  | deviceReset
  /-- A supply falls out of range or REFCLK stops (R172). -/
  | supplyOrRefclkLoss
  /-- The part leaves device reset (R172). -/
  | resetRelease
  /-- The edit idle timer runs out (R32). -/
  | editIdleExpiry
  /-- The lease of a lock's grant runs out (R74). -/
  | leaseExpiry (lock : Lock)
  /-- The yield deadline of a lock's grant runs out (R78). -/
  | yieldDeadlineExpiry (lock : Lock)
  /-- A slot's access timer runs out (R116). -/
  | accessTimerExpiry (slot : SlotNo)
  /-- A DONE reply on the pool bus; `data` empty when it carries none (R112, R113). -/
  | replyDone (slot issue : Byte) (data : List Byte)
  /-- An ERROR reply on the pool bus (R112, R114). -/
  | replyError (slot issue : Byte) (data : List Byte)
  /-- A RETRY reply on the pool bus (R112, R115). -/
  | replyRetry (slot issue : Byte) (data : List Byte)
  /-- The slot arbiter fills one slot (R110). -/
  | slotArbiterRun
  /-- The port's free outbound link sends the oldest response (R141). -/
  | sendResponse (p : Port)
  /-- The port's free outbound link sends the oldest event item (R141). -/
  | sendEvent (p : Port)
deriving DecidableEq, Repr

end Sys2Proof
end

