-- ==== Sys2Proof/Decode.lean ====
section
/-! DEFINITION. The command a word spells by the bits of spec/opcode_table.json. No row of that table gives bits (every
"fields" is empty and no row has "fixed"), so no word spells a command. -/

namespace Sys2Proof

/-- No row of the table gives bits, so every word is answered none. The frames of the host links are decoded in
Sys2Proof/Machine/Operands.lean. -/
def decodeTableWord (_nbits _w : Nat) : Option Instr := none

end Sys2Proof
end

