-- ==== Sys2Proof/Config.lean ====
section
/-! DEFINITION. The constants the manual fixes for the part, and the free values: what the manual leaves open, as
constants without a body, so that no proof can see what they are. -/

namespace Sys2Proof

/-- Bytes in a row and in a pool frame, 4 MiB (R1, R2). -/
def Config.rowSize : Nat := 4194304

/-- The last address of the shared view (R1). -/
def Config.viewTop : Nat := 2147483647

/-- The largest data request, in bytes (R10). -/
def Config.maxLength : Nat := 256

/-- Messages an intake queue holds (R87). -/
def Config.intakeRoom : Nat := 8

/-- Response places of a port (R92). -/
def Config.responsePlaces : Nat := 32

/-- Writes a write queue holds (R93). -/
def Config.writeRoom : Nat := 16

/-- Reads a read list holds (spec/05, Table 5-1). -/
def Config.readRoom : Nat := 8

/-- Entries a staged list holds (R23). -/
def Config.stagedRoom : Nat := 32

/-- Records a fault list holds (R145). -/
def Config.faultRoom : Nat := 8

/-- Places of a notification queue (R125). -/
def Config.noticeRoom : Nat := 8

/-- Bytes of body the port interface keeps (R165). -/
def Config.bodyRoom : Nat := 264

/-- PART_ID, the family code (spec/10, Table 10-7). -/
def Config.familyCode : Byte := 0x54#8

/-- PART_VERSION (spec/10, Table 10-7). -/
def Config.version : Byte := 0x12#8

/-- Free value: the n-th choice of an order the manual leaves open inside one event (R98; log 6, log 7). -/
opaque Config.choice : Nat → Nat

/-- Free value: what the lease timer of a lock has left when the n-th such reading is taken (R61, R71; log 5). The
reading that uses it never exceeds what the reading before it found. -/
opaque Config.leaseRemaining : Nat → Nat

end Sys2Proof
end

