-- ==== Sys2Proof/Machine/State.lean ====
section
/-! DEFINITION. The state of the TU4620 as plain data, one record for each block of spec/00_scope.md, Table 0-1, the
reasons a step could stop, and the state after reset. -/

namespace Sys2Proof.Machine

/-! ## The aperture map (spec/01) -/

/-- The class of a row (Table 1-2). -/
inductive RowClass where
  | memory
  | device
deriving DecidableEq, Repr

/-- What one port may do through a row (Table 1-2). -/
inductive Right where
  | none
  | read
  | readWrite
deriving DecidableEq, Repr

/-- A row record (Table 1-2, R3). -/
structure RowRecord where
  valid : Bool
  frame : BitVec 18
  cls : RowClass
  rights : Vector Right 4
  posting : Bool
  guard : Option Lock
deriving DecidableEq, Repr

/-- The reset value of every row record (R4). -/
def RowRecord.reset : RowRecord :=
  { valid := false, frame := 0#18, cls := .memory, rights := Vector.replicate 4 .none, posting := false, guard := none }

/-- An entry of a staged list or of a change set: a row and its new record (R23). -/
structure Staged where
  row : Row
  content : RowRecord
deriving DecidableEq, Repr

/-! ## Accepted work (spec/05, spec/06) -/

/-- The sub-statuses of POOL_ERROR (R19). -/
inductive SubStatus where
  | targetError
  | timeout
  | retryExhausted
deriving DecidableEq, Repr

/-- The condition of a piece (R107). -/
inductive PieceCond where
  | unissued
  | inFlight
  | endedWell
  | endedFailed (sub : SubStatus)
deriving DecidableEq, Repr

/-- A piece of a request (R107). Its index is its place in the request's list of pieces. `data` is what a DONE reply
brought for a read piece, empty before. -/
structure Piece where
  addr : Word
  pool : PoolAddr
  len : Nat
  pos : Nat
  cond : PieceCond
  data : List Byte
deriving DecidableEq, Repr

/-- A translation part of an accepted request (R6). -/
structure TransPart where
  row : Row
  start : Word
  len : Nat
  pool : PoolAddr
  cls : RowClass
  posting : Bool
deriving DecidableEq, Repr

/-- A guard lock recorded in a write's translation, with the generation of the writer's grant (R6). -/
structure GuardMark where
  lock : Lock
  gen : Half
deriving DecidableEq, Repr

/-- The first failure of a request: its sub-status and the address of the piece (R118, R121). -/
structure Failure where
  sub : SubStatus
  addr : Word
deriving DecidableEq, Repr

/-- An accepted write in the write queue (R93). -/
structure WriteEntry where
  seq : Word
  tag : Byte
  addr : Word
  len : Nat
  data : List Byte
  parts : List TransPart
  guards : List GuardMark
  posted : Bool
  pieces : List Piece
  failed : Option Failure
  completed : Bool
deriving DecidableEq, Repr

/-- An accepted read in the read list (R95). `cut` marks a read whose port's link was lost: it issues no further piece
and its data is discarded (R104). -/
structure ReadEntry where
  tag : Byte
  addr : Word
  len : Nat
  parts : List TransPart
  fence : Word
  pieces : List Piece
  failed : Option Failure
  cut : Bool
deriving DecidableEq, Repr

/-- The name of an accepted request of a port: a write by its sequence number, a read by its tag (R108). -/
inductive ReqRef where
  | write (seq : Word)
  | read (tag : Byte)
deriving DecidableEq, Repr

/-- The direction of a piece (R107). -/
inductive Dir where
  | read
  | write
deriving DecidableEq, Repr

/-! ## The map edit unit (spec/02) -/

/-- A member of a commit's drain set (R35). -/
structure DrainRef where
  port : Port
  ref : ReqRef
deriving DecidableEq, Repr

/-- An edit in OPEN (Table 2-1). `idle` is the limit, in ms, of the running idle timer. -/
structure OpenEdit where
  owner : Port
  base : Half
  staged : List Staged
  idle : Nat
deriving DecidableEq, Repr

/-- An edit in COMMITTING (Table 2-1), with the tag of the withheld MAP_COMMIT (R24). -/
structure CommitEdit where
  owner : Port
  departed : Bool
  base : Half
  change : List Staged
  drain : List DrainRef
  tag : Byte
deriving DecidableEq, Repr

/-- The edit record: NONE, OPEN or COMMITTING, each with the fields present in it (Table 2-1). -/
inductive Edit where
  | absent
  | opened (e : OpenEdit)
  | committing (c : CommitEdit)
deriving DecidableEq, Repr

/-! ## The lock table (spec/03, spec/04) -/

/-- The break cause of a lock (Table 3-4). -/
inductive BreakCause where
  | none
  | expired
  | yieldTimeout
  | departed
  | writeFailed
deriving DecidableEq, Repr

/-- A running lease, in ms: its duration, and what is left of it as the last reading found it (R71; log 5). -/
structure Lease where
  duration : Nat
  remaining : Nat
deriving DecidableEq, Repr

/-- A lease that starts now: all of its duration is left (R51, R57, R73). -/
def Lease.start (duration : Nat) : Lease := { duration := duration, remaining := duration }

/-- The holder fields of a HELD lock and the two timers of its grant (Table 3-1). `deadline` is the duration, in ms, of a
running yield deadline. -/
structure Holder where
  port : Port
  owner : Half
  yield : Bool
  yieldSent : Bool
  lease : Option Lease
  deadline : Option Nat
deriving DecidableEq, Repr

/-- The fields of a RELEASING lock (Table 3-1). The handoff watch is the pair (prev, watch); `tag` is that of the
LOCK_RELEASE whose response is withheld, absent when the grant ended otherwise (R57). -/
structure Releasing where
  prev : Port
  watch : Word
  tag : Option Byte
deriving DecidableEq, Repr

/-- The state of a lock with the fields present in it (Table 3-2). -/
inductive LockPhase where
  | free
  | held (h : Holder)
  | releasing (r : Releasing)
deriving DecidableEq, Repr

/-- An entry of a wait queue (Table 3-1). -/
structure WaitEntry where
  port : Port
  owner : Half
  yield : Bool
  lease : Option Nat
deriving DecidableEq, Repr

/-- A lock record (Table 3-1, R47). -/
structure LockRecord where
  phase : LockPhase
  generation : Half
  faultSeen : Bool
  cause : BreakCause
  queue : List WaitEntry
deriving DecidableEq, Repr

/-- The reset value of every lock record (R47). -/
def LockRecord.reset : LockRecord :=
  { phase := .free, generation := 0#16, faultSeen := false, cause := .none, queue := [] }

/-! ## The notification unit (spec/07) -/

/-- An entry of a notification queue (Table 7-1). -/
structure Notice where
  sender : Port
  code : Word
  seq : Byte
  delivered : Bool
deriving DecidableEq, Repr

/-- A NOTIFY of a sender that is not answered yet (log 18): a reservation in the target's queue (Table 7-2) or, once
cancelled by the target's departure, a pending answer (R134). Its watch is (sender, watched). -/
structure Note where
  target : Port
  tag : Byte
  code : Word
  watched : Word
  cancelled : Bool
deriving DecidableEq, Repr

/-! ## Events and faults (spec/08) -/

/-- An event item with its payload as raised (Table 8-2). NOTICE and FAULT read theirs when sent (R138). -/
inductive Item where
  | grant (lock : Lock) (gen owner : Half) (cause : BreakCause)
  | yield (lock : Lock) (gen : Half)
  | revoked (lock : Lock) (gen : Half) (reason : BreakCause)
  | notice
  | revision (rev : Half)
  | editExpired
  | fault
deriving DecidableEq, Repr

/-- A fault record with the fields Table 8-3 marks present for its kind and detail. -/
inductive FaultRecord where
  | postedWriteFailed (seq addr : Word) (sub : SubStatus)
  | badCheck
  | duplicateTag (tag : Byte)
  | lengthMismatch (tag : Byte)
deriving DecidableEq, Repr

/-! ## Responses (spec/10) -/

/-- The status codes (Table 10-6). -/
inductive Status where
  | ok
  | queued
  | busy
  | badArg
  | noMap
  | noRight
  | guard
  | editBusy
  | noEdit
  | stale
  | listFull
  | notHolder
  | notWaiting
  | already
  | targetFull
  | targetAbsent
  | poolError
  | locked
  | notOnline
  | departing
  | unknown
  | empty
deriving DecidableEq, Repr

/-- The names of the edit's states, as responses carry them. -/
inductive EditState where
  | none
  | opened
  | committing
deriving DecidableEq, Repr

/-- The names of a lock's states, as responses carry them. -/
inductive LockState where
  | free
  | held
  | releasing
deriving DecidableEq, Repr

/-- The snapshot a LOCK_QUERY response carries (R61). -/
structure LockInfo where
  state : LockState
  holder : Option Port
  owner : Option Half
  prev : Option Port
  gen : Half
  queue : List Port
  faultSeen : Bool
  cause : BreakCause
  remaining : Option Nat
deriving DecidableEq, Repr

/-- The body of a response, one constructor for each form of Table 10-4. -/
inductive Body where
  | empty
  | welcome (port : Port) (session : Byte) (rev : Half) (family version : Byte)
  | session (port : Port) (session : Byte)
  | left (session : Byte) (seq : Word)
  | data (bytes : List Byte)
  | poolError (sub : SubStatus)
  | written (seq : Word) (sub : Option SubStatus)
  | row (row : Row) (content : RowRecord) (rev : Half) (staged : Bool)
  | revision (rev : Half)
  | editState (state : EditState) (base : Half)
  | editBusy (owner : Port) (state : EditState) (rev : Half)
  | stagedAt (position length : Nat)
  | listLength (length : Nat)
  | granted (gen : Half) (cause : BreakCause)
  | queuedAt (position : Nat)
  | busy (state : LockState) (gen : Half) (length : Nat)
  | alreadyAt (gen : Half) (position : Nat)
  | generation (gen : Half)
  | renewed (gen : Half) (lease : Option Nat)
  | lockInfo (info : LockInfo)
  | noticeSeq (seq : Byte)
  | target (port : Port)
  | acknowledged (sender : Port) (code : Word)
  | faultTaken (record : FaultRecord) (lost : Nat)
  | noFault (lost : Nat)
  | config (item index : Byte) (value : Word)
deriving DecidableEq, Repr

/-- A response in a response queue: the kind byte of the request it answers, its tag, its status and its body. -/
structure Response where
  code : Byte
  tag : Byte
  status : Status
  body : Body
deriving DecidableEq, Repr

/-! ## Ports (spec/05, spec/09) -/

/-- A link state (Table 9-1). -/
inductive Link where
  | up
  | down
deriving DecidableEq, Repr

/-- A session state (Table 9-2). -/
inductive Session where
  | offline
  | online
  | leaving
  | closing
deriving DecidableEq, Repr

/-- A pending LEAVE: its tag and the write sequence its watch is registered on (R151, R155). -/
structure PendingLeave where
  tag : Byte
  watch : Word
deriving DecidableEq, Repr

/-- The state kept for one port: session record (Table 9-1), intake and port order unit (Table 5-1), event and fault
unit (Table 8-1), and the port's two roles in the notification unit (Table 7-3). `begun` marks a frame that may have
begun to arrive before the last room for it was used up (R152, R166; log 3); `tx` is the bytes of the frame the outbound
link was last given (log 16). -/
structure PortState where
  link : Link
  begun : Bool
  session : Session
  sessionNo : Byte
  pendingLeave : Option PendingLeave
  intake : List Request
  places : Nat
  tags : List Byte
  hold : Option Request
  respQ : List Response
  writeQ : List WriteEntry
  readL : List ReadEntry
  writeSeq : Word
  watermark : Word
  events : List Item
  subRev : Bool
  subFault : Bool
  faults : List FaultRecord
  lost : Nat
  notes : List Note
  notices : List Notice
  noticeSeq : Byte
  tx : Option (List Byte)
deriving DecidableEq, Repr

/-- The reset values of a port whose link-state signal is at the level `link` (Tables 5-1, 7-3, 8-1, 9-1). -/
def PortState.reset (link : Link) : PortState :=
  { link := link, begun := false, session := .offline, sessionNo := 0#8, pendingLeave := none, intake := [],
    places := 0, tags := [], hold := none, respQ := [], writeQ := [], readL := [], writeSeq := 0#32,
    watermark := 0#32, events := [], subRev := false, subFault := false, faults := [], lost := 0, notes := [],
    notices := [], noticeSeq := 0#8, tx := none }

/-! ## The pool bus master (spec/06) -/

/-- The record of an occupied slot (R108). `piece` is the piece's place in the request's list of pieces, counting
from 0. The access timer runs, with the limit `timeLimit`, as long as the slot is occupied. -/
structure Job where
  port : Port
  ref : ReqRef
  piece : Nat
  pool : PoolAddr
  len : Nat
  dir : Dir
  retries : Nat
  retryLimit : Nat
  timeLimit : Nat
deriving DecidableEq, Repr

/-- A slot: its issue number, kept also while it is free, and its job (R108). -/
structure Slot where
  issueNo : Byte
  job : Option Job
deriving DecidableEq, Repr

/-- An issue transfer (Table 6-3). -/
structure IssueTransfer where
  slot : SlotNo
  issueNo : Byte
  pool : PoolAddr
  len : Nat
  dir : Dir
  data : List Byte
deriving DecidableEq, Repr

/-- An abort transfer (Table 6-3). -/
structure AbortTransfer where
  slot : SlotNo
  issueNo : Byte
deriving DecidableEq, Repr

/-! ## The configuration table (spec/10) -/

/-- The global items (Table 10-7). -/
structure ConfigTable where
  leaseRequired : Bool
  leaseMax : Nat
  yieldGrace : Nat
  editIdle : Nat
  poolTime : Nat
  poolRetries : Nat
  slotQuota : Nat
deriving DecidableEq, Repr

/-- The defaults of the global items (Table 10-7, R167). -/
def ConfigTable.reset : ConfigTable :=
  { leaseRequired := false, leaseMax := 65535, yieldGrace := 0, editIdle := 250, poolTime := 64, poolRetries := 3,
    slotQuota := 4 }

/-! ## The part -/

/-- The state of the part and the queue of the commands that wait (log 1). -/
structure State where
  resetN : Bool
  powerGood : Bool
  ports : Vector PortState 4
  map : Vector RowRecord 512
  revision : Half
  edit : Edit
  locks : Vector LockRecord 32
  slots : Vector Slot 8
  rr : Port
  busIssue : Option IssueTransfer
  busAbort : Option AbortTransfer
  config : ConfigTable
  fresh : Nat
  pending : List Instr
deriving DecidableEq, Repr

/-- The machine never stops with a fault: every command has an effect in every state, and a failure is a response or a
fault record of a port. -/
inductive Fault
deriving DecidableEq, Repr

/-- Why a step has no meaning to run. -/
inductive Refusal where
  /-- Raised by an arm of exec whose command has no meaning yet; safe. No arm raises it now. -/
  | notModelled (mnemonic : String)
deriving DecidableEq, Repr

/-- The machine right after it has left device reset (R161, R162), every link-state signal DOWN (log 14), nothing on
its outputs (log 16), and no command waiting. -/
def State.reset : State :=
  { resetN := true, powerGood := true, ports := Vector.replicate 4 (PortState.reset .down),
    map := Vector.replicate 512 RowRecord.reset, revision := 0#16, edit := .absent,
    locks := Vector.replicate 32 LockRecord.reset, slots := Vector.replicate 8 { issueNo := 0#8, job := none },
    rr := 3, busIssue := none, busAbort := none, config := ConfigTable.reset, fresh := 0, pending := [] }

end Sys2Proof.Machine
end

