-- ==== Sys2Proof/Machine/Operands.lean ====
section
/-! DEFINITION. Bytes, check values and operand forms: the byte order of fields (spec/10), the check value (R163), the
request a received frame stands for (Tables 10-2 to 10-4), the frame that carries a request, and the form of a row
record (Table 10-3, R27). -/

namespace Sys2Proof.Machine

/-! ## Byte order: most significant byte first -/

/-- A two-byte field as it is sent. -/
def be16 (h : Half) : List Byte := [h.extractLsb' 8 8, h.extractLsb' 0 8]

/-- A four-byte field as it is sent. -/
def be32 (w : Word) : List Byte := [w.extractLsb' 24 8, w.extractLsb' 16 8, w.extractLsb' 8 8, w.extractLsb' 0 8]

/-- Byte n of a body; 0 past its end. -/
def byteAt (b : List Byte) (n : Nat) : Byte := b.getD n 0#8

/-- The two-byte field at byte n of a body. -/
def halfAt (b : List Byte) (n : Nat) : Half := byteAt b n ++ byteAt b (n + 1)

/-- The four-byte field at byte n of a body. -/
def wordAt (b : List Byte) (n : Nat) : Word := halfAt b n ++ halfAt b (n + 2)

/-- A yes or no field of one byte. -/
def flagByte (b : Bool) : Byte := if b then 1#8 else 0#8

/-- A count or number that fits one byte. -/
def natByte (n : Nat) : Byte := BitVec.ofNat 8 n

/-! ## The check value (R163) -/

/-- One bit enters the register. -/
def checkBit (reg : Word) (bit : Bool) : Word :=
  if reg.msb != bit then (reg <<< 1) ^^^ 0x1EDC6F41#32 else reg <<< 1

/-- The bits of one byte enter the register, least significant first. -/
def checkByte (reg : Word) (b : Byte) : Word :=
  [0, 1, 2, 3, 4, 5, 6, 7].foldl (fun r n => checkBit r (b.getLsbD n)) reg

/-- The check value over the bytes: register preset to all ones, remainder reflected, then complemented. -/
def checkValue (bytes : List Byte) : Word := ~~~ (bytes.foldl checkByte 0xFFFFFFFF#32).reverse

/-- The header and the body of a frame, the bytes its check value covers (Table 10-1). -/
def Frame.covered (f : Frame) : List Byte :=
  [f.kind, f.tag, f.status, f.flags] ++ be16 (BitVec.ofNat 16 f.body.length) ++ be16 f.spare ++ f.body

/-- The bytes of a frame on its link: header, body, and the check value, most significant byte first (R163). -/
def Frame.wire (f : Frame) : List Byte := f.covered ++ be32 f.check

/-- The frame that a string of bytes spells: as many bytes of body as the header says, then the four bytes of the check
value (Table 10-1, R163, R165); none when the string ends before the frame does or goes on after it. -/
def Frame.ofWire (bytes : List Byte) : Option Frame :=
  let n := (halfAt bytes 4).toNat
  if bytes.length = 12 + n then
    some { kind := byteAt bytes 0, tag := byteAt bytes 1, status := byteAt bytes 2, flags := byteAt bytes 3,
           spare := halfAt bytes 6, body := (bytes.drop 8).take n, check := wordAt bytes (8 + n) }
  else none

/-- The received check value equals the computed one (R165, check 1). -/
def Frame.checkOk (f : Frame) : Bool := checkValue f.covered == f.check

/-- The frame with this header and body and its check value. -/
def Frame.make (kind tag status flags : Byte) (body : List Byte) : Frame :=
  let f : Frame := { kind, tag, status, flags, spare := 0#16, body, check := 0#32 }
  { f with check := checkValue f.covered }

/-! ## Request kinds (Table 10-4) -/

/-- The kind byte of a request. -/
def ReqOp.code : ReqOp → Byte
  | .hello .. => 0x01#8
  | .leave => 0x02#8
  | .read .. => 0x03#8
  | .write .. => 0x04#8
  | .mapRead .. => 0x10#8
  | .mapOpen .. => 0x11#8
  | .mapStage .. => 0x12#8
  | .mapUnstage .. => 0x13#8
  | .mapAbort => 0x14#8
  | .mapCommit => 0x15#8
  | .lockAcquire .. => 0x20#8
  | .lockRelease .. => 0x21#8
  | .lockRenew .. => 0x22#8
  | .lockCancel .. => 0x23#8
  | .lockQuery .. => 0x24#8
  | .notify .. => 0x30#8
  | .noticeAck .. => 0x31#8
  | .faultTake => 0x38#8
  | .configRead .. => 0x3C#8
  | .configWrite .. => 0x3D#8

/-- The body length Table 10-4 gives for a kind, with the body received; none for a kind that is no request kind. A
WRITE body shorter than 8 bytes has no length field, and 8 is more than its length. -/
def requiredLength (kind : Byte) (body : List Byte) : Option Nat :=
  if kind = 0x04#8 then some (if body.length < 8 then 8 else 8 + (halfAt body 4).toNat)
  else if kind = 0x02#8 ∨ kind = 0x14#8 ∨ kind = 0x15#8 ∨ kind = 0x38#8 then some 0
  else if kind = 0x01#8 ∨ kind = 0x10#8 ∨ kind = 0x11#8 ∨ kind = 0x13#8 ∨ kind = 0x21#8 ∨ kind = 0x23#8 ∨ kind = 0x24#8
      ∨ kind = 0x31#8 ∨ kind = 0x3C#8 then some 4
  else if kind = 0x03#8 ∨ kind = 0x20#8 ∨ kind = 0x22#8 ∨ kind = 0x30#8 ∨ kind = 0x3D#8 then some 8
  else if kind = 0x12#8 then some 12
  else none

/-- The optional field that flags bit 0 marks present (R164). -/
def optionalField (flags : Byte) (h : Half) : Option Half := if flags.getLsbD 0 then some h else none

/-- The row record a MAP_STAGE body carries (Table 10-3). -/
def rowFields (b : List Byte) : RawRow :=
  { row := halfAt b 0, valid := (byteAt b 2).getLsbD 0, cls := byteAt b 3, frame := wordAt b 4, rights := byteAt b 8,
    posting := (byteAt b 9).getLsbD 0, guard := byteAt b 10 }

/-- The request kind and fields a body stands for, its kind and length already checked. Fields stand in the order
Table 10-4 names them, padding comes last (log 13). -/
def requestFields (kind flags : Byte) (b : List Byte) : ReqOp :=
  if kind = 0x01#8 then .hello (byteAt b 0) (byteAt b 1)
  else if kind = 0x02#8 then .leave
  else if kind = 0x03#8 then .read (wordAt b 0) (halfAt b 4)
  else if kind = 0x04#8 then .write (wordAt b 0) (halfAt b 4) (b.drop 8)
  else if kind = 0x10#8 then .mapRead (halfAt b 0) (byteAt b 2)
  else if kind = 0x11#8 then .mapOpen (optionalField flags (halfAt b 0))
  else if kind = 0x12#8 then .mapStage (rowFields b)
  else if kind = 0x13#8 then .mapUnstage (halfAt b 0)
  else if kind = 0x14#8 then .mapAbort
  else if kind = 0x15#8 then .mapCommit
  else if kind = 0x20#8 then
    .lockAcquire (byteAt b 0) ((byteAt b 1).getLsbD 0) ((byteAt b 1).getLsbD 1) (halfAt b 2)
      (optionalField flags (halfAt b 4))
  else if kind = 0x21#8 then .lockRelease (byteAt b 0) (halfAt b 1)
  else if kind = 0x22#8 then .lockRenew (byteAt b 0) (halfAt b 1) (optionalField flags (halfAt b 3))
  else if kind = 0x23#8 then .lockCancel (byteAt b 0)
  else if kind = 0x24#8 then .lockQuery (byteAt b 0)
  else if kind = 0x30#8 then .notify (byteAt b 0) (wordAt b 1)
  else if kind = 0x31#8 then .noticeAck (halfAt b 0)
  else if kind = 0x38#8 then .faultTake
  else if kind = 0x3C#8 then .configRead (byteAt b 0) (byteAt b 1)
  else .configWrite (byteAt b 0) (byteAt b 1) (wordAt b 2)

/-- What the receipt checks decide on a frame (R165). -/
inductive Receipt where
  | badCheck
  | unknownKind
  | badLength
  | request (r : Request)
deriving DecidableEq, Repr

/-- The receipt checks, in order: check value, kind, body length (R165). -/
def Frame.receipt (f : Frame) : Receipt :=
  if !f.checkOk then .badCheck
  else
    match requiredLength f.kind f.body with
    | none => .unknownKind
    | some n =>
      if f.body.length = n ∧ f.body.length ≤ Config.bodyRoom then
        .request { tag := f.tag, op := requestFields f.kind f.flags f.body }
      else .badLength

/-! ## The frame that carries a request -/

/-- The bytes of an optional two-byte field; zeros when it is absent. -/
def optionalBytes (h : Option Half) : List Byte := be16 (h.getD 0#16)

/-- The body that carries a request's fields (Tables 10-2 to 10-4), padding 0. -/
def ReqOp.bodyBytes : ReqOp → List Byte
  | .hello r f => [r, f, 0#8, 0#8]
  | .leave => []
  | .read a l => be32 a ++ be16 l ++ [0#8, 0#8]
  | .write a l d => be32 a ++ be16 l ++ [0#8, 0#8] ++ d
  | .mapRead row view => be16 row ++ [view, 0#8]
  | .mapOpen e => optionalBytes e ++ [0#8, 0#8]
  | .mapStage r =>
    be16 r.row ++ [flagByte r.valid, r.cls] ++ be32 r.frame ++ [r.rights, flagByte r.posting, r.guard, 0#8]
  | .mapUnstage row => be16 row ++ [0#8, 0#8]
  | .mapAbort => []
  | .mapCommit => []
  | .lockAcquire k w y o l =>
    [k, flagByte w ||| (flagByte y <<< 1)] ++ be16 o ++ optionalBytes l ++ [0#8, 0#8]
  | .lockRelease k g => [k] ++ be16 g ++ [0#8]
  | .lockRenew k g l => [k] ++ be16 g ++ optionalBytes l ++ [0#8, 0#8, 0#8]
  | .lockCancel k => [k, 0#8, 0#8, 0#8]
  | .lockQuery k => [k, 0#8, 0#8, 0#8]
  | .notify t c => [t] ++ be32 c ++ [0#8, 0#8, 0#8]
  | .noticeAck q => be16 q ++ [0#8, 0#8]
  | .faultTake => []
  | .configRead n x => [n, x, 0#8, 0#8]
  | .configWrite n x v => [n, x] ++ be32 v ++ [0#8, 0#8]

/-- Flags bit 0 of a request: its kind's optional field is present (R164). -/
def ReqOp.optionalPresent : ReqOp → Bool
  | .mapOpen e => e.isSome
  | .lockAcquire _ _ _ _ l => l.isSome
  | .lockRenew _ _ l => l.isSome
  | _ => false

/-- The frame a host sends for a request. -/
def Request.frame (r : Request) : Frame :=
  Frame.make r.op.code r.tag 0#8 (flagByte r.op.optionalPresent) r.op.bodyBytes

/-- A request as a frame can carry it: a WRITE has as many bytes of data as its length field says, at most 256. -/
def Request.carriable (r : Request) : Bool :=
  match r.op with
  | .write _ l d => d.length == l.toNat && l.toNat ≤ Config.maxLength
  | _ => true

/-! ## Row records (Table 10-3) -/

/-- A rights entry: 0 NONE, 1 READ, 2 READ_WRITE, 3 ill formed. -/
def rightOf (b : BitVec 2) : Option Right :=
  if b = 0#2 then some .none else if b = 1#2 then some .read else if b = 2#2 then some .readWrite else none

/-- The code of a rights entry. -/
def Right.code : Right → BitVec 2
  | .none => 0#2
  | .read => 1#2
  | .readWrite => 2#2

/-- The four rights entries of a rights byte: two bits per port, port 0 in bits 1 and 0. -/
def rightsOf (b : Byte) : Option (Vector Right 4) :=
  match rightOf (b.extractLsb' 0 2), rightOf (b.extractLsb' 2 2), rightOf (b.extractLsb' 4 2),
    rightOf (b.extractLsb' 6 2) with
  | some r0, some r1, some r2, some r3 => some #v[r0, r1, r2, r3]
  | _, _, _, _ => none

/-- The rights byte of a row record. -/
def rightsByte (v : Vector Right 4) : Byte :=
  (v.get 3).code ++ (v.get 2).code ++ (v.get 1).code ++ (v.get 0).code

/-- A class byte: 0 MEMORY, 1 DEVICE, others ill formed. -/
def classOf (b : Byte) : Option RowClass := if b = 0#8 then some .memory else if b = 1#8 then some .device else none

/-- The class byte of a row record. -/
def RowClass.code : RowClass → Byte
  | .memory => 0#8
  | .device => 1#8

/-- A guard byte: 0xFF absent, 1 to 31 a lock, others ill formed. The outer option is none for an ill formed byte. -/
def guardOf (b : Byte) : Option (Option Lock) :=
  if b = 0xFF#8 then some none
  else if h : b.toNat < 32 then if b = 0#8 then none else some (some ⟨b.toNat, h⟩)
  else none

/-- The guard byte of a row record. -/
def guardByte : Option Lock → Byte
  | none => 0xFF#8
  | some k => natByte k.val

/-- The row of a row field, absent for 512 and more. -/
def rowOf (h : Half) : Option Row := if hr : h.toNat < 512 then some ⟨h.toNat, hr⟩ else none

/-- The staged entry a MAP_STAGE carries; none when the row or the content is ill formed (R27, check 3). -/
def RawRow.wellFormed (r : RawRow) : Option Staged :=
  match rowOf r.row, classOf r.cls, rightsOf r.rights, guardOf r.guard with
  | some row, some cls, some rights, some guard =>
    if r.frame.toNat ≤ 262143 ∧ ¬ (cls = .device ∧ r.posting = true) then
      some { row := row, content :=
        { valid := r.valid, frame := r.frame.setWidth 18, cls := cls, rights := rights, posting := r.posting,
          guard := guard } }
    else none
  | _, _, _, _ => none

end Sys2Proof.Machine
end

