-- ==== Sys2Proof/Machine/Frames.lean ====
section
/-! DEFINITION. The frames the part sends: the code of every status, state and cause, the body bytes of every response
and event (Tables 10-3 to 10-6), and the frame formed from them (R163, R164). Where the manual states no width for a
field of a response or of the FAULT event, log 11 and log 12 name the width taken. -/

namespace Sys2Proof.Machine

/-- The value of a status code (Table 10-6). -/
def Status.code : Status → Byte
  | .ok => 0x00#8
  | .queued => 0x01#8
  | .busy => 0x02#8
  | .badArg => 0x03#8
  | .noMap => 0x04#8
  | .noRight => 0x05#8
  | .guard => 0x06#8
  | .editBusy => 0x07#8
  | .noEdit => 0x08#8
  | .stale => 0x09#8
  | .listFull => 0x0A#8
  | .notHolder => 0x0B#8
  | .notWaiting => 0x0C#8
  | .already => 0x0D#8
  | .targetFull => 0x0E#8
  | .targetAbsent => 0x0F#8
  | .poolError => 0x10#8
  | .locked => 0x11#8
  | .notOnline => 0x12#8
  | .departing => 0x13#8
  | .unknown => 0x14#8
  | .empty => 0x15#8

/-- The value of a pool sub-status (spec/10, FAULT_TAKE body). -/
def SubStatus.code : SubStatus → Byte
  | .targetError => 1#8
  | .timeout => 2#8
  | .retryExhausted => 3#8

/-- The value of a break cause (spec/10, GRANT body). -/
def BreakCause.code : BreakCause → Byte
  | .none => 0#8
  | .expired => 1#8
  | .yieldTimeout => 2#8
  | .departed => 3#8
  | .writeFailed => 4#8

/-- The value of an edit state (spec/10, 10.3). -/
def EditState.code : EditState → Byte
  | .none => 0#8
  | .opened => 1#8
  | .committing => 2#8

/-- The value of a lock state (spec/10, 10.3). -/
def LockState.code : LockState → Byte
  | .free => 0#8
  | .held => 1#8
  | .releasing => 2#8

/-- A port number as sent. -/
def portByte (p : Port) : Byte := natByte p.val

/-- A port field the record may lack, sent as 0xFF then (spec/10, 10.3). -/
def portByteOr (p : Option Port) : Byte := (p.map portByte).getD 0xFF#8

/-- A row record as MAP_READ carries it (Table 10-3). -/
def rowBytes (row : Row) (c : RowRecord) : List Byte :=
  be16 (BitVec.ofNat 16 row.val) ++ [flagByte c.valid, c.cls.code] ++ be32 (c.frame.setWidth 32) ++
    [rightsByte c.rights, flagByte c.posting, guardByte c.guard, 0#8]

/-- A fault record and the lost count as the OK of FAULT_TAKE carries them; absent fields are 0 (spec/10, 10.3). -/
def faultBytes (r : FaultRecord) (lost : Nat) : List Byte :=
  (match r with
    | .postedWriteFailed seq addr sub => [1#8, 0#8, 0#8, sub.code] ++ be32 seq ++ be32 addr
    | .badCheck => [2#8, 1#8, 0#8, 0#8] ++ be32 0#32 ++ be32 0#32
    | .duplicateTag tag => [2#8, 2#8, tag, 0#8] ++ be32 0#32 ++ be32 0#32
    | .lengthMismatch tag => [2#8, 3#8, tag, 0#8] ++ be32 0#32 ++ be32 0#32)
    ++ [natByte lost, 0#8, 0#8, 0#8]

/-- The body of a LOCK_QUERY response: a field the record lacks is sent as 0xFF, and so is a queue port past the queue
(spec/10, 10.3). The manual gives no values for fault-seen's byte: 1 for yes and 0 for no is the model's choice (log 30). -/
def LockInfo.bytes (i : LockInfo) : List Byte :=
  [i.state.code, portByteOr i.holder] ++ ((i.owner.map be16).getD [0xFF#8, 0xFF#8]) ++ [portByteOr i.prev] ++ be16 i.gen
    ++ [natByte i.queue.length, portByteOr i.queue[0]?, portByteOr i.queue[1]?, portByteOr i.queue[2]?,
      portByteOr i.queue[3]?, flagByte i.faultSeen, i.cause.code]
    ++ ((i.remaining.map (fun d => be16 (BitVec.ofNat 16 d))).getD [0xFF#8, 0xFF#8])

/-- The bytes of a response body, its fields in the order Table 10-4 names them. -/
def Body.bytes : Body → List Byte
  | .empty => []
  | .welcome p n rev f v => [portByte p, n] ++ be16 rev ++ [f, v]
  | .session p n => [portByte p, n]
  | .left n seq => [n] ++ be32 seq
  | .data bs => bs
  | .poolError sub => [sub.code]
  | .written seq sub => be32 seq ++ [(sub.map SubStatus.code).getD 0#8]
  | .row idx c rev staged => rowBytes idx c ++ be16 rev ++ [flagByte staged]
  | .revision rev => be16 rev
  | .editState st base => [st.code] ++ be16 base
  | .editBusy p st rev => [portByte p, st.code] ++ be16 rev
  | .stagedAt pos len => [natByte pos, natByte len]
  | .listLength len => [natByte len]
  | .granted gen cause => be16 gen ++ [cause.code]
  | .queuedAt pos => [natByte pos]
  | .busy st gen len => [st.code] ++ be16 gen ++ [natByte len]
  | .alreadyAt gen pos => be16 gen ++ [natByte pos]
  | .generation gen => be16 gen
  | .renewed gen lease => be16 gen ++ be16 (BitVec.ofNat 16 (lease.getD 0))
  | .lockInfo i => i.bytes
  | .noticeSeq n => [n]
  | .target p => [portByte p]
  | .acknowledged p code => [portByte p] ++ be32 code
  | .faultTaken r lost => faultBytes r lost
  | .noFault lost => [natByte lost, 0#8, 0#8, 0#8]
  | .config item index value => [item, index] ++ be32 value

/-- Flags bit 0 of a response: the two optional fields of R164. -/
def Body.optionalPresent : Body → Bool
  | .renewed _ lease => lease.isSome
  | .lockInfo i => i.remaining.isSome
  | _ => false

/-- The frame of a response: kind byte with bit 7 set, the request's tag, the status (Table 10-1, R164, R165). -/
def Response.frame (r : Response) : Frame :=
  Frame.make (r.code ||| 0x80#8) r.tag r.status.code (flagByte r.body.optionalPresent) r.body.bytes

/-- The kind byte of an event (Table 10-5). -/
def Item.code : Item → Byte
  | .grant .. => 0xC0#8
  | .yield .. => 0xC1#8
  | .revoked .. => 0xC2#8
  | .notice => 0xC3#8
  | .revision .. => 0xC4#8
  | .editExpired => 0xC5#8
  | .fault => 0xC6#8

/-- The body of an event whose payload is fixed when it is raised; NOTICE and FAULT are formed when sent. Table 10-5 gives
YIELD and REVISION a body of 4 bytes, longer than their fields: that the zeros stand behind them is the model's choice
(log 31). -/
def Item.bytes : Item → List Byte
  | .grant k gen owner cause => [natByte k.val, cause.code] ++ be16 gen ++ be16 owner ++ [0#8, 0#8]
  | .yield k gen => [natByte k.val] ++ be16 gen ++ [0#8]
  | .revoked k gen reason => [natByte k.val, reason.code] ++ be16 gen
  | .notice => []
  | .revision rev => be16 rev ++ [0#8, 0#8]
  | .editExpired => []
  | .fault => []

/-- The frame of an event: tag 0xFF, status and flags 0 (Table 10-1). -/
def eventFrame (code : Byte) (body : List Byte) : Frame := Frame.make code 0xFF#8 0#8 0#8 body

/-- The body of a NOTICE event (spec/10, 10.3). -/
def Notice.bytes (n : Notice) : List Byte := [portByte n.sender, n.seq, 0#8, 0#8] ++ be32 n.code

/-- The body of a FAULT event: records held and lost count, in the 4 bytes Table 10-5 gives it. The manual states no width
for the two: one byte each, then two zero bytes, is the model's choice (log 11). -/
def faultCounts (held lost : Nat) : List Byte := [natByte held, natByte lost, 0#8, 0#8]

end Sys2Proof.Machine
end

