-- ==== Sys2Proof/Machine/Flags.lean ====
section
/-! DEFINITION. The event set, the subscription flags and the fault list of one port: raising and withdrawing items
(R137 to R140), handing over a fault record (R146, R147), changing a subscription (R144), and clearing at OFFLINE
(R150). -/

namespace Sys2Proof.Machine

/-- The key of an item: its kind and, for the lock kinds, its lock (R137). -/
inductive ItemKey where
  | grant (lock : Lock)
  | yield (lock : Lock)
  | revoked (lock : Lock)
  | notice
  | revision
  | editExpired
  | fault
deriving DecidableEq, Repr

/-- The key of an item (R137). -/
def Item.key : Item → ItemKey
  | .grant k .. => .grant k
  | .yield k _ => .yield k
  | .revoked k .. => .revoked k
  | .notice => .notice
  | .revision _ => .revision
  | .editExpired => .editExpired
  | .fault => .fault

/-- Two items have the same key (R137). -/
def Item.sameKey (a b : Item) : Bool := a.key == b.key

/-- The port is in contact with its host: ONLINE or LEAVING. -/
def PortState.inContact (P : PortState) : Bool := P.session == .online || P.session == .leaving

/-- The port's subscriptions let an item of this kind be raised (R139, step 2). -/
def Item.wanted (P : PortState) : Item → Bool
  | .revision _ => P.subRev
  | .fault => P.subFault
  | .grant .. | .yield .. | .revoked .. | .notice | .editExpired => true

/-- An item enters an event set: in place of the item with its key, else at the end (R139, steps 3 and 4). -/
def raiseInto (it : Item) (events : List Item) : List Item :=
  if events.any it.sameKey then events.map (fun e => if it.sameKey e then it else e) else events ++ [it]

/-- A raise (R139). -/
def PortState.raise (it : Item) (P : PortState) : PortState :=
  if P.inContact && it.wanted P then { P with events := raiseInto it P.events } else P

/-- A withdrawal (R140). -/
def PortState.withdraw (it : Item) (P : PortState) : PortState :=
  { P with events := P.events.filter (fun e => !it.sameKey e) }

/-- A record enters the fault list, or is counted as lost when the list is full (R146, steps 2 and 3). -/
def PortState.keepRecord (r : FaultRecord) (P : PortState) : PortState :=
  if P.faults.length < Config.faultRoom then { P with faults := P.faults ++ [r] }
  else { P with lost := if P.lost < 255 then P.lost + 1 else P.lost }

/-- A fault record is handed to the port's fault list, and the FAULT item raised (R146, R147). -/
def PortState.record (r : FaultRecord) (P : PortState) : PortState :=
  if P.inContact then (P.keepRecord r).raise .fault else P

/-- The oldest fault record is taken and the lost count reset; a FAULT item with nothing left to report is withdrawn
(R148). -/
def PortState.takeFault (P : PortState) : PortState :=
  let Q := { P with faults := P.faults.tail, lost := 0 }
  if Q.faults.isEmpty then Q.withdraw .fault else Q

/-- The REVISION flag takes a value; a pending REVISION item is withdrawn when it goes from yes to no (R144). -/
def PortState.setSubRev (v : Bool) (P : PortState) : PortState :=
  if P.subRev && !v then ({ P with subRev := v }).withdraw (.revision 0#16) else { P with subRev := v }

/-- The FAULT flag takes a value; a FAULT item is raised when it goes from no to yes and there is something to report,
and withdrawn when it goes from yes to no (R144). -/
def PortState.setSubFault (v : Bool) (P : PortState) : PortState :=
  let Q := { P with subFault := v }
  if !P.subFault && v && (!P.faults.isEmpty || 0 < P.lost) then Q.raise .fault
  else if P.subFault && !v then Q.withdraw .fault
  else Q

/-- The port becomes OFFLINE: event set, fault list, lost count and subscriptions are cleared (R150, R157, R159). -/
def PortState.goOffline (P : PortState) : PortState :=
  { P with session := .offline, events := [], faults := [], lost := 0, subRev := false, subFault := false }

end Sys2Proof.Machine
end

