-- ==== Sys2Proof/Machine/Ops.lean ====
section
/-! DEFINITION. The named operations over the state that every family of commands uses: reading and writing the records,
response places and responses (R91, R92), the intake and its stalls (R86 to R88), the session check and the tag check
(R86, R90), the comparison of write sequences (R97), and the free orders inside one event (log 6). -/

namespace Sys2Proof.Machine

/-! ## Records -/

/-- The four ports, in number order. -/
def allPorts : List Port := [0, 1, 2, 3]

/-- The 32 locks, in number order. -/
def allLocks : List Lock :=
  [0, 1, 2, 3, 4, 5, 6, 7, 8, 9, 10, 11, 12, 13, 14, 15] ++ [16, 17, 18, 19, 20, 21, 22, 23, 24, 25, 26, 27, 28, 29, 30, 31]

/-- The 8 slots, in number order. -/
def allSlots : List SlotNo := [0, 1, 2, 3, 4, 5, 6, 7]

/-- The part is not held in device reset (R161, R172). -/
def State.running (s : State) : Bool := s.resetN && s.powerGood

def State.port (s : State) (p : Port) : PortState := s.ports.get p

def State.setPort (s : State) (p : Port) (P : PortState) : State := { s with ports := s.ports.set p.val P p.isLt }

/-- A change of one port's record. -/
def State.onPort (s : State) (p : Port) (f : PortState → PortState) : State := s.setPort p (f (s.port p))

def State.row (s : State) (r : Row) : RowRecord := s.map.get r

def State.setRow (s : State) (r : Row) (c : RowRecord) : State := { s with map := s.map.set r.val c r.isLt }

def State.lock (s : State) (k : Lock) : LockRecord := s.locks.get k

def State.setLock (s : State) (k : Lock) (l : LockRecord) : State := { s with locks := s.locks.set k.val l k.isLt }

def State.slot (s : State) (n : SlotNo) : Slot := s.slots.get n

def State.setSlot (s : State) (n : SlotNo) (x : Slot) : State := { s with slots := s.slots.set n.val x n.isLt }

/-- A raise of an item for a port (R139). -/
def State.raise (s : State) (p : Port) (it : Item) : State := s.onPort p (·.raise it)

/-! ## Write sequences -/

/-- A watermark reaches a sequence: it equals it, or the sequence is one of the 2147483647 numbers before it (R97). -/
def watermarkReaches (w seq : Word) : Bool := (w - seq).toNat < 2147483648

/-! ## Responses -/

/-- A response is queued that frees no tag: its request has not been through the tag check, or its tag is above 31, or
it refuses a frame at receipt (R90, R165). -/
def PortState.answer (r : Response) (P : PortState) : PortState := { P with respQ := P.respQ ++ [r] }

/-- The response of a request whose tag is in the table is queued, and the tag leaves the table (R91). -/
def PortState.respond (r : Response) (P : PortState) : PortState :=
  { P with respQ := P.respQ ++ [r], tags := P.tags.filter (fun t => t != r.tag) }

/-- The response to a request, with this status and body (Table 10-1). -/
def Request.response (r : Request) (status : Status) (body : Body) : Response :=
  { code := r.op.code, tag := r.tag, status := status, body := body }

def State.respond (s : State) (p : Port) (r : Response) : State := s.onPort p (·.respond r)

/-- A withheld response comes due: it is queued to a port that is ONLINE or LEAVING and dropped otherwise (R59, R120,
R128, R134). -/
def State.respondDue (s : State) (p : Port) (r : Response) : State :=
  if (s.port p).inContact then s.respond p r else s

/-! ## The intake -/

/-- The request is a READ. -/
def ReqOp.isRead : ReqOp → Bool
  | .read .. => true
  | _ => false

/-- The request is a WRITE. -/
def ReqOp.isWrite : ReqOp → Bool
  | .write .. => true
  | _ => false

/-- A stall condition of R88 holds for this request at the head of the intake queue. -/
def PortState.stalled (P : PortState) (op : ReqOp) : Bool :=
  (op.isWrite && Config.writeRoom ≤ P.writeQ.length) || (op.isRead && Config.readRoom ≤ P.readL.length) ||
    P.hold.isSome || Config.responsePlaces ≤ P.places

/-- The request stands at the head of the port's intake queue, and the intake takes it now (R86, R88). -/
def State.takes (s : State) (p : Port) (r : Request) : Bool :=
  s.running && (s.port p).intake.head? == some r && !(s.port p).stalled r.op

/-- There is room for a frame to begin to arrive: the intake queue holds fewer than 8 and a response place is free (R87,
R166). -/
def PortState.hasRoom (P : PortState) : Bool :=
  P.intake.length < Config.intakeRoom && P.places < Config.responsePlaces

/-- The head of the intake queue is removed and a response place taken (R86, R92). A frame may have begun to arrive while
that place was free (R166; log 3). -/
def PortState.takeHead (P : PortState) : PortState :=
  { P with intake := P.intake.tail, places := P.places + 1, begun := P.begun || P.hasRoom }

/-- The request at the head of a port's intake queue is taken (R86). -/
def State.taken (s : State) (p : Port) : State := s.onPort p (·.takeHead)

/-- The tag check (R90): a tag above 31 is refused; a tag already outstanding gives a fault record and the request has
no other effect; otherwise the tag is entered and the request goes on to `go`. -/
def State.tagCheck (s : State) (p : Port) (r : Request) (go : State → State) : State :=
  if 31 < r.tag.toNat then s.onPort p (·.answer (r.response .badArg .empty))
  else if r.tag ∈ (s.port p).tags then
    s.onPort p (fun P => ({ P with places := P.places - 1 }).record (.duplicateTag r.tag))
  else go (s.onPort p (fun P => { P with tags := P.tags ++ [r.tag] }))

/-- The session check of every request but HELLO, then the tag check (R8, R21, R24, R49, R126, R131, R148, R155, R168,
R169). -/
def State.sessionCheck (s : State) (p : Port) (r : Request) (go : State → State) : State :=
  match (s.port p).session with
  | .offline | .closing => s.onPort p (·.answer (r.response .notOnline .empty))
  | .leaving => s.onPort p (·.answer (r.response .departing .empty))
  | .online => s.tagCheck p r go

/-- A request command: the request is taken if it stands at the head of the intake queue and no stall holds, and goes
through its session and tag checks to `go`; otherwise nothing happens (log 2). -/
def State.request (s : State) (p : Port) (r : Request) (go : State → State) : State :=
  if s.takes p r then (s.taken p).sessionCheck p r go else s

/-! ## Free orders -/

/-- The list in an order the free choices from the n-th on give (log 6): a list of one or none is left as it is. -/
def arrange {α : Type} : Nat → Nat → List α → List α
  | 0, _, l => l
  | fuel + 1, n, l =>
    match l with
    | [] => []
    | [x] => [x]
    | x :: y :: rest =>
      let k := Config.choice n % (x :: y :: rest).length
      ((x :: y :: rest)[k]?).toList ++ arrange fuel (n + 1) ((x :: y :: rest).eraseIdx k)

/-- The list in a free order, and the state with that many free choices used up. -/
def State.arranged {α : Type} (s : State) (l : List α) : List α × State :=
  (arrange l.length s.fresh l, { s with fresh := s.fresh + l.length })

end Sys2Proof.Machine
end

