-- ==== Sys2Proof/Machine/Acceptance.lean ====
section
/-! DEFINITION. The acceptance of a READ or WRITE: touched rows (R1, R10), checks 3 to 7 with the hold test (R10 to R15),
translation (R2, R6, R20), the cut into pieces (R106, R107), the posted decision (R18), and the entry into the port order
unit (R17, R93 to R95). Accepting is one shared operation: a request taken from the intake and a held request taken again
at a commit's completion go through it alike (R11, R41). -/

namespace Sys2Proof.Machine

/-! ## Rows and translation -/

/-- The row of a shared-view address (R1). -/
def rowIndex (a : Nat) : Row := Fin.ofNat 512 (a / Config.rowSize)

/-- The rows a request of length `len` at `a` touches, one or two (R10). -/
def touchedRows (a len : Nat) : List Row :=
  if rowIndex a = rowIndex (a + len - 1) then [rowIndex a] else [rowIndex a, rowIndex (a + len - 1)]

/-- The pool address of the byte at shared-view address `a` through a row with this frame (R2). -/
def poolAddress (frame : BitVec 18) (a : Nat) : PoolAddr :=
  BitVec.ofNat 40 (frame.toNat * Config.rowSize + a % Config.rowSize)

/-- The translation part of the request in one touched row (R6, R20). -/
def State.transPart (s : State) (a len : Nat) (r : Row) : TransPart :=
  let first := max a (r.val * Config.rowSize)
  let last := min (a + len - 1) (r.val * Config.rowSize + (Config.rowSize - 1))
  { row := r, start := BitVec.ofNat 32 first, len := last + 1 - first, pool := poolAddress (s.row r).frame first,
    cls := (s.row r).cls, posting := (s.row r).posting }

/-- The translation of a request: one part for each touched row, in address order (R6). -/
def State.translate (s : State) (a len : Nat) : List TransPart := (touchedRows a len).map (s.transPart a len)

/-! ## Pieces -/

/-- The cut at 64-byte block boundaries: the address, length and position of each piece (R106). A DEVICE request lies in
one block and gives one piece. -/
def cutAt : Nat → Nat → Nat → Nat → List (Nat × Nat × Nat)
  | 0, _, _, _ => []
  | fuel + 1, a, len, pos =>
    if len = 0 then []
    else
      let n := min len (64 - a % 64)
      (a, n, pos) :: cutAt fuel (a + n) (len - n) (pos + n)

/-- The pool address of a shared-view address through the part that holds it (R107). -/
def partAddress (parts : List TransPart) (a : Nat) : PoolAddr :=
  match parts.find? (fun t => t.start.toNat ≤ a && a < t.start.toNat + t.len) with
  | some t => t.pool + BitVec.ofNat 40 (a - t.start.toNat)
  | none => 0#40

/-- The pieces of a request, unissued (R106, R107). -/
def makePieces (parts : List TransPart) (a len : Nat) : List Piece :=
  (cutAt (len + 1) a len 0).map fun (at', n, pos) =>
    { addr := BitVec.ofNat 32 at', pool := partAddress parts at', len := n, pos := pos, cond := .unissued, data := [] }

/-! ## The checks -/

/-- A port holds a lock (R48). -/
def State.holds (s : State) (p : Port) (k : Lock) : Bool :=
  match (s.lock k).phase with
  | .held h => h.port == p
  | _ => false

/-- A row is in the change set of a commit in progress (R11). -/
def Edit.changes (e : Edit) (r : Row) : Bool :=
  match e with
  | .committing c => c.change.any (fun x => x.row == r)
  | _ => false

/-- The distinct guard locks of the touched rows (R15). -/
def State.guardLocks (s : State) (rows : List Row) : List Lock :=
  (rows.filterMap (fun r => (s.row r).guard)).eraseDups

/-- Check 3: length 1 to 256 and the whole range inside the shared view (R10). -/
def rangeOk (a len : Nat) : Bool := 1 ≤ len && len ≤ Config.maxLength && a ≤ Config.viewTop && a + len - 1 ≤ Config.viewTop

/-- Check 5: the touched rows agree in class; a DEVICE access has length 1, 2, 4 or 8 and is aligned (R13). -/
def State.classOk (s : State) (rows : List Row) (a len : Nat) : Bool :=
  if rows.all (fun r => (s.row r).cls == .memory) then true
  else if rows.all (fun r => (s.row r).cls == .device) then
    (len == 1 || len == 2 || len == 4 || len == 8) && a % len == 0
  else false

/-- The port's rights entry in a row permits the access (R14). -/
def RowRecord.permits (c : RowRecord) (p : Port) (isWrite : Bool) : Bool :=
  match c.rights.get p with
  | .none => false
  | .read => !isWrite
  | .readWrite => true

/-- What acceptance checks 3 to 7 and the hold test decide (Table 1-3). -/
inductive Verdict where
  | refuse (status : Status)
  | hold
  | accept
deriving DecidableEq, Repr

/-- Acceptance checks 3 to 7 and the hold test, in order (Table 1-3, R7). -/
def State.judge (s : State) (p : Port) (isWrite : Bool) (a len : Nat) : Verdict :=
  let rows := touchedRows a len
  if !rangeOk a len then .refuse .badArg
  else if rows.any s.edit.changes then .hold
  else if !rows.all (fun r => (s.row r).valid) then .refuse .noMap
  else if !s.classOk rows a len then .refuse .badArg
  else if !rows.all (fun r => (s.row r).permits p isWrite) then .refuse .noRight
  else if isWrite && !(s.guardLocks rows).all (s.holds p) then .refuse .guard
  else .accept

/-! ## Entering the port order unit -/

/-- A write is posted when every touched row is MEMORY with posting yes (R18). -/
def State.postedWrite (s : State) (rows : List Row) : Bool :=
  rows.all (fun r => (s.row r).cls == .memory && (s.row r).posting)

/-- The read list entry of an accepted READ; its fence is the port's current write sequence (R95). -/
def State.readEntry (s : State) (p : Port) (tag : Byte) (addr : Word) (len : Nat) : ReadEntry :=
  { tag := tag, addr := addr, len := len, parts := s.translate addr.toNat len, fence := (s.port p).writeSeq,
    pieces := makePieces (s.translate addr.toNat len) addr.toNat len, failed := none, cut := false }

/-- The write queue entry of an accepted WRITE; it takes the next write sequence number (R93, R94). -/
def State.writeEntry (s : State) (p : Port) (tag : Byte) (addr : Word) (len : Nat) (data : List Byte) : WriteEntry :=
  { seq := (s.port p).writeSeq + 1, tag := tag, addr := addr, len := len, data := data,
    parts := s.translate addr.toNat len,
    guards := (s.guardLocks (touchedRows addr.toNat len)).map (fun k => { lock := k, gen := (s.lock k).generation }),
    posted := s.postedWrite (touchedRows addr.toNat len),
    pieces := makePieces (s.translate addr.toNat len) addr.toNat len, failed := none, completed := false }

/-- An accepted READ joins the read list; its response is withheld (R17). -/
def State.acceptRead (s : State) (p : Port) (tag : Byte) (addr : Word) (len : Nat) : State :=
  s.onPort p (fun P => { P with readL := P.readL ++ [s.readEntry p tag addr len] })

/-- An accepted WRITE takes its number and joins the write queue (R17, R94). -/
def State.joinWrite (s : State) (p : Port) (e : WriteEntry) : State :=
  s.onPort p (fun P => { P with writeQ := P.writeQ ++ [e], writeSeq := e.seq })

/-- An accepted WRITE; a posted one is answered OK at once with its sequence number (R17, R18). -/
def State.acceptWrite (s : State) (p : Port) (r : Request) (addr : Word) (len : Nat) (data : List Byte) : State :=
  let e := s.writeEntry p r.tag addr len data
  if e.posted then (s.joinWrite p e).respond p (r.response .ok (.written e.seq none)) else s.joinWrite p e

/-- A request is placed in the hold slot (R11, R89). -/
def State.placeHold (s : State) (p : Port) (r : Request) : State := s.onPort p (fun P => { P with hold := some r })

/-- Acceptance from check 3 on, the tag already in the table: the request is refused, held or accepted (R7). -/
def State.accepting (s : State) (p : Port) (r : Request) : State :=
  match r.op with
  | .read addr len =>
    match s.judge p false addr.toNat len.toNat with
    | .refuse st => s.respond p (r.response st .empty)
    | .hold => s.placeHold p r
    | .accept => s.acceptRead p r.tag addr len.toNat
  | .write addr len data =>
    match s.judge p true addr.toNat len.toNat with
    | .refuse st => s.respond p (r.response st .empty)
    | .hold => s.placeHold p r
    | .accept => s.acceptWrite p r addr len.toNat data
  | _ => s

/-- A held READ or WRITE is taken again from check 1; its tag is in the table, so check 2 passes (R9, R41). -/
def State.retake (s : State) (p : Port) : State :=
  match (s.port p).hold with
  | some r =>
    if r.op.isRead || r.op.isWrite then
      let s1 := s.onPort p (fun P => { P with hold := none })
      match (s1.port p).session with
      | .online => s1.accepting p r
      | .leaving => s1.respond p (r.response .departing .empty)
      | .offline | .closing => s1.respond p (r.response .notOnline .empty)
    else s
  | none => s

end Sys2Proof.Machine
end

