-- ==== Sys2Proof/Machine/Locks.lean ====
section
/-! DEFINITION. The shared operations of the lock table: a grant (R51, R57), the request to yield (R75, R76), the end of a
grant by release (R56) or revocation (R79), the fenced handoff (R57, R59), and the removal of a wait entry (R53, R77). -/

namespace Sys2Proof.Machine

/-- The name of a lock's state, as responses carry it. -/
def LockPhase.state : LockPhase → LockState
  | .free => .free
  | .held _ => .held
  | .releasing _ => .releasing

/-- The record with a grant to this port: generation up by one, cause NONE, fault-seen no (R51, R54, R57). -/
def LockRecord.granted (l : LockRecord) (p : Port) (owner : Half) (yield : Bool) (lease : Option Nat)
    (queue : List WaitEntry) : LockRecord :=
  { phase := .held { port := p, owner := owner, yield := yield, yieldSent := false, lease := lease.map Lease.start,
                     deadline := none },
    generation := l.generation + 1, faultSeen := false, cause := .none, queue := queue }

/-- A YIELD item is raised for a holder that agreed to yield, was not asked yet, and has a waiter; the yield deadline
starts unless YIELD_GRACE is 0 (R75, R76). -/
def State.askYield (s : State) (k : Lock) : State :=
  match (s.lock k).phase with
  | .held h =>
    if h.yield && !h.yieldSent && !(s.lock k).queue.isEmpty then
      (s.setLock k { s.lock k with phase := .held { h with
          yieldSent := true
          deadline := if s.config.yieldGrace = 0 then none else some s.config.yieldGrace } }).raise h.port
        (.yield k (s.lock k).generation)
    else s
  | _ => s

/-- The break cause a handoff reports: WRITE_FAILED when a guarded write failed and no cause stands (R57, step 1). -/
def LockRecord.handoffCause (l : LockRecord) : BreakCause :=
  if l.faultSeen && l.cause == .none then .writeFailed else l.cause

/-- Steps 2 to 4 of the handoff: the head of the queue is granted the lock, or the lock becomes FREE (R57, R62). -/
def State.passLock (s : State) (k : Lock) : State :=
  match (s.lock k).queue with
  | e :: rest =>
    ((s.setLock k ((s.lock k).granted e.port e.owner e.yield e.lease rest)).raise e.port
      (.grant k ((s.lock k).generation + 1) e.owner (s.lock k).handoffCause)).askYield k
  | [] => s.setLock k { s.lock k with phase := .free, faultSeen := false, cause := (s.lock k).handoffCause }

/-- The handoff of a lock in RELEASING, caused by the firing of its watch (R57); a withheld LOCK_RELEASE is answered OK
with the generation of the grant that ended (R59). -/
def State.handoff (s : State) (k : Lock) : State :=
  match (s.lock k).phase with
  | .releasing r =>
    match r.tag with
    | some tag =>
      (s.passLock k).respondDue r.prev
        { code := 0x21#8, tag := tag, status := .ok, body := .generation (s.lock k).generation }
    | none => s.passLock k
  | _ => s

/-- A grant ends: the lock is RELEASING with a watch on the former holder's current write sequence, and is handed off at
once when that port's watermark has reached it (R56, R79, R98). -/
def State.endGrant (s : State) (k : Lock) (prev : Port) (tag : Option Byte) : State :=
  let s1 := s.setLock k { s.lock k with phase := .releasing { prev := prev, watch := (s.port prev).writeSeq, tag := tag } }
  if watermarkReaches (s.port prev).watermark (s.port prev).writeSeq then s1.handoff k else s1

/-- The break cause after a revocation for this reason: a cause already recorded is kept (R63, R79 step 1). -/
def LockRecord.revokedCause (l : LockRecord) (reason : BreakCause) : BreakCause :=
  if l.cause = .none then reason else l.cause

/-- A revocation of a HELD lock (R79): EXPIRED and YIELD_TIMEOUT tell the former holder, DEPARTED does not (R80). -/
def State.revoke (s : State) (k : Lock) (reason : BreakCause) : State :=
  match (s.lock k).phase with
  | .held h =>
    let s1 := s.setLock k { s.lock k with cause := (s.lock k).revokedCause reason }
    let s2 := if reason = .departed then s1 else s1.raise h.port (.revoked k (s.lock k).generation reason)
    s2.endGrant k h.port none
  | _ => s

/-- The release of a held lock by LEAVE: no break cause and no response (R66). -/
def State.releaseByLeave (s : State) (k : Lock) : State :=
  match (s.lock k).phase with
  | .held h => s.endGrant k h.port none
  | _ => s

/-- The record without the port's wait entry; a yield deadline stops when the queue of a HELD lock is empty then
(R53, R60, R77). -/
def LockRecord.removeWaiter (l : LockRecord) (p : Port) : LockRecord :=
  let queue := l.queue.filter (fun e => e.port != p)
  match l.phase with
  | .held h => { l with queue := queue, phase := .held (if queue.isEmpty then { h with deadline := none } else h) }
  | _ => { l with queue := queue }

/-- Every wait entry of a departing port is removed (R66, R67). -/
def State.removeWaits (s : State) (p : Port) : State :=
  allLocks.foldl (fun t k => t.setLock k ((t.lock k).removeWaiter p)) s

/-- A write-failure notice reaches the lock table (R64). -/
def State.noticeFailure (s : State) (k : Lock) : State := s.setLock k { s.lock k with faultSeen := true }

/-- The locks a port holds. -/
def State.heldLocks (s : State) (p : Port) : List Lock := allLocks.filter (s.holds p)

/-- The locks whose handoff watch is on this port and is reached by its watermark (R98). -/
def State.firedLocks (s : State) (p : Port) : List Lock :=
  allLocks.filter fun k =>
    match (s.lock k).phase with
    | .releasing r => r.prev == p && watermarkReaches (s.port p).watermark r.watch
    | _ => false

end Sys2Proof.Machine
end

