-- ==== Sys2Proof/Machine/Notices.lean ====
section
/-! DEFINITION. The shared operations of the notification unit: the places of a queue (R125), the firing of a
reservation or of a pending answer (R128, R134), and the unit's reaction to a departure (R133 to R135). -/

namespace Sys2Proof.Machine

/-- A reservation toward this target (Table 7-2). -/
def Note.reservedFor (n : Note) (target : Port) : Bool := n.target == target && !n.cancelled

/-- The reservations in a target's queue. -/
def State.reservations (s : State) (target : Port) : Nat :=
  (allPorts.map (fun q => ((s.port q).notes.filter (·.reservedFor target)).length)).sum

/-- The places in use of a target's queue: entries and reservations (R125). -/
def State.noticePlaces (s : State) (target : Port) : Nat := (s.port target).notices.length + s.reservations target

/-- The append of a fired reservation (R128): the entry takes the target's next sequence number, the sender is answered
OK with it, and a NOTICE item is raised. -/
def State.appendNotice (s : State) (sender : Port) (n : Note) : State :=
  let seq := (s.port n.target).noticeSeq
  ((s.onPort n.target (fun T => { T with
      notices := T.notices ++ [{ sender := sender, code := n.code, seq := seq, delivered := false }]
      noticeSeq := T.noticeSeq + 1 })).respondDue sender
        { code := 0x30#8, tag := n.tag, status := .ok, body := .noticeSeq seq }).raise n.target .notice

/-- What a fired watch of the notification unit does: an append, or the TARGET_ABSENT answer of a cancelled reservation
(R128, R134). -/
def State.fireNote (s : State) (sender : Port) (n : Note) : State :=
  if n.cancelled then
    s.respondDue sender { code := 0x30#8, tag := n.tag, status := .targetAbsent, body := .target n.target }
  else s.appendNotice sender n

/-- The oldest NOTIFY of a sender whose watch its watermark reaches fires and is gone (R98, R128). -/
def State.fireNextNote (s : State) (sender : Port) : State :=
  match (s.port sender).notes.find? (fun n => watermarkReaches (s.port sender).watermark n.watched) with
  | some n => (s.onPort sender (fun P => { P with notes := P.notes.erase n })).fireNote sender n
  | none => s

/-- How many watches of a sender's NOTIFYs its watermark reaches. -/
def State.firedNotes (s : State) (sender : Port) : Nat :=
  ((s.port sender).notes.filter (fun n => watermarkReaches (s.port sender).watermark n.watched)).length

/-- Every reached watch of a sender's NOTIFYs fires, oldest first. -/
def State.fireNotes (s : State) (sender : Port) : State :=
  (List.range (s.firedNotes sender)).foldl (fun t _ => t.fireNextNote sender) s

/-- The target's queue is emptied, its NOTICE item withdrawn, and every reservation toward it becomes a pending answer
whose watch fires at once when it is reached already (R133, R134). -/
def State.departTarget (s : State) (p : Port) : State :=
  let s1 := s.onPort p (fun P => ({ P with notices := [] }).withdraw .notice)
  let s2 := allPorts.foldl (fun t q => t.onPort q (fun P => { P with
    notes := P.notes.map (fun n => if n.target = p then { n with cancelled := true } else n) })) s1
  allPorts.foldl (fun t q => t.fireNotes q) s2

/-- At a sender's link loss its reservations and pending answers are dropped (R135). -/
def State.dropNotes (s : State) (p : Port) : State := s.onPort p (fun P => { P with notes := [] })

end Sys2Proof.Machine
end

