-- ==== Sys2Proof/Machine/Settle.lean ====
section
/-! DEFINITION. What comes about at the end of an event: the completion of a commit (R39 to R41), the tests of the session
logic (R156, R159) with the held HELLO (R153, R154), and the fired watches and other parts of one event run in an order
the manual leaves free (R98; log 6, log 7). -/

namespace Sys2Proof.Machine

/-! ## Starting a session -/

/-- WELCOME (R153, step 5). -/
def State.welcome (s : State) (p : Port) : Body :=
  .welcome p (s.port p).sessionNo s.revision Config.familyCode Config.version

/-- A HELLO that passes starts a session (R153). -/
def State.startSession (s : State) (p : Port) (r : Request) (revision fault : Byte) : State :=
  let s1 := s.onPort p (fun P => { P with
    session := .online, sessionNo := P.sessionNo + 1, writeSeq := 0#32, watermark := 0#32,
    subRev := revision == 1#8, subFault := fault == 1#8 })
  s1.respond p (r.response .ok (s1.welcome p))

/-- A HELLO taken in OFFLINE, after its tag check: each subscription field must be yes or no (R153). -/
def State.helloFields (s : State) (p : Port) (r : Request) (revision fault : Byte) : State :=
  if (revision == 0#8 || revision == 1#8) && (fault == 0#8 || fault == 1#8) then s.startSession p r revision fault
  else s.respond p (r.response .badArg .empty)

/-- A HELLO taken in OFFLINE (R153). -/
def State.helloOffline (s : State) (p : Port) (r : Request) (revision fault : Byte) : State :=
  s.tagCheck p r (fun t => t.helloFields p r revision fault)

/-! ## A commit's completion -/

/-- The drain set of a commit in progress is empty (R39). -/
def State.commitDue (s : State) : Bool :=
  match s.edit with
  | .committing c => c.drain.isEmpty
  | _ => false

/-- The rows of a change set are replaced by their staged content (R39). -/
def State.replaceRows (s : State) (change : List Staged) : State :=
  change.foldl (fun t x => t.setRow x.row x.content) s

/-- The REVISION item of a commit is raised for a port that subscribes and is ONLINE or LEAVING; a raise for a port that is
CLOSING or OFFLINE has no effect (R40, R139, R156; log 8). -/
def State.raiseRevision (s : State) (p : Port) : State := s.raise p (.revision s.revision)

/-- The response of a commit, dropped when the owner's link was lost (R40, R44). -/
def State.answerCommit (s : State) (c : CommitEdit) : State :=
  if c.departed then s
  else s.respondDue c.owner { code := 0x15#8, tag := c.tag, status := .ok, body := .revision s.revision }

/-- The completion of a commit (R39): rows and revision change, the edit is NONE, the commit is answered and REVISION
items raised (R40), and the held requests are taken again (R41). -/
def State.completeCommit (s : State) : State :=
  match s.edit with
  | .committing c =>
    let s1 := { s.replaceRows c.change with revision := s.revision + 1, edit := .absent }
    let s2 := allPorts.foldl (fun t p => t.raiseRevision p) (s1.answerCommit c)
    allPorts.foldl (fun t p => t.retake p) s2
  | _ => s

/-! ## The session logic's tests -/

/-- The pieces of a port in flight (R109). -/
def State.inFlight (s : State) (p : Port) : Nat :=
  (allSlots.filter (fun n => match (s.slot n).job with
    | some j => j.port == p
    | none => false)).length

/-- The port order unit is quiet (R103). -/
def State.quiet (s : State) (p : Port) : Bool :=
  (s.port p).watermark == (s.port p).writeSeq && (s.port p).readL.isEmpty && s.inFlight p == 0

/-- The LEAVE response is due: the LEAVE's watch is reached, no read and no piece is left, and no tag but the LEAVE's is
outstanding (R156). -/
def State.leaveDue (s : State) (p : Port) : Bool :=
  match (s.port p).pendingLeave with
  | some l =>
    (s.port p).session == .leaving && watermarkReaches (s.port p).watermark l.watch && (s.port p).readL.isEmpty &&
      s.inFlight p == 0 && (s.port p).tags.all (· == l.tag)
  | none => false

/-- The response to LEAVE (R156). -/
def PortState.leaveResponse (P : PortState) (tag : Byte) : Response :=
  { code := 0x02#8, tag := tag, status := .ok, body := .left P.sessionNo P.writeSeq }

/-- The LEAVE response is queued when it is due, and the pending LEAVE removed (R156). -/
def State.leaveTest (s : State) (p : Port) : State :=
  match (s.port p).pendingLeave with
  | some l =>
    if s.leaveDue p then
      s.onPort p (fun P => { P.respond (P.leaveResponse l.tag) with pendingLeave := none })
    else s
  | none => s

/-- A held HELLO is taken again from the start, the port OFFLINE now (R159, step 3). -/
def State.retakeHello (s : State) (p : Port) : State :=
  match (s.port p).hold with
  | some r =>
    match r.op with
    | .hello revision fault => (s.onPort p (fun P => { P with hold := none })).helloOffline p r revision fault
    | _ => s
  | none => s

/-- A CLOSING port whose order unit is quiet becomes OFFLINE (R159). -/
def State.closingTest (s : State) (p : Port) : State :=
  if (s.port p).session == .closing && s.quiet p then (s.onPort p (·.goOffline)).retakeHello p else s

/-- The session logic's tests at the end of an event, for every port (R98, R156, R159). -/
def State.sessionTests (s : State) : State := allPorts.foldl (fun t p => (t.leaveTest p).closingTest p) s

/-! ## The parts of one event whose order is free -/

/-- A part of an event: a handoff, the next fired NOTIFY of the event's port, a commit's completion, and what a departure
does to one held lock. -/
inductive Task where
  | handoff (k : Lock)
  | note
  | commit
  | revoke (k : Lock)
  | release (k : Lock)
deriving DecidableEq, Repr

/-- One part of an event at port p. -/
def State.runTask (p : Port) (s : State) : Task → State
  | .handoff k => s.handoff k
  | .note => s.fireNextNote p
  | .commit => s.completeCommit
  | .revoke k => s.revoke k .departed
  | .release k => s.releaseByLeave k

/-- Parts of one event are run in a free order (log 6). -/
def State.runTasks (s : State) (p : Port) (tasks : List Task) : State :=
  (s.arranged tasks).1.foldl (fun t x => t.runTask p x) (s.arranged tasks).2

/-- A commit's completion comes after the port's becoming OFFLINE in the same event, where the manual gives no order:
decided freely, and only when both happen (log 7). -/
def State.commitLast (s : State) (p : Port) : Bool :=
  s.commitDue && ((s.port p).session == .closing && s.quiet p) && Config.choice s.fresh % 2 == 1

/-- The end of an event at port p: the given parts, and a commit's completion when its drain set is empty, in a free
order, then the session logic's tests (R98, R99). -/
def State.closeEvent (s : State) (p : Port) (tasks : List Task) : State :=
  let s1 := { s with fresh := s.fresh + 1 }
  if s.commitLast p then ((s1.runTasks p tasks).sessionTests.completeCommit).sessionTests
  else (s1.runTasks p (tasks ++ if s.commitDue then [.commit] else [])).sessionTests

end Sys2Proof.Machine
end

