-- ==== Sys2Proof/Machine/Pool.lean ====
section
/-! DEFINITION. The pool bus master: the piece a port offers (R101), the slot arbiter (R109, R110), issues (R111), replies
and the access timer (R112 to R116), the end of a piece and the completion of its request (R118 to R121), and the
watermark (R96, R99). -/

namespace Sys2Proof.Machine

/-! ## The piece a port offers (R101) -/

/-- The first unissued piece, by its place. -/
def firstUnissued (ps : List Piece) : Option Nat := ps.findIdx? (fun x => x.cond == .unissued)

/-- The next piece of a write; none of a failed one (R102). -/
def WriteEntry.nextPiece (e : WriteEntry) : Option Nat := if e.failed.isSome then none else firstUnissued e.pieces

/-- The next piece of a read; none of a failed one or of one whose port's link was lost (R102, R104). -/
def ReadEntry.nextPiece (e : ReadEntry) : Option Nat :=
  if e.failed.isSome || e.cut then none else firstUnissued e.pieces

/-- The first write, in sequence order, with a piece to issue. -/
def PortState.nextWrite (P : PortState) : Option WriteEntry := P.writeQ.find? (fun e => e.nextPiece.isSome)

/-- The first read, in acceptance order, with a piece to issue. -/
def PortState.nextRead (P : PortState) : Option ReadEntry := P.readL.find? (fun e => e.nextPiece.isSome)

/-- What the port offers of a read: its next piece once the watermark has reached its fence (R101). -/
def PortState.offerRead (P : PortState) (e : ReadEntry) : Option (ReqRef × Nat) :=
  if watermarkReaches P.watermark e.fence then e.nextPiece.map (fun n => (.read e.tag, n)) else none

/-- The piece the port offers: that of the earliest accepted request with an unissued piece. A write was accepted before
a read when the read's fence reaches its sequence number (R95, R101; log 24). -/
def PortState.offer (P : PortState) : Option (ReqRef × Nat) :=
  match P.nextWrite, P.nextRead with
  | none, none => none
  | some w, none => w.nextPiece.map (fun n => (.write w.seq, n))
  | none, some e => P.offerRead e
  | some w, some e =>
    if watermarkReaches e.fence w.seq then w.nextPiece.map (fun n => (.write w.seq, n)) else P.offerRead e

/-- A port is eligible: it offers a piece and is below quota (R109). -/
def State.eligible (s : State) (p : Port) : Bool := (s.port p).offer.isSome && s.inFlight p < s.config.slotQuota

/-- The ports in the order that follows the round-robin pointer (R110). -/
def State.arbiterOrder (s : State) : List Port := [s.rr + 1, s.rr + 2, s.rr + 3, s.rr + 4]

/-- The lowest-numbered free slot (R110). -/
def State.freeSlot (s : State) : Option SlotNo := allSlots.find? (fun n => (s.slot n).job.isNone)

/-! ## Pieces of accepted requests -/

/-- A change of the piece at one place. -/
def updatePiece : List Piece → Nat → (Piece → Piece) → List Piece
  | [], _, _ => []
  | x :: xs, 0, f => f x :: xs
  | x :: xs, n + 1, f => x :: updatePiece xs n f

/-- A change of a write, found by its sequence number. -/
def PortState.onWrite (P : PortState) (seq : Word) (f : WriteEntry → WriteEntry) : PortState :=
  { P with writeQ := P.writeQ.map (fun e => if e.seq = seq then f e else e) }

/-- A change of a read, found by its tag. -/
def PortState.onRead (P : PortState) (tag : Byte) (f : ReadEntry → ReadEntry) : PortState :=
  { P with readL := P.readL.map (fun e => if e.tag = tag then f e else e) }

/-- A change of one piece of an accepted request. -/
def PortState.onPiece (P : PortState) (ref : ReqRef) (n : Nat) (f : Piece → Piece) : PortState :=
  match ref with
  | .write seq => P.onWrite seq (fun e => { e with pieces := updatePiece e.pieces n f })
  | .read tag => P.onRead tag (fun e => { e with pieces := updatePiece e.pieces n f })

/-- The pieces of an accepted request. -/
def PortState.piecesOf (P : PortState) (ref : ReqRef) : List Piece :=
  match ref with
  | .write seq => ((P.writeQ.find? (fun e => e.seq == seq)).map WriteEntry.pieces).getD []
  | .read tag => ((P.readL.find? (fun e => e.tag == tag)).map ReadEntry.pieces).getD []

/-- The bytes of a write's data that a piece carries; none for a read (R111). -/
def PortState.pieceData (P : PortState) (ref : ReqRef) (n : Nat) : List Byte :=
  match ref with
  | .write seq =>
    match P.writeQ.find? (fun e => e.seq == seq) with
    | some e =>
      match e.pieces[n]? with
      | some x => (e.data.drop x.pos).take x.len
      | none => []
    | none => []
  | .read _ => []

/-- The direction of a request's pieces. -/
def ReqRef.dir : ReqRef → Dir
  | .write _ => .write
  | .read _ => .read

/-! ## Issues (R111) -/

/-- An issue in a slot, first or repeated: the issue number goes up by one and the issue transfer is sent (R111). -/
def State.issue (s : State) (n : SlotNo) (j : Job) : State :=
  let no := (s.slot n).issueNo + 1
  { s.setSlot n { issueNo := no, job := some j } with
    busIssue := some { slot := n, issueNo := no, pool := j.pool, len := j.len, dir := j.dir,
                       data := (s.port j.port).pieceData j.ref j.piece } }

/-- The job of a first issue: retries 0, limits as the items stand (R111, R122). -/
def State.firstJob (s : State) (p : Port) (ref : ReqRef) (n : Nat) (x : Piece) : Job :=
  { port := p, ref := ref, piece := n, pool := x.pool, len := x.len, dir := ref.dir, retries := 0,
    retryLimit := s.config.poolRetries, timeLimit := s.config.poolTime }

/-- One run of the slot arbiter (R110). -/
def State.arbiterRun (s : State) : State :=
  match s.freeSlot, s.arbiterOrder.find? s.eligible with
  | some n, some p =>
    match (s.port p).offer with
    | some (ref, k) =>
      match ((s.port p).piecesOf ref)[k]? with
      | some x =>
        { (s.issue n (s.firstJob p ref k x)).onPort p (fun P => P.onPiece ref k (fun y => { y with cond := .inFlight }))
          with rr := p }
      | none => s
    | none => s
  | _, _ => s

/-! ## Completion (R118 to R121) -/

/-- A request completes: no piece in flight, and none left to issue or the request failed or cut (R118, R104). -/
def workDone (pieces : List Piece) (stopped : Bool) : Bool :=
  pieces.all (fun x => x.cond != .inFlight) && (stopped || pieces.all (fun x => x.cond != .unissued))

/-- A request leaves the drain set of a commit in progress (R36). -/
def State.leaveDrain (s : State) (p : Port) (ref : ReqRef) : State :=
  match s.edit with
  | .committing c =>
    { s with edit := .committing { c with drain := c.drain.filter (fun d => d != { port := p, ref := ref }) } }
  | _ => s

/-- The response of a completed read (R119). -/
def ReadEntry.response (e : ReadEntry) : Response :=
  match e.failed with
  | none => { code := 0x03#8, tag := e.tag, status := .ok, body := .data (e.pieces.flatMap Piece.data) }
  | some f => { code := 0x03#8, tag := e.tag, status := .poolError, body := .poolError f.sub }

/-- The response of a completed non-posted write (R120). -/
def WriteEntry.response (e : WriteEntry) : Response :=
  match e.failed with
  | none => { code := 0x04#8, tag := e.tag, status := .ok, body := .written e.seq none }
  | some f => { code := 0x04#8, tag := e.tag, status := .poolError, body := .written e.seq (some f.sub) }

/-- A read completes: it leaves the read list and the drain set, and its response is queued, or dropped when the port is
not in contact (R95, R119). -/
def State.finishRead (s : State) (p : Port) (e : ReadEntry) : State :=
  ((s.onPort p (fun P => { P with readL := P.readL.filter (fun x => x.tag != e.tag) })).respondDue p e.response).leaveDrain
    p (.read e.tag)

/-- The write-failure notices of a failed write, one for each guard lock of its translation (R64). -/
def State.noticeFailures (s : State) (e : WriteEntry) : State :=
  e.guards.foldl (fun t g => t.noticeFailure g.lock) s

/-- What a completed write owes before the watermark moves (R99 step 1, R120, R121). -/
def State.writeReport (s : State) (p : Port) (e : WriteEntry) : State :=
  let s1 := if e.posted then s else s.respondDue p e.response
  match e.failed with
  | none => s1
  | some f =>
    if e.posted then (s1.noticeFailures e).onPort p (·.record (.postedWriteFailed e.seq f.addr f.sub))
    else s1.noticeFailures e

/-- The watermark and the write queue after the completed writes at its head have left it (R93, R96). -/
def advanceQueue : List WriteEntry → Word → List WriteEntry × Word
  | [], w => ([], w)
  | e :: rest, w => if e.completed then advanceQueue rest e.seq else (e :: rest, w)

/-- The watermark advances past every completed write at the head of the write queue (R96). -/
def PortState.advance (P : PortState) : PortState :=
  { P with writeQ := (advanceQueue P.writeQ P.watermark).1, watermark := (advanceQueue P.writeQ P.watermark).2 }

/-- A write completes: steps 1 and 2 of R99, and it leaves the drain set (R36). -/
def State.finishWrite (s : State) (p : Port) (e : WriteEntry) : State :=
  (((s.onPort p (·.onWrite e.seq (fun x => { x with completed := true }))).writeReport p e).onPort p
    (·.advance)).leaveDrain p (.write e.seq)

/-- The watches on a port that its watermark reaches: handoffs and NOTIFYs (R98). -/
def State.firedTasks (s : State) (p : Port) : List Task :=
  (s.firedLocks p).map .handoff ++ List.replicate (s.firedNotes p) .note

/-- How a piece ends: with the data of a DONE reply, or failed (R113, R114, R115, R116). -/
inductive Ending where
  | well (data : List Byte)
  | failed (sub : SubStatus)
deriving DecidableEq, Repr

/-- A piece with its end; data of a DONE reply is stored unless the request has failed already (R113). -/
def Ending.mark (e : Ending) (failed : Bool) (x : Piece) : Piece :=
  match e with
  | .well data => { x with cond := .endedWell, data := if failed then x.data else data }
  | .failed sub => { x with cond := .endedFailed sub }

/-- The request's first failure after this end: the first one stays (R118). -/
def Ending.failure (e : Ending) (old : Option Failure) (addr : Word) : Option Failure :=
  match e with
  | .well _ => old
  | .failed sub => old.or (some { sub := sub, addr := addr })

/-- The address of a piece. -/
def pieceAddr (ps : List Piece) (n : Nat) : Word := ((ps[n]?).map Piece.addr).getD 0#32

/-- A write after the end of one of its pieces (R118). -/
def WriteEntry.ended (w : WriteEntry) (n : Nat) (e : Ending) : WriteEntry :=
  { w with pieces := updatePiece w.pieces n (e.mark w.failed.isSome)
           failed := e.failure w.failed (pieceAddr w.pieces n) }

/-- A read after the end of one of its pieces (R118). -/
def ReadEntry.ended (r : ReadEntry) (n : Nat) (e : Ending) : ReadEntry :=
  { r with pieces := updatePiece r.pieces n (e.mark r.failed.isSome)
           failed := e.failure r.failed (pieceAddr r.pieces n) }

/-- The end of a piece acts on its request, which may complete in the same event (R118). The slot is free already. -/
def State.endPiece (s : State) (j : Job) (e : Ending) : State :=
  match j.ref with
  | .write seq =>
    match (s.port j.port).writeQ.find? (fun w => w.seq == seq) with
    | some w =>
      let w1 := w.ended j.piece e
      let s1 := s.onPort j.port (·.onWrite seq (fun _ => w1))
      if workDone w1.pieces w1.failed.isSome then
        let s2 := s1.finishWrite j.port w1
        s2.closeEvent j.port (s2.firedTasks j.port)
      else s1
    | none => s
  | .read tag =>
    match (s.port j.port).readL.find? (fun r => r.tag == tag) with
    | some r =>
      let r1 := r.ended j.piece e
      let s1 := s.onPort j.port (·.onRead tag (fun _ => r1))
      if workDone r1.pieces (r1.failed.isSome || r1.cut) then (s1.finishRead j.port r1).closeEvent j.port []
      else s1
    | none => s

/-- A slot is freed, its issue number kept (R108). -/
def State.releaseSlot (s : State) (n : SlotNo) : State := s.setSlot n { s.slot n with job := none }

/-- The piece in a slot ends: the slot is freed and the end acts on the request in the same event (R113 to R116). -/
def State.endJob (s : State) (n : SlotNo) (j : Job) (e : Ending) : State := (s.releaseSlot n).endPiece j e

/-! ## Replies and the access timer -/

/-- The slot and job a reply answers: an occupied slot whose current issue number it names; none when the reply is
ignored (R112, R161). -/
def State.answered (s : State) (slot issue : Byte) : Option (SlotNo × Job) :=
  if h : slot.toNat < 8 then
    match (s.slot ⟨slot.toNat, h⟩).job with
    | some j => if s.running && (s.slot ⟨slot.toNat, h⟩).issueNo == issue then some (⟨slot.toNat, h⟩, j) else none
    | none => none
  else none

/-- A DONE reply fits the piece: a read piece's data has its length, a write piece's is absent (R112). -/
def Job.fits (j : Job) (data : List Byte) : Bool :=
  match j.dir with
  | .read => data.length == j.len
  | .write => data.isEmpty

/-- A DONE reply to the current issue; one that does not fit is taken as ERROR (R112, R113). -/
def State.takeDone (s : State) (n : SlotNo) (j : Job) (data : List Byte) : State :=
  if j.fits data then s.endJob n j (.well data) else s.endJob n j (.failed .targetError)

/-- A RETRY reply to the current issue: the piece is issued again in the same slot while retries remain (R115); one that
carries data is taken as ERROR (R112). -/
def State.takeRetry (s : State) (n : SlotNo) (j : Job) (data : List Byte) : State :=
  if !data.isEmpty then s.endJob n j (.failed .targetError)
  else if j.retries < j.retryLimit then s.issue n { j with retries := j.retries + 1 }
  else s.endJob n j (.failed .retryExhausted)

/-- The access timer of an occupied slot runs out: an abort is sent and the piece ends failed (R116). -/
def State.takeTimeout (s : State) (n : SlotNo) : State :=
  match (s.slot n).job with
  | some j => ({ s with busAbort := some { slot := n, issueNo := (s.slot n).issueNo } }).endJob n j (.failed .timeout)
  | none => s

end Sys2Proof.Machine
end

