-- ==== Sys2Proof/Machine/Departure.lean ====
section
/-! DEFINITION. Departures and device reset: what LEAVE (R155), link loss (R104, R158) and device reset (R161) do to the
blocks. -/

namespace Sys2Proof.Machine

/-! ## Orderly departure (Table 9-4) -/

/-- Step 1 of the LEAVE event: LEAVING, with a pending LEAVE whose watch is the current write sequence (R155). -/
def PortState.startLeave (P : PortState) (tag : Byte) : PortState :=
  { P with session := .leaving, pendingLeave := some { tag := tag, watch := P.writeSeq } }

/-- An OPEN edit of a departing owner is discarded; on link loss a COMMITTING edit of the port is marked owner departed
(R43, R44). -/
def Edit.departs (e : Edit) (p : Port) (linkLoss : Bool) : Edit :=
  match e with
  | .opened o => if o.owner = p then .absent else e
  | .committing c => if c.owner = p && linkLoss then .committing { c with departed := true } else e
  | .absent => .absent

/-- The LEAVE event (R155, Table 9-4). The locks held are released in a free order (log 6). -/
def State.leaveEvent (s : State) (p : Port) (tag : Byte) : State :=
  let s1 := s.onPort p (·.startLeave tag)
  let s2 := (s1.runTasks p ((s1.heldLocks p).map .release)).removeWaits p
  let s3 := { s2 with edit := s2.edit.departs p false }
  (s3.departTarget p).sessionTests

/-! ## Abrupt departure (Table 9-5) -/

/-- Intake queue, hold slot and response queue are discarded, and their response places freed; so is a frame whose receipt
was in progress (R104, R152). -/
def PortState.discardQueues (P : PortState) : PortState :=
  { P with intake := [], hold := none, respQ := [], tx := none, begun := false
           places := P.places - P.respQ.length - (if P.hold.isSome then 1 else 0) }

/-- A read of a port whose link is lost stays only while a piece of it is in flight; it issues no further piece
(R104; log 25). -/
def ReadEntry.survives (e : ReadEntry) : Bool := e.pieces.any (fun x => x.cond == .inFlight)

/-- Steps 1 and 2 of the link-loss event at the port's own record: CLOSING, queues and tags discarded, every response
place freed, reads cut, writes kept (R104, R158). -/
def PortState.loseLink (P : PortState) : PortState :=
  { P.discardQueues with
    link := .down, session := .closing, pendingLeave := none, tags := [], places := 0
    readL := (P.readL.filter (·.survives)).map (fun e => { e with cut := true }) }

/-- The discarded reads leave the drain set (R36). -/
def State.dropReads (s : State) (p : Port) (gone : List ReadEntry) : State :=
  gone.foldl (fun t e => t.leaveDrain p (.read e.tag)) s

/-- The link-loss event of a port that is ONLINE or LEAVING (R158, Table 9-5). The revocations of the locks held and a
commit's completion have no order among them (log 6). -/
def State.linkLossEvent (s : State) (p : Port) : State :=
  let s1 := (s.onPort p (·.loseLink)).dropReads p ((s.port p).readL.filter (fun e => !e.survives))
  let s2 := (s1.runTasks p ((s1.heldLocks p).map .revoke ++ if s1.commitDue then [.commit] else [])).removeWaits p
  let s3 := { s2 with edit := s2.edit.departs p true }
  ((s3.departTarget p).dropNotes p).sessionTests

/-- A link that goes down at a port with no session in progress: CLOSING goes on draining, OFFLINE stays (R152). -/
def State.linkDownIdle (s : State) (p : Port) : State := s.onPort p (fun P => { P.discardQueues with link := .down })

/-- The link-state signal of a port falls (R152). While the part is in device reset only the level changes (log 27). -/
def State.linkFalls (s : State) (p : Port) : State :=
  match (s.port p).link with
  | .down => s
  | .up =>
    if !s.running then s.onPort p (fun P => { P with link := .down })
    else if (s.port p).inContact then s.linkLossEvent p
    else s.linkDownIdle p

/-! ## Device reset (R161) -/

/-- Every block takes its reset values in one event; the link-state signals keep their levels, and the queue of commands
and the count of free choices are the model's own (log 21). -/
def State.toReset (s : State) : State :=
  { State.reset with
    resetN := s.resetN, powerGood := s.powerGood
    ports := #v[PortState.reset (s.port 0).link, PortState.reset (s.port 1).link, PortState.reset (s.port 2).link,
      PortState.reset (s.port 3).link]
    fresh := s.fresh, pending := s.pending }

end Sys2Proof.Machine
end

