-- ==== Sys2Proof/Machine/Configuration.lean ====
section
/-! DEFINITION. The configuration table: the value of every item (Table 10-7), CONFIG_READ (R168) and CONFIG_WRITE (R169)
with its two further rows, SUBSCRIBE (R144) and SLOT_QUOTA (R122). -/

namespace Sys2Proof.Machine

/-- The code of a session state in PORT_STATE (Table 10-7). -/
def Session.code : Session → Byte
  | .offline => 0#8
  | .online => 1#8
  | .leaving => 2#8
  | .closing => 3#8

/-- The code of a link state in PORT_STATE (Table 10-7). -/
def Link.code : Link → Byte
  | .down => 0#8
  | .up => 1#8

/-- A value of four bytes, byte 0 first (log 10). -/
def valueOf (b0 b1 b2 b3 : Byte) : Word := b0 ++ b1 ++ b2 ++ b3

/-- The value of a port's SUBSCRIBE item: byte 0 REVISION, byte 1 FAULT (Table 10-7). Bytes 2 and 3, which the manual names
nowhere, are sent as 0 (log 9). -/
def PortState.subscribeValue (P : PortState) : Word := valueOf (flagByte P.subRev) (flagByte P.subFault) 0#8 0#8

/-- The value of a port's PORT_STATE item: session state, link state, session number (Table 10-7, R151). Byte 3, which the
manual names nowhere, is sent as 0: the model's choice (log 9). -/
def PortState.stateValue (P : PortState) : Word := valueOf P.session.code P.link.code P.sessionNo 0#8

/-- The value of a global or fixed item; none for SUBSCRIBE, PORT_STATE and numbers outside 1 to 11 (Table 10-7). -/
def ConfigTable.value (c : ConfigTable) (item : Byte) : Option Word :=
  if item = 1#8 then some (if c.leaseRequired then 1#32 else 0#32)
  else if item = 2#8 then some (BitVec.ofNat 32 c.leaseMax)
  else if item = 3#8 then some (BitVec.ofNat 32 c.yieldGrace)
  else if item = 4#8 then some (BitVec.ofNat 32 c.editIdle)
  else if item = 5#8 then some (BitVec.ofNat 32 c.poolTime)
  else if item = 6#8 then some (BitVec.ofNat 32 c.poolRetries)
  else if item = 7#8 then some (BitVec.ofNat 32 c.slotQuota)
  else if item = 9#8 then some (Config.familyCode.setWidth 32)
  else if item = 10#8 then some (Config.version.setWidth 32)
  else none

/-- The value a CONFIG_READ of a port returns; none when the item or its index is refused (R168, check 3). -/
def State.itemValue (s : State) (p : Port) (item index : Byte) : Option Word :=
  if item = 8#8 then if index = portByte p then some (s.port p).subscribeValue else none
  else if item = 11#8 then
    if h : index.toNat < 4 then some (s.port ⟨index.toNat, h⟩).stateValue else none
  else s.config.value item

/-- CONFIG_READ after the tag check (R168). -/
def State.configRead (s : State) (p : Port) (r : Request) (item index : Byte) : State :=
  match s.itemValue p item index with
  | some v => s.respond p (r.response .ok (.config item index v))
  | none => s.respond p (r.response .badArg .empty)

/-- CONFIG_READ (R168). -/
def execConfigRead (p : Port) (tag item index : Byte) (s : State) : Host.Outcome State Fault Refusal :=
  let r : Request := { tag := tag, op := .configRead item index }
  .next (s.request p r (fun t => t.configRead p r item index))

/-- A global item takes a value; none when the value is out of the item's range (Table 10-7, R169 check 7). -/
def ConfigTable.write (c : ConfigTable) (item : Byte) (v : Nat) : Option ConfigTable :=
  if item = 1#8 then if v ≤ 1 then some { c with leaseRequired := v == 1 } else none
  else if item = 2#8 then if 1 ≤ v ∧ v ≤ 65535 then some { c with leaseMax := v } else none
  else if item = 3#8 then if v ≤ 65535 then some { c with yieldGrace := v } else none
  else if item = 4#8 then if 10 ≤ v ∧ v ≤ 2000 then some { c with editIdle := v } else none
  else if item = 5#8 then if 1 ≤ v ∧ v ≤ 255 then some { c with poolTime := v } else none
  else if item = 6#8 then if v ≤ 15 then some { c with poolRetries := v } else none
  else if item = 7#8 then if 1 ≤ v ∧ v ≤ 8 then some { c with slotQuota := v } else none
  else none

/-- A byte of a SUBSCRIBE value is 0 or 1. -/
def flagByteOk (b : Byte) : Bool := b == 0#8 || b == 1#8

/-- A SUBSCRIBE value is in range: each of its four bytes is 0 or 1 (R169 check 7; log 9). -/
def subscribeOk (v : Word) : Bool :=
  flagByteOk (v.extractLsb' 24 8) && flagByteOk (v.extractLsb' 16 8) && flagByteOk (v.extractLsb' 8 8) &&
    flagByteOk (v.extractLsb' 0 8)

/-- The subscription flags take the values of a SUBSCRIBE value (R143, R144). -/
def PortState.subscribe (v : Word) (P : PortState) : PortState :=
  (P.setSubRev (v.extractLsb' 24 8 == 1#8)).setSubFault (v.extractLsb' 16 8 == 1#8)

/-- CONFIG_WRITE of SUBSCRIBE after the tag check (R169 checks 5 and 7, R144). -/
def State.writeSubscribe (s : State) (p : Port) (r : Request) (index : Byte) (v : Word) : State :=
  if index ≠ portByte p then s.respond p (r.response .badArg .empty)
  else if subscribeOk v then
    (s.onPort p (·.subscribe v)).respond p
      (r.response .ok (.config 8#8 index ((s.port p).subscribe v).subscribeValue))
  else s.respond p (r.response .badArg .empty)

/-- CONFIG_WRITE of a global item after the tag check: lock 0, then the range (R65, R169 checks 6 and 7). -/
def State.writeGlobal (s : State) (p : Port) (r : Request) (item index : Byte) (v : Word) : State :=
  if !s.holds p 0 then s.respond p (r.response .locked .empty)
  else
    match s.config.write item v.toNat with
    | some c => ({ s with config := c }).respond p (r.response .ok (.config item index v))
    | none => s.respond p (r.response .badArg .empty)

/-- CONFIG_WRITE after the tag check (R169): items outside 1 to 11 and read-only items are refused. -/
def State.configWrite (s : State) (p : Port) (r : Request) (item index : Byte) (v : Word) : State :=
  if item = 8#8 then s.writeSubscribe p r index v
  else if 1 ≤ item.toNat ∧ item.toNat ≤ 7 then s.writeGlobal p r item index v
  else s.respond p (r.response .badArg .empty)

/-- CONFIG_WRITE (R169). -/
def execConfigWrite (p : Port) (tag item index : Byte) (value : Word) (s : State) : Host.Outcome State Fault Refusal :=
  let r : Request := { tag := tag, op := .configWrite item index value }
  .next (s.request p r (fun t => t.configWrite p r item index value))

/-- CONFIG_WRITE of SUBSCRIBE (R144, R169). -/
def execConfigWriteSubscribe (p : Port) (tag index : Byte) (value : Word) (s : State) :
    Host.Outcome State Fault Refusal :=
  let r : Request := { tag := tag, op := .configWrite 8#8 index value }
  .next (s.request p r (fun t => t.writeSubscribe p r index value))

/-- CONFIG_WRITE of SLOT_QUOTA (R122, R169): the new value counts in every later comparison of a port's count; the
arbiter's run that may follow is a SLOT_ARBITER_RUN (log 20). -/
def execConfigWriteSlotQuota (p : Port) (tag index : Byte) (value : Word) (s : State) :
    Host.Outcome State Fault Refusal :=
  let r : Request := { tag := tag, op := .configWrite 7#8 index value }
  .next (s.request p r (fun t => t.writeGlobal p r 7#8 index value))

end Sys2Proof.Machine
end

