-- ==== Sys2Proof/Machine/Data.lean ====
section
/-! DEFINITION. The meanings of READ, WRITE and MAP_READ (spec/01). -/

namespace Sys2Proof.Machine

/-- READ: taken, checks 1 and 2, then acceptance (R7 to R17). -/
def execRead (p : Port) (tag : Byte) (addr : Word) (len : Half) (s : State) : Host.Outcome State Fault Refusal :=
  let r : Request := { tag := tag, op := .read addr len }
  .next (s.request p r (fun t => t.accepting p r))

/-- WRITE: taken, checks 1 and 2, then acceptance (R7 to R18). -/
def execWrite (p : Port) (tag : Byte) (addr : Word) (len : Half) (data : List Byte) (s : State) :
    Host.Outcome State Fault Refusal :=
  let r : Request := { tag := tag, op := .write addr len data }
  .next (s.request p r (fun t => t.accepting p r))

/-- The staged list's entry for a row, in an edit in OPEN. -/
def Edit.stagedFor (e : Edit) (row : Row) : Option Staged :=
  match e with
  | .opened o => o.staged.find? (fun x => x.row == row)
  | _ => none

/-- The port owns an edit in state OPEN (R21, R24). -/
def Edit.openFor (e : Edit) (p : Port) : Bool :=
  match e with
  | .opened o => o.owner == p
  | _ => false

/-- The record a MAP_READ with view STAGED carries, with its source (R21). -/
def State.stagedView (s : State) (row : Row) : Body :=
  match s.edit.stagedFor row with
  | some x => .row row x.content s.revision true
  | none => .row row (s.row row) s.revision false

/-- MAP_READ after the tag check (R21, checks 3 and 4). -/
def State.mapRead (s : State) (p : Port) (r : Request) (row : Half) (view : Byte) : State :=
  match rowOf row with
  | none => s.respond p (r.response .badArg .empty)
  | some n =>
    if view = 0#8 then s.respond p (r.response .ok (.row n (s.row n) s.revision false))
    else if view = 1#8 then
      if s.edit.openFor p then s.respond p (r.response .ok (s.stagedView n))
      else s.respond p (r.response .noEdit .empty)
    else s.respond p (r.response .badArg .empty)

/-- MAP_READ (R21, R22). -/
def execMapRead (p : Port) (tag : Byte) (row : Half) (view : Byte) (s : State) : Host.Outcome State Fault Refusal :=
  let r : Request := { tag := tag, op := .mapRead row view }
  .next (s.request p r (fun t => t.mapRead p r row view))

end Sys2Proof.Machine
end

