-- ==== Sys2Proof/Machine/Edits.lean ====
section
/-! DEFINITION. The meanings of the edit requests MAP_OPEN, MAP_STAGE, MAP_UNSTAGE, MAP_ABORT and MAP_COMMIT (spec/02). -/

namespace Sys2Proof.Machine

/-- The name of the edit's state, as responses carry it. -/
def Edit.state : Edit → EditState
  | .absent => .none
  | .opened _ => .opened
  | .committing _ => .committing

/-- An edit opens for a port (R25): its staged list is empty, its idle timer starts, and a pending EDIT_EXPIRED item of
the port is withdrawn. -/
def State.openEdit (s : State) (p : Port) : State :=
  ({ s with edit := .opened { owner := p, base := s.revision, staged := [], idle := s.config.editIdle } }).onPort p
    (·.withdraw .editExpired)

/-- The idle timer of an OPEN edit restarts from its full limit (R31). -/
def State.restartIdle (s : State) (o : OpenEdit) : State :=
  { s with edit := .opened { o with idle := s.config.editIdle } }

/-- MAP_OPEN after the tag check (R25, R26, R42, R44). -/
def State.mapOpen (s : State) (p : Port) (r : Request) (expected : Option Half) : State :=
  match s.edit with
  | .absent =>
    if expected.isSome && expected != some s.revision then s.respond p (r.response .stale (.revision s.revision))
    else (s.openEdit p).respond p (r.response .ok (.revision s.revision))
  | .opened o =>
    if o.owner = p then (s.restartIdle o).respond p (r.response .already (.editState .opened o.base))
    else s.respond p (r.response .editBusy (.editBusy o.owner .opened s.revision))
  | .committing c =>
    if c.owner = p ∧ c.departed = false then s.respond p (r.response .already (.editState .committing c.base))
    else s.respond p (r.response .editBusy (.editBusy c.owner .committing s.revision))

/-- MAP_OPEN (R25, R26). -/
def execMapOpen (p : Port) (tag : Byte) (expected : Option Half) (s : State) : Host.Outcome State Fault Refusal :=
  let r : Request := { tag := tag, op := .mapOpen expected }
  .next (s.request p r (fun t => t.mapOpen p r expected))

/-- What an owner request does: NO_EDIT unless the requester owns an edit in OPEN (R24, R27, R29, R30, R34). -/
def State.asOwner (s : State) (p : Port) (r : Request) (go : State → OpenEdit → State) : State :=
  match s.edit with
  | .opened o => if o.owner = p then go s o else s.respond p (r.response .noEdit .empty)
  | _ => s.respond p (r.response .noEdit .empty)

/-- The staged list after a row is staged: its entry is replaced in place, or appended (R28). -/
def stageInto (staged : List Staged) (x : Staged) : List Staged :=
  if staged.any (fun y => y.row == x.row) then staged.map (fun y => if y.row = x.row then x else y) else staged ++ [x]

/-- The position, from 1, of a row's entry in a staged list (R28). -/
def stagedPosition (staged : List Staged) (row : Row) : Nat := (staged.findIdx (fun y => y.row == row)) + 1

/-- MAP_STAGE of the owner in OPEN: the idle timer restarts, then form and room are checked (R27 checks 3 and 4, R28). -/
def State.stageRow (s : State) (p : Port) (r : Request) (raw : RawRow) (o : OpenEdit) : State :=
  match raw.wellFormed with
  | none => (s.restartIdle o).respond p (r.response .badArg .empty)
  | some x =>
    if !o.staged.any (fun y => y.row == x.row) && Config.stagedRoom ≤ o.staged.length then
      (s.restartIdle o).respond p (r.response .listFull .empty)
    else
      (s.restartIdle { o with staged := stageInto o.staged x }).respond p
        (r.response .ok (.stagedAt (stagedPosition (stageInto o.staged x) x.row) (stageInto o.staged x).length))

/-- MAP_STAGE (R27, R28). -/
def execMapStage (p : Port) (tag : Byte) (row : RawRow) (s : State) : Host.Outcome State Fault Refusal :=
  let r : Request := { tag := tag, op := .mapStage row }
  .next (s.request p r (fun t => t.asOwner p r (fun u o => u.stageRow p r row o)))

/-- MAP_UNSTAGE of the owner in OPEN (R29): a row without an entry, or of 512 and more, is refused. -/
def State.unstageRow (s : State) (p : Port) (r : Request) (row : Half) (o : OpenEdit) : State :=
  match o.staged.find? (fun y => y.row.val == row.toNat) with
  | none => (s.restartIdle o).respond p (r.response .badArg .empty)
  | some x =>
    let staged := o.staged.filter (fun y => y.row != x.row)
    (s.restartIdle { o with staged := staged }).respond p (r.response .ok (.listLength staged.length))

/-- MAP_UNSTAGE (R29). -/
def execMapUnstage (p : Port) (tag : Byte) (row : Half) (s : State) : Host.Outcome State Fault Refusal :=
  let r : Request := { tag := tag, op := .mapUnstage row }
  .next (s.request p r (fun t => t.asOwner p r (fun u o => u.unstageRow p r row o)))

/-- The edit is discarded: its record is NONE, the idle timer stopped (R23, R30). -/
def State.discardEdit (s : State) : State := { s with edit := .absent }

/-- MAP_ABORT (R30). -/
def execMapAbort (p : Port) (tag : Byte) (s : State) : Host.Outcome State Fault Refusal :=
  let r : Request := { tag := tag, op := .mapAbort }
  .next (s.request p r (fun t => t.asOwner p r (fun u _ => u.discardEdit.respond p (r.response .ok .empty))))

/-- A request has a translation part through a row of the change set (R35). -/
def partsTouch (parts : List TransPart) (change : List Staged) : Bool :=
  parts.any (fun t => change.any (fun x => x.row == t.row))

/-- The accepted, uncompleted requests of a port that the change set touches (R35). -/
def State.drainOf (s : State) (p : Port) (change : List Staged) : List DrainRef :=
  ((s.port p).writeQ.filter (fun e => !e.completed && partsTouch e.parts change)).map
      (fun e => { port := p, ref := .write e.seq }) ++
    ((s.port p).readL.filter (fun e => partsTouch e.parts change)).map (fun e => { port := p, ref := .read e.tag })

/-- The drain set of a commit at its start (R35). -/
def State.drainSet (s : State) (change : List Staged) : List DrainRef := allPorts.flatMap (fun p => s.drainOf p change)

/-- A commit of a non-empty staged list starts (R35); with an empty drain set it completes at once (R39). -/
def State.startCommit (s : State) (p : Port) (tag : Byte) (o : OpenEdit) : State :=
  let s1 := { s with edit := .committing { owner := p, departed := false, base := o.base, change := o.staged,
                                           drain := s.drainSet o.staged, tag := tag } }
  if s1.commitDue then s1.completeCommit else s1

/-- MAP_COMMIT of the owner in OPEN: an empty staged list ends the edit at once (R34). -/
def State.commitEdit (s : State) (p : Port) (r : Request) (o : OpenEdit) : State :=
  if o.staged.isEmpty then s.discardEdit.respond p (r.response .ok (.revision s.revision)) else s.startCommit p r.tag o

/-- MAP_COMMIT (R34, R35). -/
def execMapCommit (p : Port) (tag : Byte) (s : State) : Host.Outcome State Fault Refusal :=
  let r : Request := { tag := tag, op := .mapCommit }
  .next (s.request p r (fun t => t.asOwner p r (fun u o => u.commitEdit p r o)))

end Sys2Proof.Machine
end

