-- ==== Sys2Proof/Machine/Links.lean ====
section
/-! DEFINITION. The meanings of a frame's receipt (R165, R166) and of the outbound link's choices (R141, R142). -/

namespace Sys2Proof.Machine

/-- The port interface receives the frame that ends now: the part is out of reset, the link UP, and there is room for a
frame to begin, or there was since the last frame ended (R87, R152, R161, R166; log 3). -/
def State.receives (s : State) (p : Port) : Bool :=
  s.running && (s.port p).link == .up && ((s.port p).hasRoom || (s.port p).begun)

/-- The frame is one that the receipt checks refuse with a response (R165). -/
def Frame.refused (f : Frame) : Bool := f.receipt == .unknownKind || f.receipt == .badLength

/-- The end of a frame waits: its refusal needs a response place, and the intake has taken the last one since the frame
began (R92, R166; log 3). -/
def PortState.endWaits (f : Frame) (P : PortState) : Bool := f.refused && Config.responsePlaces ≤ P.places

/-- A receipt refusal: the response takes a response place and touches no tag (R165, R166). -/
def PortState.refuseFrame (f : Frame) (status : Status) (P : PortState) : PortState :=
  { P.answer { code := f.kind, tag := f.tag, status := status, body := .empty } with places := P.places + 1 }

/-- What the receipt checks make of a frame (R165). -/
def PortState.receive (f : Frame) (P : PortState) : PortState :=
  match f.receipt with
  | .badCheck => P.record .badCheck
  | .unknownKind => P.refuseFrame f .unknown
  | .badLength => (P.refuseFrame f .badArg).record (.lengthMismatch f.tag)
  | .request r => { P with intake := P.intake ++ [r] }

/-- A frame has arrived to its end, and with it its reception is over (R165). -/
def PortState.endFrame (f : Frame) (P : PortState) : PortState := { P.receive f with begun := false }

/-- The last byte of a frame, that of its check value, has arrived (R163, R165). A frame that found no room waits with the
host or, in device reset and with the link DOWN, is discarded: no effect (R87, R152, R161). So does the end of a refused
frame while no response place is left for it, and bytes that are not one whole frame have no effect (log 3). -/
def execFrameReceipt (p : Port) (bytes : List Byte) (s : State) : Host.Outcome State Fault Refusal :=
  .next (match Frame.ofWire bytes with
    | some f => if s.receives p && !(s.port p).endWaits f then s.onPort p (·.endFrame f) else s
    | none => s)

/-- The outbound link of a port can send: the part is out of reset and the link UP (R142, R161). -/
def State.sends (s : State) (p : Port) : Bool := s.running && (s.port p).link == .up

/-- The response is the OK to LEAVE (R157). -/
def Response.isLeaveOk (r : Response) : Bool := r.code == 0x02#8 && r.status == .ok

/-- The oldest response goes out and its response place is freed (R92, R141). -/
def PortState.sendFirst (r : Response) (P : PortState) : PortState :=
  { P with respQ := P.respQ.tail, places := P.places - 1, tx := some r.frame.wire }

/-- The sending of a response; that of LEAVE makes a LEAVING port OFFLINE (R157). -/
def PortState.sendResponse (P : PortState) : PortState :=
  match P.respQ with
  | r :: _ =>
    if r.isLeaveOk && P.session == .leaving then (P.sendFirst r).goOffline else P.sendFirst r
  | [] => P

/-- The free outbound link sends the oldest response (R141, R142). -/
def execSendResponse (p : Port) (s : State) : Host.Outcome State Fault Refusal :=
  .next (if s.sends p then s.onPort p (·.sendResponse) else s)

/-- The entry becomes delivered: the first undelivered one of the list. -/
def deliverFirst : List Notice → List Notice
  | [] => []
  | n :: rest => if n.delivered then n :: deliverFirst rest else { n with delivered := true } :: rest

/-- The sending of a NOTICE item: the oldest undelivered entry is carried and delivered, and a new NOTICE item is raised
when another one remains (R130). -/
def PortState.sendNotice (P : PortState) : PortState :=
  match P.notices.find? (fun n => !n.delivered) with
  | some n =>
    let Q := { P with tx := some (eventFrame 0xC3#8 n.bytes).wire, notices := deliverFirst P.notices }
    if Q.notices.any (fun m => !m.delivered) then Q.raise .notice else Q
  | none => P

/-- The frame of an item that is neither NOTICE nor read at its sending but for FAULT's counts (R138, R147). -/
def PortState.itemFrame (P : PortState) (it : Item) : Frame :=
  match it with
  | .fault => eventFrame it.code (faultCounts P.faults.length P.lost)
  | _ => eventFrame it.code it.bytes

/-- The sending of the oldest item (R141): it leaves the set in the sending event. -/
def PortState.sendItem (P : PortState) : PortState :=
  match P.events with
  | .notice :: rest => ({ P with events := rest }).sendNotice
  | it :: rest => { P with events := rest, tx := some (P.itemFrame it).wire }
  | [] => P

/-- The free outbound link, with no response waiting, sends the oldest item of a port that is ONLINE or LEAVING
(R141, R142). -/
def execSendEvent (p : Port) (s : State) : Host.Outcome State Fault Refusal :=
  .next (if s.sends p && (s.port p).respQ.isEmpty && (s.port p).inContact then s.onPort p (·.sendItem) else s)

end Sys2Proof.Machine
end

