-- ==== Sys2Proof/Machine/LockCommands.lean ====
section
/-! DEFINITION. The meanings of the lock requests LOCK_ACQUIRE, LOCK_RELEASE, LOCK_RENEW, LOCK_CANCEL and LOCK_QUERY
(spec/03, spec/04). -/

namespace Sys2Proof.Machine

/-- The lock number check of every lock request (R49, check 3). -/
def State.withLock (s : State) (p : Port) (r : Request) (lock : Byte) (go : State → Lock → State) : State :=
  if h : lock.toNat < 32 then go s ⟨lock.toNat, h⟩ else s.respond p (r.response .badArg .empty)

/-- A lease that is given is from 1 to LEASE_MAX (R70, R72). -/
def State.leaseInRange (s : State) (lease : Option Half) : Bool :=
  match lease with
  | some d => 1 ≤ d.toNat && d.toNat ≤ s.config.leaseMax
  | none => true

/-- The lease check of LOCK_ACQUIRE (R70). -/
def State.leaseOk (s : State) (lease : Option Half) : Bool :=
  s.leaseInRange lease && (lease.isSome || !s.config.leaseRequired)

/-- A grant at once on a FREE lock; the response carries the new generation and the old break cause (R51). -/
def State.grantAtOnce (s : State) (p : Port) (r : Request) (k : Lock) (owner : Half) (yield : Bool)
    (lease : Option Half) : State :=
  (s.setLock k ((s.lock k).granted p owner yield (lease.map BitVec.toNat) [])).respond p
    (r.response .ok (.granted ((s.lock k).generation + 1) (s.lock k).cause))

/-- A wait entry is appended; the holder may be asked to yield (R52, R75). -/
def State.enqueue (s : State) (p : Port) (r : Request) (k : Lock) (owner : Half) (yield : Bool)
    (lease : Option Half) : State :=
  let e : WaitEntry := { port := p, owner := owner, yield := yield, lease := lease.map BitVec.toNat }
  ((s.setLock k { s.lock k with queue := (s.lock k).queue ++ [e] }).askYield k).respond p
    (r.response .queued (.queuedAt ((s.lock k).queue.length + 1)))

/-- The BUSY response of an acquire that does not wait (R52). -/
def State.busyResponse (s : State) (r : Request) (k : Lock) : Response :=
  r.response .busy (.busy (s.lock k).phase.state (s.lock k).generation (s.lock k).queue.length)

/-- LOCK_ACQUIRE after R49 (R50, R51, R52). -/
def State.acquire (s : State) (p : Port) (r : Request) (wait yield : Bool) (owner : Half) (lease : Option Half)
    (k : Lock) : State :=
  if !s.leaseOk lease then s.respond p (r.response .badArg .empty)
  else if s.holds p k then s.respond p (r.response .already (.alreadyAt (s.lock k).generation 0))
  else if (s.lock k).queue.any (fun e => e.port == p) then
    s.respond p (r.response .already
      (.alreadyAt (s.lock k).generation ((s.lock k).queue.findIdx (fun e => e.port == p) + 1)))
  else if (s.lock k).phase = .free then s.grantAtOnce p r k owner yield lease
  else if wait then s.enqueue p r k owner yield lease
  else s.respond p (s.busyResponse r k)

/-- LOCK_ACQUIRE (R50). -/
def execLockAcquire (p : Port) (tag lock : Byte) (wait yield : Bool) (owner : Half) (lease : Option Half) (s : State) :
    Host.Outcome State Fault Refusal :=
  let r : Request := { tag := tag, op := .lockAcquire lock wait yield owner lease }
  .next (s.request p r (fun t => t.withLock p r lock (fun u k => u.acquire p r wait yield owner lease k)))

/-- The holder check of LOCK_RELEASE and LOCK_RENEW: NOT_HOLDER, STALE with the current generation, or on to `go`
(R55, R72). -/
def State.asHolder (s : State) (p : Port) (r : Request) (gen : Half) (k : Lock) (go : State → Holder → State) : State :=
  match (s.lock k).phase with
  | .held h =>
    if h.port = p then
      if (s.lock k).generation = gen then go s h
      else s.respond p (r.response .stale (.generation (s.lock k).generation))
    else s.respond p (r.response .notHolder .empty)
  | _ => s.respond p (r.response .notHolder .empty)

/-- LOCK_RELEASE (R55, R56): the response is withheld until the handoff. -/
def execLockRelease (p : Port) (tag lock : Byte) (gen : Half) (s : State) : Host.Outcome State Fault Refusal :=
  let r : Request := { tag := tag, op := .lockRelease lock gen }
  .next (s.request p r (fun t => t.withLock p r lock (fun u k =>
    u.asHolder p r gen k (fun v _ => v.endGrant k p (some tag)))))

/-- The lease after a renewal: it starts with the given duration; without one, a running lease restarts with its own, and
none stays none (R73). -/
def renewedLease (running : Option Lease) (given : Option Half) : Option Lease :=
  match given with
  | some d => some (Lease.start d.toNat)
  | none => running.map (fun x => Lease.start x.duration)

/-- LOCK_RENEW of the holder: the lease check, then the lease restarts or starts (R72, R73). -/
def State.renew (s : State) (p : Port) (r : Request) (lease : Option Half) (k : Lock) (h : Holder) : State :=
  if s.leaseInRange lease then
    (s.setLock k { s.lock k with phase := .held { h with lease := renewedLease h.lease lease } }).respond p
      (r.response .ok (.renewed (s.lock k).generation ((renewedLease h.lease lease).map Lease.duration)))
  else s.respond p (r.response .badArg .empty)

/-- LOCK_RENEW (R72, R73). -/
def execLockRenew (p : Port) (tag lock : Byte) (gen : Half) (lease : Option Half) (s : State) :
    Host.Outcome State Fault Refusal :=
  let r : Request := { tag := tag, op := .lockRenew lock gen lease }
  .next (s.request p r (fun t => t.withLock p r lock (fun u k =>
    u.asHolder p r gen k (fun v h => v.renew p r lease k h))))

/-- LOCK_CANCEL after R49 (R60). -/
def State.cancel (s : State) (p : Port) (r : Request) (k : Lock) : State :=
  if (s.lock k).queue.any (fun e => e.port == p) then
    (s.setLock k ((s.lock k).removeWaiter p)).respond p (r.response .ok .empty)
  else s.respond p (r.response .notWaiting .empty)

/-- LOCK_CANCEL (R60). -/
def execLockCancel (p : Port) (tag lock : Byte) (s : State) : Host.Outcome State Fault Refusal :=
  let r : Request := { tag := tag, op := .lockCancel lock }
  .next (s.request p r (fun t => t.withLock p r lock (fun u k => u.cancel p r k)))

/-- A running lease at its n-th reading: a free value, from 0 to what the reading before it found, is left (R61, R71;
log 5). -/
def Lease.fall (n : Nat) (x : Lease) : Lease := { x with remaining := Config.leaseRemaining n % (x.remaining + 1) }

/-- The record at a reading: the remaining time of a running lease has fallen (R71; log 5). -/
def LockRecord.fall (l : LockRecord) (n : Nat) : LockRecord :=
  match l.phase with
  | .held h => { l with phase := .held { h with lease := h.lease.map (Lease.fall n) } }
  | _ => l

/-- The snapshot of a lock record (R61). -/
def LockRecord.info (l : LockRecord) : LockInfo :=
  { state := l.phase.state
    holder := match l.phase with
      | .held h => some h.port
      | _ => none
    owner := match l.phase with
      | .held h => some h.owner
      | _ => none
    prev := match l.phase with
      | .releasing r => some r.prev
      | _ => none
    gen := l.generation
    queue := l.queue.map WaitEntry.port
    faultSeen := l.faultSeen
    cause := l.cause
    remaining := match l.phase with
      | .held h => h.lease.map Lease.remaining
      | _ => none }

/-- LOCK_QUERY after R49 (R61). The remaining time of a lease is what is left of it now, which no later reading exceeds
(R71; log 5). -/
def State.query (s : State) (p : Port) (r : Request) (k : Lock) : State :=
  ({ s.setLock k ((s.lock k).fall s.fresh) with fresh := s.fresh + 1 }).respond p
    (r.response .ok (.lockInfo ((s.lock k).fall s.fresh).info))

/-- LOCK_QUERY (R61). -/
def execLockQuery (p : Port) (tag lock : Byte) (s : State) : Host.Outcome State Fault Refusal :=
  let r : Request := { tag := tag, op := .lockQuery lock }
  .next (s.request p r (fun t => t.withLock p r lock (fun u k => u.query p r k)))

end Sys2Proof.Machine
end

