-- ==== Sys2Proof/Machine/NotifyCommands.lean ====
section
/-! DEFINITION. The meanings of NOTIFY and NOTICE_ACK (spec/07) and of FAULT_TAKE (spec/08). -/

namespace Sys2Proof.Machine

/-- A reservation with its watch; a watch reached already fires in the same event (R127, R128). -/
def State.reserve (s : State) (p : Port) (tag : Byte) (target : Port) (code : Word) : State :=
  let n : Note := { target := target, tag := tag, code := code, watched := (s.port p).writeSeq, cancelled := false }
  if watermarkReaches (s.port p).watermark (s.port p).writeSeq then s.fireNote p n
  else s.onPort p (fun P => { P with notes := P.notes ++ [n] })

/-- NOTIFY after the tag check (R126, checks 3 to 5, and R127). -/
def State.notify (s : State) (p : Port) (r : Request) (target : Byte) (code : Word) : State :=
  if h : target.toNat < 4 then
    let t : Port := ⟨target.toNat, h⟩
    if t = p then s.respond p (r.response .badArg .empty)
    else if (s.port t).session ≠ .online then s.respond p (r.response .targetAbsent .empty)
    else if Config.noticeRoom ≤ s.noticePlaces t then s.respond p (r.response .targetFull .empty)
    else s.reserve p r.tag t code
  else s.respond p (r.response .badArg .empty)

/-- NOTIFY (R126, R127). -/
def execNotify (p : Port) (tag target : Byte) (code : Word) (s : State) : Host.Outcome State Fault Refusal :=
  let r : Request := { tag := tag, op := .notify target code }
  .next (s.request p r (fun t => t.notify p r target code))

/-- The oldest delivered entry with a sequence number (R131). -/
def PortState.deliveredWith (P : PortState) (seq : Half) : Option Notice :=
  P.notices.find? (fun n => n.delivered && n.seq.setWidth 16 == seq)

/-- NOTICE_ACK after the tag check (R131, checks 3 and 4). -/
def State.acknowledge (s : State) (p : Port) (r : Request) (seq : Half) : State :=
  if 255 < seq.toNat then s.respond p (r.response .badArg .empty)
  else
    match (s.port p).deliveredWith seq with
    | none => s.respond p (r.response .stale .empty)
    | some n =>
      (s.onPort p (fun P => { P with notices := P.notices.erase n })).respond p
        (r.response .ok (.acknowledged n.sender n.code))

/-- NOTICE_ACK (R131). -/
def execNoticeAck (p : Port) (tag : Byte) (seq : Half) (s : State) : Host.Outcome State Fault Refusal :=
  let r : Request := { tag := tag, op := .noticeAck seq }
  .next (s.request p r (fun t => t.acknowledge p r seq))

/-- FAULT_TAKE after the tag check (R148). -/
def State.faultTake (s : State) (p : Port) (r : Request) : State :=
  match (s.port p).faults with
  | x :: _ => (s.onPort p (·.takeFault)).respond p (r.response .ok (.faultTaken x (s.port p).lost))
  | [] => (s.onPort p (·.takeFault)).respond p (r.response .empty (.noFault (s.port p).lost))

/-- FAULT_TAKE (R148). -/
def execFaultTake (p : Port) (tag : Byte) (s : State) : Host.Outcome State Fault Refusal :=
  let r : Request := { tag := tag, op := .faultTake }
  .next (s.request p r (fun t => t.faultTake p r))

end Sys2Proof.Machine
end

