-- ==== Sys2Proof/Machine/Sessions.lean ====
section
/-! DEFINITION. The meanings of HELLO, LEAVE, the link-state signals and the device reset (spec/09, spec/10 R172). -/

namespace Sys2Proof.Machine

/-- HELLO once taken, by the session state (R153, R154): in CLOSING it is held before any check (R89). -/
def State.takeHello (s : State) (p : Port) (r : Request) (revision fault : Byte) : State :=
  match (s.port p).session with
  | .offline => s.helloOffline p r revision fault
  | .online =>
    s.tagCheck p r (fun t => t.respond p (r.response .already (.session p (t.port p).sessionNo)))
  | .leaving => s.onPort p (·.answer (r.response .departing .empty))
  | .closing => s.placeHold p r

/-- HELLO (R153, R154). -/
def execHello (p : Port) (tag revision fault : Byte) (s : State) : Host.Outcome State Fault Refusal :=
  let r : Request := { tag := tag, op := .hello revision fault }
  .next (if s.takes p r then (s.taken p).takeHello p r revision fault else s)

/-- LEAVE (R155). -/
def execLeave (p : Port) (tag : Byte) (s : State) : Host.Outcome State Fault Refusal :=
  .next (s.request p { tag := tag, op := .leave } (fun t => t.leaveEvent p tag))

/-- The link-state signal rises (R152); the session state is unchanged. -/
def execLinkUp (p : Port) (s : State) : Host.Outcome State Fault Refusal :=
  .next (s.onPort p (fun P => { P with link := .up }))

/-- The link-state signal falls (R152, R158). -/
def execLinkDown (p : Port) (s : State) : Host.Outcome State Fault Refusal := .next (s.linkFalls p)

/-- RESET_N goes low (R161). -/
def execDeviceReset (s : State) : Host.Outcome State Fault Refusal := .next { s.toReset with resetN := false }

/-- A supply falls out of range or REFCLK stops: device reset, as for RESET_N low (R172). -/
def execSupplyOrRefclkLoss (s : State) : Host.Outcome State Fault Refusal := .next { s.toReset with powerGood := false }

/-- The part leaves device reset: RESET_N is high, the supplies are in range and REFCLK has run (R172). Each port's link
state is the level of its link-state signal already (log 19). -/
def execResetRelease (s : State) : Host.Outcome State Fault Refusal := .next { s with resetN := true, powerGood := true }

end Sys2Proof.Machine
end

