-- ==== Sys2Proof/Machine/Timers.lean ====
section
/-! DEFINITION. The meanings of the timers' running out (R32, R74, R78, R116) and of the pool bus (R110, R112 to R115). A
timer that is not running cannot run out, and its command has no effect (log 4). -/

namespace Sys2Proof.Machine

/-- The idle timer runs out: the OPEN edit is discarded and EDIT_EXPIRED raised for the former owner (R32). -/
def execEditIdleExpiry (s : State) : Host.Outcome State Fault Refusal :=
  .next (match s.edit with
    | .opened o => s.discardEdit.raise o.owner .editExpired
    | _ => s)

/-- The lock is HELD with a running lease. -/
def LockRecord.leaseRuns (l : LockRecord) : Bool :=
  match l.phase with
  | .held h => h.lease.isSome
  | _ => false

/-- The lock is HELD with a running yield deadline. -/
def LockRecord.deadlineRuns (l : LockRecord) : Bool :=
  match l.phase with
  | .held h => h.deadline.isSome
  | _ => false

/-- A lease runs out: the grant is revoked with EXPIRED (R74, R79). -/
def execLeaseExpiry (lock : Lock) (s : State) : Host.Outcome State Fault Refusal :=
  .next (if (s.lock lock).leaseRuns then s.revoke lock .expired else s)

/-- A yield deadline runs out: the grant is revoked with YIELD_TIMEOUT (R78, R79). -/
def execYieldDeadlineExpiry (lock : Lock) (s : State) : Host.Outcome State Fault Refusal :=
  .next (if (s.lock lock).deadlineRuns then s.revoke lock .yieldTimeout else s)

/-- A slot's access timer runs out (R116). -/
def execAccessTimerExpiry (slot : SlotNo) (s : State) : Host.Outcome State Fault Refusal := .next (s.takeTimeout slot)

/-- A DONE reply (R112, R113). -/
def execReplyDone (slot issue : Byte) (data : List Byte) (s : State) : Host.Outcome State Fault Refusal :=
  .next (match s.answered slot issue with
    | some (n, j) => s.takeDone n j data
    | none => s)

/-- An ERROR reply (R112, R114); one that carries data is an ERROR reply all the same. -/
def execReplyError (slot issue : Byte) (_data : List Byte) (s : State) : Host.Outcome State Fault Refusal :=
  .next (match s.answered slot issue with
    | some (n, j) => s.endJob n j (.failed .targetError)
    | none => s)

/-- A RETRY reply (R112, R115). -/
def execReplyRetry (slot issue : Byte) (data : List Byte) (s : State) : Host.Outcome State Fault Refusal :=
  .next (match s.answered slot issue with
    | some (n, j) => s.takeRetry n j data
    | none => s)

/-- One run of the slot arbiter; nothing is issued in device reset (R110, R161). -/
def execSlotArbiterRun (s : State) : Host.Outcome State Fault Refusal := .next (if s.running then s.arbiterRun else s)

end Sys2Proof.Machine
end

