-- ==== Sys2Proof/Machine/Dispatch.lean ====
section
/-! DEFINITION. One arm for each command: the command's effect on everything but the queue. -/

namespace Sys2Proof.Machine

open Sys2Proof

def exec (i : Instr) (s : State) : Host.Outcome State Fault Refusal :=
  match i with
  | .hello p tag revision fault => Sys2Proof.Machine.execHello p tag revision fault s
  | .leave p tag => Sys2Proof.Machine.execLeave p tag s
  | .read p tag addr len => Sys2Proof.Machine.execRead p tag addr len s
  | .write p tag addr len data => Sys2Proof.Machine.execWrite p tag addr len data s
  | .mapRead p tag row view => Sys2Proof.Machine.execMapRead p tag row view s
  | .mapOpen p tag expected => Sys2Proof.Machine.execMapOpen p tag expected s
  | .mapStage p tag row => Sys2Proof.Machine.execMapStage p tag row s
  | .mapUnstage p tag row => Sys2Proof.Machine.execMapUnstage p tag row s
  | .mapAbort p tag => Sys2Proof.Machine.execMapAbort p tag s
  | .mapCommit p tag => Sys2Proof.Machine.execMapCommit p tag s
  | .lockAcquire p tag lock wait yield owner lease => Sys2Proof.Machine.execLockAcquire p tag lock wait yield owner lease s
  | .lockRelease p tag lock gen => Sys2Proof.Machine.execLockRelease p tag lock gen s
  | .lockRenew p tag lock gen lease => Sys2Proof.Machine.execLockRenew p tag lock gen lease s
  | .lockCancel p tag lock => Sys2Proof.Machine.execLockCancel p tag lock s
  | .lockQuery p tag lock => Sys2Proof.Machine.execLockQuery p tag lock s
  | .notify p tag target code => Sys2Proof.Machine.execNotify p tag target code s
  | .noticeAck p tag seq => Sys2Proof.Machine.execNoticeAck p tag seq s
  | .faultTake p tag => Sys2Proof.Machine.execFaultTake p tag s
  | .configRead p tag item index => Sys2Proof.Machine.execConfigRead p tag item index s
  | .configWrite p tag item index value => Sys2Proof.Machine.execConfigWrite p tag item index value s
  | .configWriteSubscribe p tag index value => Sys2Proof.Machine.execConfigWriteSubscribe p tag index value s
  | .configWriteSlotQuota p tag index value => Sys2Proof.Machine.execConfigWriteSlotQuota p tag index value s
  | .frameReceipt p bytes => Sys2Proof.Machine.execFrameReceipt p bytes s
  | .linkUp p => Sys2Proof.Machine.execLinkUp p s
  | .linkDown p => Sys2Proof.Machine.execLinkDown p s
  | .deviceReset => Sys2Proof.Machine.execDeviceReset s
  | .supplyOrRefclkLoss => Sys2Proof.Machine.execSupplyOrRefclkLoss s
  | .resetRelease => Sys2Proof.Machine.execResetRelease s
  | .editIdleExpiry => Sys2Proof.Machine.execEditIdleExpiry s
  | .leaseExpiry lock => Sys2Proof.Machine.execLeaseExpiry lock s
  | .yieldDeadlineExpiry lock => Sys2Proof.Machine.execYieldDeadlineExpiry lock s
  | .accessTimerExpiry slot => Sys2Proof.Machine.execAccessTimerExpiry slot s
  | .replyDone slot issue data => Sys2Proof.Machine.execReplyDone slot issue data s
  | .replyError slot issue data => Sys2Proof.Machine.execReplyError slot issue data s
  | .replyRetry slot issue data => Sys2Proof.Machine.execReplyRetry slot issue data s
  | .slotArbiterRun => Sys2Proof.Machine.execSlotArbiterRun s
  | .sendResponse p => Sys2Proof.Machine.execSendResponse p s
  | .sendEvent p => Sys2Proof.Machine.execSendEvent p s

end Sys2Proof.Machine
end

