-- ==== Sys2Proof/Safety.lean ====
section
/-! DEFINITION. The vocabulary of the claims: a request command's port and request, a request that is ready, the three
plain outcomes of a taken request, the rules of acceptance said byte by byte, and the invariants of the part. No
definition of the machine uses them. -/

namespace Sys2Proof.Machine

open Sys2Proof

/-! ## Requests -/

/-- The port and the request a request command names; none for the other commands. -/
def requestOf : Instr → Option (Port × Request)
  | .hello p tag revision fault => some (p, { tag := tag, op := .hello revision fault })
  | .leave p tag => some (p, { tag := tag, op := .leave })
  | .read p tag addr len => some (p, { tag := tag, op := .read addr len })
  | .write p tag addr len data => some (p, { tag := tag, op := .write addr len data })
  | .mapRead p tag row view => some (p, { tag := tag, op := .mapRead row view })
  | .mapOpen p tag expected => some (p, { tag := tag, op := .mapOpen expected })
  | .mapStage p tag row => some (p, { tag := tag, op := .mapStage row })
  | .mapUnstage p tag row => some (p, { tag := tag, op := .mapUnstage row })
  | .mapAbort p tag => some (p, { tag := tag, op := .mapAbort })
  | .mapCommit p tag => some (p, { tag := tag, op := .mapCommit })
  | .lockAcquire p tag lock wait yield owner lease =>
    some (p, { tag := tag, op := .lockAcquire lock wait yield owner lease })
  | .lockRelease p tag lock gen => some (p, { tag := tag, op := .lockRelease lock gen })
  | .lockRenew p tag lock gen lease => some (p, { tag := tag, op := .lockRenew lock gen lease })
  | .lockCancel p tag lock => some (p, { tag := tag, op := .lockCancel lock })
  | .lockQuery p tag lock => some (p, { tag := tag, op := .lockQuery lock })
  | .notify p tag target code => some (p, { tag := tag, op := .notify target code })
  | .noticeAck p tag seq => some (p, { tag := tag, op := .noticeAck seq })
  | .faultTake p tag => some (p, { tag := tag, op := .faultTake })
  | .configRead p tag item index => some (p, { tag := tag, op := .configRead item index })
  | .configWrite p tag item index value => some (p, { tag := tag, op := .configWrite item index value })
  | .configWriteSubscribe p tag index value => some (p, { tag := tag, op := .configWrite 8#8 index value })
  | .configWriteSlotQuota p tag index value => some (p, { tag := tag, op := .configWrite 7#8 index value })
  | _ => none

/-- The request is a HELLO. -/
def ReqOp.isHello : ReqOp → Bool
  | .hello .. => true
  | _ => false

/-- The request stands at the head of the intake queue of an ONLINE port, no stall condition of R88 holds, and it passes
the tag check of R90. -/
def State.ready (s : State) (p : Port) (r : Request) : Bool :=
  s.takes p r && (s.port p).session == .online && decide (r.tag.toNat ≤ 31) && !(s.port p).tags.contains r.tag

/-- A frame may be arriving once the request at the head of the intake queue is taken: one was, or there was room for one to
begin (R87, R166; log 3). -/
def PortState.arriving (P : PortState) : Bool := P.begun || (decide (P.intake.length < 8) && decide (P.places < 32))

/-- What changes when the request at the head of a port's intake queue is taken and answered at once: it leaves the queue,
uses a response place, and its response is queued (R86, R91, R92; log 3). -/
def State.answeredNow (s : State) (p : Port) (x : Response) : State :=
  s.setPort p { s.port p with
    intake := (s.port p).intake.tail, places := (s.port p).places + 1, begun := (s.port p).arriving
    respQ := (s.port p).respQ ++ [x] }

/-- What changes when the request at the head of a port's intake queue is taken and not answered yet: it leaves the queue,
uses a response place, and its tag is outstanding (R86, R90, R92; log 3). -/
def State.takenOpen (s : State) (p : Port) (tag : Byte) : State :=
  s.setPort p { s.port p with
    intake := (s.port p).intake.tail, places := (s.port p).places + 1, begun := (s.port p).arriving
    tags := (s.port p).tags ++ [tag] }

/-- A response to a request with this status and body. -/
def Request.reply (r : Request) (status : Status) (body : Body) : Response :=
  { code := r.op.code, tag := r.tag, status := status, body := body }

/-- What every request but HELLO meets before its own checks: the session check, then the tag check (R8, R24, R49, R90). A
refusal and a discard change only the port's own intake, places, responses and fault list. -/
def checkedFirst (c : Instr) (p : Port) (r : Request) : Prop :=
  ∀ s : State, s.takes p r = true →
    (((s.port p).session = .offline ∨ (s.port p).session = .closing) →
      exec c s = .next (s.answeredNow p (r.reply .notOnline .empty))) ∧
    ((s.port p).session = .leaving → exec c s = .next (s.answeredNow p (r.reply .departing .empty))) ∧
    ((s.port p).session = .online → 31 < r.tag.toNat →
      exec c s = .next (s.answeredNow p (r.reply .badArg .empty))) ∧
    ((s.port p).session = .online → r.tag.toNat ≤ 31 → r.tag ∈ (s.port p).tags →
      exec c s = .next (s.onPort p (fun P =>
        ({ P with intake := P.intake.tail, begun := P.arriving }).record (.duplicateTag r.tag))))

/-! ## Device reset -/

/-- Every block of t holds its reset values, and each port's link state is what it was in s (Tables 5-1, 6-1, 7-3, 8-1, 9-1,
10-7; R4, R23, R47). That no frame and no abort is remembered (tx, busAbort) is the model's choice (log 16), and so is the
mark of a frame that may be arriving (begun; log 3). -/
def resetValues (s t : State) : Prop :=
  (∀ p, t.port p =
    { link := (s.port p).link, begun := false, session := .offline, sessionNo := 0#8, pendingLeave := none,
      intake := [], places := 0, tags := [], hold := none, respQ := [], writeQ := [], readL := [], writeSeq := 0#32, watermark := 0#32,
      events := [], subRev := false, subFault := false, faults := [], lost := 0, notes := [], notices := [],
      noticeSeq := 0#8, tx := none }) ∧
    (∀ r, (t.row r).valid = false ∧ (t.row r).frame = 0#18 ∧ (t.row r).cls = .memory ∧
      (∀ p : Port, (t.row r).rights.get p = .none) ∧ (t.row r).posting = false ∧ (t.row r).guard = none) ∧
    t.revision = 0#16 ∧ t.edit = .absent ∧
    (∀ k, t.lock k = { phase := .free, generation := 0#16, faultSeen := false, cause := .none, queue := [] }) ∧
    (∀ n, t.slot n = { issueNo := 0#8, job := none }) ∧ t.rr = 3 ∧ t.busAbort = none ∧
    t.config = { leaseRequired := false, leaseMax := 65535, yieldGrace := 0, editIdle := 250, poolTime := 64,
                 poolRetries := 3, slotQuota := 4 }

/-! ## Acceptance, byte by byte -/

/-- The row record of the byte at shared-view address x (R1). -/
def State.rowAt (s : State) (x : Nat) : RowRecord := s.row (rowIndex x)

/-- Every byte of the range satisfies a condition on its address. -/
def everyByte (a len : Nat) (f : Nat → Prop) : Prop := ∀ x, a ≤ x → x < a + len → f x

/-- Some byte of the range satisfies a condition on its address. -/
def someByte (a len : Nat) (f : Nat → Prop) : Prop := ∃ x, a ≤ x ∧ x < a + len ∧ f x

/-- A DEVICE access is of length 1, 2, 4 or 8 and aligned to its length (R13). -/
def deviceAccess (a len : Nat) : Prop := (len = 1 ∨ len = 2 ∨ len = 4 ∨ len = 8) ∧ a % len = 0

/-! ## Staged content -/

/-- The content of a MAP_STAGE is ill formed (R27, check 3; Table 10-3). -/
def RawRow.illFormed (r : RawRow) : Prop :=
  512 ≤ r.row.toNat ∨ 262143 < r.frame.toNat ∨ 1 < r.cls.toNat ∨
    (r.rights.toNat % 4 = 3 ∨ r.rights.toNat / 4 % 4 = 3 ∨ r.rights.toNat / 16 % 4 = 3 ∨ r.rights.toNat / 64 = 3) ∨
    (r.guard ≠ 0xFF#8 ∧ (r.guard.toNat = 0 ∨ 32 ≤ r.guard.toNat)) ∨ (r.cls.toNat = 1 ∧ r.posting = true)

/-! ## Responses and handoffs -/

/-- The port is ONLINE or LEAVING, so that responses and items reach it. -/
def PortState.reached (P : PortState) : Prop := P.session = .online ∨ P.session = .leaving

/-- A response is among those queued to a port in an event. -/
def answers (s t : State) (p : Port) (x : Response) : Prop :=
  ∃ before after, (t.port p).respQ = (s.port p).respQ ++ before ++ x :: after

/-- The cause a handoff reports: WRITE_FAILED when a guarded write failed and no earlier cause stands (R57, R63). -/
def LockRecord.reported (l : LockRecord) : BreakCause :=
  if l.faultSeen = true ∧ l.cause = .none then .writeFailed else l.cause

/-- The record of a lock after its handoff, being l before: FREE, or granted to the head of its queue, who is asked to yield
at once when it agreed to and others wait (R57, R62, R75, R76). -/
def State.passedOn (s : State) (l : LockRecord) : LockRecord :=
  match l.queue with
  | [] => { phase := .free, generation := l.generation, faultSeen := false, cause := l.reported, queue := [] }
  | e :: rest =>
    { phase := .held
        { port := e.port, owner := e.owner, yield := e.yield
          lease := e.lease.map (fun d => { duration := d, remaining := d })
          yieldSent := e.yield && !rest.isEmpty
          deadline := if e.yield = true ∧ rest ≠ [] ∧ s.config.yieldGrace ≠ 0 then some s.config.yieldGrace else none }
      generation := l.generation + 1, faultSeen := false, cause := .none, queue := rest }

/-- The record of a lock without the wait entry of port p: the other entries keep their order, and a yield deadline stops
when the queue of a HELD lock is empty then (R53, R66, R67, R77). -/
def LockRecord.withoutWait (l : LockRecord) (p : Port) : LockRecord :=
  { l with
    queue := l.queue.filter (fun e => e.port != p)
    phase := match l.phase with
      | .held h => .held (if ∀ e ∈ l.queue, e.port = p then { h with deadline := none } else h)
      | other => other }

/-- The record of a lock after an event in which the watermark of port p becomes w, being l before: handed off when its
handoff watch is on p and reached (R57, R98). -/
def State.afterAdvance (s : State) (p : Port) (w : Word) (l : LockRecord) : LockRecord :=
  match l.phase with
  | .releasing r => if r.prev = p ∧ watermarkReaches w r.watch = true then s.passedOn l else l
  | _ => l

/-! ## The ends of a piece -/

/-- A piece in the slot fails by this command: by ERROR, by RETRY without retries left, or by the access timer. -/
def failsBy (c : Instr) (n : SlotNo) (slot issue : Byte) (j : Job) (sub : SubStatus) : Prop :=
  (∃ data, c = .replyError slot issue data ∧ sub = .targetError) ∨
    (c = .replyRetry slot issue [] ∧ j.retryLimit ≤ j.retries ∧ sub = .retryExhausted) ∨
    (c = .accessTimerExpiry n ∧ sub = .timeout)

/-- The piece of job j in slot n ends by this command: by a DONE reply that fits it, or failed (R112 to R116). -/
def endsPiece (c : Instr) (s : State) (n : SlotNo) (j : Job) (e : Ending) : Prop :=
  s.running = true ∧ (s.slot n).job = some j ∧ ∃ slot : Byte, slot.toNat = n.val ∧
    ((∃ data, c = .replyDone slot (s.slot n).issueNo data ∧ (j.dir = .read → data.length = j.len) ∧
        (j.dir = .write → data = []) ∧ e = .well data) ∨
      ∃ sub, failsBy c n slot (s.slot n).issueNo j sub ∧ e = .failed sub)

/-- The end of a piece fails. -/
def Ending.fails : Ending → Bool
  | .well _ => false
  | .failed _ => true

/-- The first failure of a request after the end of the piece at this address (R118). -/
def firstFailure (old : Option Failure) (e : Ending) (addr : Word) : Option Failure :=
  match e with
  | .well _ => old
  | .failed sub => old.or (some { sub := sub, addr := addr })

/-- With the end of piece n its request completes: no other piece is in flight, and no other is left to issue unless the
request issues none any more (R104, R118). -/
def lastPiece (pieces : List Piece) (n : Nat) (stopped : Bool) : Prop :=
  ∀ i y, i ≠ n → pieces[i]? = some y → y.cond ≠ .inFlight ∧ (stopped = false → y.cond ≠ .unissued)

/-- No slot but n works on a piece of the port. -/
def State.onlySlot (s : State) (n : SlotNo) (p : Port) : Prop :=
  ∀ m j, m ≠ n → (s.slot m).job = some j → j.port ≠ p

/-! ## What the end of a request brings about

In these, s is the part with the completed request out of its list, and t the part after the event. -/

/-- A held READ or WRITE of a port is taken again at a commit's completion (R41): the hold slot is empty, and the request is
refused or accepted as the checks find it through the new map. u is the part as the completion finds it; a lock that a
handoff of the same event passes on may stand before or after it (log 6). -/
def retaken (s t : State) (q : Port) (r : Request) : Prop :=
  (t.port q).hold = none ∧ ∃ u : State, u.map = t.map ∧ u.edit = .absent ∧
    (∀ k, u.holds q k = s.holds q k ∨ u.holds q k = t.holds q k) ∧
    (∀ addr len, r.op = .read addr len →
      (∀ st, u.judge q false addr.toNat len.toNat = .refuse st → answers s t q (r.reply st .empty) ∧
        r.tag ∉ (t.port q).tags ∧ (t.port q).readL = (s.port q).readL) ∧
      (u.judge q false addr.toNat len.toNat = .accept → (t.port q).readL = (s.port q).readL ++
        [{ tag := r.tag, addr := addr, len := len.toNat, parts := t.translate addr.toNat len.toNat
           fence := (s.port q).writeSeq
           pieces := makePieces (t.translate addr.toNat len.toNat) addr.toNat len.toNat
           failed := none, cut := false }])) ∧
    (∀ addr len data, r.op = .write addr len data →
      (∀ st, u.judge q true addr.toNat len.toNat = .refuse st → answers s t q (r.reply st .empty) ∧
        r.tag ∉ (t.port q).tags ∧ (t.port q).writeQ = (s.port q).writeQ ∧
        (t.port q).writeSeq = (s.port q).writeSeq) ∧
      (u.judge q true addr.toNat len.toNat = .accept → ∃ e : WriteEntry, e.seq = (s.port q).writeSeq + 1 ∧
        e.tag = r.tag ∧ e.addr = addr ∧ e.len = len.toNat ∧ e.data = data ∧
        e.parts = t.translate addr.toNat len.toNat ∧
        e.pieces = makePieces (t.translate addr.toNat len.toNat) addr.toNat len.toNat ∧
        e.failed = none ∧ e.completed = false ∧
        (e.posted = true ↔ everyByte addr.toNat len.toNat
          (fun x => (t.rowAt x).cls = .memory ∧ (t.rowAt x).posting = true)) ∧
        (∀ k, k ∈ e.guards.map GuardMark.lock ↔ someByte addr.toNat len.toNat
          (fun x => (t.rowAt x).guard = some k)) ∧
        (t.port q).writeQ = (s.port q).writeQ ++ [e] ∧ (t.port q).writeSeq = e.seq ∧
        (e.posted = true → answers s t q (r.reply .ok (.written e.seq none)) ∧ r.tag ∉ (t.port q).tags)))

/-- The commit of the edit c completes in the event (R39, R40, R41, R44): the rows and the revision change and the edit is NONE;
its owner is answered, unless it departed; every subscribed port that is ONLINE or LEAVING has the REVISION item of this
revision and no other port a new one (log 8); and the held READs and WRITEs are taken again. -/
def committed (s t : State) (c : CommitEdit) : Prop :=
  t.edit = .absent ∧ t.revision = s.revision + 1 ∧
    ((c.change.map Staged.row).Nodup → ∀ x ∈ c.change, t.row x.row = x.content) ∧
    (∀ r, (∀ x ∈ c.change, x.row ≠ r) → t.row r = s.row r) ∧
    (c.departed = false → (s.port c.owner).reached → c.tag ∉ (t.port c.owner).tags ∧
      answers s t c.owner { code := 0x15#8, tag := c.tag, status := .ok, body := .revision (s.revision + 1) }) ∧
    (c.departed = true → ∀ q, ∀ x ∈ (t.port q).respQ, x.code = 0x15#8 → x ∈ (s.port q).respQ) ∧
    (∀ q v, (s.port q).reached → (s.port q).subRev = true →
      (.revision v ∈ (t.port q).events ↔ v = s.revision + 1)) ∧
    (∀ q v, (s.port q).session = .offline ∨ ((s.port q).reached ∧ (s.port q).subRev = false) →
      (.revision v ∈ (t.port q).events ↔ .revision v ∈ (s.port q).events)) ∧
    ∀ q r, (s.port q).session = .online → (s.port q).hold = some r → (r.op.isRead = true ∨ r.op.isWrite = true) →
      retaken s t q r

/-- A request leaves the drain set of a commit in progress in the event (R36): the commit goes on with the rest of the set and
keeps its holds, or completes when nothing is left (R39). With no commit in progress the edit stays as it is. -/
def drained (s t : State) (p : Port) (ref : ReqRef) : Prop :=
  ((∀ c, s.edit ≠ .committing c) → t.edit = s.edit ∧ t.map = s.map ∧ t.revision = s.revision ∧
    ∀ q, (s.port q).reached → (t.port q).hold = (s.port q).hold) ∧
  ∀ c left, s.edit = .committing c → left = c.drain.filter (fun d => d != { port := p, ref := ref }) →
    (left ≠ [] → t.edit = .committing { c with drain := left } ∧ t.map = s.map ∧ t.revision = s.revision ∧
      ∀ q, (s.port q).reached → (t.port q).hold = (s.port q).hold) ∧
    (left = [] → committed s t c)

/-- The LEAVE response of a LEAVING port is queued, behind every other response of the event, exactly when it is due: the
watch is reached by the watermark w, the port's work has ended, and no tag but the LEAVE's is outstanding (R156). -/
def leaveSettled (s t : State) (p : Port) (w : Word) (ended : Prop) : Prop :=
  ∀ l, (s.port p).session = .leaving → (s.port p).pendingLeave = some l →
    ((watermarkReaches w l.watch = true ∧ ended ∧ ∀ x ∈ (t.port p).tags, x = l.tag) →
      (t.port p).pendingLeave = none ∧ ∃ others, (t.port p).respQ = (s.port p).respQ ++ others ++
        [{ code := 0x02#8, tag := l.tag, status := .ok, body := .left (s.port p).sessionNo (s.port p).writeSeq }]) ∧
    (¬ (watermarkReaches w l.watch = true ∧ ended ∧ ∀ x ∈ (t.port p).tags, x = l.tag) →
      (t.port p).pendingLeave = some l)

/-- What a port holds (R89): a READ or WRITE while it is ONLINE, a HELLO while it is CLOSING. -/
def PortState.holdLegal (P : PortState) : Prop :=
  ∀ r, P.hold = some r → (P.session = .online ∧ (r.op.isRead = true ∨ r.op.isWrite = true)) ∨
    (P.session = .closing ∧ r.op.isHello = true)

/-- What becomes of a CLOSING port in the event (R104, R142, R159): it stays CLOSING while its order unit has work; it becomes
OFFLINE, its items, records and subscriptions cleared, at the end of it; and then a held HELLO is taken again, and refused,
discarded for an outstanding tag, or the start of a session. No other response reaches it. A commit's completion in the same
event comes before or after (log 7). The premise on the hold slot is an invariant (R89). -/
def closingSettled (s t : State) (p : Port) (quiet : Prop) : Prop :=
  (s.port p).session = .closing → (s.port p).holdLegal →
    (¬ quiet → (t.port p).session = .closing ∧ (t.port p).respQ = (s.port p).respQ ∧
      (t.port p).hold = (s.port p).hold ∧ (t.port p).events = (s.port p).events ∧
      (t.port p).faults = (s.port p).faults) ∧
    (quiet → (t.port p).faults = [] ∧ (t.port p).lost = 0 ∧
      ((∀ tag rev fault, (s.port p).hold ≠ some { tag := tag, op := .hello rev fault }) →
        (t.port p).session = .offline ∧ (t.port p).respQ = (s.port p).respQ ∧ (t.port p).events = [] ∧
        (t.port p).subRev = false ∧ (t.port p).subFault = false) ∧
      (∀ tag rev fault, (s.port p).hold = some { tag := tag, op := .hello rev fault } → (t.port p).hold = none ∧
        ((31 < tag.toNat ∨ (tag ∉ (s.port p).tags ∧ (1 < rev.toNat ∨ 1 < fault.toNat))) →
          (t.port p).session = .offline ∧ (t.port p).events = [] ∧ (t.port p).respQ = (s.port p).respQ ++
            [{ code := 0x01#8, tag := tag, status := .badArg, body := .empty }]) ∧
        (tag.toNat ≤ 31 → tag ∈ (s.port p).tags →
          (t.port p).session = .offline ∧ (t.port p).events = [] ∧ (t.port p).respQ = (s.port p).respQ) ∧
        (tag.toNat ≤ 31 → tag ∉ (s.port p).tags → rev.toNat ≤ 1 → fault.toNat ≤ 1 →
          (t.port p).session = .online ∧ (t.port p).sessionNo = (s.port p).sessionNo + 1 ∧
          (t.port p).writeSeq = 0#32 ∧ (t.port p).watermark = 0#32 ∧ (t.port p).subRev = (rev == 1#8) ∧
          (t.port p).subFault = (fault == 1#8) ∧ (t.revision = s.revision → (t.port p).events = []) ∧
          ∃ v later, (v = s.revision ∨ v = t.revision) ∧ (t.revision = s.revision → later = []) ∧
            (t.port p).respQ = (s.port p).respQ ++
              { code := 0x01#8, tag := tag, status := .ok
                body := .welcome p ((s.port p).sessionNo + 1) v 0x54#8 0x12#8 } :: later)))

/-! ## Fired notifications -/

/-- The NOTIFYs of port p whose watch the watermark w reaches, toward a target whose queue they still hold a place of. -/
def PortState.firing (P : PortState) (w : Word) (q : Port) : List Note :=
  P.notes.filter (fun n => watermarkReaches w n.watched && !n.cancelled && n.target == q)

/-- The NOTIFYs of port p that its watermark w reaches fire (R98, R128, R134): each is gone; each reservation becomes an entry
of its target's queue, in order, with the next sequence numbers, and is answered with its number; each cancelled one is
answered TARGET_ABSENT. -/
def notified (s t : State) (p : Port) (w : Word) : Prop :=
  (t.port p).notes = (s.port p).notes.filter (fun n => !watermarkReaches w n.watched) ∧
    (∀ q, (t.port q).notices = (s.port q).notices ++ ((s.port p).firing w q).mapIdx (fun i n =>
      { sender := p, code := n.code, seq := (s.port q).noticeSeq + BitVec.ofNat 8 i, delivered := false })) ∧
    (∀ q, (t.port q).noticeSeq = (s.port q).noticeSeq + BitVec.ofNat 8 ((s.port p).firing w q).length) ∧
    ((s.port p).reached →
      (∀ q i n, ((s.port p).firing w q)[i]? = some n → n.tag ∉ (t.port p).tags ∧ answers s t p
        { code := 0x30#8, tag := n.tag, status := .ok
          body := .noticeSeq ((s.port q).noticeSeq + BitVec.ofNat 8 i) }) ∧
      (∀ n ∈ (s.port p).notes, watermarkReaches w n.watched = true → n.cancelled = true → n.tag ∉ (t.port p).tags ∧
        answers s t p { code := 0x30#8, tag := n.tag, status := .targetAbsent, body := .target n.target }))

/-! ## What a port offers -/

/-- A request with nothing left to issue: failed, or with every piece issued (R101, R102). -/
def spent (pieces : List Piece) (stopped : Bool) : Prop := stopped = true ∨ ∀ x ∈ pieces, x.cond ≠ .unissued

/-- The first unissued piece of a request. -/
def nextUnissued (pieces : List Piece) (n : Nat) : Prop :=
  (∃ x, pieces[n]? = some x ∧ x.cond = .unissued) ∧ ∀ i x, i < n → pieces[i]? = some x → x.cond ≠ .unissued

/-! ## Invariants -/

/-- Every global item is in its range (Table 10-7). -/
def ConfigTable.inRange (c : ConfigTable) : Prop :=
  (1 ≤ c.leaseMax ∧ c.leaseMax ≤ 65535) ∧ c.yieldGrace ≤ 65535 ∧ (10 ≤ c.editIdle ∧ c.editIdle ≤ 2000) ∧
    (1 ≤ c.poolTime ∧ c.poolTime ≤ 255) ∧ c.poolRetries ≤ 15 ∧ (1 ≤ c.slotQuota ∧ c.slotQuota ≤ 8)

/-- A row record can stand in the map: a DEVICE row has posting no, and a guard is a lock from 1 to 31 (R3). -/
def RowRecord.legal (c : RowRecord) : Prop := (c.cls = .device → c.posting = false) ∧ c.guard ≠ some 0

/-- A list of staged rows: legal contents, no row twice, at most 32 (R23, R27). -/
def legalStaged (l : List Staged) : Prop :=
  (∀ x ∈ l, x.content.legal) ∧ (l.map Staged.row).Nodup ∧ l.length ≤ Config.stagedRoom

/-- The rows the edit holds are legal, and its base revision is the current revision (R23, R25). -/
def Edit.legal (e : Edit) (revision : Half) : Prop :=
  match e with
  | .absent => True
  | .opened o => legalStaged o.staged ∧ o.base = revision
  | .committing c => legalStaged c.change ∧ c.base = revision

/-- The map invariant: every row of the map and of the edit is legal (R3, R23, R25). -/
def State.mapLegal (s : State) : Prop := (∀ r, (s.row r).legal) ∧ s.edit.legal s.revision

/-- The event set of a port: no two items with the same key, no item the port does not subscribe to (R137, R139, R144). -/
def PortState.eventsLegal (P : PortState) : Prop :=
  P.events.Pairwise (fun a b => a.sameKey b = false) ∧
    (P.subRev = false → ∀ it ∈ P.events, it.sameKey (.revision 0#16) = false) ∧
    (P.subFault = false → ∀ it ∈ P.events, it.sameKey .fault = false)

/-- The fault list of a port: at most 8 records, a lost count of at most 255, above 0 only beside 8 records; a FAULT item
only while there is something to report (R145 to R148). -/
def PortState.faultsLegal (P : PortState) : Prop :=
  P.faults.length ≤ Config.faultRoom ∧ P.lost ≤ 255 ∧ (0 < P.lost → P.faults.length = Config.faultRoom) ∧
    (P.faults = [] → P.lost = 0 → ∀ it ∈ P.events, it.sameKey .fault = false)

/-- The tags and the capacities of a port (R87, R88, R90, R92, R93, R95): never more than 32 response places are in use, a
frame that has begun to arrive has room in the intake queue, and a held READ or WRITE has room to be accepted. -/
def PortState.roomLegal (P : PortState) : Prop :=
  P.tags.Nodup ∧ (∀ t ∈ P.tags, t.toNat ≤ 31) ∧ P.intake.length ≤ Config.intakeRoom ∧
    P.places ≤ Config.responsePlaces ∧ (P.begun = true → P.intake.length < Config.intakeRoom) ∧
    P.writeQ.length ≤ Config.writeRoom ∧ P.readL.length ≤ Config.readRoom ∧
    ∀ r, P.hold = some r → (r.op.isWrite = true → P.writeQ.length < Config.writeRoom) ∧
      (r.op.isRead = true → P.readL.length < Config.readRoom)

/-- A port that is OFFLINE holds no item, no record and no subscription (R150). -/
def PortState.offlineClear (P : PortState) : Prop :=
  P.session = .offline → P.events = [] ∧ P.faults = [] ∧ P.lost = 0 ∧ P.subRev = false ∧ P.subFault = false

/-- The port invariant. -/
def PortState.legal (P : PortState) : Prop := P.eventsLegal ∧ P.faultsLegal ∧ P.roomLegal ∧ P.offlineClear

/-- A wait queue: no port twice, and every port in it ONLINE (R48, R52, R66, R67). -/
def State.queueLegal (s : State) (q : List WaitEntry) : Prop :=
  (q.map WaitEntry.port).Nodup ∧ ∀ e ∈ q, (s.port e.port).session = .online

/-- The lock invariant (R48, R63, R71, R77): a queue is that of a lock that is not FREE; the holder of a HELD lock is ONLINE
and does not wait for it, its break cause is NONE, a yield deadline runs only while the queue is not empty, and a lease has
no more than its duration left. -/
def State.lockLegal (s : State) (k : Lock) : Prop :=
  s.queueLegal (s.lock k).queue ∧
    match (s.lock k).phase with
    | .free => (s.lock k).queue = []
    | .held h => (s.port h.port).session = .online ∧ (∀ e ∈ (s.lock k).queue, e.port ≠ h.port) ∧
        (s.lock k).cause = .none ∧ (h.deadline.isSome = true → (s.lock k).queue ≠ []) ∧
        (∀ x, h.lease = some x → x.remaining ≤ x.duration)
    | .releasing _ => True

/-- The notification invariant (R125, R128, R130, R133): entries and reservations of a queue take at most 8 places; a
reservation stands only toward an ONLINE target; only an ONLINE port's queue holds entries; and a NOTICE item is pending
exactly while an entry is undelivered. -/
def State.noticesLegal (s : State) : Prop :=
  (∀ p, s.noticePlaces p ≤ Config.noticeRoom) ∧
    (∀ q, ∀ n ∈ (s.port q).notes, n.cancelled = false → (s.port n.target).session = .online) ∧
    (∀ p, (s.port p).session ≠ .online → (s.port p).notices = []) ∧
    ∀ p, (∃ n ∈ (s.port p).notices, n.delivered = false) ↔ .notice ∈ (s.port p).events

end Sys2Proof.Machine
end

