-- ==== Sys2Proof/Certificates/Slice0/Obligations.lean ====
section
/-! DEFINITION. The claims about the model: one definition for each, over the vocabulary of Sys2Proof/Safety.lean. -/

section

open Sys2Proof Sys2Proof.Machine

/-! ## The step, device reset and what comes before every request -/

/-- A step takes the command at the front of the queue and answers what the command does with the rest of the queue. -/
def Obligations.StepRunsFrontCommand : Prop :=
  ∀ (c : Instr) (rest : List Instr) (s : State),
    step { s with pending := c :: rest } = exec c { s with pending := rest }

/-- Every command answers a next state in every state, and leaves the queue of commands alone. Both clauses are the model's
choice: the queue is log 1's, and the next state of a command whose event cannot happen, the state as it is, is that of log 2,
log 3 and log 4. -/
def Obligations.EveryCommandCompletes : Prop :=
  ∀ (c : Instr) (s : State), ∃ t, exec c s = .next t ∧ t.pending = s.pending

/-- R161: the reset values, the quiet while the part is in device reset, and its end. That no frame, no abort and no arriving
frame is remembered at reset (tx, busAbort, begun in resetValues) is the model's choice (log 16, log 3), and so is that a
link-state signal that changes in device reset moves only the port's link state (log 27). -/
def Obligations.DeviceReset : Prop :=
  (∀ s : State, ∃ t, exec .deviceReset s = .next t ∧ resetValues s t ∧ t.resetN = false ∧ t.powerGood = s.powerGood) ∧
  (∀ s : State, ∃ t, exec .supplyOrRefclkLoss s = .next t ∧ resetValues s t ∧ t.powerGood = false ∧
    t.resetN = s.resetN) ∧
  (∀ (s : State) (p : Port) (f : List Byte) (slot issue : Byte) (data : List Byte), s.running = false →
    exec (.frameReceipt p f) s = .next s ∧ exec (.sendResponse p) s = .next s ∧ exec (.sendEvent p) s = .next s ∧
    exec .slotArbiterRun s = .next s ∧ exec (.replyDone slot issue data) s = .next s ∧
    exec (.replyError slot issue data) s = .next s ∧ exec (.replyRetry slot issue data) s = .next s) ∧
  (∀ (s : State) (c : Instr) (p : Port) (r : Request), s.running = false → requestOf c = some (p, r) →
    exec c s = .next s) ∧
  (∀ (s : State) (p : Port), s.running = false →
    exec (.linkUp p) s = .next (s.setPort p { s.port p with link := .up }) ∧
    exec (.linkDown p) s = .next (s.setPort p { s.port p with link := .down })) ∧
  (∀ s : State, exec .resetRelease s = .next { s with resetN := true, powerGood := true }) ∧
  (∀ (s t u : State) (p : Port), resetValues s t → exec .resetRelease t = .next u →
    u.running = true ∧ (u.port p).link = (s.port p).link ∧ ((u.port p).link = .up → u.receives p = true))

/-- The session check and the tag check come first in every request but HELLO (R8, R24, R49, R90). -/
def Obligations.SessionAndTagChecksComeFirst : Prop :=
  ∀ (c : Instr) (p : Port) (r : Request), requestOf c = some (p, r) → r.op.isHello = false → checkedFirst c p r

/-- A command whose event cannot happen has no effect (log 2, log 4): a request that is not at the head of its intake queue
or that a stall condition of R88 holds back, and a timer that is not running. -/
def Obligations.AbsentEventsDoNothing : Prop :=
  (∀ (c : Instr) (p : Port) (r : Request) (s : State), requestOf c = some (p, r) →
    ((s.port p).intake.head? ≠ some r ∨ (r.op.isWrite = true ∧ 16 ≤ (s.port p).writeQ.length) ∨
      (r.op.isRead = true ∧ 8 ≤ (s.port p).readL.length) ∨ (s.port p).hold.isSome = true ∨
      32 ≤ (s.port p).places) →
    exec c s = .next s) ∧
  (∀ s : State, (∀ o, s.edit ≠ .opened o) → exec .editIdleExpiry s = .next s) ∧
  (∀ (s : State) (k : Lock), (∀ h, (s.lock k).phase = .held h → h.lease = none) → exec (.leaseExpiry k) s = .next s) ∧
  (∀ (s : State) (k : Lock), (∀ h, (s.lock k).phase = .held h → h.deadline = none) →
    exec (.yieldDeadlineExpiry k) s = .next s) ∧
  (∀ (s : State) (n : SlotNo), (s.slot n).job = none → exec (.accessTimerExpiry n) s = .next s)

/-! ## Sessions -/

/-- R90, R153, R154: a HELLO taken in OFFLINE starts a session or is refused; what one taken in ONLINE, LEAVING or CLOSING
gets; and its tag check in OFFLINE and ONLINE. -/
def Obligations.HelloAnswers : Prop :=
  ∀ (p : Port) (tag revision fault : Byte) (s : State),
    s.takes p { tag := tag, op := .hello revision fault } = true →
    (((s.port p).session = .offline ∨ (s.port p).session = .online) → 31 < tag.toNat →
      exec (.hello p tag revision fault) s = .next (s.answeredNow p
        { code := 0x01#8, tag := tag, status := .badArg, body := .empty })) ∧
    (((s.port p).session = .offline ∨ (s.port p).session = .online) → tag.toNat ≤ 31 → tag ∈ (s.port p).tags →
      exec (.hello p tag revision fault) s = .next (s.onPort p (fun P =>
        ({ P with intake := P.intake.tail, begun := P.arriving }).record (.duplicateTag tag)))) ∧
    ((s.port p).session = .offline → tag.toNat ≤ 31 → tag ∉ (s.port p).tags → (1 < revision.toNat ∨ 1 < fault.toNat) →
      exec (.hello p tag revision fault) s = .next (s.answeredNow p
        { code := 0x01#8, tag := tag, status := .badArg, body := .empty })) ∧
    ((s.port p).session = .offline → tag.toNat ≤ 31 → tag ∉ (s.port p).tags → revision.toNat ≤ 1 → fault.toNat ≤ 1 →
      exec (.hello p tag revision fault) s = .next (s.setPort p { s.port p with
        intake := (s.port p).intake.tail
        places := (s.port p).places + 1
        begun := (s.port p).arriving
        session := .online
        sessionNo := (s.port p).sessionNo + 1
        writeSeq := 0#32
        watermark := 0#32
        subRev := revision == 1#8
        subFault := fault == 1#8
        respQ := (s.port p).respQ ++ [
          { code := 0x01#8, tag := tag, status := .ok
            body := .welcome p ((s.port p).sessionNo + 1) s.revision 0x54#8 0x12#8 }] })) ∧
    ((s.port p).session = .online → tag.toNat ≤ 31 → tag ∉ (s.port p).tags →
      exec (.hello p tag revision fault) s = .next (s.answeredNow p
        { code := 0x01#8, tag := tag, status := .already, body := .session p (s.port p).sessionNo })) ∧
    ((s.port p).session = .leaving → exec (.hello p tag revision fault) s = .next (s.answeredNow p
        { code := 0x01#8, tag := tag, status := .departing, body := .empty })) ∧
    ((s.port p).session = .closing → exec (.hello p tag revision fault) s = .next (s.setPort p { s.port p with
        intake := (s.port p).intake.tail
        places := (s.port p).places + 1
        begun := (s.port p).arriving
        hold := some { tag := tag, op := .hello revision fault } }))

/-- R155, R66, R43, R53, R57, R77, R133, R156: what LEAVE does, over states whose lock records are legal. A lock held is handed
off in the same event when no write of the port is uncompleted; a lock waited for loses the port's entry and nothing else. The
LEAVE stays pending while the port has work or another of its tags is outstanding; a NOTIFY's tag leaves the table when its
watch is reached already. -/
def Obligations.LeaveDeparts : Prop :=
  ∀ (p : Port) (tag : Byte) (s : State), s.ready p { tag := tag, op := .leave } = true → (∀ k, s.lockLegal k) →
    ∃ t, exec (.leave p tag) s = .next t ∧
      (t.port p).session = .leaving ∧ (t.port p).intake = (s.port p).intake.tail ∧
      (t.port p).places = (s.port p).places + 1 ∧
      (t.port p).writeQ = (s.port p).writeQ ∧ (t.port p).readL = (s.port p).readL ∧
      (t.port p).writeSeq = (s.port p).writeSeq ∧ (t.port p).watermark = (s.port p).watermark ∧
      (∀ k, t.holds p k = false ∧ ∀ e ∈ (t.lock k).queue, e.port ≠ p) ∧
      (∀ k, s.holds p k = false → (∀ e ∈ (s.lock k).queue, e.port ≠ p) → t.lock k = s.lock k) ∧
      (∀ k, s.holds p k = false → t.lock k = (s.lock k).withoutWait p) ∧
      (∀ k, s.holds p k = true → watermarkReaches (s.port p).watermark (s.port p).writeSeq = false →
        t.lock k = { s.lock k with
          phase := .releasing { prev := p, watch := (s.port p).writeSeq, tag := none } }) ∧
      (∀ k, s.holds p k = true → watermarkReaches (s.port p).watermark (s.port p).writeSeq = true →
        t.lock k = s.passedOn (s.lock k)) ∧
      t.edit = (match s.edit with
        | .opened o => if o.owner = p then .absent else s.edit
        | e => e) ∧
      (t.port p).notices = [] ∧ (∀ it ∈ (t.port p).events, it ≠ .notice) ∧
      (∀ q, ∀ n ∈ (t.port q).notes, n.target = p → n.cancelled = true) ∧
      (((s.port p).readL ≠ [] ∨ s.inFlight p ≠ 0 ∨
          watermarkReaches (s.port p).watermark (s.port p).writeSeq = false) →
        (t.port p).pendingLeave = some { tag := tag, watch := (s.port p).writeSeq }) ∧
      (∀ x ∈ (s.port p).tags,
        (∀ n ∈ (s.port p).notes, watermarkReaches (s.port p).watermark n.watched = true → n.tag ≠ x) →
        x ∈ (t.port p).tags ∧ (t.port p).pendingLeave = some { tag := tag, watch := (s.port p).writeSeq }) ∧
      ((s.port p).tags = [] → (s.port p).readL = [] → s.inFlight p = 0 →
        watermarkReaches (s.port p).watermark (s.port p).writeSeq = true →
        (t.port p).pendingLeave = none ∧ ∃ l, (t.port p).respQ = (s.port p).respQ ++ l ++
          [{ code := 0x02#8, tag := tag, status := .ok, body := .left (s.port p).sessionNo (s.port p).writeSeq }]) ∧
      t.map = s.map ∧ t.revision = s.revision ∧ t.slots = s.slots ∧ t.rr = s.rr ∧ t.config = s.config

/-- R152: a link that comes up, and a link that goes down at a port with no session in progress. -/
def Obligations.LinkChangesWithoutSession : Prop :=
  ∀ (p : Port) (s : State),
    exec (.linkUp p) s = .next (s.setPort p { s.port p with link := .up }) ∧
    ((s.port p).link = .up → s.running = true →
      ((s.port p).session = .offline ∨ (s.port p).session = .closing) →
      exec (.linkDown p) s = .next (s.setPort p { s.port p with
        link := .down, begun := false, intake := [], hold := none, respQ := [], tx := none
        places := (s.port p).places - (s.port p).respQ.length - (if (s.port p).hold.isSome then 1 else 0) })) ∧
    ((s.port p).link = .down → exec (.linkDown p) s = .next s)

/-- R158, R67, R36, R44, R53, R57, R77, R104, R133, R135: what a link loss does to a port in session, over states whose lock
records are legal. A lock held is handed off in the same event when no write of the port is uncompleted; a lock waited for loses
the port's entry and nothing else; a COMMITTING edit of the port is
marked owner departed; the reads discarded leave the drain set, and a commit they leave with nothing to wait for completes. -/
def Obligations.LinkLossDeparts : Prop :=
  ∀ (p : Port) (s : State), s.running = true → (s.port p).link = .up →
    ((s.port p).session = .online ∨ (s.port p).session = .leaving) → (∀ k, s.lockLegal k) →
    ∃ t, exec (.linkDown p) s = .next t ∧ (t.port p).link = .down ∧ (t.port p).begun = false ∧
      ((t.port p).session = .closing ∨ (t.port p).session = .offline) ∧
      ((t.port p).session = .offline ↔ ((s.port p).watermark = (s.port p).writeSeq ∧ s.inFlight p = 0 ∧
        ∀ e ∈ (s.port p).readL, ∀ x ∈ e.pieces, x.cond ≠ .inFlight)) ∧
      (t.port p).pendingLeave = none ∧ (t.port p).intake = [] ∧ (t.port p).hold = none ∧ (t.port p).respQ = [] ∧
      (t.port p).tags = [] ∧ (t.port p).places = 0 ∧ (t.port p).writeQ = (s.port p).writeQ ∧
      (t.port p).readL = ((s.port p).readL.filter (fun e => e.pieces.any (fun x => x.cond == .inFlight))).map
        (fun e => { e with cut := true }) ∧
      (t.port p).notices = [] ∧ (t.port p).notes = [] ∧
      (∀ q, ∀ n ∈ (t.port q).notes, n.target = p → n.cancelled = true) ∧
      (∀ k, t.holds p k = false ∧ ∀ e ∈ (t.lock k).queue, e.port ≠ p) ∧
      (∀ k, s.holds p k = false → (∀ e ∈ (s.lock k).queue, e.port ≠ p) → t.lock k = s.lock k) ∧
      (∀ k, s.holds p k = false → t.lock k = (s.lock k).withoutWait p) ∧
      (∀ k, s.holds p k = true → watermarkReaches (s.port p).watermark (s.port p).writeSeq = false →
        t.lock k = { s.lock k with
          cause := .departed, phase := .releasing { prev := p, watch := (s.port p).writeSeq, tag := none } }) ∧
      (∀ k, s.holds p k = true → watermarkReaches (s.port p).watermark (s.port p).writeSeq = true →
        t.lock k = s.passedOn { s.lock k with cause := .departed }) ∧
      (∀ k r, (s.lock k).phase = .releasing r → (t.lock k).phase = .releasing r) ∧
      (∀ o, s.edit = .opened o → t.edit = if o.owner = p then .absent else s.edit) ∧
      (s.edit = .absent → t.edit = .absent) ∧
      (∀ c left, s.edit = .committing c → left = c.drain.filter (fun d => decide (¬ (d.port = p ∧
          ∃ e ∈ (s.port p).readL, d.ref = .read e.tag ∧ ∀ x ∈ e.pieces, x.cond ≠ .inFlight))) →
        (left ≠ [] → t.edit = .committing { c with departed := c.departed || c.owner == p, drain := left } ∧
          t.map = s.map ∧ t.revision = s.revision) ∧
        (left = [] → committed (s.onPort p (fun P => { P with session := .closing })) t
          { c with departed := c.departed || c.owner == p })) ∧
      ((∀ c, s.edit ≠ .committing c) → t.map = s.map ∧ t.revision = s.revision) ∧
      t.slots = s.slots ∧ t.config = s.config

/-- R141, R142, R92, R157: the oldest response goes out and its place is freed; the LEAVE response makes the port OFFLINE. R164,
R165, Tables 10-1, 10-3, 10-4, 10-6: the header of its frame, and the bytes of every body. The widths of the fields that no rule
states are the model's choice (log 11), and so are the bytes of an absent field (log 12) and of fault-seen (log 30). -/
def Obligations.ResponseIsSent : Prop :=
  (∀ (p : Port) (s : State) (r : Response) (rest : List Response),
    s.running = true → (s.port p).link = .up → (s.port p).respQ = r :: rest →
    ((r.isLeaveOk = false ∨ (s.port p).session ≠ .leaving) →
      exec (.sendResponse p) s = .next (s.setPort p { s.port p with
        respQ := rest, places := (s.port p).places - 1, tx := some r.frame.wire })) ∧
    (r.isLeaveOk = true → (s.port p).session = .leaving →
      exec (.sendResponse p) s = .next (s.setPort p { s.port p with
        respQ := rest, places := (s.port p).places - 1, tx := some r.frame.wire
        session := .offline, events := [], faults := [], lost := 0, subRev := false, subFault := false }))) ∧
  (∀ r : Response, (r.code.toNat < 128 → r.frame.kind.toNat = r.code.toNat + 128) ∧
    (128 ≤ r.code.toNat → r.frame.kind = r.code) ∧ r.frame.tag = r.tag ∧ r.frame.status = r.status.code ∧
    (r.frame.flags = 0#8 ∨ r.frame.flags = 1#8) ∧
    (r.frame.flags = 1#8 ↔ (∃ gen d, r.body = .renewed gen (some d)) ∨
      ∃ i d, r.body = .lockInfo i ∧ i.remaining = some d) ∧
    r.frame.spare = 0#16 ∧ r.frame.body = r.body.bytes ∧ r.frame.check = checkValue r.frame.covered) ∧
  [Status.ok, .queued, .busy, .badArg, .noMap, .noRight, .guard, .editBusy, .noEdit, .stale, .listFull, .notHolder,
      .notWaiting, .already, .targetFull, .targetAbsent, .poolError, .locked, .notOnline, .departing, .unknown,
      .empty].map Status.code =
    [0x00#8, 0x01#8, 0x02#8, 0x03#8, 0x04#8, 0x05#8, 0x06#8, 0x07#8, 0x08#8, 0x09#8, 0x0A#8, 0x0B#8, 0x0C#8, 0x0D#8,
      0x0E#8, 0x0F#8, 0x10#8, 0x11#8, 0x12#8, 0x13#8, 0x14#8, 0x15#8] ∧
  [SubStatus.targetError, .timeout, .retryExhausted].map SubStatus.code = [1#8, 2#8, 3#8] ∧
  [EditState.none, .opened, .committing].map EditState.code = [0#8, 1#8, 2#8] ∧
  [LockState.free, .held, .releasing].map LockState.code = [0#8, 1#8, 2#8] ∧
  [BreakCause.none, .expired, .yieldTimeout, .departed, .writeFailed].map BreakCause.code = [0#8, 1#8, 2#8, 3#8, 4#8] ∧
  (∀ h : Half, be16 h = [h.extractLsb' 8 8, h.extractLsb' 0 8]) ∧
  (∀ w : Word, be32 w = [w.extractLsb' 24 8, w.extractLsb' 16 8, w.extractLsb' 8 8, w.extractLsb' 0 8]) ∧
  Body.empty.bytes = [] ∧
  (∀ (p : Port) (n x y tag item index : Byte) (rev gen : Half) (seq value : Word) (data : List Byte) (sub : SubStatus)
    (st : EditState) (lk : LockState) (cause : BreakCause) (a b lost : Nat),
    (Body.welcome p n rev x y).bytes = [BitVec.ofNat 8 p.val, n] ++ be16 rev ++ [x, y] ∧
    (Body.session p n).bytes = [BitVec.ofNat 8 p.val, n] ∧ (Body.left n seq).bytes = [n] ++ be32 seq ∧
    (Body.data data).bytes = data ∧ (Body.poolError sub).bytes = [sub.code] ∧
    (Body.written seq none).bytes = be32 seq ++ [0#8] ∧ (Body.written seq (some sub)).bytes = be32 seq ++ [sub.code] ∧
    (Body.revision rev).bytes = be16 rev ∧ (Body.editState st rev).bytes = [st.code] ++ be16 rev ∧
    (Body.editBusy p st rev).bytes = [BitVec.ofNat 8 p.val, st.code] ++ be16 rev ∧
    (Body.stagedAt a b).bytes = [BitVec.ofNat 8 a, BitVec.ofNat 8 b] ∧ (Body.listLength a).bytes = [BitVec.ofNat 8 a] ∧
    (Body.granted gen cause).bytes = be16 gen ++ [cause.code] ∧ (Body.queuedAt a).bytes = [BitVec.ofNat 8 a] ∧
    (Body.busy lk gen a).bytes = [lk.code] ++ be16 gen ++ [BitVec.ofNat 8 a] ∧
    (Body.alreadyAt gen a).bytes = be16 gen ++ [BitVec.ofNat 8 a] ∧ (Body.generation gen).bytes = be16 gen ∧
    (Body.renewed gen none).bytes = be16 gen ++ [0#8, 0#8] ∧
    (Body.renewed gen (some a)).bytes = be16 gen ++ be16 (BitVec.ofNat 16 a) ∧ (Body.noticeSeq n).bytes = [n] ∧
    (Body.target p).bytes = [BitVec.ofNat 8 p.val] ∧
    (Body.acknowledged p value).bytes = [BitVec.ofNat 8 p.val] ++ be32 value ∧
    (Body.faultTaken (.postedWriteFailed seq value sub) lost).bytes =
      [1#8, 0#8, 0#8, sub.code] ++ be32 seq ++ be32 value ++ [BitVec.ofNat 8 lost, 0#8, 0#8, 0#8] ∧
    (Body.faultTaken .badCheck lost).bytes =
      [2#8, 1#8, 0#8, 0#8] ++ List.replicate 8 0#8 ++ [BitVec.ofNat 8 lost, 0#8, 0#8, 0#8] ∧
    (Body.faultTaken (.duplicateTag tag) lost).bytes =
      [2#8, 2#8, tag, 0#8] ++ List.replicate 8 0#8 ++ [BitVec.ofNat 8 lost, 0#8, 0#8, 0#8] ∧
    (Body.faultTaken (.lengthMismatch tag) lost).bytes =
      [2#8, 3#8, tag, 0#8] ++ List.replicate 8 0#8 ++ [BitVec.ofNat 8 lost, 0#8, 0#8, 0#8] ∧
    (Body.noFault lost).bytes = [BitVec.ofNat 8 lost, 0#8, 0#8, 0#8] ∧
    (Body.config item index value).bytes = [item, index] ++ be32 value) ∧
  (∀ (n : Row) (c : RowRecord) (rev : Half) (staged : Bool), ∃ rights : Byte,
    (Body.row n c rev staged).bytes = be16 (BitVec.ofNat 16 n.val) ++
      [if c.valid then 1#8 else 0#8, if c.cls = .device then 1#8 else 0#8] ++ be32 (BitVec.ofNat 32 c.frame.toNat) ++
      [rights, if c.posting then 1#8 else 0#8, (c.guard.map (fun k => BitVec.ofNat 8 k.val)).getD 0xFF#8, 0#8] ++
      be16 rev ++ [if staged then 1#8 else 0#8] ∧
    ∀ q : Port, (c.rights.get q = .none ↔ rights.toNat / 4 ^ q.val % 4 = 0) ∧
      (c.rights.get q = .read ↔ rights.toNat / 4 ^ q.val % 4 = 1) ∧
      (c.rights.get q = .readWrite ↔ rights.toNat / 4 ^ q.val % 4 = 2)) ∧
  (∀ i : LockInfo, (Body.lockInfo i).bytes =
    [i.state.code, (i.holder.map (fun p => BitVec.ofNat 8 p.val)).getD 0xFF#8] ++
      (i.owner.map be16).getD [0xFF#8, 0xFF#8] ++ [(i.prev.map (fun p => BitVec.ofNat 8 p.val)).getD 0xFF#8] ++
      be16 i.gen ++ [BitVec.ofNat 8 i.queue.length] ++
      (i.queue.map (fun p => BitVec.ofNat 8 p.val) ++ List.replicate 4 0xFF#8).take 4 ++
      [if i.faultSeen then 1#8 else 0#8, i.cause.code] ++
      (i.remaining.map (fun d => be16 (BitVec.ofNat 16 d))).getD [0xFF#8, 0xFF#8])

/-- R141, R142, R130, R138, R147: with no response waiting, the oldest item of a port in contact goes out. R164, Tables 10-1 and
10-5: the header of its frame, and the bytes of every body. That a FAULT event's counts are one byte each (log 11), and that zeros
follow the fields of FAULT (log 11), YIELD and REVISION (log 31), is the model's choice. -/
def Obligations.EventIsSent : Prop :=
  (∀ (p : Port) (s : State) (it : Item) (rest : List Item),
    s.running = true → (s.port p).link = .up → (s.port p).respQ = [] →
    ((s.port p).session = .online ∨ (s.port p).session = .leaving) → (s.port p).events = it :: rest →
    (it ≠ .notice → it ≠ .fault → exec (.sendEvent p) s = .next (s.setPort p { s.port p with
      events := rest, tx := some (eventFrame it.code it.bytes).wire })) ∧
    (it = .fault → exec (.sendEvent p) s = .next (s.setPort p { s.port p with
      events := rest, tx := some (eventFrame 0xC6#8 (faultCounts (s.port p).faults.length (s.port p).lost)).wire })) ∧
    (∀ (before after : List Notice) (n : Notice), it = .notice → (s.port p).notices = before ++ n :: after →
      (∀ m ∈ before, m.delivered = true) → n.delivered = false → .notice ∉ rest →
      exec (.sendEvent p) s = .next (s.setPort p { s.port p with
        events := if ∃ m ∈ after, m.delivered = false then rest ++ [.notice] else rest
        notices := before ++ { n with delivered := true } :: after
        tx := some (eventFrame 0xC3#8 n.bytes).wire }))) ∧
  (∀ (kind : Byte) (body : List Byte), (eventFrame kind body).kind = kind ∧ (eventFrame kind body).tag = 0xFF#8 ∧
    (eventFrame kind body).status = 0#8 ∧ (eventFrame kind body).flags = 0#8 ∧ (eventFrame kind body).spare = 0#16 ∧
    (eventFrame kind body).body = body ∧
    (eventFrame kind body).check = checkValue (eventFrame kind body).covered) ∧
  (∀ (k : Lock) (gen owner rev : Half) (cause : BreakCause) (n : Notice) (held lost : Nat),
    (Item.grant k gen owner cause).code = 0xC0#8 ∧ (Item.grant k gen owner cause).bytes =
      [BitVec.ofNat 8 k.val, cause.code] ++ be16 gen ++ be16 owner ++ [0#8, 0#8] ∧
    (Item.yield k gen).code = 0xC1#8 ∧ (Item.yield k gen).bytes = [BitVec.ofNat 8 k.val] ++ be16 gen ++ [0#8] ∧
    (Item.revoked k gen cause).code = 0xC2#8 ∧
    (Item.revoked k gen cause).bytes = [BitVec.ofNat 8 k.val, cause.code] ++ be16 gen ∧
    Item.notice.code = 0xC3#8 ∧
    n.bytes = [BitVec.ofNat 8 n.sender.val, n.seq, 0#8, 0#8] ++ be32 n.code ∧
    (Item.revision rev).code = 0xC4#8 ∧ (Item.revision rev).bytes = be16 rev ++ [0#8, 0#8] ∧
    Item.editExpired.code = 0xC5#8 ∧ Item.editExpired.bytes = [] ∧ Item.fault.code = 0xC6#8 ∧
    faultCounts held lost = [BitVec.ofNat 8 held, BitVec.ofNat 8 lost, 0#8, 0#8]) ∧
  [BreakCause.none, .expired, .yieldTimeout, .departed, .writeFailed].map BreakCause.code = [0#8, 1#8, 2#8, 3#8, 4#8] ∧
  (∀ h : Half, be16 h = [h.extractLsb' 8 8, h.extractLsb' 0 8]) ∧
  (∀ w : Word, be32 w = [w.extractLsb' 24 8, w.extractLsb' 16 8, w.extractLsb' 8 8, w.extractLsb' 0 8])

/-! ## Data requests -/

/-- R7, R11, R17, R95: what a READ does once taken, by the verdict of acceptance. -/
def Obligations.ReadOutcome : Prop :=
  ∀ (p : Port) (tag : Byte) (addr : Word) (len : Half) (s : State),
    s.ready p { tag := tag, op := .read addr len } = true →
    (∀ st, s.judge p false addr.toNat len.toNat = .refuse st → exec (.read p tag addr len) s =
      .next (s.answeredNow p { code := 0x03#8, tag := tag, status := st, body := .empty })) ∧
    (s.judge p false addr.toNat len.toNat = .hold → exec (.read p tag addr len) s =
      .next ((s.takenOpen p tag).onPort p (fun P => { P with hold := some { tag := tag, op := .read addr len } }))) ∧
    (s.judge p false addr.toNat len.toNat = .accept → exec (.read p tag addr len) s =
      .next ((s.takenOpen p tag).onPort p (fun P => { P with readL := P.readL ++
        [{ tag := tag, addr := addr, len := len.toNat, parts := s.translate addr.toNat len.toNat,
           fence := (s.port p).writeSeq,
           pieces := makePieces (s.translate addr.toNat len.toNat) addr.toNat len.toNat,
           failed := none, cut := false }] })))

/-- R7, R11, R17, R18, R94: what a WRITE does once taken, by the verdict of acceptance. A posted one is answered at once. -/
def Obligations.WriteOutcome : Prop :=
  ∀ (p : Port) (tag : Byte) (addr : Word) (len : Half) (data : List Byte) (s : State),
    s.ready p { tag := tag, op := .write addr len data } = true →
    (∀ st, s.judge p true addr.toNat len.toNat = .refuse st → exec (.write p tag addr len data) s =
      .next (s.answeredNow p { code := 0x04#8, tag := tag, status := st, body := .empty })) ∧
    (s.judge p true addr.toNat len.toNat = .hold → exec (.write p tag addr len data) s =
      .next ((s.takenOpen p tag).onPort p (fun P =>
        { P with hold := some { tag := tag, op := .write addr len data } }))) ∧
    (s.judge p true addr.toNat len.toNat = .accept → ∃ e : WriteEntry,
      e.seq = (s.port p).writeSeq + 1 ∧ e.tag = tag ∧ e.addr = addr ∧ e.len = len.toNat ∧ e.data = data ∧
      e.parts = s.translate addr.toNat len.toNat ∧
      e.pieces = makePieces (s.translate addr.toNat len.toNat) addr.toNat len.toNat ∧
      e.failed = none ∧ e.completed = false ∧
      (e.posted = true ↔ everyByte addr.toNat len.toNat
        (fun x => (s.rowAt x).cls = .memory ∧ (s.rowAt x).posting = true)) ∧
      (e.guards.map GuardMark.lock).Nodup ∧
      (∀ g ∈ e.guards, g.gen = (s.lock g.lock).generation) ∧
      (∀ k, k ∈ e.guards.map GuardMark.lock ↔ someByte addr.toNat len.toNat
        (fun x => (s.rowAt x).guard = some k)) ∧
      (e.posted = false → exec (.write p tag addr len data) s =
        .next ((s.takenOpen p tag).onPort p (fun P =>
          { P with writeQ := P.writeQ ++ [e], writeSeq := e.seq }))) ∧
      (e.posted = true → exec (.write p tag addr len data) s =
        .next ((s.answeredNow p { code := 0x04#8, tag := tag, status := .ok, body := .written e.seq none }).onPort p
          (fun P => { P with writeQ := P.writeQ ++ [e], writeSeq := e.seq }))))

/-- R10 to R15: the verdict of acceptance, check by check, said over the bytes of the range. -/
def Obligations.AcceptanceVerdict : Prop :=
  ∀ (s : State) (p : Port) (w : Bool) (a len : Nat),
    (¬ (1 ≤ len ∧ len ≤ 256 ∧ a ≤ 2147483647 ∧ a + len - 1 ≤ 2147483647) → s.judge p w a len = .refuse .badArg) ∧
    (1 ≤ len → len ≤ 256 → a + len - 1 ≤ 2147483647 →
      (someByte a len (fun x => s.edit.changes (rowIndex x) = true) → s.judge p w a len = .hold) ∧
      (everyByte a len (fun x => s.edit.changes (rowIndex x) = false) →
        (someByte a len (fun x => (s.rowAt x).valid = false) → s.judge p w a len = .refuse .noMap) ∧
        (everyByte a len (fun x => (s.rowAt x).valid = true) →
          (¬ everyByte a len (fun x => (s.rowAt x).cls = .memory) →
            ¬ (everyByte a len (fun x => (s.rowAt x).cls = .device) ∧ deviceAccess a len) →
            s.judge p w a len = .refuse .badArg) ∧
          ((everyByte a len (fun x => (s.rowAt x).cls = .memory) ∨
              (everyByte a len (fun x => (s.rowAt x).cls = .device) ∧ deviceAccess a len)) →
            (someByte a len (fun x => (s.rowAt x).rights.get p = .none ∨
                (w = true ∧ (s.rowAt x).rights.get p = .read)) → s.judge p w a len = .refuse .noRight) ∧
            (everyByte a len (fun x => (s.rowAt x).rights.get p = .readWrite ∨
                (w = false ∧ (s.rowAt x).rights.get p = .read)) →
              (w = true → someByte a len (fun x => ∃ k, (s.rowAt x).guard = some k ∧ s.holds p k = false) →
                s.judge p w a len = .refuse .guard) ∧
              ((w = false ∨ everyByte a len (fun x => ∀ k, (s.rowAt x).guard = some k → s.holds p k = true)) →
                s.judge p w a len = .accept))))))

/-- R12: a READ or WRITE that touches an invalid row is refused with NO_MAP, whether or not the other row is valid. -/
def Obligations.InvalidRowIsRefused : Prop :=
  ∀ (c : Instr) (p : Port) (r : Request) (addr : Word) (len : Half) (s : State), requestOf c = some (p, r) →
    (r.op = .read addr len ∨ ∃ data, r.op = .write addr len data) → s.ready p r = true →
    1 ≤ len.toNat → len.toNat ≤ 256 → addr.toNat + len.toNat - 1 ≤ 2147483647 →
    everyByte addr.toNat len.toNat (fun x => s.edit.changes (rowIndex x) = false) →
    someByte addr.toNat len.toNat (fun x => (s.rowAt x).valid = false) →
    exec c s = .next (s.answeredNow p (r.reply .noMap .empty))

/-- R1, R2, R6, R20: the translation of a range: one part for each row, in address order, and every byte through its own
row's frame. -/
def Obligations.TranslationFollowsTheRows : Prop :=
  ∀ (s : State) (a len : Nat), 1 ≤ len → len ≤ 256 → a + len - 1 ≤ 2147483647 →
    (s.translate a len).map TransPart.row =
      (if a / 4194304 = (a + len - 1) / 4194304 then [rowIndex a] else [rowIndex a, rowIndex (a + len - 1)]) ∧
    ((s.translate a len).map TransPart.len).sum = len ∧
    everyByte a len (fun x => ∃ t ∈ s.translate a len, t.start.toNat ≤ x ∧ x < t.start.toNat + t.len ∧
      t.row.val = x / 4194304 ∧ t.cls = (s.rowAt x).cls ∧ t.posting = (s.rowAt x).posting ∧
      partAddress (s.translate a len) x = t.pool + BitVec.ofNat 40 (x - t.start.toNat) ∧
      (partAddress (s.translate a len) x).toNat = (s.rowAt x).frame.toNat * 4194304 + x % 4194304)

/-- R106, R107: the pieces of a request: ceil((o + L) / 64) of them, the n-th being the part of the range in the n-th
64-byte block it touches, with its position and its translated address. -/
def Obligations.PiecesAreTheBlocks : Prop :=
  ∀ (s : State) (a len : Nat), 1 ≤ len → len ≤ 256 → a + len - 1 ≤ 2147483647 →
    (makePieces (s.translate a len) a len).length = (a % 64 + len + 63) / 64 ∧
    (∀ (n : Nat) (x : Piece), (makePieces (s.translate a len) a len)[n]? = some x →
      x.addr.toNat = max a ((a / 64 + n) * 64) ∧
      x.addr.toNat + x.len = min (a + len) ((a / 64 + n + 1) * 64) ∧
      x.pos = x.addr.toNat - a ∧ 1 ≤ x.len ∧ x.len ≤ 64 ∧ x.cond = .unissued ∧ x.data = [] ∧
      x.pool = partAddress (s.translate a len) x.addr.toNat) ∧
    (deviceAccess a len → (makePieces (s.translate a len) a len).length = 1)

/-- R21: MAP_READ. -/
def Obligations.MapReadAnswers : Prop :=
  ∀ (p : Port) (tag : Byte) (row : Half) (view : Byte) (s : State),
    s.ready p { tag := tag, op := .mapRead row view } = true →
    ((512 ≤ row.toNat ∨ 1 < view.toNat) → exec (.mapRead p tag row view) s =
      .next (s.answeredNow p { code := 0x10#8, tag := tag, status := .badArg, body := .empty })) ∧
    (∀ n : Row, n.val = row.toNat →
      (view = 0#8 → exec (.mapRead p tag row view) s = .next (s.answeredNow p
        { code := 0x10#8, tag := tag, status := .ok, body := .row n (s.row n) s.revision false })) ∧
      (view = 1#8 → (∀ o, s.edit = .opened o → o.owner ≠ p) → exec (.mapRead p tag row view) s =
        .next (s.answeredNow p { code := 0x10#8, tag := tag, status := .noEdit, body := .empty })) ∧
      (∀ o, view = 1#8 → s.edit = .opened o → o.owner = p →
        ((∀ x ∈ o.staged, x.row ≠ n) → exec (.mapRead p tag row view) s = .next (s.answeredNow p
          { code := 0x10#8, tag := tag, status := .ok, body := .row n (s.row n) s.revision false })) ∧
        (∀ x ∈ o.staged, (o.staged.map Staged.row).Nodup → x.row = n → exec (.mapRead p tag row view) s =
          .next (s.answeredNow p
            { code := 0x10#8, tag := tag, status := .ok, body := .row n x.content s.revision true }))))

/-! ## Edits -/

/-- R25, R26, R42, R44: MAP_OPEN in each state of the edit. -/
def Obligations.MapOpenAnswers : Prop :=
  ∀ (p : Port) (tag : Byte) (expected : Option Half) (s : State),
    s.ready p { tag := tag, op := .mapOpen expected } = true →
    (∀ v, s.edit = .absent → expected = some v → v ≠ s.revision → exec (.mapOpen p tag expected) s =
      .next (s.answeredNow p { code := 0x11#8, tag := tag, status := .stale, body := .revision s.revision })) ∧
    (s.edit = .absent → (expected = none ∨ expected = some s.revision) → exec (.mapOpen p tag expected) s =
      .next ({ (s.answeredNow p { code := 0x11#8, tag := tag, status := .ok, body := .revision s.revision }).onPort p
          (·.withdraw .editExpired) with
        edit := .opened { owner := p, base := s.revision, staged := [], idle := s.config.editIdle } })) ∧
    (∀ o, s.edit = .opened o → o.owner = p → exec (.mapOpen p tag expected) s =
      .next ({ s.answeredNow p { code := 0x11#8, tag := tag, status := .already, body := .editState .opened o.base } with
        edit := .opened { o with idle := s.config.editIdle } })) ∧
    (∀ o, s.edit = .opened o → o.owner ≠ p → exec (.mapOpen p tag expected) s =
      .next (s.answeredNow p
        { code := 0x11#8, tag := tag, status := .editBusy, body := .editBusy o.owner .opened s.revision })) ∧
    (∀ c, s.edit = .committing c → c.owner = p → c.departed = false → exec (.mapOpen p tag expected) s =
      .next (s.answeredNow p
        { code := 0x11#8, tag := tag, status := .already, body := .editState .committing c.base })) ∧
    (∀ c, s.edit = .committing c → (c.owner ≠ p ∨ c.departed = true) → exec (.mapOpen p tag expected) s =
      .next (s.answeredNow p
        { code := 0x11#8, tag := tag, status := .editBusy, body := .editBusy c.owner .committing s.revision }))

/-- R27, R28, R31: MAP_STAGE of the owner in OPEN; any other gets NO_EDIT. -/
def Obligations.MapStageAnswers : Prop :=
  ∀ (p : Port) (tag : Byte) (raw : RawRow) (s : State),
    s.ready p { tag := tag, op := .mapStage raw } = true →
    ((∀ o, s.edit = .opened o → o.owner ≠ p) → exec (.mapStage p tag raw) s =
      .next (s.answeredNow p { code := 0x12#8, tag := tag, status := .noEdit, body := .empty })) ∧
    (∀ o, s.edit = .opened o → o.owner = p →
      (raw.illFormed → exec (.mapStage p tag raw) s =
        .next ({ s.answeredNow p { code := 0x12#8, tag := tag, status := .badArg, body := .empty } with
          edit := .opened { o with idle := s.config.editIdle } })) ∧
      (∀ x, raw.wellFormed = some x → (∀ y ∈ o.staged, y.row ≠ x.row) → 32 ≤ o.staged.length →
        exec (.mapStage p tag raw) s =
        .next ({ s.answeredNow p { code := 0x12#8, tag := tag, status := .listFull, body := .empty } with
          edit := .opened { o with idle := s.config.editIdle } })) ∧
      (∀ x, raw.wellFormed = some x → (∀ y ∈ o.staged, y.row ≠ x.row) → o.staged.length < 32 →
        exec (.mapStage p tag raw) s =
        .next ({ s.answeredNow p
            { code := 0x12#8, tag := tag, status := .ok
              body := .stagedAt (o.staged.length + 1) (o.staged.length + 1) } with
          edit := .opened { o with idle := s.config.editIdle, staged := o.staged ++ [x] } })) ∧
      (∀ x before y after, raw.wellFormed = some x → o.staged = before ++ y :: after → y.row = x.row →
        (∀ z ∈ before, z.row ≠ x.row) → (∀ z ∈ after, z.row ≠ x.row) → exec (.mapStage p tag raw) s =
        .next ({ s.answeredNow p
            { code := 0x12#8, tag := tag, status := .ok, body := .stagedAt (before.length + 1) o.staged.length } with
          edit := .opened { o with idle := s.config.editIdle, staged := before ++ x :: after } })))

/-- R27, check 3: which contents are ill formed, and what a well-formed one stages. -/
def Obligations.StagedContentForm : Prop :=
  ∀ raw : RawRow, (raw.wellFormed = none ↔ raw.illFormed) ∧
    ∀ x, raw.wellFormed = some x → x.content.legal ∧ x.row.val = raw.row.toNat ∧
      x.content.frame.toNat = raw.frame.toNat ∧ x.content.valid = raw.valid ∧ x.content.posting = raw.posting ∧
      (x.content.cls = .device ↔ raw.cls = 1#8) ∧
      (x.content.guard = none ↔ raw.guard = 0xFF#8) ∧
      (∀ k, x.content.guard = some k → k.val = raw.guard.toNat) ∧
      ∀ q : Port, ((x.content.rights.get q).code).toNat = raw.rights.toNat / 4 ^ q.val % 4

/-- R29: MAP_UNSTAGE. -/
def Obligations.MapUnstageRemovesTheEntry : Prop :=
  ∀ (p : Port) (tag : Byte) (row : Half),
    checkedFirst (.mapUnstage p tag row) p { tag := tag, op := .mapUnstage row } ∧
    ∀ s : State, s.ready p { tag := tag, op := .mapUnstage row } = true →
    ((∀ o, s.edit = .opened o → o.owner ≠ p) → exec (.mapUnstage p tag row) s =
      .next (s.answeredNow p { code := 0x13#8, tag := tag, status := .noEdit, body := .empty })) ∧
    (∀ o, s.edit = .opened o → o.owner = p →
      ((∀ y ∈ o.staged, y.row.val ≠ row.toNat) → exec (.mapUnstage p tag row) s =
        .next ({ s.answeredNow p { code := 0x13#8, tag := tag, status := .badArg, body := .empty } with
          edit := .opened { o with idle := s.config.editIdle } })) ∧
      (∀ before y after, o.staged = before ++ y :: after → y.row.val = row.toNat →
        (∀ z ∈ before, z.row ≠ y.row) → (∀ z ∈ after, z.row ≠ y.row) → exec (.mapUnstage p tag row) s =
        .next ({ s.answeredNow p
            { code := 0x13#8, tag := tag, status := .ok, body := .listLength (before.length + after.length) } with
          edit := .opened { o with idle := s.config.editIdle, staged := before ++ after } })))

/-- R30: MAP_ABORT. -/
def Obligations.MapAbortDiscardsTheEdit : Prop :=
  ∀ (p : Port) (tag : Byte),
    checkedFirst (.mapAbort p tag) p { tag := tag, op := .mapAbort } ∧
    ∀ s : State, s.ready p { tag := tag, op := .mapAbort } = true →
    ((∀ o, s.edit = .opened o → o.owner ≠ p) → exec (.mapAbort p tag) s =
      .next (s.answeredNow p { code := 0x14#8, tag := tag, status := .noEdit, body := .empty })) ∧
    (∀ o, s.edit = .opened o → o.owner = p → exec (.mapAbort p tag) s =
      .next ({ s.answeredNow p { code := 0x14#8, tag := tag, status := .ok, body := .empty } with edit := .absent }))

/-- R34, R35, R39, R40, R41: MAP_COMMIT: refused, of an empty list, with traffic to drain, and with none: then the commit
completes in the same event, whatever the ports hold; that a LEAVING port has its REVISION item is log 8's reading. -/
def Obligations.MapCommitAnswers : Prop :=
  ∀ (p : Port) (tag : Byte) (s : State), s.ready p { tag := tag, op := .mapCommit } = true →
    ((∀ o, s.edit = .opened o → o.owner ≠ p) → exec (.mapCommit p tag) s =
      .next (s.answeredNow p { code := 0x15#8, tag := tag, status := .noEdit, body := .empty })) ∧
    (∀ o, s.edit = .opened o → o.owner = p →
      (o.staged = [] → exec (.mapCommit p tag) s =
        .next ({ s.answeredNow p { code := 0x15#8, tag := tag, status := .ok, body := .revision s.revision } with
          edit := .absent })) ∧
      (∀ (q : Port) (ref : ReqRef), { port := q, ref := ref } ∈ s.drainSet o.staged ↔
        (∃ e ∈ (s.port q).writeQ, ref = .write e.seq ∧ e.completed = false ∧
          ∃ t ∈ e.parts, t.row ∈ o.staged.map Staged.row) ∨
        (∃ e ∈ (s.port q).readL, ref = .read e.tag ∧ ∃ t ∈ e.parts, t.row ∈ o.staged.map Staged.row)) ∧
      (o.staged ≠ [] → s.drainSet o.staged ≠ [] → exec (.mapCommit p tag) s =
        .next ({ s.takenOpen p tag with
          edit := .committing { owner := p, departed := false, base := o.base, change := o.staged,
                                drain := s.drainSet o.staged, tag := tag } })) ∧
      (o.staged ≠ [] → s.drainSet o.staged = [] → ∃ t, exec (.mapCommit p tag) s = .next t ∧
        committed (s.takenOpen p tag) t { owner := p, departed := false, base := o.base, change := o.staged,
                                          drain := [], tag := tag } ∧
        (t.port p).respQ = (s.port p).respQ ++
          [{ code := 0x15#8, tag := tag, status := .ok, body := .revision (s.revision + 1) }] ∧
        (∀ q, ((s.port q).session = .online ∨ (s.port q).session = .leaving) →
          (t.port q).events = ((s.port q).raise (.revision (s.revision + 1))).events) ∧
        (∀ q, ((s.port q).session = .offline ∨ (s.port q).session = .closing) → (t.port q).events = (s.port q).events) ∧
        (∀ q, (∀ r, (s.port q).hold = some r → r.op.isRead = false ∧ r.op.isWrite = false) →
          (t.port q).hold = (s.port q).hold ∧ (t.port q).readL = (s.port q).readL ∧
          (t.port q).writeQ = (s.port q).writeQ) ∧
        t.locks = s.locks ∧ t.slots = s.slots ∧ t.config = s.config))

/-- R5, R39: the map and the revision change only at the completion of a commit, all its rows together and the revision by
one, and at device reset. -/
def Obligations.MapChangesOnlyAtCommits : Prop :=
  ∀ (c : Instr) (s t : State), c ≠ .deviceReset → c ≠ .supplyOrRefclkLoss → s.mapLegal → exec c s = .next t →
    (t.map = s.map ∧ t.revision = s.revision) ∨
    (t.revision = s.revision + 1 ∧ t.edit = .absent ∧ ∃ change : List Staged,
      ((∃ o, s.edit = .opened o ∧ o.staged = change) ∨ ∃ e, s.edit = .committing e ∧ e.change = change) ∧
      (∀ x ∈ change, t.row x.row = x.content) ∧ (∀ r, (∀ x ∈ change, x.row ≠ r) → t.row r = s.row r))

/-! ## Locks -/

/-- R50, R51, R52, R70, R75, R76: LOCK_ACQUIRE in every case. -/
def Obligations.LockAcquireAnswers : Prop :=
  ∀ (p : Port) (tag lock : Byte) (wait yield : Bool) (owner : Half) (lease : Option Half) (s : State),
    s.ready p { tag := tag, op := .lockAcquire lock wait yield owner lease } = true →
    (32 ≤ lock.toNat → exec (.lockAcquire p tag lock wait yield owner lease) s =
      .next (s.answeredNow p { code := 0x20#8, tag := tag, status := .badArg, body := .empty })) ∧
    (∀ k : Lock, k.val = lock.toNat →
      (((∃ d, lease = some d ∧ (d.toNat = 0 ∨ s.config.leaseMax < d.toNat)) ∨
          (lease = none ∧ s.config.leaseRequired = true)) →
        exec (.lockAcquire p tag lock wait yield owner lease) s =
          .next (s.answeredNow p { code := 0x20#8, tag := tag, status := .badArg, body := .empty })) ∧
      ((∀ d, lease = some d → 1 ≤ d.toNat ∧ d.toNat ≤ s.config.leaseMax) →
        (lease = none → s.config.leaseRequired = false) →
        (s.holds p k = true → exec (.lockAcquire p tag lock wait yield owner lease) s = .next (s.answeredNow p
          { code := 0x20#8, tag := tag, status := .already, body := .alreadyAt (s.lock k).generation 0 })) ∧
        (∀ before e after, s.holds p k = false → (s.lock k).queue = before ++ e :: after → e.port = p →
          (∀ x ∈ before, x.port ≠ p) → exec (.lockAcquire p tag lock wait yield owner lease) s = .next (s.answeredNow p
          { code := 0x20#8, tag := tag, status := .already
            body := .alreadyAt (s.lock k).generation (before.length + 1) })) ∧
        (s.holds p k = false → (∀ x ∈ (s.lock k).queue, x.port ≠ p) →
          ((s.lock k).phase = .free → exec (.lockAcquire p tag lock wait yield owner lease) s =
            .next ((s.answeredNow p
              { code := 0x20#8, tag := tag, status := .ok
                body := .granted ((s.lock k).generation + 1) (s.lock k).cause }).setLock k
              { phase := .held { port := p, owner := owner, yield := yield, yieldSent := false,
                                 lease := lease.map (fun d => { duration := d.toNat, remaining := d.toNat })
                                 deadline := none }
                generation := (s.lock k).generation + 1, faultSeen := false, cause := .none, queue := [] })) ∧
          ((s.lock k).phase ≠ .free → wait = false → exec (.lockAcquire p tag lock wait yield owner lease) s =
            .next (s.answeredNow p
              { code := 0x20#8, tag := tag, status := .busy
                body := .busy (s.lock k).phase.state (s.lock k).generation (s.lock k).queue.length })) ∧
          ((s.lock k).phase ≠ .free → wait = true →
            (∀ h, (s.lock k).phase = .held h → h.yield = false ∨ h.yieldSent = true) →
            exec (.lockAcquire p tag lock wait yield owner lease) s =
            .next ((s.answeredNow p
              { code := 0x20#8, tag := tag, status := .queued
                body := .queuedAt ((s.lock k).queue.length + 1) }).setLock k
              { s.lock k with queue := (s.lock k).queue ++
                  [{ port := p, owner := owner, yield := yield, lease := lease.map BitVec.toNat }] })) ∧
          (∀ h, (s.lock k).phase = .held h → wait = true → h.yield = true → h.yieldSent = false →
            exec (.lockAcquire p tag lock wait yield owner lease) s =
            .next (((s.answeredNow p
              { code := 0x20#8, tag := tag, status := .queued
                body := .queuedAt ((s.lock k).queue.length + 1) }).setLock k
              { s.lock k with
                phase := .held { h with
                  yieldSent := true
                  deadline := if s.config.yieldGrace = 0 then none else some s.config.yieldGrace }
                queue := (s.lock k).queue ++
                  [{ port := p, owner := owner, yield := yield, lease := lease.map BitVec.toNat }] }).onPort h.port
              (·.raise (.yield k (s.lock k).generation)))))))

/-- R57, R59, R62, R75, R91: the handoff of a lock in RELEASING, with an empty queue and with a waiter. -/
def Obligations.HandoffPassesTheLock : Prop :=
  ∀ (s : State) (k : Lock) (r : Releasing), (s.lock k).phase = .releasing r →
    (s.handoff k).lock k = s.passedOn (s.lock k) ∧
    (∀ e rest, (s.lock k).queue = e :: rest →
      ((s.handoff k).port e.port).events =
        (if e.yield = true ∧ rest ≠ [] then
          (((s.port e.port).raise (.grant k ((s.lock k).generation + 1) e.owner (s.lock k).reported)).raise
            (.yield k ((s.lock k).generation + 1))).events
        else ((s.port e.port).raise (.grant k ((s.lock k).generation + 1) e.owner (s.lock k).reported)).events)) ∧
    (∀ tag, r.tag = some tag →
      (((s.port r.prev).session = .online ∨ (s.port r.prev).session = .leaving) →
        ((s.handoff k).port r.prev).respQ = (s.port r.prev).respQ ++
          [{ code := 0x21#8, tag := tag, status := .ok, body := .generation (s.lock k).generation }] ∧
        ((s.handoff k).port r.prev).tags = (s.port r.prev).tags.filter (fun x => x != tag)) ∧
      (((s.port r.prev).session = .offline ∨ (s.port r.prev).session = .closing) →
        ((s.handoff k).port r.prev).respQ = (s.port r.prev).respQ)) ∧
    (r.tag = none → ∀ q, ((s.handoff k).port q).respQ = (s.port q).respQ) ∧
    (∀ q, q ≠ r.prev → ((s.handoff k).port q).respQ = (s.port q).respQ ∧ ((s.handoff k).port q).tags = (s.port q).tags) ∧
    (∀ j, j ≠ k → (s.handoff k).lock j = s.lock j) ∧
    (s.handoff k).map = s.map ∧ (s.handoff k).edit = s.edit ∧ (s.handoff k).slots = s.slots ∧
    (s.handoff k).config = s.config

/-- R55, R56: which LOCK_RELEASE is refused, what one that proceeds does while earlier writes are uncompleted, and what it
does when none is: the handoff follows in the same event. -/
def Obligations.LockReleaseAnswers : Prop :=
  ∀ (p : Port) (tag lock : Byte) (gen : Half) (s : State),
    s.ready p { tag := tag, op := .lockRelease lock gen } = true →
    (32 ≤ lock.toNat → exec (.lockRelease p tag lock gen) s =
      .next (s.answeredNow p { code := 0x21#8, tag := tag, status := .badArg, body := .empty })) ∧
    ∀ k : Lock, k.val = lock.toNat →
    (s.holds p k = false → exec (.lockRelease p tag lock gen) s =
      .next (s.answeredNow p { code := 0x21#8, tag := tag, status := .notHolder, body := .empty })) ∧
    (s.holds p k = true → (s.lock k).generation ≠ gen → exec (.lockRelease p tag lock gen) s =
      .next (s.answeredNow p
        { code := 0x21#8, tag := tag, status := .stale, body := .generation (s.lock k).generation })) ∧
    (s.holds p k = true → (s.lock k).generation = gen →
      (watermarkReaches (s.port p).watermark (s.port p).writeSeq = false → exec (.lockRelease p tag lock gen) s =
        .next ((s.takenOpen p tag).setLock k { s.lock k with
          phase := .releasing { prev := p, watch := (s.port p).writeSeq, tag := some tag } })) ∧
      (watermarkReaches (s.port p).watermark (s.port p).writeSeq = true → exec (.lockRelease p tag lock gen) s =
        .next (((s.takenOpen p tag).setLock k { s.lock k with
          phase := .releasing { prev := p, watch := (s.port p).writeSeq, tag := some tag } }).handoff k)))

/-- R72, R73: LOCK_RENEW. Without a lease given, a running one restarts with its current duration, all of it left. -/
def Obligations.LockRenewAnswers : Prop :=
  ∀ (p : Port) (tag lock : Byte) (gen : Half) (lease : Option Half) (s : State),
    s.ready p { tag := tag, op := .lockRenew lock gen lease } = true →
    (32 ≤ lock.toNat → exec (.lockRenew p tag lock gen lease) s =
      .next (s.answeredNow p { code := 0x22#8, tag := tag, status := .badArg, body := .empty })) ∧
    ∀ k : Lock, k.val = lock.toNat →
    (s.holds p k = false → exec (.lockRenew p tag lock gen lease) s =
      .next (s.answeredNow p { code := 0x22#8, tag := tag, status := .notHolder, body := .empty })) ∧
    (s.holds p k = true → (s.lock k).generation ≠ gen → exec (.lockRenew p tag lock gen lease) s =
      .next (s.answeredNow p
        { code := 0x22#8, tag := tag, status := .stale, body := .generation (s.lock k).generation })) ∧
    (∀ h, (s.lock k).phase = .held h → h.port = p → (s.lock k).generation = gen →
      (∀ d, lease = some d → (d.toNat = 0 ∨ s.config.leaseMax < d.toNat) → exec (.lockRenew p tag lock gen lease) s =
        .next (s.answeredNow p { code := 0x22#8, tag := tag, status := .badArg, body := .empty })) ∧
      (∀ d, lease = some d → 1 ≤ d.toNat → d.toNat ≤ s.config.leaseMax → exec (.lockRenew p tag lock gen lease) s =
        .next ((s.answeredNow p
            { code := 0x22#8, tag := tag, status := .ok, body := .renewed gen (some d.toNat) }).setLock k
          { s.lock k with phase := .held { h with lease := some { duration := d.toNat, remaining := d.toNat } } })) ∧
      (lease = none → exec (.lockRenew p tag lock gen lease) s =
        .next ((s.answeredNow p
            { code := 0x22#8, tag := tag, status := .ok, body := .renewed gen (h.lease.map Lease.duration) }).setLock k
          { s.lock k with phase := .held { h with
              lease := h.lease.map (fun x => { duration := x.duration, remaining := x.duration }) } })))

/-- R60: LOCK_CANCEL removes the port's entry, and stops a yield deadline when no entry is left at a HELD lock. -/
def Obligations.LockCancelRemovesTheEntry : Prop :=
  ∀ (p : Port) (tag lock : Byte) (s : State),
    s.ready p { tag := tag, op := .lockCancel lock } = true →
    (32 ≤ lock.toNat → exec (.lockCancel p tag lock) s =
      .next (s.answeredNow p { code := 0x23#8, tag := tag, status := .badArg, body := .empty })) ∧
    ∀ k : Lock, k.val = lock.toNat →
    ((∀ e ∈ (s.lock k).queue, e.port ≠ p) → exec (.lockCancel p tag lock) s =
      .next (s.answeredNow p { code := 0x23#8, tag := tag, status := .notWaiting, body := .empty })) ∧
    (∀ before e after, (s.lock k).queue = before ++ e :: after → e.port = p →
      (∀ x ∈ before, x.port ≠ p) → (∀ x ∈ after, x.port ≠ p) → exec (.lockCancel p tag lock) s =
      .next ((s.answeredNow p { code := 0x23#8, tag := tag, status := .ok, body := .empty }).setLock k
        { s.lock k with
          queue := before ++ after
          phase := match (s.lock k).phase with
            | .held h => .held (if before ++ after = [] then { h with deadline := none } else h)
            | other => other }))

/-- R61, R71: LOCK_QUERY answers the record as it stands. The remaining time of a running lease is any value the passing of time
may have left, from 0 to what the reading before it found, and that is what State holds of it from then on (log 5); nothing
else is changed but the count of free choices. While a grant runs, only LOCK_RENEW and a LOCK_QUERY change its lease, and no
command but LOCK_RENEW makes its duration another or its remaining time more. -/
def Obligations.LockQueryAnswers : Prop :=
  (∀ (p : Port) (tag lock : Byte) (s : State),
    s.ready p { tag := tag, op := .lockQuery lock } = true →
    (32 ≤ lock.toNat → exec (.lockQuery p tag lock) s =
      .next (s.answeredNow p { code := 0x24#8, tag := tag, status := .badArg, body := .empty })) ∧
    ∀ k : Lock, k.val = lock.toNat →
    ∃ info : LockInfo,
      info.gen = (s.lock k).generation ∧ info.faultSeen = (s.lock k).faultSeen ∧ info.cause = (s.lock k).cause ∧
      info.queue = (s.lock k).queue.map WaitEntry.port ∧
      ((s.lock k).phase = .free → info.state = .free ∧ info.holder = none ∧ info.owner = none ∧ info.prev = none ∧
        info.remaining = none) ∧
      (∀ r, (s.lock k).phase = .releasing r → info.state = .releasing ∧ info.holder = none ∧ info.owner = none ∧
        info.prev = some r.prev ∧ info.remaining = none) ∧
      (∀ h, (s.lock k).phase = .held h → info.state = .held ∧ info.holder = some h.port ∧
        info.owner = some h.owner ∧ info.prev = none ∧ (h.lease = none → info.remaining = none)) ∧
      ((∀ h x, (s.lock k).phase = .held h → h.lease ≠ some x) → exec (.lockQuery p tag lock) s =
        .next { s.answeredNow p { code := 0x24#8, tag := tag, status := .ok, body := .lockInfo info } with
          fresh := s.fresh + 1 }) ∧
      (∀ h x, (s.lock k).phase = .held h → h.lease = some x → ∃ m, m ≤ x.remaining ∧ info.remaining = some m ∧
        exec (.lockQuery p tag lock) s =
          .next { (s.answeredNow p { code := 0x24#8, tag := tag, status := .ok, body := .lockInfo info }).setLock k
              { s.lock k with phase := .held { h with lease := some { x with remaining := m } } } with
            fresh := s.fresh + 1 })) ∧
  (∀ (c : Instr) (s t : State) (k : Lock) (h h' : Holder), exec c s = .next t → (s.lock k).phase = .held h →
    (t.lock k).phase = .held h' → (t.lock k).generation = (s.lock k).generation →
    (∀ p tag lock gen lease, c ≠ .lockRenew p tag lock gen lease) →
    (h.lease = none → h'.lease = none) ∧
    (∀ x, h.lease = some x → ∃ x', h'.lease = some x' ∧ x'.duration = x.duration ∧ x'.remaining ≤ x.remaining ∧
      ((∀ p tag lock, c ≠ .lockQuery p tag lock) → x' = x)))

/-- R32, R74, R78, R79, R80: the idle timer's running out discards the edit; the running out of a lease and of a yield
deadline revokes the grant, and the lock is handed off in the same event when no write of the former holder is
uncompleted. -/
def Obligations.TimersRunOut : Prop :=
  (∀ (s : State) (o : OpenEdit), s.edit = .opened o →
    exec .editIdleExpiry s = .next (({ s with edit := .absent }).onPort o.owner (·.raise .editExpired))) ∧
  ∀ (k : Lock) (h : Holder) (reason : BreakCause) (c : Instr) (s u : State), (s.lock k).phase = .held h →
    ((c = .leaseExpiry k ∧ h.lease.isSome = true ∧ reason = .expired) ∨
      (c = .yieldDeadlineExpiry k ∧ h.deadline.isSome = true ∧ reason = .yieldTimeout)) →
    u = (s.onPort h.port (·.raise (.revoked k (s.lock k).generation reason))).setLock k { s.lock k with
      cause := if (s.lock k).cause = .none then reason else (s.lock k).cause
      phase := .releasing { prev := h.port, watch := (s.port h.port).writeSeq, tag := none } } →
    (watermarkReaches (s.port h.port).watermark (s.port h.port).writeSeq = false → exec c s = .next u) ∧
    (watermarkReaches (s.port h.port).watermark (s.port h.port).writeSeq = true → exec c s = .next (u.handoff k))

/-- R54: a lock's generation changes only by one, at a grant, and at device reset. -/
def Obligations.GenerationCountsGrants : Prop :=
  ∀ (c : Instr) (s t : State) (k : Lock), c ≠ .deviceReset → c ≠ .supplyOrRefclkLoss → exec c s = .next t →
    (t.lock k).generation = (s.lock k).generation ∨
    ((t.lock k).generation = (s.lock k).generation + 1 ∧ ∃ h, (t.lock k).phase = .held h)

/-! ## Notifications and faults -/

/-- R126, R127, R128: NOTIFY: its refusals, a reservation behind uncompleted writes, and the append at once. -/
def Obligations.NotifyAnswers : Prop :=
  ∀ (p : Port) (tag target : Byte) (code : Word) (s : State),
    s.ready p { tag := tag, op := .notify target code } = true →
    ((4 ≤ target.toNat ∨ target.toNat = p.val) → exec (.notify p tag target code) s =
      .next (s.answeredNow p { code := 0x30#8, tag := tag, status := .badArg, body := .empty })) ∧
    (∀ q : Port, q.val = target.toNat → q ≠ p →
      ((s.port q).session ≠ .online → exec (.notify p tag target code) s =
        .next (s.answeredNow p { code := 0x30#8, tag := tag, status := .targetAbsent, body := .empty })) ∧
      ((s.port q).session = .online → 8 ≤ s.noticePlaces q → exec (.notify p tag target code) s =
        .next (s.answeredNow p { code := 0x30#8, tag := tag, status := .targetFull, body := .empty })) ∧
      ((s.port q).session = .online → s.noticePlaces q < 8 →
        watermarkReaches (s.port p).watermark (s.port p).writeSeq = false → exec (.notify p tag target code) s =
        .next ((s.takenOpen p tag).onPort p (fun P => { P with notes := P.notes ++
          [{ target := q, tag := tag, code := code, watched := (s.port p).writeSeq, cancelled := false }] }))) ∧
      ((s.port q).session = .online → s.noticePlaces q < 8 →
        watermarkReaches (s.port p).watermark (s.port p).writeSeq = true → exec (.notify p tag target code) s =
        .next ((s.answeredNow p
            { code := 0x30#8, tag := tag, status := .ok, body := .noticeSeq (s.port q).noticeSeq }).onPort q
          (fun T => PortState.raise .notice { T with
            notices := T.notices ++ [{ sender := p, code := code, seq := T.noticeSeq, delivered := false }]
            noticeSeq := T.noticeSeq + 1 }))))

/-- R131: NOTICE_ACK removes the oldest delivered entry with the sequence number. -/
def Obligations.NoticeAckRemovesTheEntry : Prop :=
  ∀ (p : Port) (tag : Byte) (seq : Half),
    checkedFirst (.noticeAck p tag seq) p { tag := tag, op := .noticeAck seq } ∧
    ∀ s : State, s.ready p { tag := tag, op := .noticeAck seq } = true →
    (255 < seq.toNat → exec (.noticeAck p tag seq) s =
      .next (s.answeredNow p { code := 0x31#8, tag := tag, status := .badArg, body := .empty })) ∧
    (seq.toNat ≤ 255 → (∀ n ∈ (s.port p).notices, n.delivered = true → n.seq.toNat ≠ seq.toNat) →
      exec (.noticeAck p tag seq) s =
      .next (s.answeredNow p { code := 0x31#8, tag := tag, status := .stale, body := .empty })) ∧
    (∀ before n after, (s.port p).notices = before ++ n :: after → n.delivered = true → n.seq.toNat = seq.toNat →
      (∀ m ∈ before, m.delivered = true → m.seq.toNat ≠ seq.toNat) → exec (.noticeAck p tag seq) s =
      .next ((s.answeredNow p
          { code := 0x31#8, tag := tag, status := .ok, body := .acknowledged n.sender n.code }).onPort p
        (fun P => { P with notices := before ++ after })))

/-- R148: FAULT_TAKE. -/
def Obligations.FaultTakeAnswers : Prop :=
  ∀ (p : Port) (tag : Byte),
    checkedFirst (.faultTake p tag) p { tag := tag, op := .faultTake } ∧
    ∀ s : State, s.ready p { tag := tag, op := .faultTake } = true →
    (∀ x rest, (s.port p).faults = x :: rest → exec (.faultTake p tag) s =
      .next ((s.answeredNow p
          { code := 0x38#8, tag := tag, status := .ok, body := .faultTaken x (s.port p).lost }).onPort p
        (fun P => { P with
          faults := rest, lost := 0
          events := if rest = [] then P.events.filter (fun e => !(Item.fault).sameKey e) else P.events }))) ∧
    ((s.port p).faults = [] → exec (.faultTake p tag) s =
      .next ((s.answeredNow p
          { code := 0x38#8, tag := tag, status := .empty, body := .noFault (s.port p).lost }).onPort p
        (fun P => { P with lost := 0, events := P.events.filter (fun e => !(Item.fault).sameKey e) })))

/-- R137, R139: a raise: none for a port out of contact or without the subscription; in place for a key that is present; at
the end otherwise. -/
def Obligations.RaiseKeepsOneItemPerKey : Prop :=
  ∀ (P : PortState) (it : Item),
    ((P.session = .offline ∨ P.session = .closing) → P.raise it = P) ∧
    (∀ v, it = .revision v → P.subRev = false → P.raise it = P) ∧
    (it = .fault → P.subFault = false → P.raise it = P) ∧
    ((P.session = .online ∨ P.session = .leaving) → (∀ v, it = .revision v → P.subRev = true) →
      (it = .fault → P.subFault = true) →
      (∀ before old after, P.events = before ++ old :: after → it.sameKey old = true →
        (∀ e ∈ before, it.sameKey e = false) → (∀ e ∈ after, it.sameKey e = false) →
        P.raise it = { P with events := before ++ it :: after }) ∧
      ((∀ e ∈ P.events, it.sameKey e = false) → P.raise it = { P with events := P.events ++ [it] }))

/-- R146, R147: a fault record handed to a port. -/
def Obligations.FaultRecordIsKeptOrCounted : Prop :=
  ∀ (P : PortState) (r : FaultRecord),
    ((P.session = .offline ∨ P.session = .closing) → P.record r = P) ∧
    ((P.session = .online ∨ P.session = .leaving) →
      (P.faults.length < 8 → P.record r = ({ P with faults := P.faults ++ [r] }).raise .fault) ∧
      (8 ≤ P.faults.length → P.lost < 255 → P.record r = ({ P with lost := P.lost + 1 }).raise .fault) ∧
      (8 ≤ P.faults.length → P.lost = 255 → P.record r = P.raise .fault))

/-! ## Configuration -/

/-- R168: CONFIG_READ. The bytes of the SUBSCRIBE and PORT_STATE values rest on the model's reading of Table 10-7: byte 0 is
the first one sent (log 10), and the bytes the table does not name are 0 (log 9). -/
def Obligations.ConfigReadAnswers : Prop :=
  ∀ (p : Port) (tag item index : Byte),
    checkedFirst (.configRead p tag item index) p { tag := tag, op := .configRead item index } ∧
    ∀ s : State, s.ready p { tag := tag, op := .configRead item index } = true →
    ((item.toNat = 0 ∨ 11 < item.toNat ∨ (item = 8#8 ∧ index.toNat ≠ p.val) ∨ (item = 11#8 ∧ 4 ≤ index.toNat)) →
      exec (.configRead p tag item index) s =
        .next (s.answeredNow p { code := 0x3C#8, tag := tag, status := .badArg, body := .empty })) ∧
    (∀ value : Word,
      ((item = 1#8 ∧ value.toNat = (if s.config.leaseRequired then 1 else 0)) ∨
        (item = 2#8 ∧ s.config.leaseMax ≤ 65535 ∧ value.toNat = s.config.leaseMax) ∨
        (item = 3#8 ∧ s.config.yieldGrace ≤ 65535 ∧ value.toNat = s.config.yieldGrace) ∨
        (item = 4#8 ∧ s.config.editIdle ≤ 2000 ∧ value.toNat = s.config.editIdle) ∨
        (item = 5#8 ∧ s.config.poolTime ≤ 255 ∧ value.toNat = s.config.poolTime) ∨
        (item = 6#8 ∧ s.config.poolRetries ≤ 15 ∧ value.toNat = s.config.poolRetries) ∨
        (item = 7#8 ∧ s.config.slotQuota ≤ 8 ∧ value.toNat = s.config.slotQuota) ∨
        (item = 8#8 ∧ index.toNat = p.val ∧
          be32 value = [flagByte (s.port p).subRev, flagByte (s.port p).subFault, 0#8, 0#8]) ∨
        (item = 9#8 ∧ value.toNat = 0x54) ∨ (item = 10#8 ∧ value.toNat = 0x12) ∨
        (item = 11#8 ∧ ∃ q : Port, q.val = index.toNat ∧
          be32 value = [(s.port q).session.code, (s.port q).link.code, (s.port q).sessionNo, 0#8])) →
      exec (.configRead p tag item index) s =
        .next (s.answeredNow p { code := 0x3C#8, tag := tag, status := .ok, body := .config item index value }))

/-- R169, R65: CONFIG_WRITE of a global item: the configuration lock, the range, and the value stored. Read-only items and
item numbers outside 1 to 11 are refused. -/
def Obligations.ConfigWriteAnswers : Prop :=
  ∀ (p : Port) (tag item index : Byte) (value : Word) (s : State),
    s.ready p { tag := tag, op := .configWrite item index value } = true →
    ((item.toNat = 0 ∨ 9 ≤ item.toNat) → exec (.configWrite p tag item index value) s =
      .next (s.answeredNow p { code := 0x3D#8, tag := tag, status := .badArg, body := .empty })) ∧
    (1 ≤ item.toNat → item.toNat ≤ 7 → s.holds p 0 = false → exec (.configWrite p tag item index value) s =
      .next (s.answeredNow p { code := 0x3D#8, tag := tag, status := .locked, body := .empty })) ∧
    (s.holds p 0 = true →
      ((item = 1#8 ∧ 1 < value.toNat) ∨ (item = 2#8 ∧ (value.toNat = 0 ∨ 65535 < value.toNat)) ∨
          (item = 3#8 ∧ 65535 < value.toNat) ∨ (item = 4#8 ∧ (value.toNat < 10 ∨ 2000 < value.toNat)) ∨
          (item = 5#8 ∧ (value.toNat = 0 ∨ 255 < value.toNat)) ∨ (item = 6#8 ∧ 15 < value.toNat)) →
      exec (.configWrite p tag item index value) s =
        .next (s.answeredNow p { code := 0x3D#8, tag := tag, status := .badArg, body := .empty })) ∧
    (∀ config : ConfigTable, s.holds p 0 = true →
      ((item = 1#8 ∧ value.toNat ≤ 1 ∧ config = { s.config with leaseRequired := value == 1#32 }) ∨
        (item = 2#8 ∧ 1 ≤ value.toNat ∧ value.toNat ≤ 65535 ∧ config = { s.config with leaseMax := value.toNat }) ∨
        (item = 3#8 ∧ value.toNat ≤ 65535 ∧ config = { s.config with yieldGrace := value.toNat }) ∨
        (item = 4#8 ∧ 10 ≤ value.toNat ∧ value.toNat ≤ 2000 ∧ config = { s.config with editIdle := value.toNat }) ∨
        (item = 5#8 ∧ 1 ≤ value.toNat ∧ value.toNat ≤ 255 ∧ config = { s.config with poolTime := value.toNat }) ∨
        (item = 6#8 ∧ value.toNat ≤ 15 ∧ config = { s.config with poolRetries := value.toNat })) →
      exec (.configWrite p tag item index value) s = .next ({ s.answeredNow p
          { code := 0x3D#8, tag := tag, status := .ok, body := .config item index value } with config := config }))

/-- R122, R169, R65: CONFIG_WRITE of SLOT_QUOTA; the new quota decides eligibility from then on. -/
def Obligations.SlotQuotaWriteAnswers : Prop :=
  ∀ (p : Port) (tag index : Byte) (value : Word) (s : State),
    s.ready p { tag := tag, op := .configWrite 7#8 index value } = true →
    (s.holds p 0 = false → exec (.configWriteSlotQuota p tag index value) s =
      .next (s.answeredNow p { code := 0x3D#8, tag := tag, status := .locked, body := .empty })) ∧
    (s.holds p 0 = true → (value.toNat = 0 ∨ 8 < value.toNat) → exec (.configWriteSlotQuota p tag index value) s =
      .next (s.answeredNow p { code := 0x3D#8, tag := tag, status := .badArg, body := .empty })) ∧
    (s.holds p 0 = true → 1 ≤ value.toNat → value.toNat ≤ 8 → ∃ t,
      exec (.configWriteSlotQuota p tag index value) s = .next t ∧
      t = { s.answeredNow p { code := 0x3D#8, tag := tag, status := .ok, body := .config 7#8 index value } with
        config := { s.config with slotQuota := value.toNat } } ∧
      ∀ q, t.eligible q = true ↔ ((s.port q).offer.isSome = true ∧ s.inFlight q < value.toNat))

/-- R144, R169: CONFIG_WRITE of the port's own SUBSCRIBE item. -/
def Obligations.SubscribeWriteAnswers : Prop :=
  ∀ (p : Port) (tag index : Byte) (value : Word) (s : State),
    s.ready p { tag := tag, op := .configWrite 8#8 index value } = true →
    (index.toNat ≠ p.val → exec (.configWriteSubscribe p tag index value) s =
      .next (s.answeredNow p { code := 0x3D#8, tag := tag, status := .badArg, body := .empty })) ∧
    (index.toNat = p.val → (∃ b ∈ be32 value, 1 < b.toNat) → exec (.configWriteSubscribe p tag index value) s =
      .next (s.answeredNow p { code := 0x3D#8, tag := tag, status := .badArg, body := .empty })) ∧
    (∀ (rev fault : Bool) (x y : Byte), index.toNat = p.val → be32 value = [flagByte rev, flagByte fault, x, y] →
      x.toNat ≤ 1 → y.toNat ≤ 1 →
      ∃ (t : State) (held : Word), exec (.configWriteSubscribe p tag index value) s = .next t ∧
        be32 held = [flagByte rev, flagByte fault, 0#8, 0#8] ∧
        (∀ q, q ≠ p → t.port q = s.port q) ∧
        t.port p = { s.port p with
          intake := (s.port p).intake.tail
          places := (s.port p).places + 1
          begun := (s.port p).arriving
          respQ := (s.port p).respQ ++ [
            { code := 0x3D#8, tag := tag, status := .ok, body := .config 8#8 index held }]
          subRev := rev
          subFault := fault
          events := (t.port p).events } ∧
        t = s.setPort p (t.port p) ∧
        (rev = (s.port p).subRev → fault = (s.port p).subFault → (t.port p).events = (s.port p).events) ∧
        (fault = (s.port p).subFault → (t.port p).events = if (s.port p).subRev = true ∧ rev = false then
          (s.port p).events.filter (fun it => !it.sameKey (.revision 0#16)) else (s.port p).events) ∧
        (rev = (s.port p).subRev → ∀ v, .revision v ∈ (t.port p).events ↔ .revision v ∈ (s.port p).events) ∧
        (∀ it, it.sameKey (.revision 0#16) = false → it.sameKey .fault = false →
          (it ∈ (t.port p).events ↔ it ∈ (s.port p).events)) ∧
        ((s.port p).subRev = true → rev = false → ∀ it ∈ (t.port p).events, it.sameKey (.revision 0#16) = false) ∧
        (rev = true → ∀ v, .revision v ∈ (t.port p).events ↔ .revision v ∈ (s.port p).events) ∧
        ((s.port p).subFault = true → fault = false → .fault ∉ (t.port p).events) ∧
        ((s.port p).subFault = false → fault = true → ((s.port p).faults ≠ [] ∨ 0 < (s.port p).lost) →
          .fault ∈ (t.port p).events) ∧
        ((s.port p).subFault = false → fault = true → (s.port p).faults = [] → (s.port p).lost = 0 →
          (.fault ∈ (t.port p).events ↔ .fault ∈ (s.port p).events)))

/-! ## Frames -/

/-- R163, R164: the check value over the nine bytes 0x31 to 0x39 and the four bytes sent for it; and the bytes of every frame the
part sends: header, body, then the check value over both, most significant byte first. -/
def Obligations.CheckValueOfNineDigits : Prop :=
  (checkValue [0x31#8, 0x32#8, 0x33#8, 0x34#8, 0x35#8, 0x36#8, 0x37#8, 0x38#8, 0x39#8] = 0xE3069283#32 ∧
    be32 0xE3069283#32 = [0xE3#8, 0x06#8, 0x92#8, 0x83#8]) ∧
  (∀ (kind tag status flags hi lo : Byte) (body : List Byte), body.length = hi.toNat * 256 + lo.toNat →
    ∃ header check : List Byte, header = [kind, tag, status, flags, hi, lo, 0#8, 0#8] ∧ check.length = 4 ∧
      (Frame.make kind tag status flags body).wire = header ++ body ++ check ∧
      check = [(checkValue (header ++ body)).extractLsb' 24 8, (checkValue (header ++ body)).extractLsb' 16 8,
        (checkValue (header ++ body)).extractLsb' 8 8, (checkValue (header ++ body)).extractLsb' 0 8])

/-- R163, R165, R166, R87, R92, R152: what the receipt of a frame's bytes does at a port whose link is UP, when there is room for
the frame or it began to arrive while there was. When its refusal then finds all 32 response places in use, the frame's end waits
for one, which is the model's choice (log 3). A frame that could not begin, one on a link that is DOWN, and bytes that are not one
whole frame have no effect (log 3). -/
def Obligations.FrameReceiptChecks : Prop :=
  (∀ (p : Port) (bytes : List Byte) (s : State), Frame.ofWire bytes = none →
    exec (.frameReceipt p bytes) s = .next s) ∧
  ∀ (p : Port) (bytes : List Byte) (f : Frame) (s : State), Frame.ofWire bytes = some f → s.running = true →
    ((s.port p).link = .down → exec (.frameReceipt p bytes) s = .next s) ∧
    ((8 ≤ (s.port p).intake.length ∨ 32 ≤ (s.port p).places) → (s.port p).begun = false →
      exec (.frameReceipt p bytes) s = .next s) ∧
    ((s.port p).link = .up →
      (((s.port p).intake.length < 8 ∧ (s.port p).places < 32) ∨ (s.port p).begun = true) →
      (checkValue f.covered ≠ f.check → exec (.frameReceipt p bytes) s =
        .next (s.onPort p (fun P => { P.record .badCheck with begun := false }))) ∧
      (32 ≤ (s.port p).places → checkValue f.covered = f.check →
        (∀ n, requiredLength f.kind f.body = some n → f.body.length ≠ n ∨ 264 < f.body.length) →
        exec (.frameReceipt p bytes) s = .next s) ∧
      ((s.port p).places < 32 → checkValue f.covered = f.check → requiredLength f.kind f.body = none →
        exec (.frameReceipt p bytes) s = .next (s.setPort p { s.port p with
          begun := false
          respQ := (s.port p).respQ ++ [{ code := f.kind, tag := f.tag, status := .unknown, body := .empty }]
          places := (s.port p).places + 1 })) ∧
      (∀ n, (s.port p).places < 32 → checkValue f.covered = f.check → requiredLength f.kind f.body = some n →
        (f.body.length ≠ n ∨ 264 < f.body.length) → exec (.frameReceipt p bytes) s =
        .next ((s.setPort p { s.port p with
          begun := false
          respQ := (s.port p).respQ ++ [{ code := f.kind, tag := f.tag, status := .badArg, body := .empty }]
          places := (s.port p).places + 1 }).onPort p (·.record (.lengthMismatch f.tag)))) ∧
      (checkValue f.covered = f.check → requiredLength f.kind f.body = some f.body.length → f.body.length ≤ 264 →
        exec (.frameReceipt p bytes) s = .next (s.setPort p { s.port p with
          begun := false
          intake := (s.port p).intake ++ [{ tag := f.tag, op := requestFields f.kind f.flags f.body }] })))

/-- Tables 10-1 to 10-4, R163: the bytes of a frame formed from any request that a frame can carry are read as that frame and
received as that very request: every field at every value comes through. -/
def Obligations.RequestFrameRoundTrip : Prop :=
  ∀ r : Request, r.carriable = true →
    Frame.ofWire (Request.frame r).wire = some (Request.frame r) ∧ (Request.frame r).receipt = .request r

/-! ## The pool bus -/

/-- R101, R102, R109, R110, R111: a run of the slot arbiter serves the first eligible port after the pointer, in the lowest free
slot; a port is eligible while it offers a piece and is below quota. What a port offers: the first unissued piece of its
earliest accepted request that is not spent, and nothing while that is a read whose fence the watermark has not reached. That a
write was accepted before a read when the read's fence reaches its number is the model's reading (log 24). -/
def Obligations.ArbiterServesInTurn : Prop :=
  (∀ s : State, ((∀ n, (s.slot n).job ≠ none) ∨ (∀ p, s.eligible p = false)) →
    exec .slotArbiterRun s = .next s) ∧
  (∀ (s : State) (n : SlotNo) (turn : Port) (p : Port) (ref : ReqRef) (m : Nat) (x : Piece), s.running = true →
    (s.slot n).job = none → (∀ l, l < n → (s.slot l).job ≠ none) →
    p = s.rr + 1 + turn → s.eligible p = true → (∀ j, j < turn → s.eligible (s.rr + 1 + j) = false) →
    (s.port p).offer = some (ref, m) → ((s.port p).piecesOf ref)[m]? = some x →
    ∃ t, exec .slotArbiterRun s = .next t ∧ t.rr = p ∧
      t.slot n =
        { issueNo := (s.slot n).issueNo + 1
          job := some { port := p, ref := ref, piece := m, pool := x.pool, len := x.len, dir := ref.dir, retries := 0,
                        retryLimit := s.config.poolRetries, timeLimit := s.config.poolTime } } ∧
      (∀ l, l ≠ n → t.slot l = s.slot l) ∧
      t.busIssue = some { slot := n, issueNo := (s.slot n).issueNo + 1, pool := x.pool, len := x.len, dir := ref.dir,
                          data := (s.port p).pieceData ref m } ∧
      t.port p = (s.port p).onPiece ref m (fun y => { y with cond := .inFlight }) ∧
      (∀ q, q ≠ p → t.port q = s.port q) ∧ t.locks = s.locks ∧ t.map = s.map ∧ t.edit = s.edit ∧
      t.config = s.config ∧ t.busAbort = s.busAbort) ∧
  (∀ (s : State) (p : Port),
    s.eligible p = true ↔ ((s.port p).offer ≠ none ∧ s.inFlight p < s.config.slotQuota)) ∧
  (∀ P : PortState, (∀ w ∈ P.writeQ, spent w.pieces w.failed.isSome) →
    (∀ e ∈ P.readL, spent e.pieces (e.failed.isSome || e.cut)) → P.offer = none) ∧
  (∀ (P : PortState) (w : WriteEntry) (before after : List WriteEntry) (m : Nat), P.writeQ = before ++ w :: after →
    w.failed = none → nextUnissued w.pieces m → (∀ y ∈ before, spent y.pieces y.failed.isSome) →
    (∀ e ∈ P.readL, watermarkReaches e.fence w.seq = false → spent e.pieces (e.failed.isSome || e.cut)) →
    P.offer = some (.write w.seq, m)) ∧
  (∀ (P : PortState) (e : ReadEntry) (before after : List ReadEntry) (m : Nat), P.readL = before ++ e :: after →
    e.failed = none → e.cut = false → nextUnissued e.pieces m →
    (∀ y ∈ before, spent y.pieces (y.failed.isSome || y.cut)) →
    (∀ w ∈ P.writeQ, watermarkReaches e.fence w.seq = true → spent w.pieces w.failed.isSome) →
    P.offer = if watermarkReaches P.watermark e.fence = true then some (.read e.tag, m) else none)

/-- R112: a reply to a slot outside 0 to 7, to a free slot, or with another issue number changes nothing; a reply to the
current issue whose content does not fit is taken as an ERROR reply. -/
def Obligations.RepliesAreMatchedToIssues : Prop :=
  (∀ (slot issue : Byte) (data : List Byte) (s : State),
    (8 ≤ slot.toNat ∨ ∃ n : SlotNo, n.val = slot.toNat ∧ ((s.slot n).job = none ∨ (s.slot n).issueNo ≠ issue)) →
    exec (.replyDone slot issue data) s = .next s ∧ exec (.replyError slot issue data) s = .next s ∧
    exec (.replyRetry slot issue data) s = .next s) ∧
  (∀ (n : SlotNo) (slot issue : Byte) (data : List Byte) (j : Job) (s : State), slot.toNat = n.val →
    (s.slot n).job = some j → (s.slot n).issueNo = issue →
    (data ≠ [] → exec (.replyRetry slot issue data) s = exec (.replyError slot issue []) s ∧
      exec (.replyError slot issue data) s = exec (.replyError slot issue []) s) ∧
    ((j.dir = .read ∧ data.length ≠ j.len) ∨ (j.dir = .write ∧ data ≠ []) →
      exec (.replyDone slot issue data) s = exec (.replyError slot issue []) s))

/-- R115, R111: a RETRY with retries left issues the piece again in its slot, with the next issue number. -/
def Obligations.RetryIssuesAgain : Prop :=
  ∀ (n : SlotNo) (slot issue : Byte) (j : Job) (s : State), s.running = true → slot.toNat = n.val →
    (s.slot n).job = some j → (s.slot n).issueNo = issue → j.retries < j.retryLimit →
    exec (.replyRetry slot issue []) s = .next { s.setSlot n
        { issueNo := issue + 1, job := some { j with retries := j.retries + 1 } } with
      busIssue := some { slot := n, issueNo := issue + 1, pool := j.pool, len := j.len, dir := j.dir,
                         data := (s.port j.port).pieceData j.ref j.piece } }

/-- R113, R118: a DONE reply to a piece while another piece of its request is in flight, or is still to be issued: the piece ends
well, a read's data is stored unless the read has failed, the slot is free, and nothing else changes. -/
def Obligations.DoneEndsThePiece : Prop :=
  ∀ (n : SlotNo) (slot issue : Byte) (data : List Byte) (j : Job) (x y : Piece) (m : Nat) (s : State),
    s.running = true → slot.toNat = n.val → (s.slot n).job = some j → (s.slot n).issueNo = issue →
    m ≠ j.piece →
    (∀ (tag : Byte) (e : ReadEntry), j.dir = .read → data.length = j.len → j.ref = .read tag →
      (s.port j.port).readL.find? (fun r => r.tag == tag) = some e → e.pieces[j.piece]? = some x →
      e.pieces[m]? = some y →
      (y.cond = .inFlight ∨ (y.cond = .unissued ∧ e.failed = none ∧ e.cut = false)) →
      ∃ e' : ReadEntry, e'.pieces[j.piece]? = some { x with
          cond := .endedWell, data := if e.failed.isSome then x.data else data } ∧
        (∀ i, i ≠ j.piece → e'.pieces[i]? = e.pieces[i]?) ∧ e' = { e with pieces := e'.pieces } ∧
        exec (.replyDone slot issue data) s =
          .next ((s.setSlot n { issueNo := issue, job := none }).onPort j.port (fun P => { P with
            readL := P.readL.map (fun r => if r.tag = tag then e' else r) }))) ∧
    (∀ (seq : Word) (w : WriteEntry), j.dir = .write → data = [] → j.ref = .write seq →
      (s.port j.port).writeQ.find? (fun e => e.seq == seq) = some w → w.pieces[j.piece]? = some x →
      w.pieces[m]? = some y → (y.cond = .inFlight ∨ (y.cond = .unissued ∧ w.failed = none)) → x.data = [] →
      ∃ w' : WriteEntry, w'.pieces[j.piece]? = some { x with cond := .endedWell } ∧
        (∀ i, i ≠ j.piece → w'.pieces[i]? = w.pieces[i]?) ∧ w' = { w with pieces := w'.pieces } ∧
        exec (.replyDone slot issue data) s =
          .next ((s.setSlot n { issueNo := issue, job := none }).onPort j.port (fun P => { P with
            writeQ := P.writeQ.map (fun e => if e.seq = seq then w' else e) })))

/-- R118, R119, R95, R91, R36, R104, R156, R159: the end of the last piece of a read, well or failed: the slot is free and the
read leaves the read list and the drain set. A port ONLINE or LEAVING is answered OK with the read's bytes, or POOL_ERROR with
its first failure, and its tag leaves the table; a LEAVE response that this makes due follows. A CLOSING port gets no response,
and becomes OFFLINE when its work has ended. A commit whose drain set this empties completes. -/
def Obligations.ReadCompletes : Prop :=
  ∀ (c : Instr) (n : SlotNo) (j : Job) (end_ : Ending) (tag : Byte) (e : ReadEntry) (x : Piece) (s : State),
    endsPiece c s n j end_ → j.ref = .read tag →
    (s.port j.port).readL.find? (fun r => r.tag == tag) = some e → e.pieces[j.piece]? = some x →
    lastPiece e.pieces j.piece (e.failed.isSome || e.cut || end_.fails) →
    ∃ t rest, exec c s = .next t ∧ t.slot n = { issueNo := (s.slot n).issueNo, job := none } ∧
      (∀ m, m ≠ n → t.slot m = s.slot m) ∧ t.locks = s.locks ∧ t.config = s.config ∧
      rest = s.onPort j.port (fun P => { P with readL := P.readL.filter (fun r => r.tag != tag) }) ∧
      drained rest t j.port (.read tag) ∧
      ((s.port j.port).reached →
        tag ∉ (t.port j.port).tags ∧ (t.port j.port).watermark = (s.port j.port).watermark ∧
        ((s.port j.port).hold = none → (t.port j.port).readL = (rest.port j.port).readL ∧
          (t.port j.port).writeQ = (s.port j.port).writeQ) ∧
        (∀ f, firstFailure e.failed end_ x.addr = some f → ∃ after, (t.port j.port).respQ = (s.port j.port).respQ ++
          { code := 0x03#8, tag := tag, status := .poolError, body := .poolError f.sub } :: after) ∧
        (∀ data, e.failed = none → end_ = .well data → ∃ bytes after, (t.port j.port).respQ =
          (s.port j.port).respQ ++ { code := 0x03#8, tag := tag, status := .ok, body := .data bytes } :: after ∧
          bytes = (e.pieces.take j.piece).flatMap Piece.data ++ data ++
            (e.pieces.drop (j.piece + 1)).flatMap Piece.data)) ∧
      leaveSettled s t j.port (s.port j.port).watermark
        ((rest.port j.port).readL = [] ∧ s.onlySlot n j.port) ∧
      closingSettled s t j.port ((s.port j.port).watermark = (s.port j.port).writeSeq ∧
        (rest.port j.port).readL = [] ∧ s.onlySlot n j.port)

/-- R114, R115, R116, R118: a piece that fails while another piece of its request is in flight: the slot is free, the
request's first failure is recorded, the access timer sends an abort, and nothing else changes. -/
def Obligations.PieceFailureIsRecorded : Prop :=
  ∀ (n : SlotNo) (slot issue : Byte) (j : Job) (x y : Piece) (m : Nat) (sub : SubStatus) (c : Instr) (s : State),
    s.running = true → slot.toNat = n.val → (s.slot n).job = some j → (s.slot n).issueNo = issue →
    failsBy c n slot issue j sub → m ≠ j.piece → y.cond = .inFlight →
    (∀ (seq : Word) (w : WriteEntry), j.ref = .write seq →
      (s.port j.port).writeQ.find? (fun e => e.seq == seq) = some w → w.pieces[j.piece]? = some x →
      w.pieces[m]? = some y →
      ∃ w' : WriteEntry, w'.pieces[j.piece]? = some { x with cond := .endedFailed sub } ∧
        (∀ i, i ≠ j.piece → w'.pieces[i]? = w.pieces[i]?) ∧
        w' = { w with pieces := w'.pieces, failed := w.failed.or (some { sub := sub, addr := x.addr }) } ∧
        exec c s = .next { (s.setSlot n { issueNo := issue, job := none }).onPort j.port (fun P => { P with
            writeQ := P.writeQ.map (fun e => if e.seq = seq then w' else e) }) with
          busAbort := if c = .accessTimerExpiry n then some { slot := n, issueNo := issue } else s.busAbort }) ∧
    (∀ (tag : Byte) (e : ReadEntry), j.ref = .read tag →
      (s.port j.port).readL.find? (fun r => r.tag == tag) = some e → e.pieces[j.piece]? = some x →
      e.pieces[m]? = some y →
      ∃ e' : ReadEntry, e'.pieces[j.piece]? = some { x with cond := .endedFailed sub } ∧
        (∀ i, i ≠ j.piece → e'.pieces[i]? = e.pieces[i]?) ∧
        e' = { e with pieces := e'.pieces, failed := e.failed.or (some { sub := sub, addr := x.addr }) } ∧
        exec c s = .next { (s.setSlot n { issueNo := issue, job := none }).onPort j.port (fun P => { P with
            readL := P.readL.map (fun r => if r.tag = tag then e' else r) }) with
          busAbort := if c = .accessTimerExpiry n then some { slot := n, issueNo := issue } else s.busAbort })

/-- R118, R121, R64, R146: the end of the last piece of a posted write that has failed, with this end or an earlier one: the
write's port, ONLINE or LEAVING, gets a fault record with the write's sequence and the address and sub-status of its first
failed piece, and fault-seen is set on every guard lock of its translation, HELD or RELEASING, before a handoff of the same
event reads it. -/
def Obligations.PostedWriteFailureIsReported : Prop :=
  ∀ (c : Instr) (n : SlotNo) (j : Job) (end_ : Ending) (w : WriteEntry) (x : Piece) (f : Failure) (s : State),
    endsPiece c s n j end_ → j.ref = .write w.seq →
    (s.port j.port).writeQ.find? (fun e => e.seq == w.seq) = some w → w.posted = true →
    w.pieces[j.piece]? = some x → lastPiece w.pieces j.piece true →
    firstFailure w.failed end_ x.addr = some f →
    ((s.port j.port).session = .online ∨ (s.port j.port).session = .leaving) →
    ∃ t, exec c s = .next t ∧ t.slot n = { issueNo := (s.slot n).issueNo, job := none } ∧
      ((s.port j.port).faults.length < 8 →
        (t.port j.port).faults = (s.port j.port).faults ++ [.postedWriteFailed w.seq f.addr f.sub] ∧
        (t.port j.port).lost = (s.port j.port).lost) ∧
      (8 ≤ (s.port j.port).faults.length → (s.port j.port).lost ≤ 255 →
        (t.port j.port).faults = (s.port j.port).faults ∧
        (t.port j.port).lost = min 255 ((s.port j.port).lost + 1)) ∧
      ((s.port j.port).subFault = true → .fault ∈ (t.port j.port).events) ∧
      (∀ k, t.lock k = s.afterAdvance j.port (t.port j.port).watermark { s.lock k with
        faultSeen := (s.lock k).faultSeen || decide (k ∈ w.guards.map GuardMark.lock) })

/-- R118, R120, R121, R91, R93, R96, R98, R99, R57, R64, R128, R134, R36, R104, R156, R159: the end of the last piece of a write,
posted or not, well or failed, at the head of the write queue or behind it. The watermark passes every completed write up to the
first that is not, and those leave the queue. A port ONLINE or LEAVING is answered a non-posted write, before anything else of
the event, and its tag leaves the table; a posted write that ends well gets no record. Fault-seen is set for a failed write; the
locks and NOTIFYs whose watch the watermark reaches are handed off and fire; the write leaves the drain set, and a commit that
then waits for nothing completes; a LEAVE response that this makes due follows. A CLOSING port gets no response, and becomes
OFFLINE when its work has ended. -/
def Obligations.WriteCompletes : Prop :=
  ∀ (c : Instr) (n : SlotNo) (j : Job) (end_ : Ending) (w : WriteEntry) (before after : List WriteEntry) (x : Piece)
    (s : State), endsPiece c s n j end_ → j.ref = .write w.seq → (s.port j.port).writeQ = before ++ w :: after →
    (∀ e ∈ before ++ after, e.seq ≠ w.seq) → w.pieces[j.piece]? = some x →
    lastPiece w.pieces j.piece (w.failed.isSome || end_.fails) →
    ∃ (t rest : State) (w' : WriteEntry) (passed kept : List WriteEntry) (mark : Word), exec c s = .next t ∧
      t.slot n = { issueNo := (s.slot n).issueNo, job := none } ∧ (∀ m, m ≠ n → t.slot m = s.slot m) ∧
      t.config = s.config ∧
      w' = { w with pieces := w'.pieces, failed := firstFailure w.failed end_ x.addr, completed := true } ∧
      before ++ w' :: after = passed ++ kept ∧ (∀ e ∈ passed, e.completed = true) ∧
      (∀ e, kept.head? = some e → e.completed = false) ∧
      mark = ((passed.getLast?).map WriteEntry.seq).getD (s.port j.port).watermark ∧
      rest = s.onPort j.port (fun P => { P with writeQ := kept, watermark := mark }) ∧
      (∀ k, t.lock k = s.afterAdvance j.port mark { s.lock k with
        faultSeen := (s.lock k).faultSeen || (w'.failed.isSome && decide (k ∈ w.guards.map GuardMark.lock)) }) ∧
      notified s t j.port mark ∧ drained rest t j.port (.write w.seq) ∧
      ((s.port j.port).reached → (t.port j.port).watermark = mark ∧
        ((s.port j.port).hold = none → (t.port j.port).writeQ = kept ∧
          (t.port j.port).readL = (s.port j.port).readL) ∧
        ((w.posted = false ∨ w'.failed = none) → (t.port j.port).faults = (s.port j.port).faults ∧
          (t.port j.port).lost = (s.port j.port).lost) ∧
        (w.posted = false → w.tag ∉ (t.port j.port).tags ∧
          (w'.failed = none → ∃ others, (t.port j.port).respQ = (s.port j.port).respQ ++
            { code := 0x04#8, tag := w.tag, status := .ok, body := .written w.seq none } :: others) ∧
          (∀ f, w'.failed = some f → ∃ others, (t.port j.port).respQ = (s.port j.port).respQ ++
            { code := 0x04#8, tag := w.tag, status := .poolError, body := .written w.seq (some f.sub) } :: others))) ∧
      leaveSettled s t j.port mark ((s.port j.port).readL = [] ∧ s.onlySlot n j.port) ∧
      closingSettled s t j.port (mark = (s.port j.port).writeSeq ∧ (s.port j.port).readL = [] ∧
        s.onlySlot n j.port) ∧
      ((s.port j.port).session = .closing → (t.port j.port).session ≠ .online →
        (t.port j.port).watermark = mark ∧ (t.port j.port).writeQ = kept)

/-- R97: when a watermark reaches a sequence. -/
def Obligations.WatermarkReachesByDistance : Prop :=
  ∀ w seq : Word, watermarkReaches w seq = true ↔
    (seq = w ∨ ∃ d : Nat, 1 ≤ d ∧ d ≤ 2147483647 ∧ seq = w - BitVec.ofNat 32 d)

/-! ## Invariants -/

/-- Every step keeps every global configuration item in its range (Table 10-7, R169). -/
def Obligations.StepKeepsConfigInRange : Prop :=
  ∀ s t : State, s.config.inRange → step s = .next t → t.config.inRange

/-- Every step keeps the rows of the map and of the edit legal, and the edit's base revision the current one (R3, R23,
R25). -/
def Obligations.StepKeepsMapLegal : Prop :=
  ∀ s t : State, s.mapLegal → step s = .next t → t.mapLegal

/-- Every step keeps every port's record legal: one item per key and so at most 100 items, at most 8 fault records with the lost count's rule, tags
and capacities in bounds, nothing kept while OFFLINE (R87, R90, R92, R93, R95, R137, R144 to R150); and what a port holds is a
READ or WRITE while it is ONLINE and a HELLO while it is CLOSING (R89). The mark that a frame may be arriving is the model's
(log 3). -/
def Obligations.StepKeepsPortsLegal : Prop :=
  (∀ s t : State, (∀ p, (s.port p).legal) → step s = .next t → ∀ p, (t.port p).legal) ∧
    (∀ P : PortState, P.legal → P.events.length ≤ 100) ∧
    ∀ s t : State, (∀ p, (s.port p).holdLegal) → step s = .next t → ∀ p, (t.port p).holdLegal

/-- Every step keeps every lock legal (R48, R63, R66, R67, R77). -/
def Obligations.StepKeepsLocksLegal : Prop :=
  ∀ s t : State, (∀ k, s.lockLegal k) → step s = .next t → ∀ k, t.lockLegal k

/-- Every step keeps the notification queues legal (R125, R128, R130, R133), over states whose ports are legal: with two
NOTICE items in one event set, which StepKeepsPortsLegal rules out, sending one would leave the other without an entry. -/
def Obligations.StepKeepsNoticesLegal : Prop :=
  ∀ s t : State, (∀ p, (s.port p).legal) → s.noticesLegal → step s = .next t → t.noticesLegal

/-- State.reset is the part right after it left device reset, every link-state signal DOWN (log 14), no frame, abort or arriving
frame remembered (log 16, log 3), no command waiting (log 1); and every invariant holds in it. -/
def Obligations.ResetStateIsLegal : Prop :=
  resetValues State.reset State.reset ∧ State.reset.running = true ∧ (∀ p, (State.reset.port p).link = .down) ∧
    State.reset.pending = [] ∧ State.reset.config.inRange ∧ State.reset.mapLegal ∧
    (∀ p, (State.reset.port p).legal ∧ (State.reset.port p).holdLegal) ∧ (∀ k, State.reset.lockLegal k) ∧
    State.reset.noticesLegal

end
end

