-- ==== Sys2Proof/Laws/State.lean ====
section
/-! SUPPORT. What each update of the state leaves as it was, one lemma for each field and update, and what the records read
after it. -/

namespace Sys2Proof.Machine

/-! ## The record that was written, and the others -/

theorem vector_get_set {α : Type} {n : Nat} (v : Vector α n) (i j : Fin n) (x : α) :
    (v.set i.val x i.isLt).get j = if j = i then x else v.get j := by
  simp only [Vector.get_eq_getElem]
  rw [Vector.getElem_set]
  by_cases h : j = i
  · subst h; simp
  · have h' : ¬ i.val = j.val := fun e => h (Fin.ext e.symm)
    simp [h, h']

theorem State.port_setPort (s : State) (p q : Port) (P : PortState) :
    (s.setPort p P).port q = if q = p then P else s.port q := vector_get_set s.ports p q P

@[simp] theorem State.port_setPort_same (s : State) (p : Port) (P : PortState) : (s.setPort p P).port p = P := by
  simp [State.port_setPort]

theorem State.port_setPort_ne (s : State) {p q : Port} (P : PortState) (h : q ≠ p) :
    (s.setPort p P).port q = s.port q := by simp [State.port_setPort, h]

theorem State.port_onPort (s : State) (p q : Port) (f : PortState → PortState) :
    (s.onPort p f).port q = if q = p then f (s.port p) else s.port q := State.port_setPort s p q _

@[simp] theorem State.port_onPort_same (s : State) (p : Port) (f : PortState → PortState) :
    (s.onPort p f).port p = f (s.port p) := by simp [State.port_onPort]

theorem State.port_onPort_ne (s : State) {p q : Port} (f : PortState → PortState) (h : q ≠ p) :
    (s.onPort p f).port q = s.port q := by simp [State.port_onPort, h]

theorem State.port_raise (s : State) (p q : Port) (it : Item) :
    (s.raise p it).port q = if q = p then (s.port p).raise it else s.port q := State.port_onPort s p q _

theorem State.port_respond (s : State) (p q : Port) (x : Response) :
    (s.respond p x).port q = if q = p then (s.port p).respond x else s.port q := State.port_onPort s p q _

theorem State.row_setRow (s : State) (n r : Row) (c : RowRecord) :
    (s.setRow n c).row r = if r = n then c else s.row r := vector_get_set s.map n r c

theorem State.lock_setLock (s : State) (k j : Lock) (l : LockRecord) :
    (s.setLock k l).lock j = if j = k then l else s.lock j := vector_get_set s.locks k j l

@[simp] theorem State.lock_setLock_same (s : State) (k : Lock) (l : LockRecord) : (s.setLock k l).lock k = l := by
  simp [State.lock_setLock]

theorem State.slot_setSlot (s : State) (n m : SlotNo) (x : Slot) :
    (s.setSlot n x).slot m = if m = n then x else s.slot m := vector_get_set s.slots n m x

@[simp] theorem State.slot_setSlot_same (s : State) (n : SlotNo) (x : Slot) : (s.setSlot n x).slot n = x := by
  simp [State.slot_setSlot]

/-! ## setPort -/

@[simp] theorem State.resetN_setPort (s : State) (p : Port) (P : PortState) : (s.setPort p P).resetN = s.resetN := rfl

@[simp] theorem State.powerGood_setPort (s : State) (p : Port) (P : PortState) : (s.setPort p P).powerGood = s.powerGood := rfl

@[simp] theorem State.map_setPort (s : State) (p : Port) (P : PortState) : (s.setPort p P).map = s.map := rfl

@[simp] theorem State.revision_setPort (s : State) (p : Port) (P : PortState) : (s.setPort p P).revision = s.revision := rfl

@[simp] theorem State.edit_setPort (s : State) (p : Port) (P : PortState) : (s.setPort p P).edit = s.edit := rfl

@[simp] theorem State.locks_setPort (s : State) (p : Port) (P : PortState) : (s.setPort p P).locks = s.locks := rfl

@[simp] theorem State.slots_setPort (s : State) (p : Port) (P : PortState) : (s.setPort p P).slots = s.slots := rfl

@[simp] theorem State.rr_setPort (s : State) (p : Port) (P : PortState) : (s.setPort p P).rr = s.rr := rfl

@[simp] theorem State.busIssue_setPort (s : State) (p : Port) (P : PortState) : (s.setPort p P).busIssue = s.busIssue := rfl

@[simp] theorem State.busAbort_setPort (s : State) (p : Port) (P : PortState) : (s.setPort p P).busAbort = s.busAbort := rfl

@[simp] theorem State.config_setPort (s : State) (p : Port) (P : PortState) : (s.setPort p P).config = s.config := rfl

@[simp] theorem State.fresh_setPort (s : State) (p : Port) (P : PortState) : (s.setPort p P).fresh = s.fresh := rfl

@[simp] theorem State.pending_setPort (s : State) (p : Port) (P : PortState) : (s.setPort p P).pending = s.pending := rfl

@[simp] theorem State.running_setPort (s : State) (p : Port) (P : PortState) : (s.setPort p P).running = s.running := rfl

@[simp] theorem State.row_setPort (s : State) (p : Port) (P : PortState) (r : Row) : (s.setPort p P).row r = s.row r := rfl

@[simp] theorem State.lock_setPort (s : State) (p : Port) (P : PortState) (j : Lock) : (s.setPort p P).lock j = s.lock j := rfl

@[simp] theorem State.slot_setPort (s : State) (p : Port) (P : PortState) (m : SlotNo) : (s.setPort p P).slot m = s.slot m := rfl


/-! ## onPort -/

@[simp] theorem State.resetN_onPort (s : State) (p : Port) (f : PortState → PortState) : (s.onPort p f).resetN = s.resetN := rfl

@[simp] theorem State.powerGood_onPort (s : State) (p : Port) (f : PortState → PortState) : (s.onPort p f).powerGood = s.powerGood := rfl

@[simp] theorem State.map_onPort (s : State) (p : Port) (f : PortState → PortState) : (s.onPort p f).map = s.map := rfl

@[simp] theorem State.revision_onPort (s : State) (p : Port) (f : PortState → PortState) : (s.onPort p f).revision = s.revision := rfl

@[simp] theorem State.edit_onPort (s : State) (p : Port) (f : PortState → PortState) : (s.onPort p f).edit = s.edit := rfl

@[simp] theorem State.locks_onPort (s : State) (p : Port) (f : PortState → PortState) : (s.onPort p f).locks = s.locks := rfl

@[simp] theorem State.slots_onPort (s : State) (p : Port) (f : PortState → PortState) : (s.onPort p f).slots = s.slots := rfl

@[simp] theorem State.rr_onPort (s : State) (p : Port) (f : PortState → PortState) : (s.onPort p f).rr = s.rr := rfl

@[simp] theorem State.busIssue_onPort (s : State) (p : Port) (f : PortState → PortState) : (s.onPort p f).busIssue = s.busIssue := rfl

@[simp] theorem State.busAbort_onPort (s : State) (p : Port) (f : PortState → PortState) : (s.onPort p f).busAbort = s.busAbort := rfl

@[simp] theorem State.config_onPort (s : State) (p : Port) (f : PortState → PortState) : (s.onPort p f).config = s.config := rfl

@[simp] theorem State.fresh_onPort (s : State) (p : Port) (f : PortState → PortState) : (s.onPort p f).fresh = s.fresh := rfl

@[simp] theorem State.pending_onPort (s : State) (p : Port) (f : PortState → PortState) : (s.onPort p f).pending = s.pending := rfl

@[simp] theorem State.running_onPort (s : State) (p : Port) (f : PortState → PortState) : (s.onPort p f).running = s.running := rfl

@[simp] theorem State.row_onPort (s : State) (p : Port) (f : PortState → PortState) (r : Row) : (s.onPort p f).row r = s.row r := rfl

@[simp] theorem State.lock_onPort (s : State) (p : Port) (f : PortState → PortState) (j : Lock) : (s.onPort p f).lock j = s.lock j := rfl

@[simp] theorem State.slot_onPort (s : State) (p : Port) (f : PortState → PortState) (m : SlotNo) : (s.onPort p f).slot m = s.slot m := rfl


/-! ## setRow -/

@[simp] theorem State.resetN_setRow (s : State) (n : Row) (c : RowRecord) : (s.setRow n c).resetN = s.resetN := rfl

@[simp] theorem State.powerGood_setRow (s : State) (n : Row) (c : RowRecord) : (s.setRow n c).powerGood = s.powerGood := rfl

@[simp] theorem State.ports_setRow (s : State) (n : Row) (c : RowRecord) : (s.setRow n c).ports = s.ports := rfl

@[simp] theorem State.revision_setRow (s : State) (n : Row) (c : RowRecord) : (s.setRow n c).revision = s.revision := rfl

@[simp] theorem State.edit_setRow (s : State) (n : Row) (c : RowRecord) : (s.setRow n c).edit = s.edit := rfl

@[simp] theorem State.locks_setRow (s : State) (n : Row) (c : RowRecord) : (s.setRow n c).locks = s.locks := rfl

@[simp] theorem State.slots_setRow (s : State) (n : Row) (c : RowRecord) : (s.setRow n c).slots = s.slots := rfl

@[simp] theorem State.rr_setRow (s : State) (n : Row) (c : RowRecord) : (s.setRow n c).rr = s.rr := rfl

@[simp] theorem State.busIssue_setRow (s : State) (n : Row) (c : RowRecord) : (s.setRow n c).busIssue = s.busIssue := rfl

@[simp] theorem State.busAbort_setRow (s : State) (n : Row) (c : RowRecord) : (s.setRow n c).busAbort = s.busAbort := rfl

@[simp] theorem State.config_setRow (s : State) (n : Row) (c : RowRecord) : (s.setRow n c).config = s.config := rfl

@[simp] theorem State.fresh_setRow (s : State) (n : Row) (c : RowRecord) : (s.setRow n c).fresh = s.fresh := rfl

@[simp] theorem State.pending_setRow (s : State) (n : Row) (c : RowRecord) : (s.setRow n c).pending = s.pending := rfl

@[simp] theorem State.running_setRow (s : State) (n : Row) (c : RowRecord) : (s.setRow n c).running = s.running := rfl

@[simp] theorem State.port_setRow (s : State) (n : Row) (c : RowRecord) (q : Port) : (s.setRow n c).port q = s.port q := rfl

@[simp] theorem State.lock_setRow (s : State) (n : Row) (c : RowRecord) (j : Lock) : (s.setRow n c).lock j = s.lock j := rfl

@[simp] theorem State.slot_setRow (s : State) (n : Row) (c : RowRecord) (m : SlotNo) : (s.setRow n c).slot m = s.slot m := rfl


/-! ## setLock -/

@[simp] theorem State.resetN_setLock (s : State) (k : Lock) (l : LockRecord) : (s.setLock k l).resetN = s.resetN := rfl

@[simp] theorem State.powerGood_setLock (s : State) (k : Lock) (l : LockRecord) : (s.setLock k l).powerGood = s.powerGood := rfl

@[simp] theorem State.ports_setLock (s : State) (k : Lock) (l : LockRecord) : (s.setLock k l).ports = s.ports := rfl

@[simp] theorem State.map_setLock (s : State) (k : Lock) (l : LockRecord) : (s.setLock k l).map = s.map := rfl

@[simp] theorem State.revision_setLock (s : State) (k : Lock) (l : LockRecord) : (s.setLock k l).revision = s.revision := rfl

@[simp] theorem State.edit_setLock (s : State) (k : Lock) (l : LockRecord) : (s.setLock k l).edit = s.edit := rfl

@[simp] theorem State.slots_setLock (s : State) (k : Lock) (l : LockRecord) : (s.setLock k l).slots = s.slots := rfl

@[simp] theorem State.rr_setLock (s : State) (k : Lock) (l : LockRecord) : (s.setLock k l).rr = s.rr := rfl

@[simp] theorem State.busIssue_setLock (s : State) (k : Lock) (l : LockRecord) : (s.setLock k l).busIssue = s.busIssue := rfl

@[simp] theorem State.busAbort_setLock (s : State) (k : Lock) (l : LockRecord) : (s.setLock k l).busAbort = s.busAbort := rfl

@[simp] theorem State.config_setLock (s : State) (k : Lock) (l : LockRecord) : (s.setLock k l).config = s.config := rfl

@[simp] theorem State.fresh_setLock (s : State) (k : Lock) (l : LockRecord) : (s.setLock k l).fresh = s.fresh := rfl

@[simp] theorem State.pending_setLock (s : State) (k : Lock) (l : LockRecord) : (s.setLock k l).pending = s.pending := rfl

@[simp] theorem State.running_setLock (s : State) (k : Lock) (l : LockRecord) : (s.setLock k l).running = s.running := rfl

@[simp] theorem State.port_setLock (s : State) (k : Lock) (l : LockRecord) (q : Port) : (s.setLock k l).port q = s.port q := rfl

@[simp] theorem State.row_setLock (s : State) (k : Lock) (l : LockRecord) (r : Row) : (s.setLock k l).row r = s.row r := rfl

@[simp] theorem State.slot_setLock (s : State) (k : Lock) (l : LockRecord) (m : SlotNo) : (s.setLock k l).slot m = s.slot m := rfl


/-! ## setSlot -/

@[simp] theorem State.resetN_setSlot (s : State) (n : SlotNo) (x : Slot) : (s.setSlot n x).resetN = s.resetN := rfl

@[simp] theorem State.powerGood_setSlot (s : State) (n : SlotNo) (x : Slot) : (s.setSlot n x).powerGood = s.powerGood := rfl

@[simp] theorem State.ports_setSlot (s : State) (n : SlotNo) (x : Slot) : (s.setSlot n x).ports = s.ports := rfl

@[simp] theorem State.map_setSlot (s : State) (n : SlotNo) (x : Slot) : (s.setSlot n x).map = s.map := rfl

@[simp] theorem State.revision_setSlot (s : State) (n : SlotNo) (x : Slot) : (s.setSlot n x).revision = s.revision := rfl

@[simp] theorem State.edit_setSlot (s : State) (n : SlotNo) (x : Slot) : (s.setSlot n x).edit = s.edit := rfl

@[simp] theorem State.locks_setSlot (s : State) (n : SlotNo) (x : Slot) : (s.setSlot n x).locks = s.locks := rfl

@[simp] theorem State.rr_setSlot (s : State) (n : SlotNo) (x : Slot) : (s.setSlot n x).rr = s.rr := rfl

@[simp] theorem State.busIssue_setSlot (s : State) (n : SlotNo) (x : Slot) : (s.setSlot n x).busIssue = s.busIssue := rfl

@[simp] theorem State.busAbort_setSlot (s : State) (n : SlotNo) (x : Slot) : (s.setSlot n x).busAbort = s.busAbort := rfl

@[simp] theorem State.config_setSlot (s : State) (n : SlotNo) (x : Slot) : (s.setSlot n x).config = s.config := rfl

@[simp] theorem State.fresh_setSlot (s : State) (n : SlotNo) (x : Slot) : (s.setSlot n x).fresh = s.fresh := rfl

@[simp] theorem State.pending_setSlot (s : State) (n : SlotNo) (x : Slot) : (s.setSlot n x).pending = s.pending := rfl

@[simp] theorem State.running_setSlot (s : State) (n : SlotNo) (x : Slot) : (s.setSlot n x).running = s.running := rfl

@[simp] theorem State.port_setSlot (s : State) (n : SlotNo) (x : Slot) (q : Port) : (s.setSlot n x).port q = s.port q := rfl

@[simp] theorem State.row_setSlot (s : State) (n : SlotNo) (x : Slot) (r : Row) : (s.setSlot n x).row r = s.row r := rfl

@[simp] theorem State.lock_setSlot (s : State) (n : SlotNo) (x : Slot) (j : Lock) : (s.setSlot n x).lock j = s.lock j := rfl


/-! ## raise -/

@[simp] theorem State.resetN_raise (s : State) (p : Port) (it : Item) : (s.raise p it).resetN = s.resetN := rfl

@[simp] theorem State.powerGood_raise (s : State) (p : Port) (it : Item) : (s.raise p it).powerGood = s.powerGood := rfl

@[simp] theorem State.map_raise (s : State) (p : Port) (it : Item) : (s.raise p it).map = s.map := rfl

@[simp] theorem State.revision_raise (s : State) (p : Port) (it : Item) : (s.raise p it).revision = s.revision := rfl

@[simp] theorem State.edit_raise (s : State) (p : Port) (it : Item) : (s.raise p it).edit = s.edit := rfl

@[simp] theorem State.locks_raise (s : State) (p : Port) (it : Item) : (s.raise p it).locks = s.locks := rfl

@[simp] theorem State.slots_raise (s : State) (p : Port) (it : Item) : (s.raise p it).slots = s.slots := rfl

@[simp] theorem State.rr_raise (s : State) (p : Port) (it : Item) : (s.raise p it).rr = s.rr := rfl

@[simp] theorem State.busIssue_raise (s : State) (p : Port) (it : Item) : (s.raise p it).busIssue = s.busIssue := rfl

@[simp] theorem State.busAbort_raise (s : State) (p : Port) (it : Item) : (s.raise p it).busAbort = s.busAbort := rfl

@[simp] theorem State.config_raise (s : State) (p : Port) (it : Item) : (s.raise p it).config = s.config := rfl

@[simp] theorem State.fresh_raise (s : State) (p : Port) (it : Item) : (s.raise p it).fresh = s.fresh := rfl

@[simp] theorem State.pending_raise (s : State) (p : Port) (it : Item) : (s.raise p it).pending = s.pending := rfl

@[simp] theorem State.running_raise (s : State) (p : Port) (it : Item) : (s.raise p it).running = s.running := rfl

@[simp] theorem State.row_raise (s : State) (p : Port) (it : Item) (r : Row) : (s.raise p it).row r = s.row r := rfl

@[simp] theorem State.lock_raise (s : State) (p : Port) (it : Item) (j : Lock) : (s.raise p it).lock j = s.lock j := rfl

@[simp] theorem State.slot_raise (s : State) (p : Port) (it : Item) (m : SlotNo) : (s.raise p it).slot m = s.slot m := rfl


/-! ## respond -/

@[simp] theorem State.resetN_respond (s : State) (p : Port) (x : Response) : (s.respond p x).resetN = s.resetN := rfl

@[simp] theorem State.powerGood_respond (s : State) (p : Port) (x : Response) : (s.respond p x).powerGood = s.powerGood := rfl

@[simp] theorem State.map_respond (s : State) (p : Port) (x : Response) : (s.respond p x).map = s.map := rfl

@[simp] theorem State.revision_respond (s : State) (p : Port) (x : Response) : (s.respond p x).revision = s.revision := rfl

@[simp] theorem State.edit_respond (s : State) (p : Port) (x : Response) : (s.respond p x).edit = s.edit := rfl

@[simp] theorem State.locks_respond (s : State) (p : Port) (x : Response) : (s.respond p x).locks = s.locks := rfl

@[simp] theorem State.slots_respond (s : State) (p : Port) (x : Response) : (s.respond p x).slots = s.slots := rfl

@[simp] theorem State.rr_respond (s : State) (p : Port) (x : Response) : (s.respond p x).rr = s.rr := rfl

@[simp] theorem State.busIssue_respond (s : State) (p : Port) (x : Response) : (s.respond p x).busIssue = s.busIssue := rfl

@[simp] theorem State.busAbort_respond (s : State) (p : Port) (x : Response) : (s.respond p x).busAbort = s.busAbort := rfl

@[simp] theorem State.config_respond (s : State) (p : Port) (x : Response) : (s.respond p x).config = s.config := rfl

@[simp] theorem State.fresh_respond (s : State) (p : Port) (x : Response) : (s.respond p x).fresh = s.fresh := rfl

@[simp] theorem State.pending_respond (s : State) (p : Port) (x : Response) : (s.respond p x).pending = s.pending := rfl

@[simp] theorem State.running_respond (s : State) (p : Port) (x : Response) : (s.respond p x).running = s.running := rfl

@[simp] theorem State.row_respond (s : State) (p : Port) (x : Response) (r : Row) : (s.respond p x).row r = s.row r := rfl

@[simp] theorem State.lock_respond (s : State) (p : Port) (x : Response) (j : Lock) : (s.respond p x).lock j = s.lock j := rfl

@[simp] theorem State.slot_respond (s : State) (p : Port) (x : Response) (m : SlotNo) : (s.respond p x).slot m = s.slot m := rfl


end Sys2Proof.Machine
end

