-- ==== Sys2Proof/Laws/Request.lean ====
section
/-! SUPPORT. What every request does before its own checks: one equation for each way through the intake, the session check and
the tag check, and the records after it. -/

namespace Sys2Proof.Machine

/-! ## Updates one after the other -/

theorem vector_set_get {α : Type} {n : Nat} (v : Vector α n) (i : Fin n) : v.set i.val (v.get i) i.isLt = v := by
  simp [Vector.get_eq_getElem]

/-- The last write of a port's record is the one that counts. -/
@[simp] theorem setPort_setPort (s : State) (p : Port) (P Q : PortState) :
    (s.setPort p P).setPort p Q = s.setPort p Q := by
  simp [State.setPort, Vector.set_set]

/-- Writing a port's record as it stands changes nothing. -/
@[simp] theorem setPort_port (s : State) (p : Port) : s.setPort p (s.port p) = s := by
  simp only [State.setPort, State.port, vector_set_get]

theorem onPort_setPort (s : State) (p : Port) (P : PortState) (f : PortState → PortState) :
    (s.setPort p P).onPort p f = s.setPort p (f P) := by simp [State.onPort]

theorem onPort_onPort (s : State) (p : Port) (f g : PortState → PortState) :
    (s.onPort p f).onPort p g = s.onPort p (fun P => g (f P)) := by simp [State.onPort]

/-- A change that leaves the record as it stands changes nothing. -/
theorem onPort_same (s : State) (p : Port) (f : PortState → PortState) (h : f (s.port p) = s.port p) :
    s.onPort p f = s := by simp [State.onPort, h]

/-! ## Tags -/

/-- Freeing a tag that was entered last gives the table as it was. -/
theorem tags_entered_freed (l : List Byte) (tag : Byte) (h : tag ∉ l) : (l ++ [tag]).filter (fun t => t != tag) = l := by
  rw [List.filter_append]
  have : l.filter (fun t => t != tag) = l := by
    rw [List.filter_eq_self]; intro a ha; simp; rintro rfl; exact h ha
  simp [this]

/-! ## A request that is ready -/

theorem ready_takes {s : State} {p : Port} {r : Request} (h : s.ready p r = true) : s.takes p r = true := by
  simp only [State.ready, Bool.and_eq_true] at h; exact h.1.1.1

theorem ready_session {s : State} {p : Port} {r : Request} (h : s.ready p r = true) :
    (s.port p).session = .online := by
  simp only [State.ready, Bool.and_eq_true, beq_iff_eq] at h; exact h.1.1.2

theorem ready_tag_le {s : State} {p : Port} {r : Request} (h : s.ready p r = true) : r.tag.toNat ≤ 31 := by
  simp only [State.ready, Bool.and_eq_true, decide_eq_true_eq] at h; exact h.1.2

theorem ready_tag_new {s : State} {p : Port} {r : Request} (h : s.ready p r = true) : r.tag ∉ (s.port p).tags := by
  simp only [State.ready, Bool.and_eq_true, Bool.not_eq_true', List.contains_eq_mem, decide_eq_false_iff_not] at h
  exact h.2

/-- A ready request goes on to its own checks with its tag entered. -/
theorem request_ready {s : State} {p : Port} {r : Request} (go : State → State) (h : s.ready p r = true) :
    s.request p r go = go (s.takenOpen p r.tag) := by
  have ht := ready_tag_new h
  simp [State.request, ready_takes h, State.sessionCheck, State.taken, PortState.takeHead, State.tagCheck, ready_session h,
    Nat.not_lt.mpr (ready_tag_le h), ht, onPort_onPort]
  rfl

/-- Answering the request that was just taken: it is answered at once. -/
theorem takenOpen_respond {s : State} {p : Port} {r : Request} (x : Response) (h : s.ready p r = true)
    (hx : x.tag = r.tag) : (s.takenOpen p r.tag).respond p x = s.answeredNow p x := by
  have ht := ready_tag_new h
  simp only [State.takenOpen, State.respond, onPort_setPort, State.answeredNow, PortState.respond, hx,
    tags_entered_freed _ _ ht]

/-- A request that its intake does not take has no effect. -/
theorem request_not_taken {s : State} {p : Port} {r : Request} (go : State → State) (h : s.takes p r = false) :
    s.request p r go = s := by simp [State.request, h]

theorem request_offline {s : State} {p : Port} {r : Request} (go : State → State) (h : s.takes p r = true)
    (hs : (s.port p).session = .offline ∨ (s.port p).session = .closing) :
    s.request p r go = s.answeredNow p (r.reply .notOnline .empty) := by
  rcases hs with hs | hs <;>
    simp [State.request, h, State.sessionCheck, State.taken, PortState.takeHead, hs, onPort_onPort] <;> rfl

theorem request_leaving {s : State} {p : Port} {r : Request} (go : State → State) (h : s.takes p r = true)
    (hs : (s.port p).session = .leaving) : s.request p r go = s.answeredNow p (r.reply .departing .empty) := by
  simp [State.request, h, State.sessionCheck, State.taken, PortState.takeHead, hs, onPort_onPort]
  rfl

theorem request_tag_above {s : State} {p : Port} {r : Request} (go : State → State) (h : s.takes p r = true)
    (hs : (s.port p).session = .online) (ht : 31 < r.tag.toNat) :
    s.request p r go = s.answeredNow p (r.reply .badArg .empty) := by
  simp [State.request, h, State.sessionCheck, State.taken, PortState.takeHead, hs, State.tagCheck, ht, onPort_onPort]
  rfl

theorem request_tag_used {s : State} {p : Port} {r : Request} (go : State → State) (h : s.takes p r = true)
    (hs : (s.port p).session = .online) (hl : r.tag.toNat ≤ 31) (ht : r.tag ∈ (s.port p).tags) :
    s.request p r go = s.onPort p (fun P =>
      ({ P with intake := P.intake.tail, begun := P.arriving }).record (.duplicateTag r.tag)) := by
  simp [State.request, h, State.sessionCheck, State.taken, PortState.takeHead, hs, State.tagCheck, Nat.not_lt.mpr hl, ht, onPort_onPort]
  rfl

/-! ## The records after a request was taken -/

@[simp] theorem takenOpen_port_same (s : State) (p : Port) (tag : Byte) : (s.takenOpen p tag).port p =
    { s.port p with
      intake := (s.port p).intake.tail, places := (s.port p).places + 1, begun := (s.port p).arriving
      tags := (s.port p).tags ++ [tag] } := by
  simp [State.takenOpen]

theorem takenOpen_port_ne (s : State) {p q : Port} (tag : Byte) (h : q ≠ p) :
    (s.takenOpen p tag).port q = s.port q := State.port_setPort_ne _ _ h

@[simp] theorem takenOpen_session (s : State) (p q : Port) (tag : Byte) :
    ((s.takenOpen p tag).port q).session = (s.port q).session := by
  by_cases h : q = p
  · subst h; simp
  · rw [takenOpen_port_ne s tag h]

@[simp] theorem takenOpen_notices (s : State) (p q : Port) (tag : Byte) :
    ((s.takenOpen p tag).port q).notices = (s.port q).notices := by
  by_cases h : q = p
  · subst h; simp
  · rw [takenOpen_port_ne s tag h]

@[simp] theorem takenOpen_notes (s : State) (p q : Port) (tag : Byte) :
    ((s.takenOpen p tag).port q).notes = (s.port q).notes := by
  by_cases h : q = p
  · subst h; simp
  · rw [takenOpen_port_ne s tag h]

@[simp] theorem takenOpen_lock (s : State) (p : Port) (tag : Byte) (k : Lock) :
    (s.takenOpen p tag).lock k = s.lock k := rfl
@[simp] theorem takenOpen_row (s : State) (p : Port) (tag : Byte) (r : Row) : (s.takenOpen p tag).row r = s.row r := rfl
@[simp] theorem takenOpen_slot (s : State) (p : Port) (tag : Byte) (n : SlotNo) :
    (s.takenOpen p tag).slot n = s.slot n := rfl
@[simp] theorem takenOpen_holds (s : State) (p q : Port) (tag : Byte) (k : Lock) :
    (s.takenOpen p tag).holds q k = s.holds q k := rfl
@[simp] theorem takenOpen_config (s : State) (p : Port) (tag : Byte) : (s.takenOpen p tag).config = s.config := rfl
@[simp] theorem takenOpen_edit (s : State) (p : Port) (tag : Byte) : (s.takenOpen p tag).edit = s.edit := rfl
@[simp] theorem takenOpen_revision (s : State) (p : Port) (tag : Byte) : (s.takenOpen p tag).revision = s.revision := rfl
@[simp] theorem takenOpen_fresh (s : State) (p : Port) (tag : Byte) : (s.takenOpen p tag).fresh = s.fresh := rfl
@[simp] theorem takenOpen_judge (s : State) (p q : Port) (tag : Byte) (w : Bool) (a len : Nat) :
    (s.takenOpen p tag).judge q w a len = s.judge q w a len := rfl
@[simp] theorem takenOpen_translate (s : State) (p : Port) (tag : Byte) (a len : Nat) :
    (s.takenOpen p tag).translate a len = s.translate a len := rfl

@[simp] theorem takenOpen_noticePlaces (s : State) (p q : Port) (tag : Byte) :
    (s.takenOpen p tag).noticePlaces q = s.noticePlaces q := by
  simp [State.noticePlaces, State.reservations]

end Sys2Proof.Machine
end

