-- ==== Sys2Proof/Laws/Acceptance.lean ====
section
/-! SUPPORT. The rows a range touches said byte by byte, the cut at block boundaries, and the rights field of a staged row. -/

namespace Sys2Proof.Machine

open Sys2Proof

theorem rowIndex_val {a : Nat} (h : a ≤ 2147483647) : (rowIndex a).val = a / 4194304 := by
  simp [rowIndex, Config.rowSize, Fin.ofNat]; omega

theorem rowIndex_eq {a b : Nat} (h : a ≤ 2147483647) (h' : b ≤ 2147483647) : rowIndex a = rowIndex b ↔
    a / 4194304 = b / 4194304 := by
  rw [Fin.ext_iff, rowIndex_val h, rowIndex_val h']

theorem mem_touched {a len : Nat} (hl : 1 ≤ len) (h2 : len ≤ 256) (hr : a + len - 1 ≤ 2147483647) (r : Row) :
    r ∈ touchedRows a len ↔ ∃ x, a ≤ x ∧ x < a + len ∧ rowIndex x = r := by
  unfold touchedRows
  have e := @rowIndex_eq
  constructor
  · intro h
    split at h
    · simp at h; exact ⟨a, by omega, by omega, h.symm⟩
    · simp at h; rcases h with h | h
      · exact ⟨a, by omega, by omega, h.symm⟩
      · exact ⟨a + len - 1, by omega, by omega, h.symm⟩
  · rintro ⟨x, h1, h3, rfl⟩
    have : rowIndex x = rowIndex a ∨ rowIndex x = rowIndex (a + len - 1) := by
      rw [rowIndex_eq (by omega) (by omega), rowIndex_eq (by omega) (by omega)]; omega
    split <;> simp <;> rcases this with h | h <;> simp_all

theorem all_touched {a len : Nat} (hl : 1 ≤ len) (h2 : len ≤ 256) (hr : a + len - 1 ≤ 2147483647) (q : Row → Bool) :
    (touchedRows a len).all q = true ↔ everyByte a len (fun x => q (rowIndex x) = true) := by
  simp only [List.all_eq_true, mem_touched hl h2 hr, everyByte]
  constructor
  · intro h x h1 h2; exact h _ ⟨x, h1, h2, rfl⟩
  · rintro h r ⟨x, h1, h2, rfl⟩; exact h x h1 h2

theorem any_touched {a len : Nat} (hl : 1 ≤ len) (h2 : len ≤ 256) (hr : a + len - 1 ≤ 2147483647) (q : Row → Bool) :
    (touchedRows a len).any q = true ↔ someByte a len (fun x => q (rowIndex x) = true) := by
  simp only [List.any_eq_true, mem_touched hl h2 hr, someByte]
  constructor
  · rintro ⟨r, ⟨x, h1, h2, rfl⟩, h⟩; exact ⟨x, h1, h2, h⟩
  · rintro ⟨x, h1, h2, h⟩; exact ⟨_, ⟨x, h1, h2, rfl⟩, h⟩

theorem all_touched_false {a len : Nat} (hl : 1 ≤ len) (h2 : len ≤ 256) (hr : a + len - 1 ≤ 2147483647)
    (q : Row → Bool) :
    (touchedRows a len).all q = false ↔ someByte a len (fun x => q (rowIndex x) = false) := by
  rw [← Bool.not_eq_true, all_touched hl h2 hr]; simp [everyByte, someByte]

theorem any_touched_false {a len : Nat} (hl : 1 ≤ len) (h2 : len ≤ 256) (hr : a + len - 1 ≤ 2147483647)
    (q : Row → Bool) :
    (touchedRows a len).any q = false ↔ everyByte a len (fun x => q (rowIndex x) = false) := by
  rw [← Bool.not_eq_true, any_touched hl h2 hr]; simp [everyByte, someByte]

theorem mem_guardLocks {s : State} {a len : Nat} (hl : 1 ≤ len) (h2 : len ≤ 256) (hr : a + len - 1 ≤ 2147483647)
    (k : Lock) :
    k ∈ s.guardLocks (touchedRows a len) ↔ someByte a len (fun x => (s.rowAt x).guard = some k) := by
  simp only [State.guardLocks, List.mem_eraseDups, List.mem_filterMap, mem_touched hl h2 hr, someByte, State.rowAt]
  constructor
  · rintro ⟨r, ⟨x, h1, h2, rfl⟩, h⟩; exact ⟨x, h1, h2, h⟩
  · rintro ⟨x, h1, h2, h⟩; exact ⟨_, ⟨x, h1, h2, rfl⟩, h⟩

theorem rangeOk_iff (a len : Nat) : rangeOk a len = true ↔ 1 ≤ len ∧ len ≤ 256 ∧ a ≤ 2147483647 ∧
    a + len - 1 ≤ 2147483647 := by
  simp only [rangeOk, Bool.and_eq_true, decide_eq_true_eq]
  simp only [Config.maxLength, Config.viewTop, and_assoc]

/-! ## The cut (R106) -/

/-- Number, addresses, lengths and positions of the blocks of a range. -/
theorem cutAt_spec : ∀ (fuel a len pos : Nat), len < fuel →
    (cutAt fuel a len pos).length = (if len = 0 then 0 else (a % 64 + len + 63) / 64) ∧
    ∀ (n : Nat) (x : Nat × Nat × Nat), (cutAt fuel a len pos)[n]? = some x →
      x.1 = max a ((a / 64 + n) * 64) ∧ x.1 + x.2.1 = min (a + len) ((a / 64 + n + 1) * 64) ∧
      x.2.2 = pos + (x.1 - a) ∧ 1 ≤ x.2.1 ∧ x.2.1 ≤ 64 ∧ a ≤ x.1 ∧ x.1 < a + len
  | 0, _, _, _, h => by omega
  | fuel + 1, a, len, pos, h => by
    unfold cutAt
    split
    · simp [*]
    · rename_i h0
      set m := min len (64 - a % 64) with hm
      have ih := cutAt_spec fuel (a + m) (len - m) (pos + m) (by omega)
      constructor
      · simp only [List.length_cons, ih.1]
        split <;> omega
      · intro n x hx
        cases n with
        | zero => simp at hx; subst hx; simp; omega
        | succ n =>
          simp only [List.getElem?_cons_succ] at hx
          have hi := ih.2 n x hx
          by_cases hle : len ≤ 64 - a % 64
          · have : len - m = 0 := by omega
            omega
          · have e1 : m = 64 - a % 64 := by omega
            have e2 : (a + m) / 64 = a / 64 + 1 := by omega
            have e3 : (a+m)/64*64 = a + m := by omega
            rw [e2] at hi
            refine ⟨?_, ?_, ?_, hi.2.2.2.1, hi.2.2.2.2.1, by omega, by omega⟩
            · omega
            · omega
            · omega

/-! ## The rights field (Table 10-3) -/

theorem rightOf_none (b : BitVec 2) : rightOf b = none ↔ b.toNat = 3 := by
  revert b; decide

theorem rightOf_some (b : BitVec 2) (r) : rightOf b = some r → r.code = b := by
  revert b; cases r <;> decide

theorem extract_two_bits (b : Byte) (n : Nat) : (b.extractLsb' n 2).toNat = b.toNat / 2^n % 4 := by
  simp [BitVec.extractLsb'_toNat, Nat.shiftRight_eq_div_pow]

theorem rightsOf_none (b : Byte) : rightsOf b = none ↔
    (b.toNat % 4 = 3 ∨ b.toNat / 4 % 4 = 3 ∨ b.toNat / 16 % 4 = 3 ∨ b.toNat / 64 = 3) := by
  have h0 := rightOf_none (b.extractLsb' 0 2); have h2 := rightOf_none (b.extractLsb' 2 2)
  have h4 := rightOf_none (b.extractLsb' 4 2); have h6 := rightOf_none (b.extractLsb' 6 2)
  rw [extract_two_bits] at h0 h2 h4 h6
  have hb := b.isLt
  have e6 : b.toNat / 2^6 % 4 = b.toNat / 64 := by omega
  rw [e6] at h6; norm_num at h0 h2 h4
  unfold rightsOf
  rcases h : rightOf (b.extractLsb' 0 2) with _ | a0 <;> rcases h' : rightOf (b.extractLsb' 2 2) with _ | a2 <;> rcases h'' : rightOf (b.extractLsb' 4 2) with _ | a4 <;> rcases h''' : rightOf (b.extractLsb' 6 2) with _ | a6 <;>
   simp_all

theorem rightsOf_some (b : Byte) (v) (h : rightsOf b = some v) (q : Port) :
    ((v.get q).code).toNat = b.toNat / 4 ^ q.val % 4 := by
  unfold rightsOf at h
  split at h <;> [simp only [Option.some.injEq] at h; simp at h]
  rename_i h0 h2 h4 h6
  subst h
  have h0 := rightOf_some _ _ h0; have h2 := rightOf_some _ _ h2; have h4 := rightOf_some _ _ h4; have h6 :=
      rightOf_some _ _ h6
  fin_cases q <;> simp [Vector.get_eq_getElem, h0, h2, h4, h6, Nat.shiftRight_eq_div_pow]

end Sys2Proof.Machine
end

