-- ==== Sys2Proof/Laws/Bytes.lean ====
section
/-! SUPPORT. Bytes of fields and frames: a field's bytes put together are the field, and the bytes of a frame spell that
frame. -/

namespace Sys2Proof.Machine

open Sys2Proof

/-- The two bytes of a field, put together. -/
theorem half_bytes (h : Half) : h.extractLsb' 8 8 ++ h.extractLsb' 0 8 = h := by
  apply BitVec.eq_of_getElem_eq; intro i hi
  simp only [BitVec.getElem_append, BitVec.getElem_extractLsb']
  split
  · simp [BitVec.getLsbD_eq_getElem hi]
  · rw [BitVec.getLsbD_eq_getElem (by omega)]; congr 1; omega

/-- The four bytes of a field, put together. -/
theorem word_bytes (h : Word) :
    (h.extractLsb' 24 8 ++ h.extractLsb' 16 8) ++ (h.extractLsb' 8 8 ++ h.extractLsb' 0 8) = h := by
  apply BitVec.eq_of_getElem_eq; intro i hi
  simp only [BitVec.getElem_append, BitVec.getElem_extractLsb']
  repeat' split
  all_goals (rw [BitVec.getLsbD_eq_getElem (by omega)]; congr 1; omega)

/-- A frame is read from its own bytes (R163, Table 10-1). -/
theorem ofWire_wire (f : Frame) (h : f.body.length < 65536) : Frame.ofWire f.wire = some f := by
  obtain ⟨kind, tag, status, flags, spare, body, check⟩ := f
  have hw : (Frame.mk kind tag status flags spare body check).wire = kind :: tag :: status :: flags ::
      (BitVec.ofNat 16 body.length).extractLsb' 8 8 :: (BitVec.ofNat 16 body.length).extractLsb' 0 8 ::
      spare.extractLsb' 8 8 :: spare.extractLsb' 0 8 :: (body ++ be32 check) := rfl
  have hn : (halfAt (Frame.mk kind tag status flags spare body check).wire 4).toNat = body.length := by
    rw [hw]
    show ((BitVec.ofNat 16 body.length).extractLsb' 8 8 ++ (BitVec.ofNat 16 body.length).extractLsb' 0 8).toNat = _
    rw [half_bytes, BitVec.toNat_ofNat, Nat.mod_eq_of_lt h]
  have hs : halfAt (Frame.mk kind tag status flags spare body check).wire 6 = spare := by
    rw [hw]; exact half_bytes spare
  have hc : wordAt (Frame.mk kind tag status flags spare body check).wire (8 + body.length) = check := by
    have hb : ∀ k, k < 4 → byteAt (Frame.mk kind tag status flags spare body check).wire (8 + body.length + k) =
        (be32 check).getD k 0#8 := by
      intro k hk
      rw [hw, show 8 + body.length + k = body.length + k + 8 from by omega]
      simp [byteAt, List.getElem?_append_right]
    have e : ∀ (W : List Byte) n, wordAt W n = (byteAt W (n + 0) ++ byteAt W (n + 1)) ++ (byteAt W (n + 2) ++ byteAt W (n + 3)) :=
      fun _ _ => rfl
    rw [e, hb 0 (by omega), hb 1 (by omega), hb 2 (by omega), hb 3 (by omega)]
    exact word_bytes check
  unfold Frame.ofWire
  simp only [hn, hs, hc]
  rw [hw]
  simp [be32, byteAt]
  omega

/-- A made frame passes the check (R163, R165). -/
theorem make_checkOk (kind tag status flags : Byte) (body : List Byte) :
    (Frame.make kind tag status flags body).checkOk = true := by
  simp [Frame.checkOk, Frame.make, Frame.covered]

end Sys2Proof.Machine
end

