-- ==== Sys2Proof/Laws/Frame.lean ====
section
/-! SUPPORT. The frame of every shared operation: one equation for each says which parts of the state it leaves alone. An
operation that touches only ports, locks and the count of free choices keeps `rest`; one that may also complete a commit
keeps `device`. -/

namespace Sys2Proof.Machine

/-- What only resets, requests to the edit unit and the pool, and commits change: everything but the ports, the locks and the
count of free choices. -/
def State.rest (s : State) :=
  (s.edit, s.map, s.revision, s.resetN, s.powerGood, s.slots, s.rr, s.busIssue, s.busAbort, s.config, s.pending)

/-- What a commit's completion leaves too: the pins, the slots, the pointer, the bus, the configuration and the queue of
commands. -/
def State.device (s : State) :=
  (s.resetN, s.powerGood, s.slots, s.rr, s.busIssue, s.busAbort, s.config, s.pending)

/-! ## What an equal rest or device gives -/

theorem rest_edit {s t : State} (h : s.rest = t.rest) : s.edit = t.edit := congrArg (·.1) h
theorem rest_map {s t : State} (h : s.rest = t.rest) : s.map = t.map := congrArg (·.2.1) h
theorem rest_revision {s t : State} (h : s.rest = t.rest) : s.revision = t.revision := congrArg (·.2.2.1) h
theorem rest_device {s t : State} (h : s.rest = t.rest) : s.device = t.device := congrArg (·.2.2.2) h
theorem device_resetN {s t : State} (h : s.device = t.device) : s.resetN = t.resetN := congrArg (·.1) h
theorem device_powerGood {s t : State} (h : s.device = t.device) : s.powerGood = t.powerGood := congrArg (·.2.1) h
theorem device_slots {s t : State} (h : s.device = t.device) : s.slots = t.slots := congrArg (·.2.2.1) h
theorem device_rr {s t : State} (h : s.device = t.device) : s.rr = t.rr := congrArg (·.2.2.2.1) h
theorem device_busIssue {s t : State} (h : s.device = t.device) : s.busIssue = t.busIssue := congrArg (·.2.2.2.2.1) h
theorem device_busAbort {s t : State} (h : s.device = t.device) : s.busAbort = t.busAbort := congrArg (·.2.2.2.2.2.1) h
theorem device_config {s t : State} (h : s.device = t.device) : s.config = t.config := congrArg (·.2.2.2.2.2.2.1) h
theorem device_pending {s t : State} (h : s.device = t.device) : s.pending = t.pending := congrArg (·.2.2.2.2.2.2.2) h

/-! ## Primitive updates -/

@[simp] theorem rest_setPort (s : State) (p : Port) (P : PortState) : (s.setPort p P).rest = s.rest := rfl
@[simp] theorem rest_onPort (s : State) (p : Port) (f : PortState → PortState) : (s.onPort p f).rest = s.rest := rfl
@[simp] theorem rest_setLock (s : State) (k : Lock) (l : LockRecord) : (s.setLock k l).rest = s.rest := rfl
@[simp] theorem rest_raise (s : State) (p : Port) (it : Item) : (s.raise p it).rest = s.rest := rfl
@[simp] theorem rest_respond (s : State) (p : Port) (r : Response) : (s.respond p r).rest = s.rest := rfl
@[simp] theorem rest_fresh (s : State) (n : Nat) : ({ s with fresh := n }).rest = s.rest := rfl

@[simp] theorem rest_respondDue (s : State) (p : Port) (r : Response) : (s.respondDue p r).rest = s.rest := by
  unfold State.respondDue; split <;> rfl

/-- A fold of operations that keep a part of the state keeps it. -/
theorem foldl_keeps {α β : Type} (part : State → β) (f : State → α → State) (h : ∀ s x, part (f s x) = part s) :
    ∀ (l : List α) (s : State), part (l.foldl f s) = part s
  | [], _ => rfl
  | x :: l, s => (foldl_keeps part f h l (f s x)).trans (h s x)

/-! ## Locks -/

@[simp] theorem rest_askYield (s : State) (k : Lock) : (s.askYield k).rest = s.rest := by
  unfold State.askYield; split <;> (try split) <;> rfl

@[simp] theorem rest_passLock (s : State) (k : Lock) : (s.passLock k).rest = s.rest := by
  unfold State.passLock; split <;> simp

@[simp] theorem rest_handoff (s : State) (k : Lock) : (s.handoff k).rest = s.rest := by
  unfold State.handoff; split <;> (try split) <;> simp

@[simp] theorem rest_endGrant (s : State) (k : Lock) (p : Port) (tag : Option Byte) :
    (s.endGrant k p tag).rest = s.rest := by
  unfold State.endGrant; dsimp only; split <;> simp

@[simp] theorem rest_revoke (s : State) (k : Lock) (c : BreakCause) : (s.revoke k c).rest = s.rest := by
  unfold State.revoke; split
  · dsimp only; split <;> simp
  · rfl

@[simp] theorem rest_releaseByLeave (s : State) (k : Lock) : (s.releaseByLeave k).rest = s.rest := by
  unfold State.releaseByLeave; split <;> simp

@[simp] theorem rest_removeWaits (s : State) (p : Port) : (s.removeWaits p).rest = s.rest :=
  foldl_keeps State.rest (fun t k => t.setLock k ((t.lock k).removeWaiter p)) (fun _ _ => rfl) _ _

@[simp] theorem rest_noticeFailures (s : State) (e : WriteEntry) : (s.noticeFailures e).rest = s.rest :=
  foldl_keeps State.rest (fun t (g : GuardMark) => t.noticeFailure g.lock) (fun _ _ => rfl) _ _

/-! ## Notifications -/

@[simp] theorem rest_appendNotice (s : State) (p : Port) (n : Note) : (s.appendNotice p n).rest = s.rest := by
  simp [State.appendNotice]

@[simp] theorem rest_fireNote (s : State) (p : Port) (n : Note) : (s.fireNote p n).rest = s.rest := by
  unfold State.fireNote; split <;> simp

@[simp] theorem rest_fireNextNote (s : State) (p : Port) : (s.fireNextNote p).rest = s.rest := by
  unfold State.fireNextNote; split <;> simp

@[simp] theorem rest_fireNotes (s : State) (p : Port) : (s.fireNotes p).rest = s.rest :=
  foldl_keeps State.rest _ (fun t _ => rest_fireNextNote t p) _ _

@[simp] theorem rest_departTarget (s : State) (p : Port) : (s.departTarget p).rest = s.rest := by
  unfold State.departTarget; dsimp only
  rw [foldl_keeps State.rest _ (fun t q => rest_fireNotes t q), foldl_keeps State.rest _ (fun t q => rest_onPort t q _),
    rest_onPort]

@[simp] theorem rest_dropNotes (s : State) (p : Port) : (s.dropNotes p).rest = s.rest := rfl

/-! ## Acceptance and sessions -/

@[simp] theorem rest_acceptRead (s : State) (p : Port) (tag : Byte) (a : Word) (n : Nat) :
    (s.acceptRead p tag a n).rest = s.rest := rfl

@[simp] theorem rest_acceptWrite (s : State) (p : Port) (r : Request) (a : Word) (n : Nat) (d : List Byte) :
    (s.acceptWrite p r a n d).rest = s.rest := by
  unfold State.acceptWrite; dsimp only; split <;> rfl

@[simp] theorem rest_accepting (s : State) (p : Port) (r : Request) : (s.accepting p r).rest = s.rest := by
  unfold State.accepting
  split
  · split <;> rfl
  · split <;> first | rfl | exact rest_acceptWrite ..
  · rfl

@[simp] theorem rest_retake (s : State) (p : Port) : (s.retake p).rest = s.rest := by
  unfold State.retake; split
  · split
    · dsimp only; split <;> simp
    · rfl
  · rfl

@[simp] theorem rest_startSession (s : State) (p : Port) (r : Request) (a b : Byte) :
    (s.startSession p r a b).rest = s.rest := rfl

@[simp] theorem rest_helloFields (s : State) (p : Port) (r : Request) (a b : Byte) :
    (s.helloFields p r a b).rest = s.rest := by
  unfold State.helloFields; split <;> rfl

theorem rest_tagCheck (s : State) (p : Port) (r : Request) (go : State → State) (h : ∀ t, (go t).rest = t.rest) :
    (s.tagCheck p r go).rest = s.rest := by
  unfold State.tagCheck; split
  · rfl
  · split
    · rfl
    · exact h _

@[simp] theorem rest_helloOffline (s : State) (p : Port) (r : Request) (a b : Byte) :
    (s.helloOffline p r a b).rest = s.rest := rest_tagCheck _ _ _ _ (fun t => rest_helloFields t p r a b)

@[simp] theorem rest_leaveTest (s : State) (p : Port) : (s.leaveTest p).rest = s.rest := by
  unfold State.leaveTest; split
  · split <;> rfl
  · rfl

@[simp] theorem rest_retakeHello (s : State) (p : Port) : (s.retakeHello p).rest = s.rest := by
  unfold State.retakeHello; split
  · split <;> simp
  · rfl

@[simp] theorem rest_closingTest (s : State) (p : Port) : (s.closingTest p).rest = s.rest := by
  unfold State.closingTest; split <;> simp

@[simp] theorem rest_sessionTests (s : State) : s.sessionTests.rest = s.rest :=
  foldl_keeps State.rest _ (fun t p => by simp) _ _

/-! ## A commit's completion and the end of an event -/

@[simp] theorem rest_raiseRevision (s : State) (p : Port) : (s.raiseRevision p).rest = s.rest := by
  unfold State.raiseRevision; simp

@[simp] theorem rest_answerCommit (s : State) (c : CommitEdit) : (s.answerCommit c).rest = s.rest := by
  unfold State.answerCommit; split <;> simp

theorem device_edit (s : State) (e : Edit) : ({ s with edit := e } : State).device = s.device := rfl

@[simp] theorem device_setRow (s : State) (r : Row) (c : RowRecord) : (s.setRow r c).device = s.device := rfl

@[simp] theorem device_replaceRows (s : State) (l : List Staged) : (s.replaceRows l).device = s.device :=
  foldl_keeps State.device (fun t (x : Staged) => t.setRow x.row x.content) (fun _ _ => rfl) _ _

/-- After a commit's completion the rows, the revision and the edit are those of its step 1, whatever the answer, the
REVISION items and the retakings do (R39 to R41). -/
theorem rest_completeCommit (s : State) (c : CommitEdit) (h : s.edit = .committing c) :
    s.completeCommit.rest =
      ({ s.replaceRows c.change with revision := s.revision + 1, edit := .absent } : State).rest := by
  simp only [State.completeCommit, h]
  rw [foldl_keeps State.rest _ (fun t p => rest_retake t p), foldl_keeps State.rest _ (fun t p => rest_raiseRevision t p),
    rest_answerCommit]

@[simp] theorem device_completeCommit (s : State) : s.completeCommit.device = s.device := by
  cases h : s.edit with
  | committing c =>
    rw [rest_device (rest_completeCommit s c h)]
    exact device_replaceRows s c.change
  | absent => simp [State.completeCommit, h]
  | opened o => simp [State.completeCommit, h]

@[simp] theorem device_runTask (p : Port) (s : State) (x : Task) : (s.runTask p x).device = s.device := by
  cases x <;> simp only [State.runTask]
  · exact rest_device (rest_handoff ..)
  · exact rest_device (rest_fireNextNote ..)
  · exact device_completeCommit s
  · exact rest_device (rest_revoke ..)
  · exact rest_device (rest_releaseByLeave ..)

@[simp] theorem device_runTasks (s : State) (p : Port) (l : List Task) : (s.runTasks p l).device = s.device :=
  (foldl_keeps State.device _ (fun t x => device_runTask p t x) _ _).trans rfl

theorem device_sessionTests (s : State) : s.sessionTests.device = s.device := rest_device (rest_sessionTests s)

@[simp] theorem device_closeEvent (s : State) (p : Port) (l : List Task) : (s.closeEvent p l).device = s.device := by
  unfold State.closeEvent; dsimp only
  split
  · rw [device_sessionTests, device_completeCommit, device_sessionTests, device_runTasks]; rfl
  · rw [device_sessionTests, device_runTasks]; rfl

/-! ## The pool -/

@[simp] theorem device_onPort (s : State) (p : Port) (f : PortState → PortState) : (s.onPort p f).device = s.device := rfl

@[simp] theorem device_leaveDrain (s : State) (p : Port) (ref : ReqRef) : (s.leaveDrain p ref).device = s.device := by
  unfold State.leaveDrain; split <;> rfl

@[simp] theorem device_finishRead (s : State) (p : Port) (e : ReadEntry) : (s.finishRead p e).device = s.device := by
  simp only [State.finishRead, device_leaveDrain]
  rw [rest_device (rest_respondDue ..)]; rfl

@[simp] theorem rest_writeReport (s : State) (p : Port) (e : WriteEntry) : (s.writeReport p e).rest = s.rest := by
  unfold State.writeReport; dsimp only; split <;> split <;> simp

@[simp] theorem device_finishWrite (s : State) (p : Port) (e : WriteEntry) : (s.finishWrite p e).device = s.device := by
  simp only [State.finishWrite, device_leaveDrain, device_onPort]
  rw [rest_device (rest_writeReport ..)]; rfl

@[simp] theorem device_endPiece (s : State) (j : Job) (e : Ending) : (s.endPiece j e).device = s.device := by
  unfold State.endPiece
  split
  · split
    · dsimp only; split <;> simp
    · rfl
  · split
    · dsimp only; split <;> simp
    · rfl

/-! ## Departures -/

@[simp] theorem device_leaveEvent (s : State) (p : Port) (tag : Byte) : (s.leaveEvent p tag).device = s.device := by
  unfold State.leaveEvent; dsimp only
  rw [device_sessionTests, rest_device (rest_departTarget ..)]
  rw [device_edit, rest_device (rest_removeWaits ..), device_runTasks]; rfl

@[simp] theorem device_dropReads (s : State) (p : Port) (l : List ReadEntry) : (s.dropReads p l).device = s.device :=
  foldl_keeps State.device (fun t (e : ReadEntry) => t.leaveDrain p (.read e.tag)) (fun t _ => device_leaveDrain t p _) _ _

@[simp] theorem device_linkLossEvent (s : State) (p : Port) : (s.linkLossEvent p).device = s.device := by
  unfold State.linkLossEvent; dsimp only
  rw [device_sessionTests, rest_device (rest_dropNotes ..), rest_device (rest_departTarget ..)]
  rw [device_edit, rest_device (rest_removeWaits ..), device_runTasks, device_dropReads]; rfl

end Sys2Proof.Machine
end

