-- ==== Sys2Proof/Laws/Ports.lean ====
section
/-! SUPPORT. What the shared operations keep of every port's own record: `PortState.legal` (Sys2Proof/Safety.lean) for
each change of one record, then `PortsLegal` for each operation over the state. -/

namespace Sys2Proof.Machine

open Sys2Proof

/-! ## Changes of one record -/

theorem sameKey_comm (a b : Item) : a.sameKey b = b.sameKey a := by
  simp only [Item.sameKey]; rw [Bool.eq_iff_iff]; simp; exact eq_comm

theorem sameKey_iff (a b : Item) : a.sameKey b = true ↔ a.key = b.key := by simp [Item.sameKey]

theorem sameKey_false (a b : Item) : a.sameKey b = false ↔ a.key ≠ b.key := by simp [Item.sameKey]

theorem mem_raiseInto {it e : Item} {l : List Item} (h : e ∈ raiseInto it l) : e = it ∨
    (e ∈ l ∧ it.sameKey e = false) := by
  unfold raiseInto at h
  split at h
  · simp only [List.mem_map] at h
    obtain ⟨a, ha, rfl⟩ := h
    split
    · exact .inl rfl
    · rename_i hk; exact .inr ⟨ha, by simpa using hk⟩
  · rename_i hk
    simp at h hk
    rcases h with h | h
    · exact .inr ⟨h, hk e h⟩
    · exact .inl h

theorem pairwise_raiseInto {it : Item} {l : List Item} (h : l.Pairwise (fun a b => a.sameKey b = false)) :
    (raiseInto it l).Pairwise (fun a b => a.sameKey b = false) := by
  unfold raiseInto
  split
  · rw [List.pairwise_map]
    refine h.imp ?_
    intro a b hab
    rw [sameKey_false] at hab
    split <;> split <;> rename_i h1 h2 <;> rw [sameKey_iff] at h1 h2 <;> rw [sameKey_false]
    · exact absurd (h1.symm.trans h2) hab
    · exact h2
    · exact fun e => h1 e.symm
    · exact hab
  · rename_i hk
    rw [List.pairwise_append]
    refine ⟨h, by simp, ?_⟩
    intro a ha b hb
    simp at hb hk; subst hb
    rw [sameKey_comm]; exact hk a ha

/-- A raise keeps a record legal; a FAULT item only with something to report. -/
theorem legal_raise (P : PortState) (it : Item) (h : P.legal)
   (hf : it = .fault → P.faults ≠ [] ∨ P.lost ≠ 0) : (P.raise it).legal := by
  unfold PortState.raise
  split
  · rename_i hc
    simp only [Bool.and_eq_true] at hc
    obtain ⟨⟨e1, e2, e3⟩, ⟨f1, f2, f3, f4⟩, r, o⟩ := h
    refine ⟨⟨pairwise_raiseInto e1, ?_, ?_⟩, ⟨f1, f2, f3, ?_⟩, r, ?_⟩
    · intro hs e he
      rcases mem_raiseInto he with rfl | he
      · cases e <;> simp_all [Item.wanted, Item.sameKey, Item.key]
      · exact e2 hs e he.1
    · intro hs e he
      rcases mem_raiseInto he with rfl | he
      · cases e <;> simp_all [Item.wanted, Item.sameKey, Item.key]
      · exact e3 hs e he.1
    · intro h1 h2 e he
      rcases mem_raiseInto he with rfl | he
      · rw [sameKey_false]; intro hk
        have : e = .fault := by cases e <;> simp_all [Item.key]
        rcases hf this with h | h
        · exact h h1
        · exact h h2
      · exact f4 h1 h2 e he.1
    · intro hs
      have : P.inContact = false := by
        have hs' : P.session = .offline := hs
        simp [PortState.inContact, hs']
      simp [this] at hc
  · exact h

theorem legal_withdraw (P : PortState) (it : Item) (h : P.legal) : (P.withdraw it).legal := by
  obtain ⟨⟨e1, e2, e3⟩, ⟨f1, f2, f3, f4⟩, r, o⟩ := h
  refine ⟨⟨e1.filter _, ?_, ?_⟩, ⟨f1, f2, f3, ?_⟩, r, ?_⟩
  · intro hs e he; exact e2 hs e (List.mem_filter.mp he).1
  · intro hs e he; exact e3 hs e (List.mem_filter.mp he).1
  · intro h1 h2 e he; exact f4 h1 h2 e (List.mem_filter.mp he).1
  · intro hs; obtain ⟨a, b⟩ := o hs; refine ⟨?_, b⟩; simp [PortState.withdraw, a]

theorem legal_record (P : PortState) (r : FaultRecord) (h : P.legal) : (P.record r).legal := by
  unfold PortState.record
  split
  · rename_i hc
    have h8 : Config.faultRoom = 8 := rfl
    obtain ⟨⟨e1, e2, e3⟩, ⟨f1, f2, f3, f4⟩, rr, o⟩ := h
    rw [h8] at f1 f3
    have hoff : P.session ≠ .offline := by intro hs; simp [PortState.inContact, hs] at hc
    have key : (P.keepRecord r).legal ∧ ((P.keepRecord r).faults ≠ [] ∨ (P.keepRecord r).lost ≠ 0) := by
      unfold PortState.keepRecord
      rw [h8]
      split
      · refine ⟨⟨⟨e1, e2, e3⟩, ⟨by simp [h8]; omega, f2, ?_, by simp⟩, rr, fun hs => absurd hs hoff⟩, by simp⟩
        intro hl; have := f3 hl; omega
      · have : P.faults.length = 8 := by omega
        have hne : P.faults ≠ [] := by intro e; simp [e] at this
        refine ⟨⟨⟨e1, e2, e3⟩, ⟨f1, ?_, fun _ => this, fun h => absurd h hne⟩, rr, fun hs => absurd hs hoff⟩,
            .inl hne⟩
        dsimp only; split <;> omega
    exact legal_raise _ _ key.1 (fun _ => key.2)
  · exact h

theorem legal_takeFault (P : PortState) (h : P.legal) : (P.takeFault).legal := by
  obtain ⟨⟨e1, e2, e3⟩, ⟨f1, f2, f3, f4⟩, r, o⟩ := h
  unfold PortState.takeFault
  dsimp only
  have ho : ∀ P' : PortState, P'.session = P.session →
      (P'.events = P.events ∨ P'.events = P.events.filter (fun e => !Item.fault.sameKey e)) →
      P'.faults = P.faults.tail → P'.lost = 0 → P'.subRev = P.subRev → P'.subFault = P.subFault → P'.offlineClear :=
      by
    intro P' a b c d e f hs
    obtain ⟨o1, o2, o3, o4, o5⟩ := o (a ▸ hs)
    refine ⟨?_, by simp [c, o2], d, by rw [e, o4], by rw [f, o5]⟩
    rcases b with b | b <;> simp [b, o1]
  split
  · rename_i he
    refine ⟨⟨e1.filter _, ?_, ?_⟩, ⟨?_, ?_, ?_, ?_⟩, r, ?_⟩
    · intro hs e he; exact e2 hs e (List.mem_filter.mp he).1
    · intro hs e he; exact e3 hs e (List.mem_filter.mp he).1
    · simp [PortState.withdraw]; have := f1; omega
    · simp [PortState.withdraw]
    · simp [PortState.withdraw]
    · intro h1 h2 e he
      have := (List.mem_filter.mp he).2
      rw [sameKey_comm]; simpa using this
    · exact ho _ rfl (.inr rfl) rfl rfl rfl rfl
  · rename_i he
    refine ⟨⟨e1, e2, e3⟩, ⟨?_, ?_, ?_, ?_⟩, r, ?_⟩
    · simp; have := f1; omega
    · simp
    · simp
    · intro h1; simp at he; simp at h1; exact absurd h1 he
    · exact ho _ rfl (.inl rfl) rfl rfl rfl rfl

theorem legal_subscribe (P : PortState) (v : Word) (h : P.legal) (hon : P.session = .online) :
    (P.subscribe v).legal := by
  have A : ∀ b, (P.setSubRev b).legal ∧ (P.setSubRev b).session = .online := by
    intro b
    obtain ⟨⟨e1, e2, e3⟩, ⟨f1, f2, f3, f4⟩, r, o⟩ := h
    unfold PortState.setSubRev
    split
    · refine ⟨⟨⟨e1.filter _, ?_, ?_⟩, ⟨f1, f2, f3, ?_⟩, r, ?_⟩, hon⟩
      · intro hs e he
        have := (List.mem_filter.mp he).2
        rw [sameKey_comm]; simpa using this
      · intro hs e he; exact e3 hs e (List.mem_filter.mp he).1
      · intro h1 h2 e he; exact f4 h1 h2 e (List.mem_filter.mp he).1
      · intro hs; have : P.session = .offline := hs; simp [hon] at this
    · rename_i hb
      refine ⟨⟨⟨e1, ?_, e3⟩, ⟨f1, f2, f3, f4⟩, r, ?_⟩, hon⟩
      · intro hs; simp at hs; subst hs; simp at hb; exact e2 hb
      · intro hs; have : P.session = .offline := hs; simp [hon] at this
  have B : ∀ (Q : PortState) b, Q.legal → Q.session = .online → (Q.setSubFault b).legal := by
    intro Q b h hon
    obtain ⟨⟨e1, e2, e3⟩, ⟨f1, f2, f3, f4⟩, r, o⟩ := h
    unfold PortState.setSubFault
    dsimp only
    have off : ∀ Q' : PortState, Q'.session = Q.session → Q'.offlineClear := by
      intro Q' a hs; rw [a, hon] at hs; simp at hs
    split
    · rename_i hb
      simp at hb
      obtain ⟨⟨hb1, hb2⟩, hb3⟩ := hb
      apply legal_raise
      · exact ⟨⟨e1, e2, fun hs => by simp [hb2] at hs⟩, ⟨f1, f2, f3, f4⟩, r, off _ rfl⟩
      · intro _; rcases hb3 with h | h
        · exact .inl h
        · exact .inr (by show Q.lost ≠ 0; omega)
    · rename_i hb
      split
      · refine ⟨⟨e1.filter _, ?_, ?_⟩, ⟨f1, f2, f3, ?_⟩, r, off _ rfl⟩
        · intro hs e he; exact e2 hs e (List.mem_filter.mp he).1
        · intro hs e he
          have := (List.mem_filter.mp he).2
          rw [sameKey_comm]; simpa using this
        · intro h1 h2 e he; exact f4 h1 h2 e (List.mem_filter.mp he).1
      · rename_i hb2
        refine ⟨⟨e1, e2, ?_⟩, ⟨f1, f2, f3, f4⟩, r, off _ rfl⟩
        intro hs; simp at hs; subst hs; simp at hb2; exact e3 hb2
  exact B _ _ (A _).1 (A _).2

theorem legal_goOffline (P : PortState) (h : P.legal) : P.goOffline.legal := by
  obtain ⟨⟨e1, e2, e3⟩, ⟨f1, f2, f3, f4⟩, r, o⟩ := h
  refine ⟨⟨by simp [PortState.goOffline], by simp [PortState.goOffline], by simp [PortState.goOffline]⟩, ⟨by simp [PortState.goOffline], by simp [PortState.goOffline], by simp [PortState.goOffline], by simp [PortState.goOffline]⟩, r, fun _ => ⟨rfl, rfl, rfl, rfl, rfl⟩⟩

theorem legal_reset (l : Link) : (PortState.reset l).legal := by
  simp [PortState.legal, PortState.eventsLegal, PortState.faultsLegal, PortState.roomLegal, PortState.offlineClear,
    PortState.reset]

/-- A change that keeps what the invariant reads. -/
theorem legal_keep (P Q : PortState) (h : P.legal) (h1 : Q.session = P.session) (h2 : Q.events = P.events)
    (h3 : Q.subRev = P.subRev) (h4 : Q.subFault = P.subFault) (h5 : Q.faults = P.faults) (h6 : Q.lost = P.lost)
    (h7 : Q.roomLegal) : Q.legal := by
  obtain ⟨e, f, r, o⟩ := h
  refine ⟨?_, ?_, h7, ?_⟩
  · unfold PortState.eventsLegal; rw [h2, h3, h4]; exact e
  · unfold PortState.faultsLegal; rw [h2, h5, h6]; exact f
  · unfold PortState.offlineClear; rw [h1, h2, h3, h4, h5, h6]; exact o

theorem legal_respond (P : PortState) (x : Response) (h : P.legal) : (P.respond x).legal := by
  refine legal_keep P _ h rfl rfl rfl rfl rfl rfl ?_
  obtain ⟨_, _, ⟨a, b, r⟩, _⟩ := h
  exact ⟨a.filter _, fun t ht => b t (List.mem_filter.mp ht).1, r⟩

/-! ## Operations over the state -/

/-- Every port's record is legal. -/
def PortsLegal (s : State) : Prop := ∀ p, (s.port p).legal

theorem portsLegal_of_ports {s t : State} (h : t.ports = s.ports) (g : PortsLegal s) : PortsLegal t := by
  intro p; have := g p; unfold State.port at *; rwa [h]

theorem portsLegal_onPort {s : State} {p : Port} {f : PortState → PortState} (g : PortsLegal s)
    (h : (f (s.port p)).legal) : PortsLegal (s.onPort p f) := by
  intro q; rw [State.port_onPort]; split
  · exact h
  · exact g q

theorem portsLegal_foldl {α : Type} {f : State → α → State} (hf : ∀ s x, PortsLegal s → PortsLegal (f s x))
    (l : List α) (s : State) (h : PortsLegal s) : PortsLegal (l.foldl f s) := by
  induction l generalizing s with
  | nil => exact h
  | cons x l ih => exact ih _ (hf _ _ h)

theorem portsLegal_raise {s : State} {p it} (g : PortsLegal s) (h : it ≠ .fault) : PortsLegal (s.raise p it) :=
  portsLegal_onPort g (legal_raise _ _ (g p) (fun e => absurd e h))

theorem portsLegal_respond {s : State} {p x} (g : PortsLegal s) : PortsLegal (s.respond p x) :=
    portsLegal_onPort g (legal_respond _ _ (g p))

theorem portsLegal_respondDue {s : State} {p x} (g : PortsLegal s) : PortsLegal (s.respondDue p x) := by
  unfold State.respondDue; split
  · exact portsLegal_respond g
  · exact g

theorem portsLegal_setLock {s : State} {k l} (g : PortsLegal s) : PortsLegal (s.setLock k l) :=
    portsLegal_of_ports rfl g

theorem portsLegal_askYield {s : State} {k} (g : PortsLegal s) : PortsLegal (s.askYield k) := by
  unfold State.askYield; split
  · split
    · exact portsLegal_raise (portsLegal_setLock g) (by simp)
    · exact g
  · exact g

theorem portsLegal_passLock {s : State} {k} (g : PortsLegal s) : PortsLegal (s.passLock k) := by
  unfold State.passLock; split
  · exact portsLegal_askYield (portsLegal_raise (portsLegal_setLock g) (by simp))
  · exact portsLegal_setLock g

theorem portsLegal_handoff {s : State} {k} (g : PortsLegal s) : PortsLegal (s.handoff k) := by
  unfold State.handoff; split
  · split
    · exact portsLegal_respondDue (portsLegal_passLock g)
    · exact portsLegal_passLock g
  · exact g

theorem portsLegal_endGrant {s : State} {k p tag} (g : PortsLegal s) : PortsLegal (s.endGrant k p tag) := by
  unfold State.endGrant; dsimp only; split
  · exact portsLegal_handoff (portsLegal_setLock g)
  · exact portsLegal_setLock g

theorem portsLegal_revoke {s : State} {k c} (g : PortsLegal s) : PortsLegal (s.revoke k c) := by
  unfold State.revoke; split
  · dsimp only; apply portsLegal_endGrant; split
    · exact portsLegal_setLock g
    · exact portsLegal_raise (portsLegal_setLock g) (by simp)
  · exact g

theorem portsLegal_releaseByLeave {s : State} {k} (g : PortsLegal s) : PortsLegal (s.releaseByLeave k) := by
  unfold State.releaseByLeave; split
  · exact portsLegal_endGrant g
  · exact g

theorem portsLegal_removeWaits {s : State} {p} (g : PortsLegal s) : PortsLegal (s.removeWaits p) :=
  portsLegal_foldl (fun _ _ h => portsLegal_setLock h) _ _ g

theorem portsLegal_onPort_keep {s : State} {p : Port} {f : PortState → PortState} (g : PortsLegal s)
    (h1 : (f (s.port p)).session = (s.port p).session) (h2 : (f (s.port p)).events = (s.port p).events)
    (h3 : (f (s.port p)).subRev = (s.port p).subRev) (h4 : (f (s.port p)).subFault = (s.port p).subFault)
    (h5 : (f (s.port p)).faults = (s.port p).faults) (h6 : (f (s.port p)).lost = (s.port p).lost)
    (h7 : (f (s.port p)).roomLegal) : PortsLegal (s.onPort p f) := 
  portsLegal_onPort g (legal_keep _ _ (g p) h1 h2 h3 h4 h5 h6 h7)

theorem roomLegal_of {s : State} (g : PortsLegal s) (p) : (s.port p).roomLegal := (g p).2.2.1

theorem portsLegal_appendNotice {s : State} {p n} (g : PortsLegal s) : PortsLegal (s.appendNotice p n) := by
  unfold State.appendNotice; dsimp only
  refine portsLegal_raise (portsLegal_respondDue (portsLegal_onPort_keep g rfl rfl rfl rfl rfl rfl ?_)) (by simp)
  exact roomLegal_of g _

theorem portsLegal_fireNote {s : State} {p n} (g : PortsLegal s) : PortsLegal (s.fireNote p n) := by
  unfold State.fireNote; split
  · exact portsLegal_respondDue g
  · exact portsLegal_appendNotice g

theorem portsLegal_fireNextNote {s : State} {p} (g : PortsLegal s) : PortsLegal (s.fireNextNote p) := by
  unfold State.fireNextNote; split
  · exact portsLegal_fireNote (portsLegal_onPort_keep g rfl rfl rfl rfl rfl rfl (roomLegal_of g _))
  · exact g

theorem portsLegal_fireNotes {s : State} {p} (g : PortsLegal s) : PortsLegal (s.fireNotes p) :=
    portsLegal_foldl (fun _ _ h => portsLegal_fireNextNote h) _ _ g

theorem portsLegal_departTarget {s : State} {p} (g : PortsLegal s) : PortsLegal (s.departTarget p) := by
  unfold State.departTarget; dsimp only
  refine portsLegal_foldl (fun _ _ h => portsLegal_fireNotes h) _ _ (portsLegal_foldl (fun _ _ h => ?_) _ _ ?_)
  · exact portsLegal_onPort_keep h rfl rfl rfl rfl rfl rfl (roomLegal_of h _)
  · refine portsLegal_onPort g (legal_withdraw _ _ ?_)
    exact legal_keep _ _ (g p) rfl rfl rfl rfl rfl rfl (roomLegal_of g p)

theorem portsLegal_dropNotes {s : State} {p} (g : PortsLegal s) : PortsLegal (s.dropNotes p) :=
    portsLegal_onPort_keep g rfl rfl rfl rfl rfl rfl (roomLegal_of g _)

/-- No request is held, and the request has room to be accepted. -/
def HasRoom (s : State) (p : Port) (r : Request) : Prop := (s.port p).hold = none ∧
    (r.op.isWrite = true → (s.port p).writeQ.length < 16) ∧ (r.op.isRead = true → (s.port p).readL.length < 8)

theorem portsLegal_accepting {s : State} {p r} (g : PortsLegal s) (hr : HasRoom s p r) :
    PortsLegal (s.accepting p r) := by
  obtain ⟨r1, r2, r3, r4, rb, r5, r6, r7⟩ := roomLegal_of g p
  obtain ⟨h1, h2, h3⟩ := hr
  have hw : Config.writeRoom = 16 := rfl
  have hrd : Config.readRoom = 8 := rfl
  unfold State.accepting
  split
  · rename_i a l ho
    have h3' := h3 (by rw [ho]; rfl)
    split
    · exact portsLegal_respond g
    · refine portsLegal_onPort_keep g rfl rfl rfl rfl rfl rfl ⟨r1, r2, r3, r4, rb, r5, r6, ?_⟩
      intro r' hr'; simp at hr'; subst hr'
      exact ⟨fun h => by rw [ho] at h; simp [ReqOp.isWrite] at h, fun _ => h3'⟩
    · refine portsLegal_onPort_keep g rfl rfl rfl rfl rfl rfl ⟨r1, r2, r3, r4, rb, r5, ?_, ?_⟩
      · simp [hrd]; omega
      · intro r' hr'; simp [h1] at hr'
  · rename_i a l d ho
    have h2' := h2 (by rw [ho]; rfl)
    split
    · exact portsLegal_respond g
    · refine portsLegal_onPort_keep g rfl rfl rfl rfl rfl rfl ⟨r1, r2, r3, r4, rb, r5, r6, ?_⟩
      intro r' hr'; simp at hr'; subst hr'
      exact ⟨fun _ => h2', fun h => by rw [ho] at h; simp [ReqOp.isRead] at h⟩
    · unfold State.acceptWrite; dsimp only
      have : ∀ e, PortsLegal (s.joinWrite p e) := by
        intro e
        refine portsLegal_onPort_keep g rfl rfl rfl rfl rfl rfl ⟨r1, r2, r3, r4, rb, ?_, r6, ?_⟩
        · simp [hw]; omega
        · intro r' hr'; simp [h1] at hr'
      split
      · exact portsLegal_respond (this _)
      · exact this _
  · exact g

theorem portsLegal_clearHold {s : State} {p} (g : PortsLegal s) :
    PortsLegal (s.onPort p (fun P => { P with hold := none })) := by
  obtain ⟨r1, r2, r3, r4, rb, r5, r6, r7⟩ := roomLegal_of g p
  exact portsLegal_onPort_keep g rfl rfl rfl rfl rfl rfl ⟨r1, r2, r3, r4, rb, r5, r6, by simp⟩

theorem portsLegal_retake {s : State} {p} (g : PortsLegal s) : PortsLegal (s.retake p) := by
  unfold State.retake; split
  · rename_i r hr
    split
    · dsimp only
      have := (roomLegal_of g p).2.2.2.2.2.2.2 r hr
      split
      · refine portsLegal_accepting (portsLegal_clearHold g) ⟨by simp, by intro h; have h2 : _ < 16 := this.1 h; simpa using h2, by intro h; have h2 : _ < 8 := this.2 h; simpa using h2⟩
      · exact portsLegal_respond (portsLegal_clearHold g)
      · exact portsLegal_respond (portsLegal_clearHold g)
      · exact portsLegal_respond (portsLegal_clearHold g)
    · exact g
  · exact g

theorem portsLegal_startSession {s : State} {p r a b} (g : PortsLegal s) (h : (s.port p).session = .offline) :
    PortsLegal (s.startSession p r a b) := by
  unfold State.startSession; dsimp only
  refine portsLegal_respond (portsLegal_onPort g ?_)
  obtain ⟨o1, o2, o3, o4, o5⟩ := (g p).2.2.2 h
  have := roomLegal_of g p
  refine ⟨⟨by simp [o1], by simp [o1], by simp [o1]⟩, ⟨by simp [o2], by simp [o3], by simp [o3], by simp [o1]⟩, this, by intro h; simp at h⟩

theorem portsLegal_tagCheck {s : State} {p r go} (g : PortsLegal s)
    (hgo : ∀ t, PortsLegal t → t = s.onPort p (fun P => { P with tags := P.tags ++ [r.tag] }) → PortsLegal (go t)) :
    PortsLegal (s.tagCheck p r go) := by
  obtain ⟨r1, r2, r3, r4, rb, r5, r6, r7⟩ := roomLegal_of g p
  unfold State.tagCheck; split
  · exact portsLegal_onPort_keep g rfl rfl rfl rfl rfl rfl (roomLegal_of g p)
  · rename_i ht
    split
    · refine portsLegal_onPort g (legal_record _ _ (legal_keep _ _ (g p) rfl rfl rfl rfl rfl rfl ⟨r1, r2, r3, ?_, ?_, r5, r6, r7⟩))
      · dsimp only; omega
      · exact rb
    · rename_i hn
      refine hgo _ (portsLegal_onPort_keep g rfl rfl rfl rfl rfl rfl ⟨?_, ?_, r3, r4, rb, r5, r6, r7⟩) rfl
      · dsimp only; rw [List.nodup_append]; exact ⟨r1, by simp, by intro a ha b hb; simp at hb; subst hb; rintro rfl; exact hn ha⟩
      · intro t ht'; simp at ht'; rcases ht' with h | rfl
        · exact r2 t h
        · omega

theorem portsLegal_helloOffline {s : State} {p r a b} (g : PortsLegal s) (h : (s.port p).session = .offline) :
    PortsLegal (s.helloOffline p r a b) := by
  refine portsLegal_tagCheck g ?_
  rintro t gt rfl
  unfold State.helloFields; split
  · exact portsLegal_startSession gt (by simpa using h)
  · exact portsLegal_respond gt

theorem portsLegal_leaveTest {s : State} {p} (g : PortsLegal s) : PortsLegal (s.leaveTest p) := by
  unfold State.leaveTest; split
  · split
    · refine portsLegal_onPort g ?_
      rename_i l _ _
      have := legal_respond _ ((s.port p).leaveResponse l.tag) (g p)
      exact legal_keep _ _ this rfl rfl rfl rfl rfl rfl this.2.2.1
    · exact g
  · exact g

theorem portsLegal_closingTest {s : State} {p} (g : PortsLegal s) : PortsLegal (s.closingTest p) := by
  unfold State.closingTest; split
  · have g1 : PortsLegal (s.onPort p (·.goOffline)) := portsLegal_onPort g (legal_goOffline _ (g p))
    unfold State.retakeHello; split
    · split
      · exact portsLegal_helloOffline (portsLegal_clearHold g1) (by simp [PortState.goOffline])
      · exact g1
    · exact g1
  · exact g

theorem portsLegal_sessionTests {s : State} (g : PortsLegal s) : PortsLegal s.sessionTests :=
    portsLegal_foldl (fun _ _ h => portsLegal_closingTest (portsLegal_leaveTest h)) _ _ g

theorem portsLegal_raiseRevision {s : State} {p} (g : PortsLegal s) : PortsLegal (s.raiseRevision p) := by
  exact portsLegal_raise g (by simp)

theorem ports_replaceRows (s : State) (l) : (s.replaceRows l).ports = s.ports := by
  unfold State.replaceRows
  induction l generalizing s with
  | nil => rfl
  | cons x l ih => exact (ih _).trans rfl

theorem portsLegal_completeCommit {s : State} (g : PortsLegal s) : PortsLegal s.completeCommit := by
  unfold State.completeCommit; split
  · dsimp only
    refine portsLegal_foldl (fun _ _ h => portsLegal_retake h)
        _ _ (portsLegal_foldl (fun _ _ h => portsLegal_raiseRevision h) _ _ ?_)
    unfold State.answerCommit; split
    · exact portsLegal_of_ports (ports_replaceRows _ _) g
    · refine portsLegal_respondDue (portsLegal_of_ports (ports_replaceRows _ _) g)
  · exact g

theorem portsLegal_runTask {s : State} {p x} (g : PortsLegal s) : PortsLegal (s.runTask p x) := by
  unfold State.runTask; split
  · exact portsLegal_handoff g
  · exact portsLegal_fireNextNote g
  · exact portsLegal_completeCommit g
  · exact portsLegal_revoke g
  · exact portsLegal_releaseByLeave g

theorem portsLegal_fresh {s : State} {n} (g : PortsLegal s) : PortsLegal { s with fresh := n } :=
    portsLegal_of_ports rfl g

theorem portsLegal_runTasks {s : State} {p l} (g : PortsLegal s) : PortsLegal (s.runTasks p l) :=
    portsLegal_foldl (fun _ _ h => portsLegal_runTask h) _ _ (portsLegal_fresh g)

theorem portsLegal_closeEvent {s : State} {p l} (g : PortsLegal s) : PortsLegal (s.closeEvent p l) := by
  unfold State.closeEvent; dsimp only; split
  · exact portsLegal_sessionTests (portsLegal_completeCommit (portsLegal_sessionTests (portsLegal_runTasks (portsLegal_fresh g))))
  · exact portsLegal_sessionTests (portsLegal_runTasks (portsLegal_fresh g))

/-! ## The pool -/
theorem portsLegal_leaveDrain {s : State} {p r} (g : PortsLegal s) : PortsLegal (s.leaveDrain p r) := by
  unfold State.leaveDrain; split
  · exact portsLegal_of_ports rfl g
  · exact g

theorem portsLegal_onRead {s : State} {p t f} (g : PortsLegal s) : PortsLegal (s.onPort p (·.onRead t f)) := by
  obtain ⟨r1, r2, r3, r4, rb, r5, r6, r7⟩ := roomLegal_of g p
  refine portsLegal_onPort_keep g rfl rfl rfl rfl rfl rfl ⟨r1, r2, r3, r4, rb, r5, ?_, ?_⟩
  · simpa [PortState.onRead] using r6
  · intro r hr; have := r7 r hr; simpa [PortState.onRead] using this

theorem portsLegal_onWrite {s : State} {p t f} (g : PortsLegal s) : PortsLegal (s.onPort p (·.onWrite t f)) := by
  obtain ⟨r1, r2, r3, r4, rb, r5, r6, r7⟩ := roomLegal_of g p
  refine portsLegal_onPort_keep g rfl rfl rfl rfl rfl rfl ⟨r1, r2, r3, r4, rb, ?_, r6, ?_⟩
  · simpa [PortState.onWrite] using r5
  · intro r hr; have := r7 r hr; simpa [PortState.onWrite] using this

theorem portsLegal_finishRead {s : State} {p e} (g : PortsLegal s) : PortsLegal (s.finishRead p e) := by
  obtain ⟨r1, r2, r3, r4, rb, r5, r6, r7⟩ := roomLegal_of g p
  refine portsLegal_leaveDrain (portsLegal_respondDue
      (portsLegal_onPort_keep g rfl rfl rfl rfl rfl rfl ⟨r1, r2, r3, r4, rb, r5, ?_, ?_⟩))
  · exact (List.length_filter_le _ _).trans r6
  · intro r hr; have := r7 r hr; exact ⟨this.1, fun h => lt_of_le_of_lt (List.length_filter_le _ _) (this.2 h)⟩

theorem advanceQueue_length (l : List WriteEntry) (w) : (advanceQueue l w).1.length ≤ l.length := by
  induction l generalizing w with
  | nil => simp [advanceQueue]
  | cons e l ih => unfold advanceQueue; split
                   · exact (ih _).trans (by simp)
                   · simp

theorem portsLegal_noticeFailures {s : State} {e} (g : PortsLegal s) : PortsLegal (s.noticeFailures e) :=
    portsLegal_foldl (fun _ _ h => portsLegal_setLock h) _ _ g

theorem portsLegal_finishWrite {s : State} {p e} (g : PortsLegal s) : PortsLegal (s.finishWrite p e) := by
  unfold State.finishWrite
  have g1 : PortsLegal ((s.onPort p (·.onWrite e.seq (fun x => { x with completed := true }))).writeReport p e) := by
    unfold State.writeReport; dsimp only
    have ga := portsLegal_onWrite (p := p) (t := e.seq) (f := fun x => { x with completed := true }) g
    cases hf : e.failed <;> cases hp : e.posted <;> simp only [if_true, Bool.false_eq_true, if_false]
    · exact portsLegal_respondDue ga
    · exact ga
    · exact portsLegal_noticeFailures (portsLegal_respondDue ga)
    · exact portsLegal_onPort (portsLegal_noticeFailures ga) (legal_record _ _ ((portsLegal_noticeFailures ga) p))
  obtain ⟨r1, r2, r3, r4, rb, r5, r6, r7⟩ := roomLegal_of g1 p
  refine portsLegal_leaveDrain (portsLegal_onPort_keep g1 rfl rfl rfl rfl rfl rfl
      ⟨r1, r2, r3, r4, rb, (advanceQueue_length _ _).trans r5, r6, ?_⟩)
  intro r hr; have := r7 r hr; exact ⟨fun h => lt_of_le_of_lt (advanceQueue_length _ _) (this.1 h), this.2⟩

theorem portsLegal_endPiece {s : State} {j e} (g : PortsLegal s) : PortsLegal (s.endPiece j e) := by
  unfold State.endPiece; split
  · split
    · dsimp only; split
      · exact portsLegal_closeEvent (portsLegal_finishWrite (portsLegal_onWrite g))
      · exact portsLegal_onWrite g
    · exact g
  · split
    · dsimp only; split
      · exact portsLegal_closeEvent (portsLegal_finishRead (portsLegal_onRead g))
      · exact portsLegal_onRead g
    · exact g

theorem portsLegal_endJob {s : State} {n j e} (g : PortsLegal s) : PortsLegal (s.endJob n j e) :=
    portsLegal_endPiece (portsLegal_of_ports rfl g)

theorem portsLegal_onPiece {s : State} {p r n f} (g : PortsLegal s) :
    PortsLegal (s.onPort p (fun P => P.onPiece r n f)) := by
  unfold PortState.onPiece; cases r
  · exact portsLegal_onWrite g
  · exact portsLegal_onRead g

theorem portsLegal_arbiterRun {s : State} (g : PortsLegal s) : PortsLegal s.arbiterRun := by
  unfold State.arbiterRun; split
  · split
    · split
      · refine portsLegal_of_ports rfl (portsLegal_onPiece (s := s.issue _ _) ?_)
        exact portsLegal_of_ports rfl g
      · exact g
    · exact g
  · exact g

/-! ## Departures -/
theorem portsLegal_leaveEvent {s : State} {p tag} (g : PortsLegal s) : PortsLegal (s.leaveEvent p tag) := by
  unfold State.leaveEvent; dsimp only
  have g1 : PortsLegal (s.onPort p (·.startLeave tag)) := by
    refine portsLegal_onPort g ?_
    obtain ⟨e, f, r, o⟩ := g p
    exact ⟨e, f, r, by intro h; simp [PortState.startLeave] at h⟩
  generalize (s.onPort p (·.startLeave tag)) = s1 at *
  have g2 : PortsLegal ((s1.runTasks p ((s1.heldLocks p).map .release)).removeWaits p) :=
      portsLegal_removeWaits (portsLegal_runTasks g1)
  generalize ((s1.runTasks p ((s1.heldLocks p).map .release)).removeWaits p) = s2 at *
  exact portsLegal_sessionTests (portsLegal_departTarget (portsLegal_of_ports rfl g2))

theorem portsLegal_dropReads {s : State} {p l} (g : PortsLegal s) : PortsLegal (s.dropReads p l) :=
    portsLegal_foldl (fun _ _ h => portsLegal_leaveDrain h) _ _ g

theorem portsLegal_linkLossEvent {s : State} {p} (g : PortsLegal s) : PortsLegal (s.linkLossEvent p) := by
  unfold State.linkLossEvent; dsimp only
  have g1 : PortsLegal (s.onPort p (·.loseLink)) := by
    refine portsLegal_onPort g ?_
    obtain ⟨e, f, ⟨r1, r2, r3, r4, rb, r5, r6, r7⟩, o⟩ := g p
    refine ⟨e, f, ⟨by simp [PortState.loseLink], by simp [PortState.loseLink], by simp [PortState.loseLink, PortState.discardQueues], by simp [PortState.loseLink], by simp [PortState.loseLink, PortState.discardQueues], r5, ?_, by simp [PortState.loseLink, PortState.discardQueues]⟩, by intro h; simp [PortState.loseLink] at h⟩
    simp [PortState.loseLink]; exact (List.length_filter_le _ _).trans r6
  have g2 := portsLegal_dropReads (p := p) (l := (s.port p).readL.filter (fun e => !e.survives)) g1
  generalize ((s.onPort p (·.loseLink)).dropReads p ((s.port p).readL.filter (fun e => !e.survives))) = s1 at *
  have g3 : PortsLegal ((s1.runTasks p ((s1.heldLocks p).map .revoke ++ if s1.commitDue then [.commit] else
      [])).removeWaits p) := portsLegal_removeWaits (portsLegal_runTasks g2)
  generalize ((s1.runTasks p ((s1.heldLocks p).map .revoke ++ if s1.commitDue then [.commit] else [])).removeWaits
      p) = s2 at *
  exact portsLegal_sessionTests (portsLegal_dropNotes (portsLegal_departTarget (portsLegal_of_ports rfl g3)))

theorem portsLegal_discard {s : State} {p} (g : PortsLegal s) (l : Link) :
    PortsLegal (s.onPort p (fun P => { P.discardQueues with link := l })) := by
  obtain ⟨r1, r2, r3, r4, rb, r5, r6, r7⟩ := roomLegal_of g p
  refine portsLegal_onPort_keep g rfl rfl rfl rfl rfl rfl
      ⟨r1, r2, by simp [PortState.discardQueues], ?_, by simp [PortState.discardQueues], r5, r6,
        by simp [PortState.discardQueues]⟩
  simp [PortState.discardQueues]; omega

theorem portsLegal_link {s : State} {p} (g : PortsLegal s) (l : Link) :
    PortsLegal (s.onPort p (fun P => { P with link := l })) :=
    portsLegal_onPort_keep g rfl rfl rfl rfl rfl rfl (roomLegal_of g p)

theorem portsLegal_toReset {s : State} : PortsLegal s.toReset := by
  intro p; fin_cases p <;> exact legal_reset _

/-! ## Requests -/
theorem takes_hasRoom {s : State} {p r} (h : s.takes p r = true) : HasRoom s p r ∧ (s.port p).places < 32 := by
  simp only [State.takes, Bool.and_eq_true, beq_iff_eq, Bool.not_eq_true', PortState.stalled, Bool.or_eq_false_iff, Bool.and_eq_false_iff, decide_eq_false_iff_not] at h
  have e1 : Config.writeRoom = 16 := rfl
  have e2 : Config.readRoom = 8 := rfl
  have e3 : Config.responsePlaces = 32 := rfl
  rw [e1, e2, e3] at h
  obtain ⟨⟨-, h1⟩, ⟨⟨h2, h3⟩, h4⟩, h5⟩ := h
  refine ⟨⟨by simpa using h4, ?_, ?_⟩, by omega⟩
  · intro hw; rcases h2 with h2 | h2
    · simp [hw] at h2
    · omega
  · intro hw; rcases h3 with h3 | h3
    · simp [hw] at h3
    · omega

theorem portsLegal_taken {s : State} {p r} (g : PortsLegal s) (h : s.takes p r = true) : PortsLegal (s.taken p) := by
  obtain ⟨r1, r2, r3, r4, rb, r5, r6, r7⟩ := roomLegal_of g p
  have := (takes_hasRoom h).2
  refine portsLegal_onPort_keep g rfl rfl rfl rfl rfl rfl ⟨r1, r2, ?_, ?_, ?_, r5, r6, r7⟩
  · simp [PortState.takeHead]; omega
  · show _ + 1 ≤ 32; omega
  · intro hb
    simp only [PortState.takeHead, PortState.hasRoom, Bool.or_eq_true, Bool.and_eq_true, decide_eq_true_eq] at hb
    have hi : (s.port p).intake.length < Config.intakeRoom := by
      rcases hb with hb | hb
      · exact rb hb
      · exact hb.1
    simp only [PortState.takeHead, List.length_tail]; omega

/-- The end of a received frame keeps every record legal: a refusal that finds no response place waits (R92; log 3). -/
theorem portsLegal_endFrame {s : State} {p f} (g : PortsLegal s) (h : s.receives p = true)
    (hw : (s.port p).endWaits f = false) : PortsLegal (s.onPort p (·.endFrame f)) := by
  obtain ⟨r1, r2, r3, r4, rb, r5, r6, r7⟩ := roomLegal_of g p
  have hi : (s.port p).intake.length < Config.intakeRoom := by
    simp only [State.receives, PortState.hasRoom, Bool.and_eq_true, Bool.or_eq_true, decide_eq_true_eq] at h
    rcases h.2 with hb | hb
    · exact hb.1
    · exact rb hb
  have ended : ∀ Q : PortState, Q.legal → ({ Q with begun := false } : PortState).legal := fun Q hQ =>
    legal_keep _ _ hQ rfl rfl rfl rfl rfl rfl
      ⟨hQ.2.2.1.1, hQ.2.2.1.2.1, hQ.2.2.1.2.2.1, hQ.2.2.1.2.2.2.1, by simp, hQ.2.2.1.2.2.2.2.2⟩
  have refuse : ∀ st, f.refused = true → ((s.port p).refuseFrame f st).legal := by
    intro st hf
    simp only [PortState.endWaits, hf, Bool.true_and, decide_eq_false_iff_not, Nat.not_le] at hw
    exact legal_keep _ _ (g p) rfl rfl rfl rfl rfl rfl ⟨r1, r2, r3, hw, rb, r5, r6, r7⟩
  refine portsLegal_onPort g ?_
  unfold PortState.endFrame PortState.receive
  split
  · exact ended _ (legal_record _ _ (g p))
  · rename_i hr
    exact ended _ (refuse _ (by simp [Frame.refused, hr]))
  · rename_i hr
    exact ended _ (legal_record _ _ (refuse _ (by simp [Frame.refused, hr])))
  · refine legal_keep _ _ (g p) rfl rfl rfl rfl rfl rfl ⟨r1, r2, ?_, r4, by simp, r5, r6, r7⟩
    simpa using hi

/-- A request command keeps every record legal when what it goes on to does. -/
theorem portsLegal_request {s : State} {p r go} (g : PortsLegal s)
    (hgo : ∀ t, PortsLegal t → HasRoom t p r → (t.port p).session = .online →
    t = (s.taken p).onPort p (fun P => { P with tags := P.tags ++ [r.tag] }) → PortsLegal (go t)) :
    PortsLegal (s.request p r go) := by
  unfold State.request; split
  · rename_i h
    have gt := portsLegal_taken g h
    have hr := (takes_hasRoom h).1
    unfold State.sessionCheck
    split
    · exact portsLegal_onPort_keep gt rfl rfl rfl rfl rfl rfl (roomLegal_of gt p)
    · exact portsLegal_onPort_keep gt rfl rfl rfl rfl rfl rfl (roomLegal_of gt p)
    · exact portsLegal_onPort_keep gt rfl rfl rfl rfl rfl rfl (roomLegal_of gt p)
    · rename_i ho
      refine portsLegal_tagCheck gt ?_
      rintro t g' rfl
      refine hgo _ g' ?_ (by simpa using ho) rfl
      obtain ⟨a, b, c⟩ := hr
      exact ⟨by simpa [State.taken, PortState.takeHead] using a, by simpa [State.taken, PortState.takeHead] using b,
        by simpa [State.taken, PortState.takeHead] using c⟩
  · exact g

theorem portsLegal_withLock {s : State} {p r l go} (g : PortsLegal s) (h : ∀ k, PortsLegal (go s k)) :
    PortsLegal (s.withLock p r l go) := by
  unfold State.withLock; split
  · exact h _
  · exact portsLegal_respond g

theorem portsLegal_asOwner {s : State} {p r go} (g : PortsLegal s) (h : ∀ o, PortsLegal (go s o)) :
    PortsLegal (s.asOwner p r go) := by
  unfold State.asOwner; split
  · split
    · exact h _
    · exact portsLegal_respond g
  · exact portsLegal_respond g

theorem portsLegal_asHolder {s : State} {p r gen k go} (g : PortsLegal s) (h : ∀ o, PortsLegal (go s o)) :
    PortsLegal (s.asHolder p r gen k go) := by
  unfold State.asHolder; split
  · split
    · split
      · exact h _
      · exact portsLegal_respond g
    · exact portsLegal_respond g
  · exact portsLegal_respond g

end Sys2Proof.Machine
end

