-- ==== Sys2Proof/Laws/Locks.lean ====
section
/-! SUPPORT. What the shared operations keep of the lock table: which leave the locks alone, which keep every lock record legal, and
that no operation but a departure takes a port out of ONLINE. -/

namespace Sys2Proof.Machine

open Sys2Proof

/-! ## Operations that leave the locks alone -/
@[simp] theorem locks_respondDue (s : State) (p x) : (s.respondDue p x).locks = s.locks :=
    by unfold State.respondDue; split <;> rfl

@[simp] theorem locks_appendNotice (s : State) (p n) : (s.appendNotice p n).locks = s.locks :=
    by simp [State.appendNotice]

@[simp] theorem locks_fireNote (s : State) (p n) : (s.fireNote p n).locks = s.locks :=
    by unfold State.fireNote; split <;> simp

@[simp] theorem locks_fireNextNote (s : State) (p) : (s.fireNextNote p).locks = s.locks :=
    by unfold State.fireNextNote; split <;> simp

@[simp] theorem locks_fireNotes (s : State) (p) : (s.fireNotes p).locks = s.locks :=
    foldl_keeps State.locks _ (fun t _ => locks_fireNextNote t p) _ _

@[simp] theorem locks_departTarget (s : State) (p) : (s.departTarget p).locks = s.locks := by
  unfold State.departTarget; dsimp only
  rw [foldl_keeps State.locks _ (fun t q => locks_fireNotes t q), foldl_keeps State.locks _ (fun t q => State.locks_onPort t q _)]; rfl

@[simp] theorem locks_accepting (s : State) (p r) : (s.accepting p r).locks = s.locks := by
  unfold State.accepting; split
  · split <;> rfl
  · split <;> first | rfl | (unfold State.acceptWrite; dsimp only; split <;> rfl)
  · rfl

@[simp] theorem locks_retake (s : State) (p) : (s.retake p).locks = s.locks := by
  unfold State.retake; split
  · split
    · dsimp only; split <;> simp
    · rfl
  · rfl

theorem locks_tagCheck (s : State) (p r go) (h : ∀ t : State, (go t).locks = t.locks) :
    (s.tagCheck p r go).locks = s.locks := by
  unfold State.tagCheck; split
  · rfl
  · split
    · rfl
    · exact h _

@[simp] theorem locks_helloOffline (s : State) (p r a b) : (s.helloOffline p r a b).locks = s.locks := 
  locks_tagCheck _ _ _ _ (fun t => by unfold State.helloFields; split <;> rfl)

@[simp] theorem locks_leaveTest (s : State) (p) : (s.leaveTest p).locks = s.locks := by
  unfold State.leaveTest; split
  · split <;> rfl
  · rfl

@[simp] theorem locks_closingTest (s : State) (p) : (s.closingTest p).locks = s.locks := by
  unfold State.closingTest; split
  · unfold State.retakeHello; split
    · split <;> simp
    · rfl
  · rfl

@[simp] theorem locks_sessionTests (s : State) : s.sessionTests.locks = s.locks :=
    foldl_keeps State.locks _ (fun t p => by simp) _ _

@[simp] theorem locks_raiseRevision (s : State) (p) : (s.raiseRevision p).locks = s.locks := by
  rfl

@[simp] theorem locks_replaceRows (s : State) (l) : (s.replaceRows l).locks = s.locks :=
    foldl_keeps State.locks (fun t (x : Staged) => t.setRow x.row x.content) (fun _ _ => rfl) _ _

@[simp] theorem locks_completeCommit (s : State) : s.completeCommit.locks = s.locks := by
  unfold State.completeCommit; split
  · dsimp only
    rw [foldl_keeps State.locks _ (fun t q => locks_retake t q), foldl_keeps State.locks _ (fun t q => locks_raiseRevision t q)]
    unfold State.answerCommit; split <;> simp
  · rfl

/-! ## Legal lock records -/

/-- A lock record is legal when the ports that `on` names may hold it and wait for it (State.lockLegal). -/
def LockRecord.legalFor (on : Port → Prop) (l : LockRecord) : Prop :=
  (l.queue.map WaitEntry.port).Nodup ∧ (∀ e ∈ l.queue, on e.port) ∧
  match l.phase with
  | .free => l.queue = []
  | .held h => on h.port ∧ (∀ e ∈ l.queue, e.port ≠ h.port) ∧ l.cause = .none ∧
      (h.deadline.isSome = true → l.queue ≠ []) ∧ ∀ x, h.lease = some x → x.remaining ≤ x.duration
  | .releasing _ => True

/-- Every lock record is legal for the ports that `on` names. -/
def LocksLegalFor (on : Port → Prop) (s : State) : Prop := ∀ k, LockRecord.legalFor on (s.lock k)

theorem locksLegalFor_of_locks {on} {s t : State} (h : t.locks = s.locks) (g : LocksLegalFor on s) :
    LocksLegalFor on t := by
  intro k; have := g k; unfold State.lock at *; rwa [h]

theorem locksLegalFor_setLock {on} {s : State} {k l} (g : LocksLegalFor on s) (h : LockRecord.legalFor on l) :
    LocksLegalFor on (s.setLock k l) := by
  intro j; rw [State.lock_setLock]; split
  · exact h
  · exact g j

theorem locksLegal_iff (s : State) : (∀ k, s.lockLegal k) ↔ LocksLegalFor (fun p => (s.port p).session = .online)
    s := by
  unfold LocksLegalFor LockRecord.legalFor State.lockLegal State.queueLegal
  constructor <;> intro h k <;> have := h k
  · exact ⟨this.1.1, this.1.2, this.2⟩
  · exact ⟨⟨this.1, this.2.1⟩, this.2.2⟩

theorem locksLegalFor_askYield {on} {s : State} {k} (g : LocksLegalFor on s) : LocksLegalFor on (s.askYield k) := by
  unfold State.askYield; split
  · rename_i h hp
    split
    · rename_i hc
      refine locksLegalFor_of_locks rfl (locksLegalFor_setLock g ?_)
      have := g k
      unfold LockRecord.legalFor at this ⊢
      rw [hp] at this
      simp at hc
      refine ⟨this.1, this.2.1, this.2.2.1, this.2.2.2.1, this.2.2.2.2.1, ?_, this.2.2.2.2.2.2⟩
      intro _; exact hc.2
    · exact g
  · exact g

/-- A lease that starts has all of its duration left. -/
theorem lease_started (d : Option Nat) : ∀ x, d.map Lease.start = some x → x.remaining ≤ x.duration := by
  intro x hx
  obtain ⟨n, -, rfl⟩ := Option.map_eq_some_iff.mp hx
  exact le_rfl

theorem locksLegalFor_passLock {on} {s : State} {k} (g : LocksLegalFor on s) : LocksLegalFor on (s.passLock k) := by
  have := g k
  unfold State.passLock; split
  · rename_i e rest hq
    refine locksLegalFor_askYield (locksLegalFor_of_locks (s := s.setLock k _) rfl (locksLegalFor_setLock g ?_))
    unfold LockRecord.legalFor at this ⊢
    rw [hq] at this
    obtain ⟨h1, h2, _⟩ := this
    simp only [List.map_cons, List.nodup_cons] at h1
    refine ⟨h1.2, fun x hx => h2 x (List.mem_cons_of_mem _ hx), h2 e (by simp), ?_, rfl, by simp, ?_⟩
    · intro x hx hne; exact h1.1 (List.mem_map.mpr ⟨x, hx, hne⟩)
    · exact lease_started e.lease
  · rename_i hq
    refine locksLegalFor_setLock g ?_
    unfold LockRecord.legalFor at this ⊢
    exact ⟨this.1, this.2.1, hq⟩

theorem locksLegalFor_handoff {on} {s : State} {k} (g : LocksLegalFor on s) : LocksLegalFor on (s.handoff k) := by
  unfold State.handoff; split
  · split
    · exact locksLegalFor_of_locks (locks_respondDue _ _ _) (locksLegalFor_passLock g)
    · exact locksLegalFor_passLock g
  · exact g

theorem locksLegalFor_endGrant {on} {s : State} {k p tag} (h : ∀ j ≠ k, LockRecord.legalFor on (s.lock j))
    (hq : ((s.lock k).queue.map WaitEntry.port).Nodup ∧ ∀ e ∈ (s.lock k).queue, on e.port) :
    LocksLegalFor on (s.endGrant k p tag) := by
  have : LocksLegalFor on (s.setLock k { s.lock k with phase := .releasing { prev := p, watch := (s.port p).writeSeq, tag := tag } }) := by
    intro j; rw [State.lock_setLock]; split
    · exact ⟨hq.1, hq.2, trivial⟩
    · rename_i hj; exact h j hj
  unfold State.endGrant; dsimp only; split
  · exact locksLegalFor_handoff this
  · exact this

theorem locksLegalFor_endGrant' {on} {s : State} {k p tag} (g : LocksLegalFor on s) :
    LocksLegalFor on (s.endGrant k p tag) := locksLegalFor_endGrant (fun j _ => g j) ⟨(g k).1, (g k).2.1⟩

theorem locksLegalFor_revoke {on} {s : State} {k c} (g : LocksLegalFor on s) : LocksLegalFor on (s.revoke k c) := by
  unfold State.revoke; split
  · dsimp only
    have hk := g k
    apply locksLegalFor_endGrant
    · intro j hj
      have : ∀ l, (s.setLock k l).lock j = s.lock j := by intro l; simp [State.lock_setLock, hj]
      split <;> simp [this] <;> exact g j
    · split <;> simp <;> exact ⟨hk.1, hk.2.1⟩
  · exact g

theorem locksLegalFor_releaseByLeave {on} {s : State} {k} (g : LocksLegalFor on s) :
    LocksLegalFor on (s.releaseByLeave k) := by
  unfold State.releaseByLeave; split
  · exact locksLegalFor_endGrant' g
  · exact g

theorem legalFor_removeWaiter {on} {l : LockRecord} (p : Port) (h : LockRecord.legalFor on l) :
    LockRecord.legalFor on (l.removeWaiter p) := by
  obtain ⟨h1, h2, h3⟩ := h
  have n1 : ((l.queue.filter (fun e => e.port != p)).map WaitEntry.port).Nodup :=
      h1.sublist (List.filter_sublist.map _)
  have n2 : ∀ e ∈ l.queue.filter (fun e => e.port != p), on e.port := fun e he => h2 e (List.mem_filter.mp he).1
  unfold LockRecord.removeWaiter
  dsimp only
  split
  · rename_i h hp
    rw [hp] at h3
    refine ⟨n1, n2, ?_⟩
    dsimp only
    have : (if (l.queue.filter (fun e => e.port != p)).isEmpty = true then { h with deadline := none } else h).port =
        h.port := by split <;> rfl
    rw [this]
    refine ⟨h3.1, fun e he => h3.2.1 e (List.mem_filter.mp he).1, h3.2.2.1, ?_, ?_⟩
    · intro hd hq
      rw [hq] at hd; simp at hd
    · intro x hx
      exact h3.2.2.2.2 x (by rw [← hx]; split <;> rfl)
  · rename_i hp
    refine ⟨n1, n2, ?_⟩
    dsimp only
    split
    · rename_i hf; rw [hf] at h3; rw [h3]; rfl
    · rename_i h' hf; exact absurd hf (hp h')
    · trivial

theorem lock_foldl_removeWaiter (p : Port) (ks : List Lock) (hn : ks.Nodup) (s : State) (k : Lock) :
    (ks.foldl (fun t k => t.setLock k ((t.lock k).removeWaiter p)) s).lock k = if k ∈ ks then (s.lock k).removeWaiter
    p else s.lock k := by
  induction ks generalizing s with
  | nil => simp
  | cons a ks ih =>
    simp only [List.nodup_cons] at hn
    simp only [List.foldl_cons]
    rw [ih hn.2]
    simp only [State.lock_setLock, List.mem_cons]
    by_cases h1 : k = a
    · subst h1; simp [hn.1]
    · simp [h1]

theorem lock_removeWaits (s : State) (p : Port) (k : Lock) : (s.removeWaits p).lock k = (s.lock k).removeWaiter p :=
    by
  unfold State.removeWaits
  rw [lock_foldl_removeWaiter _ _ (by decide)]
  rw [if_pos]; revert k; decide

theorem locksLegalFor_removeWaits {on} {s : State} {p} (g : LocksLegalFor on s) :
    LocksLegalFor on (s.removeWaits p) := by
  intro k; rw [lock_removeWaits]; exact legalFor_removeWaiter p (g k)

theorem locksLegalFor_runTask {on} {s : State} {p x} (g : LocksLegalFor on s) : LocksLegalFor on (s.runTask p x) := by
  unfold State.runTask; split
  · exact locksLegalFor_handoff g
  · exact locksLegalFor_of_locks (by simp) g
  · exact locksLegalFor_of_locks (by simp) g
  · exact locksLegalFor_revoke g
  · exact locksLegalFor_releaseByLeave g

theorem locksLegalFor_foldl {α : Type} {on} {f : State → α → State}
    (hf : ∀ s x, LocksLegalFor on s → LocksLegalFor on (f s x)) (l : List α) (s : State) (h : LocksLegalFor on s) :
    LocksLegalFor on (l.foldl f s) := by
  induction l generalizing s with
  | nil => exact h
  | cons x l ih => exact ih _ (hf _ _ h)

theorem locksLegalFor_runTasks {on} {s : State} {p l} (g : LocksLegalFor on s) : LocksLegalFor on (s.runTasks p l) :=
    locksLegalFor_foldl (fun _ _ h => locksLegalFor_runTask h) _ _ (locksLegalFor_of_locks rfl g)

theorem locksLegalFor_closeEvent {on} {s : State} {p l} (g : LocksLegalFor on s) :
    LocksLegalFor on (s.closeEvent p l) := by
  unfold State.closeEvent; dsimp only; split
  · refine locksLegalFor_of_locks (locks_sessionTests _) (locksLegalFor_of_locks (locks_completeCommit _) (locksLegalFor_of_locks (locks_sessionTests _) (locksLegalFor_runTasks ?_)))
    exact locksLegalFor_of_locks rfl g
  · refine locksLegalFor_of_locks (locks_sessionTests _) (locksLegalFor_runTasks ?_)
    exact locksLegalFor_of_locks rfl g

/-! ## Ports that stay ONLINE -/

/-- Every port that is ONLINE before is ONLINE after. -/
def KeepsOnline (s t : State) : Prop := ∀ p, (s.port p).session = .online → (t.port p).session = .online

theorem KeepsOnline.trans {s t u} (a : KeepsOnline s t) (b : KeepsOnline t u) : KeepsOnline s u :=
    fun p h => b p (a p h)

theorem KeepsOnline.refl (s) : KeepsOnline s s := fun _ h => h

theorem keepsOnline_onPort {s : State} {p f} (h : (s.port p).session = .online → (f (s.port p)).session = .online) :
    KeepsOnline s (s.onPort p f) := by
  intro q hq; rw [State.port_onPort]; split
  · subst_vars; exact h hq
  · exact hq

theorem locksLegal_of_keepsOnline {s t : State} (hL : LocksLegalFor (fun p => (s.port p).session = .online) t)
    (hu : KeepsOnline s t) : ∀ k, t.lockLegal k := by
  rw [locksLegal_iff]
  intro k
  obtain ⟨h1, h2, h3⟩ := hL k
  refine ⟨h1, fun e he => hu _ (h2 e he), ?_⟩
  split at h3
  · exact h3
  · exact ⟨hu _ h3.1, h3.2⟩
  · trivial

theorem keepsOnline_ports {s t : State} (h : t.ports = s.ports) : KeepsOnline s t :=
    by intro p hp; unfold State.port at *; rwa [h]

theorem keepsOnline_foldl {α : Type} {f : State → α → State} (hf : ∀ s x, KeepsOnline s (f s x)) (l : List α)
    (s : State) : KeepsOnline s (l.foldl f s) := by
  induction l generalizing s with
  | nil => exact KeepsOnline.refl s
  | cons x l ih => exact (hf s x).trans (ih _)

theorem session_raise (P : PortState) (it) : (P.raise it).session = P.session :=
    by unfold PortState.raise; split <;> rfl

theorem session_record (P : PortState) (r) : (P.record r).session = P.session := by
  unfold PortState.record; split
  · rw [session_raise]; unfold PortState.keepRecord; split <;> rfl
  · rfl

theorem keepsOnline_raise (s : State) (p it) : KeepsOnline s (s.raise p it) :=
    keepsOnline_onPort (fun h => by rw [session_raise]; exact h)

theorem keepsOnline_respond (s : State) (p x) : KeepsOnline s (s.respond p x) := keepsOnline_onPort id

theorem keepsOnline_respondDue (s : State) (p x) : KeepsOnline s (s.respondDue p x) :=
    by unfold State.respondDue; split; exact keepsOnline_respond _ _ _; exact KeepsOnline.refl _

theorem keepsOnline_setLock (s : State) (k l) : KeepsOnline s (s.setLock k l) := keepsOnline_ports rfl

theorem keepsOnline_askYield (s : State) (k) : KeepsOnline s (s.askYield k) := by
  unfold State.askYield; split
  · split
    · exact (keepsOnline_setLock _ _ _).trans (keepsOnline_raise _ _ _)
    · exact KeepsOnline.refl _
  · exact KeepsOnline.refl _

theorem keepsOnline_passLock (s : State) (k) : KeepsOnline s (s.passLock k) := by
  unfold State.passLock; split
  · exact ((keepsOnline_setLock _ _ _).trans (keepsOnline_raise _ _ _)).trans (keepsOnline_askYield _ _)
  · exact keepsOnline_setLock _ _ _

theorem keepsOnline_handoff (s : State) (k) : KeepsOnline s (s.handoff k) := by
  unfold State.handoff; split
  · split
    · exact (keepsOnline_passLock _ _).trans (keepsOnline_respondDue _ _ _)
    · exact keepsOnline_passLock _ _
  · exact KeepsOnline.refl _

theorem keepsOnline_endGrant (s : State) (k p tag) : KeepsOnline s (s.endGrant k p tag) := by
  unfold State.endGrant; dsimp only; split
  · exact (keepsOnline_setLock _ _ _).trans (keepsOnline_handoff _ _)
  · exact keepsOnline_setLock _ _ _

theorem keepsOnline_revoke (s : State) (k c) : KeepsOnline s (s.revoke k c) := by
  unfold State.revoke; split
  · dsimp only; refine KeepsOnline.trans ?_ (keepsOnline_endGrant _ _ _ _); split
    · exact keepsOnline_setLock _ _ _
    · exact (keepsOnline_setLock _ _ _).trans (keepsOnline_raise _ _ _)
  · exact KeepsOnline.refl _

theorem keepsOnline_releaseByLeave (s : State) (k) : KeepsOnline s (s.releaseByLeave k) := by
  unfold State.releaseByLeave; split
  · exact keepsOnline_endGrant _ _ _ _
  · exact KeepsOnline.refl _

theorem keepsOnline_fireNote (s : State) (p n) : KeepsOnline s (s.fireNote p n) := by
  unfold State.fireNote; split
  · exact keepsOnline_respondDue _ _ _
  · unfold State.appendNotice; dsimp only
    refine (KeepsOnline.trans ?_ (keepsOnline_respondDue _ _ _)).trans (keepsOnline_raise _ _ _)
    exact keepsOnline_onPort id

theorem keepsOnline_fireNextNote (s : State) (p) : KeepsOnline s (s.fireNextNote p) := by
  unfold State.fireNextNote; split
  · refine KeepsOnline.trans ?_ (keepsOnline_fireNote _ _ _); exact keepsOnline_onPort id
  · exact KeepsOnline.refl _

theorem keepsOnline_fireNotes (s : State) (p) : KeepsOnline s (s.fireNotes p) :=
    keepsOnline_foldl (fun _ _ => keepsOnline_fireNextNote _ _) _ _

theorem keepsOnline_departTarget (s : State) (p) : KeepsOnline s (s.departTarget p) := by
  unfold State.departTarget; dsimp only
  refine (KeepsOnline.trans ?_ (keepsOnline_foldl (fun _ _ => ?_) _ _)).trans
      (keepsOnline_foldl (fun _ _ => keepsOnline_fireNotes _ _) _ _)
  · exact keepsOnline_onPort id
  · exact keepsOnline_onPort id

theorem keepsOnline_accepting (s : State) (p r) : KeepsOnline s (s.accepting p r) := by
  unfold State.accepting; split
  · split
    · exact keepsOnline_respond _ _ _
    · exact keepsOnline_onPort id
    · exact keepsOnline_onPort id
  · split
    · exact keepsOnline_respond _ _ _
    · exact keepsOnline_onPort id
    · unfold State.acceptWrite; dsimp only; split
      · exact KeepsOnline.trans (keepsOnline_onPort id) (keepsOnline_respond _ _ _)
      · exact keepsOnline_onPort id
  · exact KeepsOnline.refl _

theorem keepsOnline_retake (s : State) (p) : KeepsOnline s (s.retake p) := by
  unfold State.retake; split
  · split
    · dsimp only
      have a : KeepsOnline s (s.onPort p (fun P => { P with hold := none })) := keepsOnline_onPort id
      split
      · exact a.trans (keepsOnline_accepting _ _ _)
      · exact a.trans (keepsOnline_respond _ _ _)
      · exact a.trans (keepsOnline_respond _ _ _)
      · exact a.trans (keepsOnline_respond _ _ _)
    · exact KeepsOnline.refl _
  · exact KeepsOnline.refl _

theorem keepsOnline_leaveTest (s : State) (p) : KeepsOnline s (s.leaveTest p) := by
  unfold State.leaveTest; split
  · split
    · exact keepsOnline_onPort id
    · exact KeepsOnline.refl _
  · exact KeepsOnline.refl _

theorem keepsOnline_tagCheck {s : State} {p r go} (h : ∀ t, KeepsOnline t (go t)) :
    KeepsOnline s (s.tagCheck p r go) := by
  unfold State.tagCheck; split
  · exact keepsOnline_onPort id
  · split
    · exact keepsOnline_onPort (fun h => by rw [session_record]; exact h)
    · exact KeepsOnline.trans (keepsOnline_onPort id) (h _)

theorem keepsOnline_helloOffline (s : State) (p r a b) : KeepsOnline s (s.helloOffline p r a b) := by
  refine keepsOnline_tagCheck (fun t => ?_)
  unfold State.helloFields; split
  · unfold State.startSession; dsimp only
    exact KeepsOnline.trans (keepsOnline_onPort (fun _ => rfl)) (keepsOnline_respond _ _ _)
  · exact keepsOnline_respond _ _ _

theorem keepsOnline_closingTest (s : State) (p) : KeepsOnline s (s.closingTest p) := by
  unfold State.closingTest; split
  · rename_i hc
    simp at hc
    have a : KeepsOnline s (s.onPort p (·.goOffline)) := keepsOnline_onPort (fun h => by simp [h] at hc)
    unfold State.retakeHello; split
    · split
      · refine a.trans (KeepsOnline.trans ?_ (keepsOnline_helloOffline _ _ _ _ _)); exact keepsOnline_onPort id
      · exact a
    · exact a
  · exact KeepsOnline.refl _

theorem keepsOnline_sessionTests (s : State) : KeepsOnline s s.sessionTests :=
    keepsOnline_foldl (fun _ _ => (keepsOnline_leaveTest _ _).trans (keepsOnline_closingTest _ _)) _ _

theorem keepsOnline_raiseRevision (s : State) (p) : KeepsOnline s (s.raiseRevision p) := by
  exact keepsOnline_raise _ _ _

theorem keepsOnline_completeCommit (s : State) : KeepsOnline s s.completeCommit := by
  unfold State.completeCommit; split
  · dsimp only
    refine (KeepsOnline.trans ?_ (keepsOnline_foldl (fun _ _ => keepsOnline_raiseRevision _ _) _ _)).trans
        (keepsOnline_foldl (fun _ _ => keepsOnline_retake _ _) _ _)
    unfold State.answerCommit; split
    · exact keepsOnline_ports (ports_replaceRows _ _)
    · refine KeepsOnline.trans ?_ (keepsOnline_respondDue _ _ _); exact keepsOnline_ports (ports_replaceRows _ _)
  · exact KeepsOnline.refl _

theorem keepsOnline_runTasks (s : State) (p l) : KeepsOnline s (s.runTasks p l) := by
  refine KeepsOnline.trans (t := { s with fresh := s.fresh + l.length }) (keepsOnline_ports rfl) ?_
  refine keepsOnline_foldl (f := fun t x => t.runTask p x) (fun t x => ?_) _ _
  unfold State.runTask; split
  · exact keepsOnline_handoff _ _
  · exact keepsOnline_fireNextNote _ _
  · exact keepsOnline_completeCommit _
  · exact keepsOnline_revoke _ _ _
  · exact keepsOnline_releaseByLeave _ _

theorem keepsOnline_closeEvent (s : State) (p l) : KeepsOnline s (s.closeEvent p l) := by
  unfold State.closeEvent; dsimp only; split
  · refine KeepsOnline.trans ?_ (keepsOnline_sessionTests _)
    refine KeepsOnline.trans ?_ (keepsOnline_completeCommit _)
    refine KeepsOnline.trans ?_ (keepsOnline_sessionTests _)
    refine KeepsOnline.trans (t := { s with fresh := s.fresh + 1 }) (keepsOnline_ports rfl)
        (keepsOnline_runTasks _ _ _)
  · refine KeepsOnline.trans ?_ (keepsOnline_sessionTests _)
    refine KeepsOnline.trans (t := { s with fresh := s.fresh + 1 }) (keepsOnline_ports rfl)
        (keepsOnline_runTasks _ _ _)

/-! ## Free orders -/

/-- A list in a free order is a permutation of it. -/
theorem arrange_perm {α : Type} : ∀ (fuel n : Nat) (l : List α), l.length ≤ fuel → (arrange fuel n l).Perm l
  | 0, _, l, h => by
    have : l = [] := List.length_eq_zero_iff.mp (by omega)
    subst this; simp [arrange]
  | fuel + 1, n, [], _ => by simp [arrange]
  | fuel + 1, n, [x], _ => by simp [arrange]
  | fuel + 1, n, x :: y :: rest, h => by
    unfold arrange
    dsimp only
    generalize hk : Config.choice n % (x :: y :: rest).length = k
    have hlt : k < (x :: y :: rest).length := by rw [← hk]; exact Nat.mod_lt _ (by simp)
    have ih := arrange_perm fuel (n + 1) ((x :: y :: rest).eraseIdx k)
        (by rw [List.length_eraseIdx]; simp only [hlt, if_true]; omega)
    rw [List.getElem?_eq_getElem hlt]
    refine (List.Perm.append_left _ ih).trans ?_
    simpa using (List.getElem_cons_eraseIdx_perm hlt)

end Sys2Proof.Machine
end

