-- ==== Sys2Proof/Laws/Departure.lean ====
section
/-! SUPPORT. What the shared operations keep of the lock invariant, departures among them: when the tasks of a departure have
run, no lock is held by the departing port and no queue names it. -/

namespace Sys2Proof.Machine

open Sys2Proof

/-- Every lock is legal (Sys2Proof/Safety.lean). -/
def LocksLegal (s : State) : Prop := ∀ k, s.lockLegal k

theorem locksLegal_step {s t : State} (hl : ∀ on, LocksLegalFor on s → LocksLegalFor on t) (hu : KeepsOnline s t)
    (h : LocksLegal s) : LocksLegal t :=
  locksLegal_of_keepsOnline (hl _ ((locksLegal_iff s).mp h)) hu

theorem locksLegal_locks {s t : State} (hl : t.locks = s.locks) (hu : KeepsOnline s t) (h : LocksLegal s) :
    LocksLegal t := locksLegal_step (fun _ => locksLegalFor_of_locks hl) hu h

theorem locksLegal_onPort {s : State} {p f} (h : LocksLegal s)
    (hf : (s.port p).session = .online → (f (s.port p)).session = .online) : LocksLegal (s.onPort p f) :=
  locksLegal_locks (s := s) rfl (keepsOnline_onPort hf) h

theorem locksLegal_keep {s : State} {p f} (h : LocksLegal s) (hf : (f (s.port p)).session = (s.port p).session) :
    LocksLegal (s.onPort p f) := locksLegal_onPort h (fun e => hf.trans e)

theorem locksLegal_respond {s : State} {p x} (h : LocksLegal s) : LocksLegal (s.respond p x) := locksLegal_keep h rfl

theorem locksLegal_respondDue {s : State} {p x} (h : LocksLegal s) : LocksLegal (s.respondDue p x) :=
    locksLegal_locks (by simp) (keepsOnline_respondDue _ _ _) h

theorem locksLegal_raise {s : State} {p x} (h : LocksLegal s) : LocksLegal (s.raise p x) :=
    locksLegal_keep h (session_raise _ _)

theorem locksLegal_setLock {s : State} {k l} (h : LocksLegal s)
    (hl : LockRecord.legalFor (fun p => (s.port p).session = .online) l) : LocksLegal (s.setLock k l) := by
  have := locksLegalFor_setLock (k := k) ((locksLegal_iff s).mp h) hl
  exact locksLegal_of_keepsOnline this (keepsOnline_setLock _ _ _)

theorem locksLegal_rec {s : State} (h : LocksLegal s) (k) :
    LockRecord.legalFor (fun p => (s.port p).session = .online) (s.lock k) := (locksLegal_iff s).mp h k

theorem locksLegal_ports_locks {s t : State} (h1 : t.ports = s.ports) (h2 : t.locks = s.locks) (h : LocksLegal s) :
    LocksLegal t := locksLegal_locks h2 (keepsOnline_ports h1) h

theorem locksLegal_tagCheck {s : State} {p r go} (h : LocksLegal s)
    (hgo : ∀ t, LocksLegal t → (t.port p).session = (s.port p).session → LocksLegal (go t)) :
    LocksLegal (s.tagCheck p r go) := by
  unfold State.tagCheck; split
  · exact locksLegal_keep h rfl
  · split
    · exact locksLegal_keep h (session_record _ _)
    · exact hgo _ (locksLegal_keep h rfl) (by simp)

theorem locksLegal_request {s : State} {p r go} (h : LocksLegal s)
    (hgo : ∀ t, LocksLegal t → (t.port p).session = .online → LocksLegal (go t)) : LocksLegal (s.request p r go) := by
  unfold State.request; split
  · have h1 : LocksLegal (s.taken p) := locksLegal_keep h rfl
    unfold State.sessionCheck; split
    · exact locksLegal_keep h1 rfl
    · exact locksLegal_keep h1 rfl
    · exact locksLegal_keep h1 rfl
    · rename_i ho
      exact locksLegal_tagCheck h1 (fun t ht hs => hgo t ht (hs.trans ho))
  · exact h

theorem locksLegal_leaveDrain {s : State} {p r} (h : LocksLegal s) : LocksLegal (s.leaveDrain p r) := by
  unfold State.leaveDrain; split
  · exact locksLegal_ports_locks rfl rfl h
  · exact h

theorem locksLegal_noticeFailures {s : State} {e} (h : LocksLegal s) : LocksLegal (s.noticeFailures e) := by
  unfold State.noticeFailures
  generalize e.guards = l
  induction l generalizing s with
  | nil => exact h
  | cons g l ih => exact ih (locksLegal_setLock h (locksLegal_rec h _))

theorem locksLegal_finishRead {s : State} {p e} (h : LocksLegal s) : LocksLegal (s.finishRead p e) :=
    locksLegal_leaveDrain (locksLegal_respondDue (locksLegal_keep h rfl))

theorem locksLegal_finishWrite {s : State} {p e} (h : LocksLegal s) : LocksLegal (s.finishWrite p e) := by
  unfold State.finishWrite
  refine locksLegal_leaveDrain (locksLegal_keep ?_ rfl)
  unfold State.writeReport; dsimp only
  have ga : LocksLegal (s.onPort p (·.onWrite e.seq (fun x => { x with completed := true }))) := locksLegal_keep h rfl
  cases hf : e.failed <;> cases hp : e.posted <;> simp only [if_true, Bool.false_eq_true, if_false]
  · exact locksLegal_respondDue ga
  · exact ga
  · exact locksLegal_noticeFailures (locksLegal_respondDue ga)
  · exact locksLegal_keep (locksLegal_noticeFailures ga) (session_record _ _)

theorem locksLegal_closeEvent {s : State} {p l} (h : LocksLegal s) : LocksLegal (s.closeEvent p l) :=
    locksLegal_step (fun _ => locksLegalFor_closeEvent) (keepsOnline_closeEvent _ _ _) h

theorem locksLegal_endPiece {s : State} {j e} (g : LocksLegal s) : LocksLegal (s.endPiece j e) := by
  unfold State.endPiece; split
  · split
    · dsimp only; split
      · exact locksLegal_closeEvent (locksLegal_finishWrite (locksLegal_keep g rfl))
      · exact locksLegal_keep g rfl
    · exact g
  · split
    · dsimp only; split
      · exact locksLegal_closeEvent (locksLegal_finishRead (locksLegal_keep g rfl))
      · exact locksLegal_keep g rfl
    · exact g

theorem locksLegal_endJob {s : State} {n j e} (g : LocksLegal s) : LocksLegal (s.endJob n j e) :=
    locksLegal_endPiece (locksLegal_ports_locks rfl rfl g)

/-! ## Departures -/
theorem locksLegalFor_mono {on on' : Port → Prop} {s : State} (h : LocksLegalFor on s)
    (hq : ∀ k, (∀ e ∈ (s.lock k).queue, on' e.port) ∧ ∀ h, (s.lock k).phase = .held h → on' h.port) :
    LocksLegalFor on' s := by
  intro k
  obtain ⟨a, b, c⟩ := h k
  refine ⟨a, (hq k).1, ?_⟩
  have := (hq k).2
  split at c
  · exact c
  · rename_i h' hp; rw [hp] at this; exact ⟨this h' rfl, c.2⟩
  · trivial

theorem lock_askYield_ne (s : State) (k j) (h : j ≠ k) : (s.askYield k).lock j = s.lock j := by
  unfold State.askYield; split
  · split
    · simp [State.lock_setLock, h]
    · rfl
  · rfl

theorem lock_handoff_ne (s : State) (k j) (h : j ≠ k) : (s.handoff k).lock j = s.lock j := by
  have hp : (s.passLock k).lock j = s.lock j := by
    unfold State.passLock; split
    · rw [lock_askYield_ne _ _ _ h]; simp [State.lock_setLock, h]
    · simp [State.lock_setLock, h]
  unfold State.handoff; split
  · split
    · rw [← hp]; unfold State.lock; rw [locks_respondDue]
    · exact hp
  · rfl

theorem lock_endGrant_ne (s : State) (k j p t) (h : j ≠ k) : (s.endGrant k p t).lock j = s.lock j := by
  unfold State.endGrant; dsimp only; split
  · rw [lock_handoff_ne _ _ _ h]; simp [State.lock_setLock, h]
  · simp [State.lock_setLock, h]

theorem lock_release_ne (s : State) (k j) (h : j ≠ k) : (s.releaseByLeave k).lock j = s.lock j := by
  unfold State.releaseByLeave; split
  · exact lock_endGrant_ne _ _ _ _ _ h
  · rfl

theorem lock_revoke_ne (s : State) (k j c) (h : j ≠ k) : (s.revoke k c).lock j = s.lock j := by
  unfold State.revoke; split
  · dsimp only; rw [lock_endGrant_ne _ _ _ _ _ h]; split <;> simp [State.lock_setLock, h]
  · rfl

/-- A handoff of a RELEASING lock grants it to a former waiter only. -/
theorem handoff_held (s : State) (k) (r) (hr : (s.lock k).phase = .releasing r) (h)
    (hh : ((s.handoff k).lock k).phase = .held h) : ∃ e ∈ (s.lock k).queue, e.port = h.port := by
  have hl : (s.handoff k).lock k = (s.passLock k).lock k := by
    unfold State.handoff; rw [hr]; dsimp only; split
    · unfold State.lock; rw [locks_respondDue]
    · rfl
  rw [hl] at hh
  unfold State.passLock at hh
  split at hh
  · rename_i e rest hq
    refine ⟨e, by rw [hq]; simp, ?_⟩
    unfold State.askYield at hh
    simp only [State.lock_raise, State.lock_setLock_same, LockRecord.granted] at hh
    split at hh
    · simp at hh; rw [← hh]
    · simp at hh; rw [← hh]
  · simp at hh

theorem endGrant_held (s : State) (k p t) (h) (hh : ((s.endGrant k p t).lock k).phase = .held h) :
    ∃ e ∈ (s.lock k).queue, e.port = h.port := by
  unfold State.endGrant at hh; dsimp only at hh; split at hh
  · have := handoff_held _ _ _ (by simp; rfl) _ hh
    simpa using this
  · simp at hh

theorem holds_iff {s : State} {p k} : s.holds p k = true ↔ ∃ h, (s.lock k).phase = .held h ∧ h.port = p := by
  unfold State.holds; split
  · rename_i h e; simp [e]
  · rename_i e; simp; intro h hh; exact absurd hh (e h)

/-- A task of a departure for each lock: it touches no other lock and leaves its own to a former waiter or to nobody.
    -/
structure EndsGrants (q : Port) (mk : Lock → Task) : Prop where
  inj : ∀ a b, mk a = mk b → a = b
  ncommit : ∀ a, mk a ≠ .commit
  ne : ∀ (s : State) k j, j ≠ k → (s.runTask q (mk k)).lock j = s.lock j
  held : ∀ (s : State) k h0, (s.lock k).phase = .held h0 → ∀ h, ((s.runTask q (mk k)).lock k).phase = .held h →
      ∃ e ∈ (s.lock k).queue, e.port = h.port

theorem endsGrants_release (q) : EndsGrants q .release := by
  refine ⟨by simp, by simp, fun s k j h => lock_release_ne s k j h, fun s k h0 h1 h hh => ?_⟩
  change ((s.releaseByLeave k).lock k).phase = _ at hh
  unfold State.releaseByLeave at hh; rw [h1] at hh
  exact endGrant_held _ _ _ _ _ hh

theorem endsGrants_revoke (q) : EndsGrants q .revoke := by
  refine ⟨by simp, by simp, fun s k j h => lock_revoke_ne s k j _ h, fun s k h0 h1 h hh => ?_⟩
  change ((s.revoke k _).lock k).phase = _ at hh
  unfold State.revoke at hh; rw [h1] at hh
  dsimp only at hh
  have := endGrant_held _ _ _ _ _ hh
  simpa using this

/-- The tasks that remain name just the locks the port still holds. -/
def GrantsLeft (p : Port) (mk : Lock → Task) (rem : List Task) (s : State) : Prop :=
  rem.Nodup ∧ (∀ x ∈ rem, (∃ k, x = mk k) ∨ x = .commit) ∧ ∀ k, s.holds p k = true ↔ mk k ∈ rem

theorem grantsLeft_step {on} {s : State} {p q : Port} {mk} (d : EndsGrants q mk) {x : Task} {rem}
    (g : LocksLegalFor on s) (h : GrantsLeft p mk (x :: rem) s) : GrantsLeft p mk rem (s.runTask q x) := by
  obtain ⟨hn, hx, hh⟩ := h
  rw [List.nodup_cons] at hn
  refine ⟨hn.2, fun y hy => hx y (by simp [hy]), fun j => ?_⟩
  rcases hx x (by simp) with ⟨k, rfl⟩ | rfl
  · by_cases e : j = k
    · subst e
      have hk : s.holds p j = true := (hh j).mpr (by simp)
      obtain ⟨h0, hp0, rfl⟩ := holds_iff.mp hk
      constructor
      · intro hj
        obtain ⟨h', hp, hpp⟩ := holds_iff.mp hj
        obtain ⟨e, he, hpe⟩ := d.held _ _ _ hp0 _ hp
        have := (g j).2.2; rw [hp0] at this
        exact absurd (hpe.trans hpp) (this.2.1 e he)
      · intro hj; exact absurd hj hn.1
    · have : (s.runTask q (mk k)).holds p j = s.holds p j := by unfold State.holds; rw [d.ne _ _ _ e]
      rw [this, hh j]; simp only [List.mem_cons]
      constructor
      · rintro (h | h)
        · exact absurd (d.inj _ _ h) e
        · exact h
      · exact .inr
  · have : (s.runTask q .commit).holds p j = s.holds p j := by
      unfold State.holds State.lock; simp [State.runTask]
    rw [this, hh j]; simp only [List.mem_cons]
    constructor
    · rintro (h | h)
      · exact absurd h (d.ncommit _)
      · exact h
    · exact .inr

theorem grantsLeft_fold {on} {p q : Port} {mk} (d : EndsGrants q mk) (l : List Task) (s : State)
    (g : LocksLegalFor on s) (h : GrantsLeft p mk l s) : ∀ k,
    (l.foldl (fun t x => t.runTask q x) s).holds p k = false := by
  induction l generalizing s with
  | nil => intro k; have := (h.2.2 k); rw [← Bool.not_eq_true]; simp only [List.foldl_nil]; rw [this]; simp
  | cons x l ih => exact ih _ (locksLegalFor_runTask g) (grantsLeft_step d g h)

theorem allLocks_nodup : allLocks.Nodup := by decide

theorem mem_allLocks (k : Lock) : k ∈ allLocks := by revert k; decide

theorem grantsLeft_init {p mk q} (d : EndsGrants q mk) (s : State) (extra : List Task)
    (he : extra = [] ∨ extra = [.commit]) : GrantsLeft p mk ((s.heldLocks p).map mk ++ extra) s := by
  have hn : (s.heldLocks p).Nodup := allLocks_nodup.filter _
  refine ⟨?_, ?_, ?_⟩
  · rw [List.nodup_append]
    refine ⟨hn.map (fun a b h => d.inj a b h), by rcases he with rfl | rfl <;> simp, ?_⟩
    intro a ha b hb
    obtain ⟨k, _, rfl⟩ := List.mem_map.mp ha
    rcases he with rfl | rfl
    · simp at hb
    · simp at hb; subst hb; exact d.ncommit k
  · intro x hx
    rcases List.mem_append.mp hx with h | h
    · obtain ⟨k, _, rfl⟩ := List.mem_map.mp h; exact .inl ⟨k, rfl⟩
    · rcases he with rfl | rfl
      · simp at h
      · simp at h; exact .inr h
  · intro k
    rw [List.mem_append]
    constructor
    · intro h; left; exact List.mem_map.mpr ⟨k, by simp [State.heldLocks, mem_allLocks, h], rfl⟩
    · rintro (h | h)
      · obtain ⟨k', hk', e⟩ := List.mem_map.mp h
        rw [d.inj _ _ e] at hk'
        simpa [State.heldLocks, mem_allLocks] using hk'
      · rcases he with rfl | rfl
        · simp at h
        · simp at h; exact absurd h (d.ncommit k)

theorem holds_runTasks_departing {on} {p mk} (d : EndsGrants p mk) (s : State) (extra : List Task)
    (he : extra = [] ∨ extra = [.commit]) (g : LocksLegalFor on s) :
   ∀ k, (s.runTasks p ((s.heldLocks p).map mk ++ extra)).holds p k = false := by
  unfold State.runTasks State.arranged
  dsimp only
  have hp := arrange_perm (((s.heldLocks p).map mk ++ extra)).length s.fresh ((s.heldLocks p).map mk ++ extra) le_rfl
  refine grantsLeft_fold (on := on) d _ _ (locksLegalFor_of_locks rfl g) ?_
  obtain ⟨a, b, c⟩ := grantsLeft_init d s extra he
  exact ⟨hp.nodup_iff.mpr a, fun x hx => b x (hp.mem_iff.mp hx), fun k => by rw [hp.mem_iff]; exact c k⟩

/-- Once the tasks have run and the wait entries are gone, no lock names the departing port. -/
theorem locksLegalFor_departed {on} {p mk} (d : EndsGrants p mk) (s : State) (extra : List Task)
    (he : extra = [] ∨ extra = [.commit]) (g : LocksLegalFor on s) :
   LocksLegalFor (fun q => on q ∧ q ≠ p) ((s.runTasks p ((s.heldLocks p).map mk ++ extra)).removeWaits p) := by
  have h1 := holds_runTasks_departing d s extra he g
  have h2 := locksLegalFor_runTasks (p := p) (l := ((s.heldLocks p).map mk ++ extra)) g
  refine locksLegalFor_mono (locksLegalFor_removeWaits h2) (fun k => ?_)
  have h3 := (locksLegalFor_removeWaits (p := p) h2) k
  rw [lock_removeWaits] at h3 ⊢
  constructor
  · intro e he
    refine ⟨h3.2.1 e he, ?_⟩
    have : e ∈ ((s.runTasks p ((s.heldLocks p).map mk ++ extra)).lock k).queue.filter (fun e => e.port != p) := by
      unfold LockRecord.removeWaiter at he; dsimp only at he; split at he <;> exact he
    simpa using (List.mem_filter.mp this).2
  · intro h hp
    have h4 := h3.2.2; rw [hp] at h4
    refine ⟨h4.1, ?_⟩
    rintro rfl
    have hk := h1 k
    rw [← Bool.not_eq_true] at hk; apply hk
    rw [holds_iff]
    unfold LockRecord.removeWaiter at hp; dsimp only at hp
    split at hp
    · rename_i h0 hp0
      refine ⟨h0, hp0, ?_⟩
      simp at hp
      have := congrArg Holder.port hp
      split at this <;> simpa using this
    · rename_i hn; exact absurd hp (hn _)

theorem locksLegal_edit {s : State} {e} (g : LocksLegal s) : LocksLegal { s with edit := e } :=
    locksLegal_ports_locks rfl rfl g

theorem locksLegal_leaveEvent {s : State} {p tag} (g : LocksLegal s) : LocksLegal (s.leaveEvent p tag) := by
  unfold State.leaveEvent; dsimp only
  have g1 : LocksLegalFor (fun q => (s.port q).session = .online) (s.onPort p (·.startLeave tag)) :=
      locksLegalFor_of_locks rfl ((locksLegal_iff s).mp g)
  have c := locksLegalFor_departed (endsGrants_release p) _ [] (.inl rfl) g1
  have ses : ∀ q, (s.port q).session = .online ∧ q ≠ p →
      ((s.onPort p (·.startLeave tag)).port q).session = .online := by
    rintro q ⟨h, hq⟩; rw [State.port_onPort_ne _ _ hq]; exact h
  rw [List.append_nil] at c
  generalize (s.onPort p (·.startLeave tag)) = s1 at *
  have up := keepsOnline_runTasks s1 p ((s1.heldLocks p).map .release)
  generalize (s1.runTasks p ((s1.heldLocks p).map .release)) = s2 at *
  have up2 : KeepsOnline s2 (s2.removeWaits p) :=
      keepsOnline_ports (foldl_keeps State.ports (fun t k => t.setLock k ((t.lock k).removeWaiter p))
      (fun _ _ => rfl) _ _)
  refine locksLegal_locks (locks_sessionTests _) (keepsOnline_sessionTests _) ?_
  refine locksLegal_locks (locks_departTarget _ _) (keepsOnline_departTarget _ _) ?_
  generalize s2.removeWaits p = s3 at *
  have c' : LocksLegalFor (fun q => (s3.port q).session = .online) s3 := by
    refine locksLegalFor_mono c (fun k => ?_)
    have := c k
    refine ⟨fun e he => up2 _ (up _ (ses _ (this.2.1 e he))), fun h hp => ?_⟩
    have t := this.2.2; rw [hp] at t
    exact up2 _ (up _ (ses _ t.1))
  exact locksLegal_edit ((locksLegal_iff _).mpr c')

theorem locks_dropReads (s : State) (p l) : (s.dropReads p l).locks = s.locks := 
  foldl_keeps State.locks (fun t (e : ReadEntry) => t.leaveDrain p (.read e.tag))
      (fun t e => by unfold State.leaveDrain; split <;> rfl) _ _

theorem ports_dropReads (s : State) (p l) : (s.dropReads p l).ports = s.ports := 
  foldl_keeps State.ports (fun t (e : ReadEntry) => t.leaveDrain p (.read e.tag))
      (fun t e => by unfold State.leaveDrain; split <;> rfl) _ _

theorem locksLegal_dropNotes {s : State} {p} (g : LocksLegal s) : LocksLegal (s.dropNotes p) := locksLegal_keep g rfl

theorem locksLegal_linkLossEvent {s : State} {p} (g : LocksLegal s) : LocksLegal (s.linkLossEvent p) := by
  unfold State.linkLossEvent; dsimp only
  have g0 : LocksLegalFor (fun q => (s.port q).session = .online) (s.onPort p (·.loseLink)) :=
      locksLegalFor_of_locks (s := s) rfl ((locksLegal_iff s).mp g)
  have ses0 : ∀ q, (s.port q).session = .online ∧ q ≠ p → ((s.onPort p (·.loseLink)).port q).session = .online := by
    rintro q ⟨h, hq⟩; rw [State.port_onPort_ne _ _ hq]; exact h
  generalize (s.onPort p (·.loseLink)) = s0 at *
  have g1 : LocksLegalFor (fun q => (s.port q).session = .online)
      (s0.dropReads p ((s.port p).readL.filter (fun e => !e.survives))) :=
      locksLegalFor_of_locks (locks_dropReads _ _ _) g0
  have ses : ∀ q, (s.port q).session = .online ∧ q ≠ p →
      ((s0.dropReads p ((s.port p).readL.filter (fun e => !e.survives))).port q).session = .online := by
    intro q hq; have := ses0 q hq; unfold State.port at *; rw [ports_dropReads]; exact this
  generalize (s0.dropReads p ((s.port p).readL.filter (fun e => !e.survives))) = s1 at *
  have c := locksLegalFor_departed (endsGrants_revoke p) _ (if s1.commitDue then [.commit] else [])
      (by split <;> simp) g1
  have up := keepsOnline_runTasks s1 p ((s1.heldLocks p).map .revoke ++ if s1.commitDue then [.commit] else [])
  generalize (s1.runTasks p ((s1.heldLocks p).map .revoke ++ if s1.commitDue then [.commit] else [])) = s2 at *
  have up2 : KeepsOnline s2 (s2.removeWaits p) :=
      keepsOnline_ports (foldl_keeps State.ports (fun t k => t.setLock k ((t.lock k).removeWaiter p))
      (fun _ _ => rfl) _ _)
  refine locksLegal_locks (locks_sessionTests _) (keepsOnline_sessionTests _) ?_
  refine locksLegal_dropNotes ?_
  refine locksLegal_locks (locks_departTarget _ _) (keepsOnline_departTarget _ _) ?_
  generalize s2.removeWaits p = s3 at *
  have c' : LocksLegalFor (fun q => (s3.port q).session = .online) s3 := by
    refine locksLegalFor_mono c (fun k => ?_)
    have := c k
    refine ⟨fun e he => up2 _ (up _ (ses _ (this.2.1 e he))), fun h hp => ?_⟩
    have t := this.2.2; rw [hp] at t
    exact up2 _ (up _ (ses _ t.1))
  exact locksLegal_edit ((locksLegal_iff _).mpr c')

theorem locksLegal_withLock {s : State} {p r l go} (g : LocksLegal s) (h : ∀ k, LocksLegal (go s k)) :
    LocksLegal (s.withLock p r l go) := by
  unfold State.withLock; split
  · exact h _
  · exact locksLegal_respond g

theorem locksLegal_asOwner {s : State} {p r go} (g : LocksLegal s) (h : ∀ o, LocksLegal (go s o)) :
    LocksLegal (s.asOwner p r go) := by
  unfold State.asOwner; split
  · split
    · exact h _
    · exact locksLegal_respond g
  · exact locksLegal_respond g

theorem locksLegal_asHolder {s : State} {p r gen k go} (g : LocksLegal s)
    (h : ∀ o, (s.lock k).phase = .held o → LocksLegal (go s o)) : LocksLegal (s.asHolder p r gen k go) := by
  unfold State.asHolder; split
  · split
    · split
      · exact h _ ‹_›
      · exact locksLegal_respond g
    · exact locksLegal_respond g
  · exact locksLegal_respond g

theorem locksLegal_fresh {s : State} {e} (g : LocksLegal s) : LocksLegal { s with fresh := e } :=
    locksLegal_ports_locks rfl rfl g

theorem locksLegal_sub {s : State} (g : LocksLegal s) (p r) (index : Byte) (v) :
    LocksLegal (s.writeSubscribe p r index v) := by
  have hs : ∀ P : PortState, (P.subscribe v).session = P.session := by
    intro P; unfold PortState.subscribe PortState.setSubFault PortState.setSubRev
    dsimp only
    split <;> (try split) <;> (try split) <;> simp [session_raise, PortState.withdraw]
  unfold State.writeSubscribe; split
  · exact locksLegal_respond g
  · split
    · exact locksLegal_respond (locksLegal_keep g (hs _))
    · exact locksLegal_respond g

theorem locksLegal_glob {s : State} (g : LocksLegal s) (p r) (item index : Byte) (v : Word) :
    LocksLegal (s.writeGlobal p r item index v) := by
  unfold State.writeGlobal; split
  · exact locksLegal_respond g
  · split
    · exact locksLegal_respond (locksLegal_ports_locks rfl rfl g)
    · exact locksLegal_respond g

theorem locksLegal_configWrite {s : State} (g : LocksLegal s) (p r) (item index : Byte) (v : Word) :
    LocksLegal (s.configWrite p r item index v) := by
  unfold State.configWrite; split
  · exact locksLegal_sub g _ _ _ _
  · split
    · exact locksLegal_glob g _ _ _ _ _
    · exact locksLegal_respond g

theorem locksLegal_reset {s : State} (t : State) (h : t.locks = s.toReset.locks) : LocksLegal t := by
  intro k
  have : t.lock k = LockRecord.reset := by unfold State.lock; rw [h]; simp [State.toReset, State.reset, Vector.get_eq_getElem]
  unfold State.lockLegal State.queueLegal; rw [this]
  simp [LockRecord.reset]

end Sys2Proof.Machine
end

