-- ==== Sys2Proof/Laws/Events.lean ====
section
/-! SUPPORT. What the end of an event leaves of a port's own record: everything but tags, items, reservations, notices and
the pending LEAVE is kept, and the responses queued before stand in front of the new ones. A commit's completion and a
CLOSING port's becoming OFFLINE are the exceptions. -/

namespace Sys2Proof.Machine

open Sys2Proof

/-- The parts of a port's record that no handoff, fired notification, revocation or LEAVE response touches. -/
def PortState.kept (P : PortState) :=
  (P.link, P.session, P.sessionNo, P.intake, P.places, P.hold, P.writeQ, P.readL, P.writeSeq, P.watermark, P.subRev,
    P.subFault, P.faults, P.lost, P.tx)

/-- The port's record has kept these parts, and its response queue has only grown at its end. -/
def GrownAt (p : Port) (s t : State) : Prop :=
  (t.port p).kept = (s.port p).kept ∧ (s.port p).respQ <+: (t.port p).respQ

/-- The same, the pending LEAVE is as before too, and no tag has been entered. -/
def StaysAt (p : Port) (s t : State) : Prop :=
  GrownAt p s t ∧ (t.port p).pendingLeave = (s.port p).pendingLeave ∧ (t.port p).tags ⊆ (s.port p).tags

/-! ## What is kept -/

section

variable {P Q : PortState} (h : Q.kept = P.kept)
include h

theorem kept_link : Q.link = P.link := congrArg (·.1) h
theorem kept_session : Q.session = P.session := congrArg (·.2.1) h
theorem kept_sessionNo : Q.sessionNo = P.sessionNo := congrArg (·.2.2.1) h
theorem kept_intake : Q.intake = P.intake := congrArg (·.2.2.2.1) h
theorem kept_places : Q.places = P.places := congrArg (·.2.2.2.2.1) h
theorem kept_hold : Q.hold = P.hold := congrArg (·.2.2.2.2.2.1) h
theorem kept_writeQ : Q.writeQ = P.writeQ := congrArg (·.2.2.2.2.2.2.1) h
theorem kept_readL : Q.readL = P.readL := congrArg (·.2.2.2.2.2.2.2.1) h
theorem kept_writeSeq : Q.writeSeq = P.writeSeq := congrArg (·.2.2.2.2.2.2.2.2.1) h
theorem kept_watermark : Q.watermark = P.watermark := congrArg (·.2.2.2.2.2.2.2.2.2.1) h
theorem kept_faults : Q.faults = P.faults := congrArg (·.2.2.2.2.2.2.2.2.2.2.2.2.1) h
theorem kept_lost : Q.lost = P.lost := congrArg (·.2.2.2.2.2.2.2.2.2.2.2.2.2.1) h

end

theorem staysAt_refl (p : Port) (s : State) : StaysAt p s s :=
  ⟨⟨rfl, List.prefix_rfl⟩, rfl, List.Subset.refl _⟩

theorem StaysAt.trans {p : Port} {s t u : State} (a : StaysAt p s t) (b : StaysAt p t u) : StaysAt p s u :=
  ⟨⟨b.1.1.trans a.1.1, a.1.2.trans b.1.2⟩, b.2.1.trans a.2.1, fun _ h => a.2.2 (b.2.2 h)⟩

theorem staysAt_ports {p : Port} {s t : State} (h : t.ports = s.ports) : StaysAt p s t := by
  unfold StaysAt GrownAt State.port; rw [h]; exact ⟨⟨rfl, List.prefix_rfl⟩, rfl, List.Subset.refl _⟩

theorem staysAt_onPort {p : Port} (s : State) (q : Port) (f : PortState → PortState)
    (h : (f (s.port q)).kept = (s.port q).kept) (hr : (s.port q).respQ <+: (f (s.port q)).respQ)
    (hp : (f (s.port q)).pendingLeave = (s.port q).pendingLeave) (ht : (f (s.port q)).tags ⊆ (s.port q).tags) :
    StaysAt p s (s.onPort q f) := by
  unfold StaysAt GrownAt; rw [State.port_onPort]; split
  · subst_vars; exact ⟨⟨h, hr⟩, hp, ht⟩
  · exact ⟨⟨rfl, List.prefix_rfl⟩, rfl, List.Subset.refl _⟩

theorem staysAt_foldl {α : Type} {p : Port} {f : State → α → State} (hf : ∀ s x, StaysAt p s (f s x)) (l : List α)
    (s : State) : StaysAt p s (l.foldl f s) := by
  induction l generalizing s with
  | nil => exact staysAt_refl p s
  | cons x l ih => exact (hf s x).trans (ih _)

/-! ## Operations -/

theorem kept_raise (P : PortState) (it : Item) :
    (P.raise it).kept = P.kept ∧ (P.raise it).respQ = P.respQ ∧ (P.raise it).pendingLeave = P.pendingLeave ∧
      (P.raise it).tags = P.tags := by
  unfold PortState.raise; split <;> exact ⟨rfl, rfl, rfl, rfl⟩

theorem staysAt_raise (p : Port) (s : State) (q : Port) (it : Item) : StaysAt p s (s.raise q it) :=
  staysAt_onPort s q _ (kept_raise _ _).1 (by rw [(kept_raise _ _).2.1]) (kept_raise _ _).2.2.1
    (by rw [(kept_raise _ _).2.2.2]; exact List.Subset.refl _)

theorem staysAt_respond (p : Port) (s : State) (q : Port) (x : Response) : StaysAt p s (s.respond q x) :=
  staysAt_onPort s q _ rfl (List.prefix_append _ _) rfl (List.filter_subset_self _)

theorem staysAt_respondDue (p : Port) (s : State) (q : Port) (x : Response) : StaysAt p s (s.respondDue q x) := by
  unfold State.respondDue; split
  · exact staysAt_respond p s q x
  · exact staysAt_refl p s

theorem staysAt_setLock (p : Port) (s : State) (k : Lock) (l : LockRecord) : StaysAt p s (s.setLock k l) :=
  staysAt_ports rfl

theorem staysAt_askYield (p : Port) (s : State) (k : Lock) : StaysAt p s (s.askYield k) := by
  unfold State.askYield; split
  · split
    · exact (staysAt_setLock p _ _ _).trans (staysAt_raise p _ _ _)
    · exact staysAt_refl p s
  · exact staysAt_refl p s

theorem staysAt_passLock (p : Port) (s : State) (k : Lock) : StaysAt p s (s.passLock k) := by
  unfold State.passLock; split
  · exact ((staysAt_setLock p _ _ _).trans (staysAt_raise p _ _ _)).trans (staysAt_askYield p _ _)
  · exact staysAt_setLock p _ _ _

theorem staysAt_handoff (p : Port) (s : State) (k : Lock) : StaysAt p s (s.handoff k) := by
  unfold State.handoff; split
  · split
    · exact (staysAt_passLock p _ _).trans (staysAt_respondDue p _ _ _)
    · exact staysAt_passLock p _ _
  · exact staysAt_refl p s

theorem staysAt_endGrant (p : Port) (s : State) (k : Lock) (q : Port) (tag : Option Byte) :
    StaysAt p s (s.endGrant k q tag) := by
  unfold State.endGrant; dsimp only; split
  · exact (staysAt_setLock p _ _ _).trans (staysAt_handoff p _ _)
  · exact staysAt_setLock p _ _ _

theorem staysAt_revoke (p : Port) (s : State) (k : Lock) (c : BreakCause) : StaysAt p s (s.revoke k c) := by
  unfold State.revoke; split
  · dsimp only; refine StaysAt.trans ?_ (staysAt_endGrant p _ _ _ _); split
    · exact staysAt_setLock p _ _ _
    · exact (staysAt_setLock p _ _ _).trans (staysAt_raise p _ _ _)
  · exact staysAt_refl p s

theorem staysAt_releaseByLeave (p : Port) (s : State) (k : Lock) : StaysAt p s (s.releaseByLeave k) := by
  unfold State.releaseByLeave; split
  · exact staysAt_endGrant p _ _ _ _
  · exact staysAt_refl p s

theorem staysAt_removeWaits (p : Port) (s : State) (q : Port) : StaysAt p s (s.removeWaits q) :=
  staysAt_foldl (fun _ _ => staysAt_setLock p _ _ _) _ _

theorem staysAt_noticeFailures (p : Port) (s : State) (e : WriteEntry) : StaysAt p s (s.noticeFailures e) :=
  staysAt_foldl (fun _ _ => staysAt_setLock p _ _ _) _ _

theorem staysAt_fireNote (p : Port) (s : State) (q : Port) (n : Note) : StaysAt p s (s.fireNote q n) := by
  unfold State.fireNote; split
  · exact staysAt_respondDue p _ _ _
  · unfold State.appendNotice; dsimp only
    refine (StaysAt.trans ?_ (staysAt_respondDue p _ _ _)).trans (staysAt_raise p _ _ _)
    exact staysAt_onPort _ _ _ rfl List.prefix_rfl rfl (List.Subset.refl _)

theorem staysAt_fireNextNote (p : Port) (s : State) (q : Port) : StaysAt p s (s.fireNextNote q) := by
  unfold State.fireNextNote; split
  · refine StaysAt.trans ?_ (staysAt_fireNote p _ _ _)
    exact staysAt_onPort _ _ _ rfl List.prefix_rfl rfl (List.Subset.refl _)
  · exact staysAt_refl p s

theorem staysAt_fireNotes (p : Port) (s : State) (q : Port) : StaysAt p s (s.fireNotes q) :=
  staysAt_foldl (fun _ _ => staysAt_fireNextNote p _ _) _ _

theorem staysAt_departTarget (p : Port) (s : State) (q : Port) : StaysAt p s (s.departTarget q) := by
  unfold State.departTarget; dsimp only
  refine (StaysAt.trans ?_ (staysAt_foldl (fun _ _ => ?_) _ _)).trans
    (staysAt_foldl (fun _ _ => staysAt_fireNotes p _ _) _ _)
  · exact staysAt_onPort _ _ _ rfl List.prefix_rfl rfl (List.Subset.refl _)
  · exact staysAt_onPort _ _ _ rfl List.prefix_rfl rfl (List.Subset.refl _)

/-- The test of another port leaves the port's record alone. -/
theorem port_closingTest_other (s : State) {p q : Port} (h : p ≠ q) : (s.closingTest q).port p = s.port p := by
  have ne : ∀ (u : State) (f : PortState → PortState), (u.onPort q f).port p = u.port p :=
    fun u f => State.port_onPort_ne u f h
  unfold State.closingTest; split
  · unfold State.retakeHello; split
    · split
      · unfold State.helloOffline State.tagCheck State.helloFields State.startSession State.respond
        dsimp only
        split
        · simp [ne]
        · split
          · simp [ne]
          · split <;> simp [ne]
      · simp [ne]
    · simp [ne]
  · rfl

theorem port_leaveTest_other (s : State) {p q : Port} (h : p ≠ q) : (s.leaveTest q).port p = s.port p := by
  unfold State.leaveTest; split
  · split
    · exact State.port_onPort_ne s _ h
    · rfl
  · rfl

/-- What the session logic's tests make of a port: its own two tests, in a state with the same record of the port. -/
theorem port_sessionTests (s : State) (p : Port) :
    ∃ u : State, u.port p = s.port p ∧ u.slots = s.slots ∧
      s.sessionTests.port p = ((u.leaveTest p).closingTest p).port p := by
  have slots : ∀ (t : State) q, ((t.leaveTest q).closingTest q).slots = t.slots := fun t q =>
    device_slots (rest_device (by simp))
  have other : ∀ (l : List Port) (t : State), p ∉ l →
      (l.foldl (fun t q => (t.leaveTest q).closingTest q) t).port p = t.port p ∧
        (l.foldl (fun t q => (t.leaveTest q).closingTest q) t).slots = t.slots := by
    intro l
    induction l with
    | nil => exact fun t _ => ⟨rfl, rfl⟩
    | cons q l ih =>
      intro t h
      simp only [List.mem_cons, not_or] at h
      obtain ⟨a, b⟩ := ih ((t.leaveTest q).closingTest q) h.2
      rw [List.foldl_cons]
      exact ⟨by rw [a, port_closingTest_other _ h.1, port_leaveTest_other _ h.1], b.trans (slots t q)⟩
  have hp : ∃ l1 l2, allPorts = l1 ++ p :: l2 ∧ p ∉ l1 ∧ p ∉ l2 := by
    fin_cases p
    · exact ⟨[], [1, 2, 3], by decide⟩
    · exact ⟨[0], [2, 3], by decide⟩
    · exact ⟨[0, 1], [3], by decide⟩
    · exact ⟨[0, 1, 2], [], by decide⟩
  obtain ⟨l1, l2, hl, h1, h2⟩ := hp
  unfold State.sessionTests
  rw [hl, List.foldl_append, List.foldl_cons]
  obtain ⟨a, b⟩ := other l1 s h1
  exact ⟨_, a, b, (other l2 _ h2).1⟩

theorem grownAt_leaveTest (p : Port) (s : State) : GrownAt p s (s.leaveTest p) := by
  unfold State.leaveTest; split
  · split
    · unfold GrownAt; rw [State.port_onPort, if_pos rfl]
      exact ⟨rfl, List.prefix_append _ _⟩
    · exact ⟨rfl, List.prefix_rfl⟩
  · exact ⟨rfl, List.prefix_rfl⟩

theorem closingTest_not_closing (s : State) (p : Port) (h : (s.port p).session ≠ .closing) : s.closingTest p = s := by
  unfold State.closingTest; simp [h]

theorem grownAt_sessionTests {p : Port} (s : State) (h : (s.port p).session ≠ .closing) :
    GrownAt p s s.sessionTests := by
  obtain ⟨u, hu, -, ht⟩ := port_sessionTests s p
  have g := grownAt_leaveTest p u
  have hc : ((u.leaveTest p).port p).session ≠ .closing := by rw [kept_session g.1, hu]; exact h
  rw [closingTest_not_closing _ _ hc] at ht
  unfold GrownAt at *
  rw [ht, ← hu]; exact g

theorem staysAt_runTask (p : Port) (s : State) (q : Port) (x : Task) (h : x ≠ .commit) :
    StaysAt p s (s.runTask q x) := by
  cases x
  · exact staysAt_handoff p s _
  · exact staysAt_fireNextNote p s _
  · exact absurd rfl h
  · exact staysAt_revoke p s _ _
  · exact staysAt_releaseByLeave p s _

/-- A property of states that every task of an event keeps holds after all of them, in whatever order they ran. -/
theorem runTasks_ind {C : State → Prop} (q : Port) (tasks : List Task)
    (hf : ∀ t n, C t → C { t with fresh := n }) (hx : ∀ x ∈ tasks, ∀ t, C t → C (t.runTask q x)) (s : State)
    (h : C s) : C (s.runTasks q tasks) := by
  unfold State.runTasks
  have hm : ∀ x ∈ (s.arranged tasks).1, x ∈ tasks := fun x hx' =>
    (arrange_perm tasks.length s.fresh tasks le_rfl).mem_iff.mp hx'
  have h1 : C (s.arranged tasks).2 := hf s _ h
  generalize (s.arranged tasks).2 = s1 at *
  generalize (s.arranged tasks).1 = l at *
  induction l generalizing s1 with
  | nil => exact h1
  | cons x l ih => exact ih _ (hx x (hm x (by simp)) _ h1) (fun y hy => hm y (by simp [hy]))

theorem staysAt_runTasks (p : Port) (s : State) (q : Port) (l : List Task) (h : .commit ∉ l) :
    StaysAt p s (s.runTasks q l) :=
  runTasks_ind (C := fun t => StaysAt p s t) q l (fun t _ ht => StaysAt.trans (t := t) ht (staysAt_ports rfl))
    (fun x hx t ht => ht.trans (staysAt_runTask p t q x (fun e => h (e ▸ hx)))) s (staysAt_refl p s)

/-- With no commit in progress, the end of an event is its tasks and then the session logic's tests. -/
theorem closeEvent_no_commit (s : State) (q : Port) (l : List Task) (h : ∀ c, s.edit ≠ .committing c) :
    s.closeEvent q l = (({ s with fresh := s.fresh + 1 } : State).runTasks q l).sessionTests := by
  have hd : s.commitDue = false := by
    unfold State.commitDue; split
    · rename_i c e; exact absurd e (h c)
    · rfl
  simp [State.closeEvent, State.commitLast, hd]

theorem grownAt_closeEvent {p : Port} (s : State) (q : Port) (l : List Task) (hl : .commit ∉ l)
    (hc : ∀ c, s.edit ≠ .committing c) (hp : (s.port p).session ≠ .closing) : GrownAt p s (s.closeEvent q l) := by
  rw [closeEvent_no_commit s q l hc]
  have a : GrownAt p s (({ s with fresh := s.fresh + 1 } : State).runTasks q l) :=
    (StaysAt.trans (t := { s with fresh := s.fresh + 1 }) (staysAt_ports rfl) (staysAt_runTasks p _ q l hl)).1
  have b := grownAt_sessionTests (({ s with fresh := s.fresh + 1 } : State).runTasks q l)
    (by rw [kept_session a.1]; exact hp)
  exact ⟨b.1.trans a.1, a.2.trans b.2⟩

end Sys2Proof.Machine
end

