-- ==== Sys2Proof/Laws/Pool.lean ====
section
/-! SUPPORT. The pool bus: the reply to the current issue, the pieces of a request, and what the fired watches of an event do to
the locks. -/

namespace Sys2Proof.Machine

open Sys2Proof

/-! ## Replies and pieces -/

theorem answered_current {s : State} {n : SlotNo} {slot issue : Byte} {j : Job} (h1 : s.running = true)
    (h2 : slot.toNat = n.val) (h3 : (s.slot n).job = some j) (h4 : (s.slot n).issueNo = issue) :
    s.answered slot issue = some (n, j) := by
  unfold State.answered
  have hlt : slot.toNat < 8 := by rw [h2]; exact n.isLt
  have hn : (⟨slot.toNat, hlt⟩ : SlotNo) = n := Fin.ext h2
  simp only [hlt, dite_true, hn, h3, h1, h4]; simp

theorem updatePiece_get (l : List Piece) (n : Nat) (f : Piece → Piece) (i : Nat) :
    (updatePiece l n f)[i]? = if i = n then (l[i]?).map f else l[i]? := by
  induction l generalizing n i with
  | nil => cases n <;> simp [updatePiece]
  | cons x l ih => cases n <;> cases i <;> simp [updatePiece, ih]

theorem updatePiece_split (l : List Piece) (n : Nat) (f : Piece → Piece) (x : Piece) (h : l[n]? = some x) :
    updatePiece l n f = l.take n ++ f x :: l.drop (n+1) := by
  induction l generalizing n with
  | nil => simp at h
  | cons y l ih => cases n with
    | zero => simp at h; subst h; simp [updatePiece]
    | succ n => simp at h; simp [updatePiece, ih n h]

theorem all_of_get {l : List Piece} {p : Piece → Bool} (h : ∀ (i : Nat) (y : Piece), l[i]? = some y → p y = true) :
    l.all p = true := by
  rw [List.all_eq_true]; intro y hy
  obtain ⟨i, hi⟩ := List.getElem?_of_mem hy
  exact h i y hi

theorem append_of_prefix {α} {l : List α} {a : α} {m : List α} (h : l ++ [a] <+: m) : ∃ r, m = l ++ a :: r := by
  obtain ⟨r, hr⟩ := h; exact ⟨r, by rw [← hr]; simp⟩

theorem port_leaveDrain (s : State) (p q r) : (s.leaveDrain p r).port q = s.port q :=
    by unfold State.leaveDrain; split <;> rfl

theorem leaveDrain_no_commit (s : State) (p r) (h : ∀ c, s.edit ≠ .committing c) : s.leaveDrain p r = s :=
    by unfold State.leaveDrain; split; (rename_i c e; exact absurd e (h c)); rfl

theorem inContact_of {P : PortState} (h : P.session = .online ∨ P.session = .leaving) : P.inContact = true := by
  unfold PortState.inContact; rcases h with h | h <;> simp [h]

theorem not_closing_of {P : PortState} (h : P.session = .online ∨ P.session = .leaving) : P.session ≠ .closing := by
  rcases h with h | h <;> simp [h]

/-! ## Fired watches -/

theorem lock_of_locks {s t : State} (h : t.locks = s.locks) (k : Lock) : t.lock k = s.lock k := by
  unfold State.lock; rw [h]

theorem askYield_releasing (s : State) (k : Lock) (h : ∀ r, (s.lock k).phase ≠ .releasing r) (r : Releasing) :
    ((s.askYield k).lock k).phase ≠ .releasing r := by
  unfold State.askYield; split
  · split
    · simp
    · exact h r
  · exact h r

theorem handoff_releasing (s : State) (k : Lock) (r : Releasing) : ((s.handoff k).lock k).phase ≠ .releasing r := by
  have hp : ((s.passLock k).lock k).phase ≠ .releasing r := by
    unfold State.passLock; split
    · exact askYield_releasing _ _ (by simp [LockRecord.granted]) _
    · simp
  unfold State.handoff; split
  · split
    · rw [lock_of_locks (locks_respondDue _ _ _)]; exact hp
    · exact hp
  · rename_i h; exact h r

/-- A handoff leaves a lock that is not RELEASING as it is. -/
theorem handoff_same (s : State) (k j : Lock) (h : ∀ r, (s.lock k).phase ≠ .releasing r) :
    (s.handoff j).lock k = s.lock k := by
  by_cases e : k = j
  · subst e
    unfold State.handoff; split
    · rename_i r hr; exact absurd hr (h r)
    · rfl
  · exact lock_handoff_ne s j k e

theorem handoff_was (s : State) (k j : Lock) (r : Releasing) (h : ((s.handoff j).lock k).phase = .releasing r) :
    (s.lock k).phase = .releasing r := by
  by_cases e : k = j
  · subst e; exact absurd h (handoff_releasing s k r)
  · rw [lock_handoff_ne s j k e] at h; exact h

/-- The task comes from a fired watch. -/
def Task.fires : Task → Prop
  | .handoff _ => True
  | .note => True
  | _ => False

theorem lock_foldl_fired (q : Port) (l : List Task) (hl : ∀ x ∈ l, Task.fires x) (s : State) (k : Lock)
    (h : ∀ r, (s.lock k).phase ≠ .releasing r) : (l.foldl (fun t x => t.runTask q x) s).lock k = s.lock k := by
  induction l generalizing s with
  | nil => rfl
  | cons x l ih =>
    have hx : (s.runTask q x).lock k = s.lock k := by
      have := hl x (by simp)
      cases x <;> simp only [Task.fires] at this
      · exact handoff_same s k _ h
      · exact lock_of_locks (locks_fireNextNote s q) k
    simp only [List.foldl_cons]
    rw [ih (fun y hy => hl y (by simp [hy])) _ (by rw [hx]; exact h), hx]

theorem foldl_fired_releasing (q : Port) (l : List Task) (hl : ∀ x ∈ l, Task.fires x) (s : State) (k : Lock)
    (r : Releasing) (h : ((l.foldl (fun t x => t.runTask q x) s).lock k).phase = .releasing r) :
    (s.lock k).phase = .releasing r ∧ .handoff k ∉ l := by
  by_cases hr : ∀ r, (s.lock k).phase ≠ .releasing r
  · rw [lock_foldl_fired q l hl s k hr] at h; exact absurd h (hr r)
  induction l generalizing s with
  | nil => exact ⟨h, by simp⟩
  | cons x l ih =>
    simp only [List.foldl_cons] at h
    have hl' : ∀ y ∈ l, Task.fires y := fun y hy => hl y (by simp [hy])
    by_cases h2 : ∀ r, ((s.runTask q x).lock k).phase ≠ .releasing r
    · rw [lock_foldl_fired q l hl' _ k h2] at h; exact absurd h (h2 r)
    · obtain ⟨a, b⟩ := ih hl' _ h h2
      have := hl x (by simp)
      cases x <;> simp only [Task.fires] at this
      · rename_i j
        refine ⟨handoff_was s k j r a, ?_⟩
        intro hm
        rcases List.mem_cons.mp hm with e | e
        · cases e; exact handoff_releasing s k r a
        · exact b e
      · refine ⟨?_, by simpa using b⟩
        change ((s.fireNextNote q).lock k).phase = _ at a
        rw [lock_of_locks (locks_fireNextNote s q)] at a; exact a

theorem firedTasks_fire (s : State) (q) : ∀ x ∈ s.firedTasks q, Task.fires x := by
  intro x hx; unfold State.firedTasks at hx
  rcases List.mem_append.mp hx with h | h
  · obtain ⟨k, _, rfl⟩ := List.mem_map.mp h; trivial
  · rw [List.eq_of_mem_replicate h]; trivial

theorem commit_not_fired (s : State) (q) : Task.commit ∉ s.firedTasks q :=
    fun h => by have := firedTasks_fire s q _ h; exact this

theorem runTasks_fired (s : State) (q : Port) (l) (hl : ∀ x ∈ l, Task.fires x) (k : Lock) :
   ((∀ r, (s.lock k).phase ≠ .releasing r) → (s.runTasks q l).lock k = s.lock k) ∧
       (∀ r, ((s.runTasks q l).lock k).phase = .releasing r → (s.lock k).phase = .releasing r ∧ .handoff k ∉ l) := by
  unfold State.runTasks
  have hm := fun x => (arrange_perm l.length s.fresh l le_rfl).mem_iff (a := x)
  have hl' : ∀ x ∈ (s.arranged l).1, Task.fires x := fun x hx => hl x ((hm x).mp hx)
  have e : ∀ k, (s.arranged l).2.lock k = s.lock k := fun _ => rfl
  refine ⟨fun h => lock_foldl_fired q _ hl' _ k (by rw [e]; exact h), fun r h => ?_⟩
  obtain ⟨a, b⟩ := foldl_fired_releasing q _ hl' _ k r h
  exact ⟨a, fun hh => b ((hm _).mpr hh)⟩

theorem closeEvent_fired (s : State) (q : Port) (l) (hl : ∀ x ∈ l, Task.fires x) (hc : ∀ c, s.edit ≠ .committing c)
    (k : Lock) :
   ((∀ r, (s.lock k).phase ≠ .releasing r) → (s.closeEvent q l).lock k = s.lock k) ∧
       (∀ r, ((s.closeEvent q l).lock k).phase = .releasing r → (s.lock k).phase = .releasing r ∧ .handoff k ∉ l) :=
       by
  rw [closeEvent_no_commit s q l hc, lock_of_locks (locks_sessionTests _)]
  exact runTasks_fired ({ s with fresh := s.fresh + 1 } : State) q l hl k

theorem lock_noticeFailures (s : State) (e : WriteEntry) (k : Lock) :
    (s.noticeFailures e).lock k = { s.lock k with faultSeen := (s.lock k).faultSeen || decide (k ∈ e.guards.map GuardMark.lock) } := by
  unfold State.noticeFailures
  generalize e.guards = l
  induction l generalizing s with
  | nil => simp
  | cons g l ih =>
    have hn : (s.noticeFailure g.lock).lock k = if k = g.lock then { s.lock g.lock with faultSeen := true }
        else s.lock k := State.lock_setLock _ _ _ _
    rw [List.foldl_cons, ih, hn]
    by_cases h : k = g.lock
    · simp [h]
    · simp [h]

end Sys2Proof.Machine
end

