-- ==== Sys2Proof/Laws/Commands.lean ====
section
/-! SUPPORT. The checks in front of the edit and lock requests, entries of lists found where they stand, and when a bus command acts. -/

namespace Sys2Proof.Machine

open Sys2Proof

/-! ## The edit requests -/

theorem respond_edit (s : State) (e : Edit) (p : Port) (x : Response) :
  ({ s with edit := e } : State).respond p x = { s.respond p x with edit := e } := rfl

theorem asOwner_no (s : State) (p : Port) (r : Request) (go) (h : ∀ o, s.edit = .opened o → o.owner ≠ p) :
    s.asOwner p r go = s.respond p (r.response .noEdit .empty) := by
  unfold State.asOwner; split
  · rename_i o ho; rw [if_neg (h o ho)]
  · rfl

theorem asOwner_yes (s : State) (p : Port) (r : Request) (go) (o : OpenEdit) (h : s.edit = .opened o)
    (hp : o.owner = p) :
    s.asOwner p r go = go s o := by
  unfold State.asOwner; rw [h]; simp [hp]

/-! ## Entries of lists -/

theorem find_split {α} {l before after : List α} {y : α} (q : α → Bool) (hs : l = before ++ y :: after)
   (hb : ∀ z ∈ before, q z = false) (hy : q y = true) : l.find? q = some y := by
  subst hs; rw [List.find?_append, List.find?_eq_none.mpr (by simpa using hb)]; simp [hy]

theorem findIdx_split {α} {l before after : List α} {y : α} (q : α → Bool) (hs : l = before ++ y :: after)
   (hb : ∀ z ∈ before, q z = false) (hy : q y = true) : l.findIdx q = before.length := by
  subst hs; rw [List.findIdx_append]
  have : List.findIdx q before = before.length := List.findIdx_eq_length.mpr hb
  simp [this, List.findIdx_cons, hy]

theorem deliverFirst_split (b a : List Notice) (n : Notice) (hb : ∀ m ∈ b, m.delivered = true)
    (hn : n.delivered = false) :
    deliverFirst (b ++ n :: a) = b ++ { n with delivered := true } :: a := by
  induction b with
  | nil => simp [deliverFirst, hn]
  | cons m b ih => simp [deliverFirst, hb m (by simp), ih (fun x hx => hb x (by simp [hx]))]

/-! ## The lock requests -/

theorem withLock_above {s : State} {p : Port} {r : Request} {lock : Byte} {go} (h : 32 ≤ lock.toNat) :
   s.withLock p r lock go = s.respond p (r.response .badArg .empty) := by
  simp [State.withLock, Nat.not_lt.mpr h]

theorem withLock_lock {s : State} {p : Port} {r : Request} {lock : Byte} {go} (k : Lock) (h : k.val = lock.toNat) :
   s.withLock p r lock go = go s k := by
  have : lock.toNat < 32 := by omega
  simp only [State.withLock, this, dite_true]
  congr 1
  exact Fin.ext h.symm

theorem setLock_respond (s : State) (k : Lock) (l : LockRecord) (p : Port) (x : Response) :
    (s.setLock k l).respond p x = (s.respond p x).setLock k l := rfl

theorem setLock_setLock (s : State) (k : Lock) (a b : LockRecord) : (s.setLock k a).setLock k b = s.setLock k b := by
  simp [State.setLock, Vector.set_set]

theorem asHolder_no {s : State} {p r gen k go} (h : s.holds p k = false) :
    s.asHolder p r gen k go = s.respond p (r.response .notHolder .empty) := by
  unfold State.asHolder; unfold State.holds at h
  split
  · rename_i h1 e; rw [e] at h; simp at h; rw [if_neg h]
  · rfl

theorem asHolder_stale {s : State} {p r gen k go} (h : s.holds p k = true) (hg : (s.lock k).generation ≠ gen) :
    s.asHolder p r gen k go = s.respond p (r.response .stale (.generation (s.lock k).generation)) := by
  unfold State.asHolder; unfold State.holds at h
  split
  · rename_i h1 e; rw [e] at h; simp at h; rw [if_pos h, if_neg hg]
  · rename_i e; split at h
    · rename_i h1 e'; exact absurd e' (e h1)
    · simp at h

theorem asHolder_yes {s : State} {p r gen k go} (h1) (h : (s.lock k).phase = .held h1) (hp : h1.port = p)
    (hg : (s.lock k).generation = gen) : s.asHolder p r gen k go = go s h1 := by
  unfold State.asHolder; rw [h]; dsimp only; rw [if_pos hp, if_pos hg]

theorem onPort_respond_comm (s : State) (p : Port) (f : PortState → PortState) (x : Response)
   (hf : PortState.respond x (f (s.port p)) = f (PortState.respond x (s.port p))) :
   (s.onPort p f).respond p x = (s.respond p x).onPort p f := by
  simp only [State.respond, onPort_onPort]; simp [State.onPort, hf]

/-! ## The pool bus -/

theorem arbiterOrder_find {s : State} {p turn : Port} (hp : p = s.rr + 1 + turn) (he : s.eligible p = true)
    (hj : ∀ j, j < turn → s.eligible (s.rr + 1 + j) = false) :
    s.arbiterOrder.find? s.eligible = some p := by
  subst hp
  unfold State.arbiterOrder
  have e0 : s.rr + 1 + 0 = s.rr + 1 := by simp
  have e1 : s.rr + 1 + 1 = s.rr + 2 := by rw [add_assoc]; rfl
  have e2 : s.rr + 1 + 2 = s.rr + 3 := by rw [add_assoc]; rfl
  have e3 : s.rr + 1 + 3 = s.rr + 4 := by rw [add_assoc]; rfl
  fin_cases turn
  · simp at he; simp [he]
  · have h0 := hj 0 (by decide); simp at h0
    simp [e1] at he; simp [h0, he, e1]
  · have h0 := hj 0 (by decide); have h1 := hj 1 (by decide); simp [e1] at h0 h1
    simp [e2] at he; simp [h0, h1, he, e2]
  · have h0 := hj 0 (by decide); have h1 := hj 1 (by decide);  have h2 := hj 2 (by decide); simp [e1, e2] at h0 h1 h2
    simp [e3] at he; simp [h0, h1, h2, he, e3]

theorem answered_none {s : State} {slot issue : Byte}
    (h : 8 ≤ slot.toNat ∨ ∃ n : SlotNo, n.val = slot.toNat ∧ ((s.slot n).job = none ∨ (s.slot n).issueNo ≠ issue)) :
    s.answered slot issue = none := by
  unfold State.answered
  rcases h with h | ⟨n, h1, h2⟩
  · rw [dif_neg (by omega)]
  · have : slot.toNat < 8 := by omega
    have e : (⟨slot.toNat, this⟩ : SlotNo) = n := Fin.ext h1.symm
    rw [dif_pos this, e]
    rcases h2 with h2 | h2
    · rw [h2]
    · split
      · rw [if_neg]; simp [h2]
      · rfl

theorem answered_off {s : State} (h : s.running = false) (a b) : s.answered a b = none := by
  unfold State.answered; split
  · split
    · simp [h]
    · rfl
  · rfl

theorem workDone_inFlight {ps : List Piece} {m : Nat} {y : Piece} (h : ps[m]? = some y) (hy : y.cond = .inFlight)
    (b) : workDone ps b = false := by
  unfold workDone
  have : ps.all (fun x => x.cond != .inFlight) = false := by
    simp; exact ⟨y, List.mem_of_getElem? h, hy⟩
  simp [this]

/-- A command by which a piece fails ends the job of its slot. -/
theorem exec_failsBy {c n slot issue j sub} {s : State} (hr : s.running = true) (h1 : slot.toNat = n.val)
    (h2 : (s.slot n).job = some j) (h3 : (s.slot n).issueNo = issue) (hc : failsBy c n slot issue j sub) :
   exec c s = .next (({ s with busAbort := if c = .accessTimerExpiry n then some { slot := n, issueNo := issue } else s.busAbort } : State).endJob n j (.failed sub)) := by
  rcases hc with ⟨d, rfl, rfl⟩ | ⟨rfl, h, rfl⟩ | ⟨rfl, rfl⟩
  · simp [exec, execReplyError, answered_current hr h1 h2 h3]
  · simp [exec, execReplyRetry, answered_current hr h1 h2 h3, State.takeRetry, Nat.not_lt.mpr h]
  · simp [exec, execAccessTimerExpiry, State.takeTimeout, h2, h3]

end Sys2Proof.Machine
end

