-- ==== Sys2Proof/Laws/Map.lean ====
section
/-! SUPPORT. What every shared operation does to the map, the revision and the edit: it keeps them, or it completes the commit in
progress (R39). -/

namespace Sys2Proof.Machine

open Sys2Proof

/-- The edit goes on with the same rows and base, or an OPEN edit is discarded. -/
def Edit.keepsRows : Edit → Edit → Prop
  | .absent, e => e = .absent
  | .opened o, e => e = .opened o ∨ e = .absent
  | .committing c, e => ∃ c', e = .committing c' ∧ c'.change = c.change ∧ c'.base = c.base

theorem Edit.keepsRows.refl (e : Edit) : Edit.keepsRows e e := by cases e <;> simp [Edit.keepsRows]

theorem Edit.keepsRows.trans {a b c : Edit} (h : Edit.keepsRows a b) (g : Edit.keepsRows b c) : Edit.keepsRows a c :=
    by
  cases a with
  | absent => simp only [Edit.keepsRows] at h; subst h; exact g
  | opened o =>
    simp only [Edit.keepsRows] at h ⊢
    rcases h with rfl | rfl
    · exact g
    · exact .inr g
  | committing x =>
    obtain ⟨y, rfl, h1, h2⟩ := h
    obtain ⟨z, rfl, g1, g2⟩ := g
    exact ⟨z, rfl, g1.trans h1, g2.trans h2⟩

/-- Map and revision are as before, and the edit goes on. -/
def MapKept (s t : State) : Prop := t.map = s.map ∧ t.revision = s.revision ∧ Edit.keepsRows s.edit t.edit

/-- The commit in progress has completed. -/
def MapCommitted (s t : State) : Prop := ∃ c, s.edit = .committing c ∧ t.revision = s.revision + 1 ∧
    t.edit = .absent ∧ t.map = (s.replaceRows c.change).map

/-- What an operation does to the map. -/
def MapStep (s t : State) : Prop := MapKept s t ∨ MapCommitted s t

theorem map_replaceRows {s t : State} (h : s.map = t.map) (l) : (s.replaceRows l).map = (t.replaceRows l).map := by
  unfold State.replaceRows
  induction l generalizing s t with
  | nil => exact h
  | cons x l ih => exact ih (by simp [State.setRow, h])

theorem MapKept.trans {s t u} (h : MapKept s t) (g : MapKept t u) : MapKept s u :=
    ⟨g.1.trans h.1, g.2.1.trans h.2.1, h.2.2.trans g.2.2⟩

theorem MapStep.trans {s t u} (h : MapStep s t) (g : MapStep t u) : MapStep s u := by
  rcases h with h | h
  · rcases g with g | ⟨c, g1, g2, g3, g4⟩
    · exact .inl (h.trans g)
    · right
      obtain ⟨h1, h2, h3⟩ := h
      cases hs : s.edit with
      | absent => rw [hs] at h3; simp [Edit.keepsRows, g1] at h3
      | opened o => rw [hs] at h3; simp [Edit.keepsRows, g1] at h3
      | committing x =>
        rw [hs, g1] at h3
        obtain ⟨y, hy, e1, e2⟩ := h3
        cases hy
        exact ⟨x, hs, by rw [g2, h2], g3, by rw [g4, e1]; exact map_replaceRows h1 _⟩
  · obtain ⟨c, h1, h2, h3, h4⟩ := h
    rcases g with ⟨g1, g2, g3⟩ | ⟨d, g1, _⟩
    · rw [h3] at g3
      exact .inr ⟨c, h1, g2.trans h2, g3, g1.trans h4⟩
    · rw [h3] at g1; cases g1

theorem mapKept_rest {s t : State} (h : t.rest = s.rest) : MapKept s t :=
    ⟨rest_map h, rest_revision h, by rw [rest_edit h]; exact Edit.keepsRows.refl _⟩

theorem mapStep_rest {s t : State} (h : t.rest = s.rest) : MapStep s t := .inl (mapKept_rest h)

theorem MapStep.refl (s) : MapStep s s := mapStep_rest rfl

theorem mapStep_completeCommit (s : State) : MapStep s s.completeCommit := by
  cases h : s.edit with
  | committing c =>
    have := rest_completeCommit s c h
    exact .inr ⟨c, h, rest_revision this, rest_edit this, (rest_map this).trans rfl⟩
  | absent => simp [State.completeCommit, h]; exact MapStep.refl s
  | opened o => simp [State.completeCommit, h]; exact MapStep.refl s

theorem mapStep_foldl {α : Type} {f : State → α → State} (hf : ∀ s x, MapStep s (f s x)) (l : List α) (s : State) :
    MapStep s (l.foldl f s) := by
  induction l generalizing s with
  | nil => exact MapStep.refl s
  | cons x l ih => exact (hf s x).trans (ih _)

theorem mapStep_runTask (p s x) : MapStep s (State.runTask p s x) := by
  cases x <;> simp only [State.runTask]
  · exact mapStep_rest (by simp)
  · exact mapStep_rest (by simp)
  · exact mapStep_completeCommit s
  · exact mapStep_rest (by simp)
  · exact mapStep_rest (by simp)

theorem mapStep_runTasks (s : State) (p l) : MapStep s (s.runTasks p l) :=
  MapStep.trans (t := { s with fresh := s.fresh + l.length }) (mapStep_rest rfl)
      (mapStep_foldl (fun t x => mapStep_runTask p t x) _ _)

theorem mapStep_closeEvent (s : State) (p l) : MapStep s (s.closeEvent p l) := by
  have h0 : MapStep s ({ s with fresh := s.fresh + 1 } : State) := mapStep_rest rfl
  unfold State.closeEvent; dsimp only; split
  · exact (((h0.trans (mapStep_runTasks _ _ _)).trans (mapStep_rest (rest_sessionTests _))).trans (mapStep_completeCommit _)).trans (mapStep_rest (rest_sessionTests _))
  · exact (h0.trans (mapStep_runTasks _ _ _)).trans (mapStep_rest (rest_sessionTests _))

theorem mapKept_leaveDrain (s : State) (p r) : MapKept s (s.leaveDrain p r) := by
  unfold State.leaveDrain; split
  · rename_i c h; exact ⟨rfl, rfl, by rw [h]; exact ⟨_, rfl, rfl, rfl⟩⟩
  · exact mapKept_rest rfl

theorem mapKept_departs (s : State) (p b) : MapKept s { s with edit := s.edit.departs p b } := by
  refine ⟨rfl, rfl, ?_⟩
  show Edit.keepsRows s.edit (s.edit.departs p b)
  cases s.edit with
  | absent => exact Edit.keepsRows.refl _
  | opened o => simp only [Edit.departs, Edit.keepsRows]; split <;> simp
  | committing c => simp only [Edit.departs, Edit.keepsRows]; split <;> simp

theorem mapStep_finishRead (s : State) (p e) : MapStep s (s.finishRead p e) := by
  unfold State.finishRead
  exact .inl (MapKept.trans (mapKept_rest (by simp)) (mapKept_leaveDrain _ _ _))

theorem mapStep_finishWrite (s : State) (p e) : MapStep s (s.finishWrite p e) := by
  unfold State.finishWrite
  exact .inl (MapKept.trans (mapKept_rest (by simp)) (mapKept_leaveDrain _ _ _))

theorem mapStep_endPiece (s : State) (j e) : MapStep s (s.endPiece j e) := by
  have h0 : ∀ f, MapStep s (s.onPort j.port f) := fun f => mapStep_rest (by simp)
  unfold State.endPiece; split
  · split
    · dsimp only; split
      · exact ((h0 _).trans (mapStep_finishWrite _ _ _)).trans (mapStep_closeEvent _ _ _)
      · exact h0 _
    · exact MapStep.refl _
  · split
    · dsimp only; split
      · exact ((h0 _).trans (mapStep_finishRead _ _ _)).trans (mapStep_closeEvent _ _ _)
      · exact h0 _
    · exact MapStep.refl _

theorem mapStep_plain {s t : State} (h1 : t.map = s.map) (h2 : t.revision = s.revision) (h3 : t.edit = s.edit) :
    MapStep s t := .inl ⟨h1, h2, by rw [h3]; exact Edit.keepsRows.refl _⟩

theorem mapStep_endJob (s : State) (n j e) : MapStep s (s.endJob n j e) := MapStep.trans (t := s.releaseSlot n)
    (mapStep_plain rfl rfl rfl) (mapStep_endPiece _ _ _)

theorem mapStep_leaveEvent (s : State) (p tag) : MapStep s (s.leaveEvent p tag) := by
  unfold State.leaveEvent; dsimp only
  have h1 : MapStep s (s.onPort p (·.startLeave tag)) := mapStep_rest (by simp)
  generalize (s.onPort p (·.startLeave tag)) = s1 at *
  have h2 := (h1.trans (mapStep_runTasks s1 p ((s1.heldLocks p).map .release))).trans
      (mapStep_rest (rest_removeWaits _ p))
  generalize ((s1.runTasks p ((s1.heldLocks p).map .release)).removeWaits p) = s2 at *
  exact (h2.trans (.inl (mapKept_departs s2 p false))).trans (mapStep_rest (by simp))

theorem mapStep_linkLossEvent (s : State) (p) : MapStep s (s.linkLossEvent p) := by
  unfold State.linkLossEvent; dsimp only
  have h1 : MapStep s ((s.onPort p (·.loseLink)).dropReads p ((s.port p).readL.filter (fun e => !e.survives))) :=
    MapStep.trans (t := s.onPort p (·.loseLink))
        (mapStep_rest (by simp)) (mapStep_foldl (fun _ _ => .inl (mapKept_leaveDrain _ _ _)) _ _)
  generalize ((s.onPort p (·.loseLink)).dropReads p ((s.port p).readL.filter (fun e => !e.survives))) = s1 at *
  have h2 := (h1.trans (mapStep_runTasks s1 p
      ((s1.heldLocks p).map .revoke ++ if s1.commitDue then [.commit] else []))).trans
      (mapStep_rest (rest_removeWaits _ p))
  generalize ((s1.runTasks p ((s1.heldLocks p).map .revoke ++ if s1.commitDue then [.commit] else [])).removeWaits
      p) = s2 at *
  exact (h2.trans (.inl (mapKept_departs s2 p true))).trans (mapStep_rest (by simp))

theorem rest_request_cases (s : State) (p r go) : (s.request p r go).rest = s.rest ∨ ∃ t, t.rest = s.rest ∧
    s.request p r go = go t := by
  unfold State.request; split
  · have h1 : (s.taken p).rest = s.rest := rfl
    unfold State.sessionCheck; split
    · exact .inl rfl
    · exact .inl rfl
    · exact .inl rfl
    · unfold State.tagCheck; split
      · exact .inl rfl
      · split
        · exact .inl rfl
        · exact .inr ⟨(s.taken p).onPort p (fun P => { P with tags := P.tags ++ [r.tag] }), rfl, rfl⟩
  · exact .inl rfl

/-! ## The rows of a change set -/

theorem row_replaceRows_ne (s : State) (l : List Staged) (r : Row) (h : ∀ x ∈ l, x.row ≠ r) :
    (s.replaceRows l).row r = s.row r := by
  unfold State.replaceRows
  induction l generalizing s with
  | nil => rfl
  | cons x l ih =>
    simp only [List.foldl_cons]
    rw [ih _ (fun y hy => h y (by simp [hy])), State.row_setRow, if_neg]
    exact fun e => h x (by simp) e.symm

theorem row_replaceRows (s : State) (l : List Staged) (hn : (l.map Staged.row).Nodup) (x : Staged) (h : x ∈ l) :
    (s.replaceRows l).row x.row = x.content := by
  unfold State.replaceRows
  induction l generalizing s with
  | nil => simp at h
  | cons y l ih =>
    simp only [List.map_cons, List.nodup_cons] at hn
    simp only [List.foldl_cons]
    rcases List.mem_cons.mp h with rfl | h
    · have := row_replaceRows_ne (s.setRow x.row x.content) l x.row (fun z hz e => hn.1 (List.mem_map.mpr ⟨z, hz, e⟩))
      unfold State.replaceRows at this; rw [this, State.row_setRow, if_pos rfl]
    · exact ih _ hn.2 h

theorem legal_replaceRows (s : State) (l : List Staged) (h : ∀ r, (s.row r).legal) (hl : ∀ x ∈ l, x.content.legal) :
    ∀ r, ((s.replaceRows l).row r).legal := by
  unfold State.replaceRows
  induction l generalizing s with
  | nil => exact h
  | cons x l ih =>
    refine ih (s.setRow x.row x.content) (fun r => ?_) (fun y hy => hl y (by simp [hy]))
    rw [State.row_setRow]; split
    · exact hl x (by simp)
    · exact h r

theorem row_of_map {s t : State} (h : s.map = t.map) (r) : s.row r = t.row r := by unfold State.row; rw [h]

theorem mapLegal_step {s t : State} (h : MapStep s t) (g : s.mapLegal) : t.mapLegal := by
  obtain ⟨g1, g2⟩ := g
  rcases h with ⟨h1, h2, h3⟩ | ⟨c, h1, h2, h3, h4⟩
  · refine ⟨fun r => by rw [row_of_map h1]; exact g1 r, ?_⟩
    rw [h2]
    cases hs : s.edit with
    | absent => rw [hs] at h3; rw [h3]; trivial
    | opened o =>
      rw [hs] at h3 g2
      rcases h3 with h3 | h3 <;> rw [h3]
      · exact g2
      · trivial
    | committing c =>
      rw [hs] at h3 g2
      obtain ⟨c', h3, e1, e2⟩ := h3
      rw [h3]
      show legalStaged c'.change ∧ c'.base = s.revision
      rw [e1, e2]; exact g2
  · rw [h1] at g2
    refine ⟨fun r => by rw [row_of_map h4]; exact legal_replaceRows s _ g1 g2.1.1 r, ?_⟩
    rw [h3]; trivial

theorem wellFormed_legal {raw : RawRow} {x : Staged} (h : raw.wellFormed = some x) : x.content.legal := by
  unfold RawRow.wellFormed at h
  split at h
  · rename_i row cls rights guard h1 h2 h3 h4
    split at h
    · rename_i hc
      cases h
      refine ⟨fun e => ?_, fun e => ?_⟩
      · dsimp only at e ⊢; by_contra hp; exact hc.2 ⟨e, by simpa using hp⟩
      · dsimp only at e; subst e
        unfold guardOf at h4; split at h4
        · simp at h4
        · split at h4
          · split at h4
            · simp at h4
            · rename_i hne
              simp at h4
              apply hne; apply BitVec.eq_of_toNat_eq; simpa using h4
          · simp at h4
    · simp at h
  · simp at h

theorem legalStaged_stage {l : List Staged} {x : Staged} (h : legalStaged l) (hx : x.content.legal)
    (hr : ¬ (!l.any (fun y => y.row == x.row) && decide (Config.stagedRoom ≤ l.length)) = true) :
    legalStaged (stageInto l x) := by
  obtain ⟨h1, h2, h3⟩ := h
  unfold stageInto; split
  · refine ⟨?_, ?_, ?_⟩
    · intro y hy; obtain ⟨z, hz, rfl⟩ := List.mem_map.mp hy; split
      · exact hx
      · exact h1 z hz
    · rw [List.map_map]
      have : (l.map (Staged.row ∘ fun y => if y.row = x.row then x else y)) = l.map Staged.row := by
        apply List.map_congr_left; intro y _; simp only [Function.comp]; split
        · rename_i e; exact e.symm
        · rfl
      rw [this]; exact h2
    · simpa using h3
  · rename_i hn
    simp at hn hr
    refine ⟨?_, ?_, ?_⟩
    · intro y hy; rcases List.mem_append.mp hy with h | h
      · exact h1 y h
      · simp at h; subst h; exact hx
    · rw [List.map_append, List.nodup_append]
      refine ⟨h2, by simp, ?_⟩
      intro a ha b hb
      simp at hb; subst hb
      obtain ⟨y, hy, rfl⟩ := List.mem_map.mp ha
      exact hn y hy
    · have := hr hn; simp; omega

theorem rest_withLock (s : State) (p r l go) (h : ∀ k, (go s k).rest = s.rest) :
    (s.withLock p r l go).rest = s.rest := by
  unfold State.withLock; split
  · exact h _
  · rfl

theorem rest_asHolder (s : State) (p r g k go) (h : ∀ x, (go s x).rest = s.rest) :
    (s.asHolder p r g k go).rest = s.rest := by
  unfold State.asHolder; split
  · split
    · split
      · exact h _
      · rfl
    · rfl
  · rfl

theorem mapStep_issue (s : State) (n j) : MapStep s (s.issue n j) := mapStep_plain rfl rfl rfl

theorem mapStep_arbiterRun (s : State) : MapStep s s.arbiterRun := by
  unfold State.arbiterRun; split
  · split
    · split
      · rename_i n p _ _ _ ref k _ _ x _
        have h1 : MapStep s (s.issue n (s.firstJob p ref k x)) := mapStep_plain rfl rfl rfl
        generalize (s.issue n (s.firstJob p ref k x)) = s1 at *
        refine h1.trans ?_
        exact mapStep_plain rfl rfl rfl
      · exact MapStep.refl _
    · exact MapStep.refl _
  · exact MapStep.refl _

end Sys2Proof.Machine
end

