-- ==== Sys2Proof/Laws/Commit.lean ====
section
/-! SUPPORT. A commit: its drain set, the REVISION items of its completion, and the retaking of held requests when there is none. -/

namespace Sys2Proof.Machine

open Sys2Proof

theorem takenOpen_respond_edit {s : State} {p : Port} {r : Request} (x : Response) (h : s.ready p r = true)
    (hx : x.tag = r.tag) (e : Edit) :
   ({ s.takenOpen p r.tag with edit := e } : State).respond p x = { s.answeredNow p x with edit := e } := by
  have := takenOpen_respond x h hx
  rw [← this]; rfl

theorem retake_none (s : State) (p) (h : (s.port p).hold = none) : s.retake p = s := by unfold State.retake; rw [h]

theorem fold_retake (l : List Port) (s : State) (h : ∀ q, (s.port q).hold = none) : l.foldl (fun t p => t.retake p)
    s = s := by
  induction l with
  | nil => rfl
  | cons x l ih => simp only [List.foldl_cons]; rw [retake_none s x (h x)]; exact ih

theorem port_raiseRevision (s : State) (p q : Port) : (s.raiseRevision p).port q =
    if q = p then (s.port p).raise (.revision s.revision) else s.port q := State.port_raise s p q _

theorem revision_raiseRevision (s : State) (p) : (s.raiseRevision p).revision = s.revision :=
    rest_revision (rest_raiseRevision s p)

theorem port_fold_rev (l : List Port) (hn : l.Nodup) (s : State) (q : Port) :
    (l.foldl (fun t p => t.raiseRevision p) s).port q =
      if q ∈ l then (s.port q).raise (.revision s.revision) else s.port q := by
  induction l generalizing s with
  | nil => simp
  | cons x l ih =>
    simp only [List.nodup_cons] at hn
    simp only [List.foldl_cons]
    rw [ih hn.2, revision_raiseRevision]
    by_cases h : q = x
    · subst h; rw [if_neg hn.1, if_pos (by simp), port_raiseRevision, if_pos rfl]
    · rw [port_raiseRevision, if_neg h]; simp [h]

theorem mem_allPorts (q : Port) : q ∈ allPorts := by revert q; decide

theorem raise_events (P Q : PortState) (it) (h1 : P.events = Q.events) (h2 : P.session = Q.session)
    (h3 : P.subRev = Q.subRev) (h4 : P.subFault = Q.subFault) : (P.raise it).events = (Q.raise it).events := by
  have hw : it.wanted P = it.wanted Q := by cases it <;> simp [Item.wanted, h3, h4]
  unfold PortState.raise PortState.inContact; rw [h2, hw]; split
  · simp [h1]
  · exact h1

theorem partsTouch_iff (ps : List TransPart) (ch : List Staged) : partsTouch ps ch = true ↔ ∃ t ∈ ps,
    t.row ∈ ch.map Staged.row := by
  unfold partsTouch
  rw [List.any_eq_true]
  constructor
  · rintro ⟨t, ht, h⟩; obtain ⟨x, hx, e⟩ := List.any_eq_true.mp h; exact ⟨t, ht, List.mem_map.mpr ⟨x, hx, by simpa using e⟩⟩
  · rintro ⟨t, ht, h⟩; obtain ⟨x, hx, e⟩ := List.mem_map.mp h; exact ⟨t, ht, List.any_eq_true.mpr ⟨x, hx, by simpa using e⟩⟩

theorem mem_drainSet (s : State) (ch) (q : Port) (ref : ReqRef) : ({ port := q, ref := ref } : DrainRef)
    ∈ s.drainSet ch ↔
        (∃ e ∈ (s.port q).writeQ, ref = .write e.seq ∧ e.completed = false ∧ ∃ t ∈ e.parts,
            t.row ∈ ch.map Staged.row) ∨
        (∃ e ∈ (s.port q).readL, ref = .read e.tag ∧ ∃ t ∈ e.parts, t.row ∈ ch.map Staged.row) := by
  unfold State.drainSet State.drainOf
  simp only [List.mem_flatMap, List.mem_append, List.mem_map, List.mem_filter, Bool.and_eq_true, partsTouch_iff]
  constructor
  · rintro ⟨p, _, ⟨e, ⟨he, hc⟩, h⟩ | ⟨e, ⟨he, hc⟩, h⟩⟩
    · cases h; exact .inl ⟨e, he, rfl, by simpa using hc.1, by simpa using hc.2⟩
    · cases h; exact .inr ⟨e, he, rfl, by simpa using hc⟩
  · rintro (⟨e, he, rfl, hc, h⟩ | ⟨e, he, rfl, h⟩)
    · exact ⟨q, mem_allPorts q, .inl ⟨e, ⟨he, by simpa using hc, by simpa using h⟩, rfl⟩⟩
    · exact ⟨q, mem_allPorts q, .inr ⟨e, ⟨he, by simpa using h⟩, rfl⟩⟩

theorem takenOpen_drainSet (s : State) (p tag ch) : (s.takenOpen p tag).drainSet ch = s.drainSet ch := by
  unfold State.drainSet
  have : ∀ q, (s.takenOpen p tag).drainOf q ch = s.drainOf q ch := by
    intro q; unfold State.drainOf
    by_cases h : q = p
    · subst h; simp
    · rw [takenOpen_port_ne _ _ h]
  simp [this]

theorem locks_raiseRev (l : List Port) (s : State) : (l.foldl (fun t p => t.raiseRevision p) s).locks = s.locks :=
    foldl_keeps State.locks _ (fun t q => locks_raiseRevision t q) _ _

end Sys2Proof.Machine
end

