-- ==== Sys2Proof/Laws/Grants.lean ====
section
/-! SUPPORT. What every shared operation does to the grant of a lock: the grant is as before, its lease with it, or has ended,
or the lock is granted once (R54, R71). -/

namespace Sys2Proof.Machine

open Sys2Proof

/-- No grant was made: the generation is as before, and a lock that is HELD was HELD, with the same lease. -/
def SameGrant (l l' : LockRecord) : Prop :=
  l'.generation = l.generation ∧ ∀ h', l'.phase = .held h' → ∃ h, l.phase = .held h ∧ h'.lease = h.lease

theorem SameGrant.refl (l : LockRecord) : SameGrant l l := ⟨rfl, fun h e => ⟨h, e, rfl⟩⟩

theorem SameGrant.trans {l m n : LockRecord} (a : SameGrant l m) (b : SameGrant m n) : SameGrant l n := by
  refine ⟨b.1.trans a.1, fun h e => ?_⟩
  obtain ⟨h1, e1, f1⟩ := b.2 h e
  obtain ⟨h2, e2, f2⟩ := a.2 h1 e1
  exact ⟨h2, e2, f1.trans f2⟩

/-- A record whose phase and generation are as before. -/
theorem sameGrant_of {l l' : LockRecord} (h : l'.generation = l.generation) (p : l'.phase = l.phase) : SameGrant l l' :=
  ⟨h, fun h' e => ⟨h', p ▸ e, rfl⟩⟩

/-- A record that is not HELD, of the same generation. -/
theorem sameGrant_of_not_held {l l' : LockRecord} (h : l'.generation = l.generation) (p : ∀ x, l'.phase ≠ .held x) :
    SameGrant l l' := ⟨h, fun x e => absurd e (p x)⟩

/-- The grant is as before or over, or the lock is granted once and HELD. -/
def GrantedAtMostOnce (l l' : LockRecord) : Prop := SameGrant l l' ∨
    (l'.generation = l.generation + 1 ∧ ∃ h, l'.phase = .held h)

theorem GrantedAtMostOnce.refl (l) : GrantedAtMostOnce l l := .inl (SameGrant.refl l)

theorem GrantedAtMostOnce.after {l m n : LockRecord} (h : SameGrant l m) (g : GrantedAtMostOnce m n) :
    GrantedAtMostOnce l n := by
  rcases g with g | ⟨a, b⟩
  · exact .inl (h.trans g)
  · exact .inr ⟨a.trans (by rw [h.1]), b⟩

theorem grantedAtMostOnce_askYield (s : State) (k) : GrantedAtMostOnce (s.lock k) ((s.askYield k).lock k) ∧
    ((s.askYield k).lock k).generation = (s.lock k).generation ∧
    ((∃ h, (s.lock k).phase = .held h) → ∃ h, ((s.askYield k).lock k).phase = .held h) := by
  unfold State.askYield; split
  · rename_i h0 hp
    split
    · refine ⟨.inl ⟨by simp, fun x hx => ⟨h0, hp, ?_⟩⟩, by simp, fun _ => ⟨_, by simp; rfl⟩⟩
      simp at hx; rw [← hx]
    · exact ⟨GrantedAtMostOnce.refl _, rfl, fun h => h⟩
  · exact ⟨GrantedAtMostOnce.refl _, rfl, fun h => h⟩

theorem grantedAtMostOnce_handoff (s : State) (k) : GrantedAtMostOnce (s.lock k) ((s.handoff k).lock k) := by
  have hp : GrantedAtMostOnce (s.lock k) ((s.passLock k).lock k) := by
    unfold State.passLock; split
    · rename_i e rest hq
      obtain ⟨_, b, c⟩ := grantedAtMostOnce_askYield ((s.setLock k ((s.lock k).granted e.port e.owner e.yield e.lease rest)).raise e.port (.grant k ((s.lock k).generation + 1) e.owner (s.lock k).handoffCause)) k
      refine .inr ⟨by rw [b]; simp [LockRecord.granted], c ⟨_, by simp [LockRecord.granted]; rfl⟩⟩
    · exact .inl (sameGrant_of_not_held (by simp) (by simp))
  unfold State.handoff; split
  · split
    · have : ((s.passLock k).respondDue ‹Releasing›.prev { code := 0x21#8, tag := ‹Byte›, status := .ok, body := .generation (s.lock k).generation }).lock k = (s.passLock k).lock k := by
        unfold State.lock; rw [locks_respondDue]
      rw [this]; exact hp
    · exact hp
  · exact GrantedAtMostOnce.refl _

theorem grantedAtMostOnce_endGrant (s : State) (k p t) : GrantedAtMostOnce (s.lock k) ((s.endGrant k p t).lock k) :=
    by
  unfold State.endGrant; dsimp only; split
  · have := grantedAtMostOnce_handoff (s.setLock k { s.lock k with phase := .releasing { prev := p, watch := (s.port p).writeSeq, tag := t } }) k
    rw [State.lock_setLock_same] at this
    refine GrantedAtMostOnce.after ?_ this
    exact sameGrant_of_not_held rfl (by simp)
  · exact .inl (sameGrant_of_not_held (by simp) (by simp))

theorem grantedAtMostOnce_release (s : State) (k) : GrantedAtMostOnce (s.lock k) ((s.releaseByLeave k).lock k) := by
  unfold State.releaseByLeave; split
  · exact grantedAtMostOnce_endGrant _ _ _ _
  · exact GrantedAtMostOnce.refl _

theorem grantedAtMostOnce_revoke (s : State) (k c) : GrantedAtMostOnce (s.lock k) ((s.revoke k c).lock k) := by
  unfold State.revoke; split
  · rename_i h hp
    dsimp only
    split
    · have := grantedAtMostOnce_endGrant (s.setLock k { s.lock k with cause := (s.lock k).revokedCause c }) k h.port none
      rw [State.lock_setLock_same] at this
      exact this.after (sameGrant_of rfl rfl)
    · have := grantedAtMostOnce_endGrant ((s.setLock k { s.lock k with cause := (s.lock k).revokedCause c }).raise h.port (.revoked k (s.lock k).generation c)) k h.port none
      rw [State.lock_raise, State.lock_setLock_same] at this
      exact this.after (sameGrant_of rfl rfl)
  · exact GrantedAtMostOnce.refl _

/-- The lock a task of an event acts on. -/
def taskLock : Task → Option Lock
  | .handoff k => some k
  | .revoke k => some k
  | .release k => some k
  | _ => none

theorem grantedAtMostOnce_runTask (p s x k) : GrantedAtMostOnce (s.lock k) ((State.runTask p s x).lock k) ∧
    (taskLock x ≠ some k → (State.runTask p s x).lock k = s.lock k) := by
  cases x <;> simp only [State.runTask, taskLock]
  case handoff j =>
    by_cases e : k = j
    · subst e; exact ⟨grantedAtMostOnce_handoff s k, fun h => absurd rfl h⟩
    · rw [lock_handoff_ne _ _ _ e]; exact ⟨GrantedAtMostOnce.refl _, fun _ => rfl⟩
  case revoke j =>
    by_cases e : k = j
    · subst e; exact ⟨grantedAtMostOnce_revoke s k _, fun h => absurd rfl h⟩
    · rw [lock_revoke_ne _ _ _ _ e]; exact ⟨GrantedAtMostOnce.refl _, fun _ => rfl⟩
  case release j =>
    by_cases e : k = j
    · subst e; exact ⟨grantedAtMostOnce_release s k, fun h => absurd rfl h⟩
    · rw [lock_release_ne _ _ _ e]; exact ⟨GrantedAtMostOnce.refl _, fun _ => rfl⟩
  case note => have : (s.fireNextNote p).lock k = s.lock k := by unfold State.lock; simp
               rw [this]; exact ⟨GrantedAtMostOnce.refl _, fun _ => rfl⟩
  case commit => have : (s.completeCommit).lock k = s.lock k := by unfold State.lock; simp
                 rw [this]; exact ⟨GrantedAtMostOnce.refl _, fun _ => rfl⟩

theorem lock_foldl_same (p) (l : List Task) (s : State) (k) (h : k ∉ l.filterMap taskLock) :
    (l.foldl (fun t x => State.runTask p t x) s).lock k = s.lock k := by
  induction l generalizing s with
  | nil => rfl
  | cons x l ih =>
    simp only [List.foldl_cons]
    rw [List.filterMap_cons] at h
    have hx : taskLock x ≠ some k := by
      intro e; rw [e] at h; simp at h
    have hl : k ∉ l.filterMap taskLock := by
      intro hk; apply h; split
      · exact hk
      · exact List.mem_cons_of_mem _ hk
    rw [ih _ hl, (grantedAtMostOnce_runTask p s x k).2 hx]

theorem grantedAtMostOnce_fold (p) (l : List Task) (s : State) (k) (h : (l.filterMap taskLock).Nodup) :
    GrantedAtMostOnce (s.lock k) ((l.foldl (fun t x => State.runTask p t x) s).lock k) := by
  induction l generalizing s with
  | nil => exact GrantedAtMostOnce.refl _
  | cons x l ih =>
    simp only [List.foldl_cons]
    rw [List.filterMap_cons] at h
    cases hx : taskLock x with
    | none => rw [hx] at h; have := ih (State.runTask p s x) h; rw [(grantedAtMostOnce_runTask p s x k).2 (by simp [hx])] at this; exact this
    | some j =>
      rw [hx] at h; simp only [List.nodup_cons] at h
      by_cases e : k = j
      · subst e
        rw [lock_foldl_same _ _ _ _ h.1]; exact (grantedAtMostOnce_runTask p s x k).1
      · have := ih (State.runTask p s x) h.2; rw [(grantedAtMostOnce_runTask p s x k).2 (by rw [hx]; simpa using Ne.symm e)] at this; exact this

theorem grantedAtMostOnce_runTasks (s : State) (p l k) (h : (l.filterMap taskLock).Nodup) :
    GrantedAtMostOnce (s.lock k) ((s.runTasks p l).lock k) := by
  unfold State.runTasks State.arranged
  dsimp only
  exact grantedAtMostOnce_fold p _ ({ s with fresh := s.fresh + l.length } : State)
      k (((arrange_perm l.length s.fresh l le_rfl).filterMap taskLock).nodup_iff.mpr h)

theorem grantedAtMostOnce_closeEvent (s : State) (p l k) (h : (l.filterMap taskLock).Nodup) :
    GrantedAtMostOnce (s.lock k) ((s.closeEvent p l).lock k) := by
  unfold State.closeEvent; dsimp only; split
  · rw [lock_of_locks (locks_sessionTests _), lock_of_locks (locks_completeCommit _), lock_of_locks (locks_sessionTests _)]
    exact grantedAtMostOnce_runTasks _ _ _ _ h
  · rw [lock_of_locks (locks_sessionTests _)]
    refine grantedAtMostOnce_runTasks _ _ _ _ ?_
    have hc : (if s.commitDue = true then [Task.commit] else []).filterMap taskLock = [] := by split <;> rfl
    rw [List.filterMap_append, hc, List.append_nil]; exact h

theorem taskLock_map (f : Lock → Task) (hf : ∀ k, taskLock (f k) = some k) (l : List Lock) :
    (l.map f).filterMap taskLock = l := by
  induction l with
  | nil => rfl
  | cons x l ih => simp [hf, ih]

theorem taskLock_fired (s : State) (p) : ((s.firedTasks p).filterMap taskLock).Nodup := by
  unfold State.firedTasks
  rw [List.filterMap_append, taskLock_map _ (fun _ => rfl)]
  have : (List.replicate (s.firedNotes p) Task.note).filterMap taskLock = [] :=
      by simp [List.filterMap_eq_nil_iff, taskLock]
  rw [this, List.append_nil]
  exact allLocks_nodup.filter _

theorem sameGrant_removeWaiter (l : LockRecord) (p) : SameGrant l (l.removeWaiter p) ∧
    ((∃ h, l.phase = .held h) → ∃ h, (l.removeWaiter p).phase = .held h) := by
  unfold LockRecord.removeWaiter; dsimp only; split
  · rename_i h0 hp
    refine ⟨⟨rfl, fun x hx => ⟨h0, hp, ?_⟩⟩, fun _ => ⟨_, rfl⟩⟩
    simp only [LockPhase.held.injEq] at hx; rw [← hx]; split <;> rfl
  · exact ⟨sameGrant_of rfl rfl, fun h => h⟩

theorem grantedAtMostOnce_removeWaits {l : LockRecord} {s : State} {k p} (h : GrantedAtMostOnce l (s.lock k)) :
    GrantedAtMostOnce l ((s.removeWaits p).lock k) := by
  rw [lock_removeWaits]; obtain ⟨a, b⟩ := sameGrant_removeWaiter (s.lock k) p
  rcases h with h | ⟨h1, h2⟩
  · exact .inl (h.trans a)
  · exact .inr ⟨a.1.trans h1, b h2⟩

theorem lock_leaveDrain (s : State) (p r k) : (s.leaveDrain p r).lock k = s.lock k :=
    by unfold State.leaveDrain; split <;> rfl

theorem generation_noticeFailures (s : State) (e k) :
    ((s.noticeFailures e).lock k).generation = (s.lock k).generation ∧
    ((s.noticeFailures e).lock k).phase = (s.lock k).phase := by
  unfold State.noticeFailures
  generalize e.guards = l
  induction l generalizing s with
  | nil => exact ⟨rfl, rfl⟩
  | cons g l ih =>
    simp only [List.foldl_cons]
    obtain ⟨a, b⟩ := ih (s.noticeFailure g.lock)
    rw [a, b]; unfold State.noticeFailure; rw [State.lock_setLock]; split
    · subst_vars; exact ⟨rfl, rfl⟩
    · exact ⟨rfl, rfl⟩

theorem sameGrant_writeReport (s : State) (p : Port) (e : WriteEntry) (k : Lock) :
    SameGrant (s.lock k) ((s.writeReport p e).lock k) := by
  have hd : ∀ x, (s.respondDue p x).lock k = s.lock k := fun x => lock_of_locks (locks_respondDue s p x) k
  unfold State.writeReport; dsimp only; split
  · split
    · exact SameGrant.refl _
    · rw [hd]; exact SameGrant.refl _
  · split
    · rw [State.lock_onPort]; exact sameGrant_of (generation_noticeFailures _ _ _).1 (generation_noticeFailures _ _ _).2
    · exact sameGrant_of ((generation_noticeFailures _ _ _).1.trans (by rw [hd]))
        ((generation_noticeFailures _ _ _).2.trans (by rw [hd]))

theorem sameGrant_finishWrite (s : State) (p e k) : SameGrant (s.lock k) ((s.finishWrite p e).lock k) := by
  unfold State.finishWrite
  rw [lock_leaveDrain, State.lock_onPort]
  exact sameGrant_writeReport (s.onPort p _) p e k

theorem lock_finishRead (s : State) (p e k) : (s.finishRead p e).lock k = s.lock k := by
  unfold State.finishRead
  rw [lock_leaveDrain, lock_of_locks (locks_respondDue _ _ _)]; rfl

theorem grantedAtMostOnce_finishWrite (s : State) (p : Port) (e : WriteEntry) (k : Lock) :
    GrantedAtMostOnce (s.lock k) (((s.finishWrite p e).closeEvent p ((s.finishWrite p e).firedTasks p)).lock k) := by
  have h := sameGrant_finishWrite s p e k
  generalize s.finishWrite p e = u at *
  exact (grantedAtMostOnce_closeEvent u p _ k (taskLock_fired u p)).after h

theorem grantedAtMostOnce_finishRead (s : State) (p : Port) (e : ReadEntry) (k : Lock) :
    GrantedAtMostOnce (s.lock k) (((s.finishRead p e).closeEvent p []).lock k) := by
  have h := lock_finishRead s p e k
  generalize s.finishRead p e = u at *
  rw [← h]; exact grantedAtMostOnce_closeEvent u p [] k (by simp)

theorem grantedAtMostOnce_endPiece (s : State) (j e k) : GrantedAtMostOnce (s.lock k) ((s.endPiece j e).lock k) := by
  unfold State.endPiece; split
  · split
    · dsimp only; split
      · exact grantedAtMostOnce_finishWrite (s.onPort j.port _) j.port _ k
      · exact GrantedAtMostOnce.refl _
    · exact GrantedAtMostOnce.refl _
  · split
    · dsimp only; split
      · exact grantedAtMostOnce_finishRead (s.onPort j.port _) j.port _ k
      · exact GrantedAtMostOnce.refl _
    · exact GrantedAtMostOnce.refl _

theorem grantedAtMostOnce_endJob (s : State) (n j e k) : GrantedAtMostOnce (s.lock k) ((s.endJob n j e).lock k) :=
    grantedAtMostOnce_endPiece (s.releaseSlot n) _ _ _

theorem grantedAtMostOnce_departs (s : State) (p : Port) (l : List Task) (k : Lock)
    (h : (l.filterMap taskLock).Nodup) :
    GrantedAtMostOnce (s.lock k) (((s.runTasks p l).removeWaits p).lock k) :=
        grantedAtMostOnce_removeWaits (grantedAtMostOnce_runTasks s p l k h)

theorem grantedAtMostOnce_leaveEvent (s : State) (p tag k) : GrantedAtMostOnce (s.lock k)
    ((s.leaveEvent p tag).lock k) := by
  unfold State.leaveEvent; dsimp only
  rw [lock_of_locks (locks_sessionTests _), lock_of_locks (locks_departTarget _ _)]
  have h0 : (s.onPort p (·.startLeave tag)).lock k = s.lock k := rfl
  rw [← h0]
  generalize s.onPort p (·.startLeave tag) = s1
  have h1 := grantedAtMostOnce_departs s1 p ((s1.heldLocks p).map .release)
      k (by rw [taskLock_map _ (fun _ => rfl)]; exact allLocks_nodup.filter _)
  generalize (s1.runTasks p ((s1.heldLocks p).map .release)).removeWaits p = s2 at *
  exact h1

theorem grantedAtMostOnce_linkLossEvent (s : State) (p k) : GrantedAtMostOnce (s.lock k)
    ((s.linkLossEvent p).lock k) := by
  unfold State.linkLossEvent; dsimp only
  have h0 : ((s.onPort p (·.loseLink)).dropReads p ((s.port p).readL.filter (fun e => !e.survives))).lock k = s.lock
      k := lock_of_locks (locks_dropReads _ _ _) k
  rw [lock_of_locks (locks_sessionTests _), ← h0]
  generalize ((s.onPort p (·.loseLink)).dropReads p ((s.port p).readL.filter (fun e => !e.survives))) = s1
  have hc : (if s1.commitDue = true then [Task.commit] else []).filterMap taskLock = [] := by split <;> rfl
  have h1 := grantedAtMostOnce_departs s1 p ((s1.heldLocks p).map .revoke ++ if s1.commitDue then [.commit] else [])
      k (by rw [List.filterMap_append, taskLock_map _ (fun _ => rfl), hc, List.append_nil]; exact allLocks_nodup.filter _)
  generalize (s1.runTasks p ((s1.heldLocks p).map .revoke ++ if s1.commitDue then [.commit] else [])).removeWaits p =
      s2 at *
  have h2 : ∀ t : State, (t.dropNotes p).lock k = t.lock k := fun _ => rfl
  rw [h2, lock_of_locks (locks_departTarget _ _)]
  exact h1

/-- Every lock has been granted at most once. -/
def GrantsAtMostOnce (s t : State) : Prop := ∀ k, GrantedAtMostOnce (s.lock k) (t.lock k)

theorem lock_request_cases (s : State) (p r go k) : (s.request p r go).lock k = s.lock k ∨ ∃ t,
    (∀ j, t.lock j = s.lock j) ∧ s.request p r go = go t := by
  unfold State.request; split
  · unfold State.sessionCheck; split
    · exact .inl rfl
    · exact .inl rfl
    · exact .inl rfl
    · unfold State.tagCheck; split
      · exact .inl rfl
      · split
        · exact .inl rfl
        · exact .inr ⟨(s.taken p).onPort p (fun P => { P with tags := P.tags ++ [r.tag] }), fun _ => rfl, rfl⟩
  · exact .inl rfl

theorem grantsAtMostOnce_request {s : State} {p r go} (h : ∀ t k, GrantedAtMostOnce (t.lock k) ((go t).lock k)) :
    GrantsAtMostOnce s (s.request p r go) := by
  intro k
  rcases lock_request_cases s p r go k with e | ⟨t, e, e'⟩
  · rw [e]; exact GrantedAtMostOnce.refl _
  · rw [e', ← e k]; exact h t k

theorem grantsAtMostOnce_same {s t : State} (h : t.locks = s.locks) : GrantsAtMostOnce s t :=
    fun k => by rw [lock_of_locks h]; exact GrantedAtMostOnce.refl _

theorem grantedAtMostOnce_setLock (s : State) (j k l) (h : GrantedAtMostOnce (s.lock j) l) :
    GrantedAtMostOnce (s.lock k) ((s.setLock j l).lock k) := by
  rw [State.lock_setLock]; split
  · subst_vars; exact h
  · exact GrantedAtMostOnce.refl _

theorem grantsAtMostOnce_request_same {s : State} {p r go} (h : ∀ t, (go t).locks = t.locks) :
    GrantsAtMostOnce s (s.request p r go) := grantsAtMostOnce_request
    (fun t k => by rw [lock_of_locks (h t)]; exact GrantedAtMostOnce.refl _)

theorem locks_asOwner (s : State) (p r go) (h : ∀ o, (go s o).locks = s.locks) :
    (s.asOwner p r go).locks = s.locks := by
  unfold State.asOwner; split
  · split
    · exact h _
    · rfl
  · rfl

theorem grantedAtMostOnce_withLock (s : State) (p r l go k)
    (h : ∀ j, GrantedAtMostOnce (s.lock k) ((go s j).lock k)) : GrantedAtMostOnce (s.lock k)
    ((s.withLock p r l go).lock k) := by
  unfold State.withLock; split
  · exact h _
  · exact GrantedAtMostOnce.refl _

theorem grantedAtMostOnce_asHolder (s : State) (p r g j go k)
    (h : ∀ x, (s.lock j).phase = .held x → GrantedAtMostOnce (s.lock k) ((go s x).lock k)) :
    GrantedAtMostOnce (s.lock k) ((s.asHolder p r g j go).lock k) := by
  unfold State.asHolder; split
  · split
    · split
      · exact h _ ‹_›
      · exact GrantedAtMostOnce.refl _
    · exact GrantedAtMostOnce.refl _
  · exact GrantedAtMostOnce.refl _

theorem grantedAtMostOnce_endGrant_any (s : State) (j p t k) : GrantedAtMostOnce (s.lock k)
    ((s.endGrant j p t).lock k) := by
  by_cases e : k = j
  · subst e; exact grantedAtMostOnce_endGrant _ _ _ _
  · rw [lock_endGrant_ne _ _ _ _ _ e]; exact GrantedAtMostOnce.refl _

theorem grantedAtMostOnce_revoke_any (s : State) (j c k) : GrantedAtMostOnce (s.lock k) ((s.revoke j c).lock k) := by
  by_cases e : k = j
  · subst e; exact grantedAtMostOnce_revoke _ _ _
  · rw [lock_revoke_ne _ _ _ _ e]; exact GrantedAtMostOnce.refl _

end Sys2Proof.Machine
end

