-- ==== Sys2Proof/Laws/Notices.lean ====
section
/-! SUPPORT. What the shared operations keep of the notification invariant: which leave reservations, entries and NOTICE items alone,
and what the others do to them. -/

namespace Sys2Proof.Machine

open Sys2Proof

/-- The notification invariant (Sys2Proof/Safety.lean), the ports that `on` names in place of the ONLINE ones. -/
structure NoticesLegalFor (on : Port → Prop) (s : State) : Prop where
  a : ∀ p, s.noticePlaces p ≤ 8
  b : ∀ q, ∀ n ∈ (s.port q).notes, n.cancelled = false → on n.target
  c : ∀ p, ¬ on p → (s.port p).notices = []
  d : ∀ p, (∃ n ∈ (s.port p).notices, n.delivered = false) ↔ .notice ∈ (s.port p).events

theorem noticesLegal_iff (s : State) : s.noticesLegal ↔ NoticesLegalFor (fun p => (s.port p).session = .online) s :=
    by
  constructor
  · rintro ⟨a, b, c, d⟩; exact ⟨a, b, c, d⟩
  · rintro ⟨a, b, c, d⟩; exact ⟨a, b, c, d⟩

theorem noticesLegalFor_mono {on on' : Port → Prop} {s : State} (h : NoticesLegalFor on s) (hm : ∀ p, on p → on' p) :
    NoticesLegalFor on' s :=
  ⟨h.a, fun q n hn hc => hm _ (h.b q n hn hc), fun p hp => h.c p (fun ho => hp (hm _ ho)), h.d⟩

/-! ## Operations that leave the notifications alone -/

/-- Reservations, entries and the NOTICE item of every port are as before. -/
def SameNotices (s t : State) : Prop := ∀ p, (t.port p).notes = (s.port p).notes ∧
    (t.port p).notices = (s.port p).notices ∧ (.notice ∈ (t.port p).events ↔ .notice ∈ (s.port p).events)

/-- Reservations, entries and the NOTICE item of one port are as before. -/
def PortState.SameNotices (P Q : PortState) : Prop := Q.notes = P.notes ∧ Q.notices = P.notices ∧
    (Item.notice ∈ Q.events ↔ Item.notice ∈ P.events)

theorem PortState.SameNotices.refl (P) : PortState.SameNotices P P := ⟨rfl, rfl, Iff.rfl⟩

theorem PortState.SameNotices.trans {P Q R} (h : PortState.SameNotices P Q) (g : PortState.SameNotices Q R) :
    PortState.SameNotices P R := ⟨g.1.trans h.1, g.2.1.trans h.2.1, g.2.2.trans h.2.2⟩

theorem SameNotices.refl (s) : SameNotices s s := fun _ => PortState.SameNotices.refl _

theorem SameNotices.trans {s t u} (h : SameNotices s t) (g : SameNotices t u) : SameNotices s u :=
    fun p => PortState.SameNotices.trans (h p) (g p)

theorem sameNotices_onPort {s : State} {p f} (h : PortState.SameNotices (s.port p) (f (s.port p))) :
    SameNotices s (s.onPort p f) := by
  intro q; rw [State.port_onPort]; split
  · subst_vars; exact h
  · exact PortState.SameNotices.refl _

theorem sameNotices_ports {s t : State} (h : t.ports = s.ports) : SameNotices s t :=
    by intro p; unfold State.port; rw [h]; exact PortState.SameNotices.refl _

theorem sameNotices_foldl {α : Type} {f : State → α → State} (hf : ∀ s x, SameNotices s (f s x)) (l : List α)
    (s : State) : SameNotices s (l.foldl f s) := by
  induction l generalizing s with
  | nil => exact SameNotices.refl s
  | cons x l ih => exact (hf s x).trans (ih _)

theorem noticesLegalFor_same {on} {s t : State} (h : SameNotices s t) (g : NoticesLegalFor on s) :
    NoticesLegalFor on t := by
  refine ⟨fun p => ?_, fun q n hn => ?_, fun p hp => ?_, fun p => ?_⟩
  · have : t.noticePlaces p = s.noticePlaces p := by
      unfold State.noticePlaces State.reservations
      rw [(h p).2.1]; congr 2; apply List.map_congr_left; intro q _; rw [(h q).1]
    rw [this]; exact g.a p
  · rw [(h q).1] at hn; exact g.b q n hn
  · rw [(h p).2.1]; exact g.c p hp
  · rw [(h p).2.1, (h p).2.2]; exact g.d p

theorem raiseInto_notice {it : Item} (hit : it ≠ .notice) (l) : Item.notice ∈ raiseInto it l ↔ Item.notice ∈ l := by
  have hk : it.sameKey .notice = false := by rw [sameKey_false]; cases it <;> simp_all [Item.key]
  unfold raiseInto; split
  · simp only [List.mem_map]
    constructor
    · rintro ⟨a, ha, h⟩; split at h
      · exact absurd h hit
      · subst h; exact ha
    · intro h; exact ⟨_, h, by simp [hk]⟩
  · simp [Ne.symm hit]

theorem portSameNotices_raise {P : PortState} {it} (h : it ≠ .notice) : PortState.SameNotices P (P.raise it) := by
  unfold PortState.raise; split
  · exact ⟨rfl, rfl, raiseInto_notice h _⟩
  · exact PortState.SameNotices.refl _

theorem portSameNotices_withdraw {P : PortState} {it} (h : it ≠ .notice) : PortState.SameNotices P (P.withdraw it) :=
    by
  refine ⟨rfl, rfl, ?_⟩
  have hk : it.sameKey .notice = false := by rw [sameKey_false]; cases it <;> simp_all [Item.key]
  simp [PortState.withdraw, hk]

theorem portSameNotices_record {P : PortState} {r} : PortState.SameNotices P (P.record r) := by
  unfold PortState.record; split
  · refine PortState.SameNotices.trans ?_ (portSameNotices_raise (by simp))
    unfold PortState.keepRecord; split <;> exact ⟨rfl, rfl, Iff.rfl⟩
  · exact PortState.SameNotices.refl _

theorem sameNotices_raise {s : State} {p it} (h : it ≠ .notice) : SameNotices s (s.raise p it) :=
    sameNotices_onPort (portSameNotices_raise h)

theorem sameNotices_keep {s : State} {p f} (h1 : (f (s.port p)).notes = (s.port p).notes)
    (h2 : (f (s.port p)).notices = (s.port p).notices) (h3 : (f (s.port p)).events = (s.port p).events) :
    SameNotices s (s.onPort p f) := sameNotices_onPort ⟨h1, h2, by rw [h3]⟩

theorem sameNotices_respond {s : State} {p x} : SameNotices s (s.respond p x) := sameNotices_keep rfl rfl rfl

theorem sameNotices_respondDue {s : State} {p x} : SameNotices s (s.respondDue p x) :=
    by unfold State.respondDue; split; exact sameNotices_respond; exact SameNotices.refl _

theorem sameNotices_setLock {s : State} {k l} : SameNotices s (s.setLock k l) := sameNotices_ports rfl

theorem sameNotices_askYield (s : State) (k) : SameNotices s (s.askYield k) := by
  unfold State.askYield; split
  · split
    · exact SameNotices.trans sameNotices_setLock (sameNotices_raise (by simp))
    · exact SameNotices.refl _
  · exact SameNotices.refl _

theorem sameNotices_passLock (s : State) (k) : SameNotices s (s.passLock k) := by
  unfold State.passLock; split
  · exact (SameNotices.trans sameNotices_setLock (sameNotices_raise (by simp))).trans (sameNotices_askYield _ _)
  · exact sameNotices_setLock

theorem sameNotices_handoff (s : State) (k) : SameNotices s (s.handoff k) := by
  unfold State.handoff; split
  · split
    · exact (sameNotices_passLock _ _).trans sameNotices_respondDue
    · exact sameNotices_passLock _ _
  · exact SameNotices.refl _

theorem sameNotices_endGrant (s : State) (k p tag) : SameNotices s (s.endGrant k p tag) := by
  unfold State.endGrant; dsimp only; split
  · exact sameNotices_setLock.trans (sameNotices_handoff _ _)
  · exact sameNotices_setLock

theorem sameNotices_revoke (s : State) (k c) : SameNotices s (s.revoke k c) := by
  unfold State.revoke; split
  · dsimp only; refine SameNotices.trans ?_ (sameNotices_endGrant _ _ _ _); split
    · exact sameNotices_setLock
    · exact sameNotices_setLock.trans (sameNotices_raise (by simp))
  · exact SameNotices.refl _

theorem sameNotices_releaseByLeave (s : State) (k) : SameNotices s (s.releaseByLeave k) := by
  unfold State.releaseByLeave; split
  · exact sameNotices_endGrant _ _ _ _
  · exact SameNotices.refl _

theorem sameNotices_removeWaits (s : State) (p) : SameNotices s (s.removeWaits p) :=
    sameNotices_foldl (fun _ _ => sameNotices_setLock) _ _

theorem sameNotices_accepting (s : State) (p r) : SameNotices s (s.accepting p r) := by
  unfold State.accepting; split
  · split
    · exact sameNotices_respond
    · exact sameNotices_keep rfl rfl rfl
    · exact sameNotices_keep rfl rfl rfl
  · split
    · exact sameNotices_respond
    · exact sameNotices_keep rfl rfl rfl
    · unfold State.acceptWrite; dsimp only; split
      · exact SameNotices.trans (sameNotices_keep rfl rfl rfl) sameNotices_respond
      · exact sameNotices_keep rfl rfl rfl
  · exact SameNotices.refl _

theorem sameNotices_retake (s : State) (p) : SameNotices s (s.retake p) := by
  unfold State.retake; split
  · split
    · dsimp only
      have a : SameNotices s (s.onPort p (fun P => { P with hold := none })) := sameNotices_keep rfl rfl rfl
      split
      · exact a.trans (sameNotices_accepting _ _ _)
      · exact a.trans sameNotices_respond
      · exact a.trans sameNotices_respond
      · exact a.trans sameNotices_respond
    · exact SameNotices.refl _
  · exact SameNotices.refl _

theorem sameNotices_leaveTest (s : State) (p) : SameNotices s (s.leaveTest p) := by
  unfold State.leaveTest; split
  · split
    · exact sameNotices_keep rfl rfl rfl
    · exact SameNotices.refl _
  · exact SameNotices.refl _

theorem sameNotices_tagCheck {s : State} {p r go} (h : ∀ t, SameNotices t (go t)) :
    SameNotices s (s.tagCheck p r go) := by
  unfold State.tagCheck; split
  · exact sameNotices_keep rfl rfl rfl
  · split
    · exact sameNotices_onPort (PortState.SameNotices.trans (Q := { s.port p with places := (s.port p).places - 1 }) ⟨rfl, rfl, Iff.rfl⟩ portSameNotices_record)
    · exact SameNotices.trans (sameNotices_keep rfl rfl rfl) (h _)

theorem sameNotices_helloOffline (s : State) (p r a b) : SameNotices s (s.helloOffline p r a b) := by
  refine sameNotices_tagCheck (fun t => ?_)
  unfold State.helloFields; split
  · unfold State.startSession; dsimp only
    exact SameNotices.trans (sameNotices_keep rfl rfl rfl) sameNotices_respond
  · exact sameNotices_respond

theorem sameNotices_raiseRevision (s : State) (p) : SameNotices s (s.raiseRevision p) := by
  exact sameNotices_raise (by simp)

theorem sameNotices_completeCommit (s : State) : SameNotices s s.completeCommit := by
  unfold State.completeCommit; split
  · dsimp only
    refine (SameNotices.trans ?_ (sameNotices_foldl (fun _ _ => sameNotices_raiseRevision _ _) _ _)).trans
        (sameNotices_foldl (fun _ _ => sameNotices_retake _ _) _ _)
    unfold State.answerCommit; split
    · exact sameNotices_ports (ports_replaceRows _ _)
    · refine SameNotices.trans ?_ sameNotices_respondDue; exact sameNotices_ports (ports_replaceRows _ _)
  · exact SameNotices.refl _

/-! ## Operations that touch the notifications -/
theorem noticesLegalFor_goOffline {on} {s : State} {p} (h : NoticesLegalFor on s) (hp : ¬ on p) :
    NoticesLegalFor on (s.onPort p (·.goOffline)) := by
  have hc := h.c p hp
  refine ⟨fun q => ?_, fun q n hn => ?_, fun q hq => ?_, fun q => ?_⟩
  · have e : ∀ q, ((s.onPort p (·.goOffline)).port q).notes = (s.port q).notes ∧ ((s.onPort p (·.goOffline)).port q).notices = (s.port q).notices := by
      intro q; rw [State.port_onPort]; split
      · subst_vars; exact ⟨rfl, rfl⟩
      · exact ⟨rfl, rfl⟩
    have : (s.onPort p (·.goOffline)).noticePlaces q = s.noticePlaces q := by
      unfold State.noticePlaces State.reservations
      rw [(e q).2]; congr 2; apply List.map_congr_left; intro q' _; rw [(e q').1]
    rw [this]; exact h.a q
  · rw [State.port_onPort] at hn; split at hn
    · subst_vars; exact h.b _ n hn
    · exact h.b q n hn
  · rw [State.port_onPort]; split
    · subst_vars; exact hc
    · exact h.c q hq
  · rw [State.port_onPort]; split
    · subst_vars; simp [PortState.goOffline, hc]
    · exact h.d q

theorem noticesLegalFor_closingTest {on} {s : State} {p} (h : NoticesLegalFor on s)
    (ho : ∀ q, on q → (s.port q).session ≠ .closing) : NoticesLegalFor on (s.closingTest p) := by
  unfold State.closingTest; split
  · rename_i hc
    simp at hc
    have h1 := noticesLegalFor_goOffline h (fun hp => ho p hp hc.1)
    unfold State.retakeHello; split
    · split
      · refine noticesLegalFor_same (SameNotices.trans ?_ (sameNotices_helloOffline _ _ _ _ _)) h1; exact sameNotices_keep rfl rfl rfl
      · exact h1
    · exact h1
  · exact h

/-- Every port that `on` names is in contact with its host. -/
def InContactFor (on : Port → Prop) (s : State) : Prop := ∀ q, on q → (s.port q).session = .online ∨
    (s.port q).session = .leaving

theorem session_leaveTest (s : State) (p q) : ((s.leaveTest p).port q).session = (s.port q).session := by
  unfold State.leaveTest; split
  · split
    · rw [State.port_onPort]; split
      · subst_vars; rfl
      · rfl
    · rfl
  · rfl

theorem port_closingTest_ne (s : State) (p q) (h : (s.port p).session ≠ .closing) :
    (s.closingTest p).port q = s.port q := by
  unfold State.closingTest; simp [h]

theorem inContactFor_closingTest {on} {s : State} {p} (h : InContactFor on s) : InContactFor on (s.closingTest p) :=
    by
  intro q hq
  by_cases hc : (s.port p).session = .closing
  · have hne : q ≠ p := by rintro rfl; rcases h q hq with h | h <;> simp [h] at hc
    have : ((s.closingTest p).port q).session = (s.port q).session := by
      have t : ∀ (u : State) (f : PortState → PortState), (u.onPort p f).port q = u.port q :=
          fun u f => State.port_onPort_ne _ _ hne
      unfold State.closingTest; split
      · unfold State.retakeHello; split
        · split
          · unfold State.helloOffline State.tagCheck State.helloFields State.startSession State.respond
            dsimp only
            split
            · simp [t]
            · split
              · simp [t]
              · split <;> simp [t]
          · simp [t]
        · simp [t]
      · rfl
    rw [this]; exact h q hq
  · rw [port_closingTest_ne _ _ _ hc]; exact h q hq

theorem noticesLegalFor_sessionTests {on} {s : State} (h : NoticesLegalFor on s) (hn : InContactFor on s) :
    NoticesLegalFor on s.sessionTests ∧ InContactFor on s.sessionTests := by
  unfold State.sessionTests
  generalize allPorts = l
  induction l generalizing s with
  | nil => exact ⟨h, hn⟩
  | cons p l ih =>
    have n1 : InContactFor on (s.leaveTest p) := fun q hq => by rw [session_leaveTest]; exact hn q hq
    refine ih (noticesLegalFor_closingTest (noticesLegalFor_same (sameNotices_leaveTest s p) h) ?_)
        (inContactFor_closingTest n1)
    intro q hq; rcases n1 q hq with h | h <;> simp [h]

theorem reserved_erase (l : List Note) (n : Note) (t : Port) (hn : n ∈ l) :
    ((l.erase n).filter (·.reservedFor t)).length + (if n.reservedFor t then 1 else 0) =
    (l.filter (·.reservedFor t)).length := by
  induction l with
  | nil => simp at hn
  | cons x l ih =>
    by_cases hx : x = n
    · subst hx
      by_cases hr : x.reservedFor t = true <;> simp [hr]
    · rw [List.erase_cons_tail (by simpa using hx)]
      have hn' : n ∈ l := by rcases List.mem_cons.mp hn with h | h; exact absurd h.symm hx; exact h
      have := ih hn'
      by_cases hr : x.reservedFor t = true <;> simp [hr] <;> omega

theorem reservations_onPort (s : State) (p : Port) (f : PortState → PortState) (t : Port) (d : Nat)
    (hd : ((f (s.port p)).notes.filter (·.reservedFor t)).length + d =
    ((s.port p).notes.filter (·.reservedFor t)).length) : (s.onPort p f).reservations t + d = s.reservations t := by
  unfold State.reservations allPorts
  simp only [List.map_cons, List.map_nil, List.sum_cons, List.sum_nil, State.port_onPort]
  fin_cases p <;> simp at hd ⊢ <;> omega

theorem reservations_onPort_add (s : State) (p : Port) (f : PortState → PortState) (t : Port) (d : Nat)
    (hd : ((f (s.port p)).notes.filter (·.reservedFor t)).length =
    ((s.port p).notes.filter (·.reservedFor t)).length + d) : (s.onPort p f).reservations t = s.reservations t + d :=
    by
  unfold State.reservations allPorts
  simp only [List.map_cons, List.map_nil, List.sum_cons, List.sum_nil, State.port_onPort]
  fin_cases p <;> simp at hd ⊢ <;> omega

theorem noticesLegalFor_appendNotice {on} {s : State} {p n} (h : NoticesLegalFor on s) (ht : on n.target)
    (hroom : s.noticePlaces n.target + 1 ≤ 8) (hc : InContactFor on s) : NoticesLegalFor on (s.appendNotice p n) := by
  unfold State.appendNotice; dsimp only
  set nn : Notice := { sender := p, code := n.code, seq := (s.port n.target).noticeSeq, delivered := false } with hnn
  set s1 := s.onPort n.target (fun T => { T with
      notices := T.notices ++ [{ sender := p, code := n.code, seq := (s.port n.target).noticeSeq, delivered := false }]
      noticeSeq := T.noticeSeq + 1 }) with hs1
  generalize hx : ({ code := 0x30#8, tag := n.tag, status := .ok, body := .noticeSeq (s.port n.target).noticeSeq } :
      Response) = x
  have hnn2 := sameNotices_respondDue (s := s1) (p := p) (x := x)
  have p1 : ∀ q, (s1.port q).notes = (s.port q).notes ∧ (s1.port q).events = (s.port q).events ∧
      (s1.port q).session = (s.port q).session ∧
      (s1.port q).notices = if q = n.target then (s.port q).notices ++ [nn] else (s.port q).notices := by
    intro q; rw [hs1, State.port_onPort]; split
    · subst_vars; exact ⟨rfl, rfl, rfl, rfl⟩
    · exact ⟨rfl, rfl, rfl, rfl⟩
  have ses2 : ∀ q, ((s1.respondDue p x).port q).session = (s.port q).session := by
    intro q; rw [← (p1 q).2.2.1]; unfold State.respondDue; split
    · rw [State.port_respond]; split
      · subst_vars; rfl
      · rfl
    · rfl
  generalize s1.respondDue p x = s2 at *
  have q2 : ∀ q, (s2.port q).notes = (s.port q).notes ∧
      (.notice ∈ (s2.port q).events ↔ .notice ∈ (s.port q).events) ∧
      (s2.port q).notices = if q = n.target then (s.port q).notices ++ [nn] else (s.port q).notices := by
    intro q; obtain ⟨a, b, c⟩ := hnn2 q; obtain ⟨a', b', _, c'⟩ := p1 q
    exact ⟨a.trans a', by rw [c, b'], b.trans c'⟩
  have q3 : ∀ q, ((s2.raise n.target .notice).port q).notes = (s.port q).notes ∧
      ((s2.raise n.target .notice).port q).notices =
      (if q = n.target then (s.port q).notices ++ [nn] else (s.port q).notices) ∧
      (.notice ∈ ((s2.raise n.target .notice).port q).events ↔ (q = n.target ∨ .notice ∈ (s.port q).events)) := by
    intro q
    obtain ⟨a, b, c⟩ := q2 q
    rw [State.port_raise]; split
    · rename_i e; subst e
      have hcon : (s2.port n.target).inContact = true := by
        unfold PortState.inContact; rw [ses2]; rcases hc _ ht with h | h <;> simp [h]
      refine ⟨?_, ?_, ?_⟩
      · rw [← a]; unfold PortState.raise; split <;> rfl
      · simp only [if_true] at c; rw [← c]; unfold PortState.raise; split <;> rfl
      · unfold PortState.raise Item.wanted; simp [hcon]
        unfold raiseInto; split
        · rename_i hany
          obtain ⟨z, hz, hk⟩ := List.any_eq_true.mp hany
          exact List.mem_map.mpr ⟨z, hz, by simp [hk]⟩
        · simp
    · rename_i hne; rw [if_neg hne] at c; exact ⟨a, c, by simp [hne, b]⟩
  refine ⟨fun q => ?_, fun q m hm => ?_, fun q hq => ?_, fun q => ?_⟩
  · have hr : (s2.raise n.target .notice).reservations q = s.reservations q := by
      unfold State.reservations; congr 1; apply List.map_congr_left; intro q' _; rw [(q3 q').1]
    unfold State.noticePlaces at *
    rw [hr, (q3 q).2.1]
    split
    · subst_vars; simp; omega
    · exact h.a q
  · rw [(q3 q).1] at hm; exact h.b q m hm
  · rw [(q3 q).2.1, if_neg (by rintro rfl; exact hq ht)]; exact h.c q hq
  · rw [(q3 q).2.1, (q3 q).2.2]
    split
    · subst_vars
      simp only [true_or, iff_true]; exact ⟨nn, by simp, rfl⟩
    · rename_i hne; simp only [hne, false_or]; exact h.d q

theorem noticesLegalFor_fireNextNote {on} {s : State} {p} (h : NoticesLegalFor on s) (hc : InContactFor on s) :
    NoticesLegalFor on (s.fireNextNote p) := by
  unfold State.fireNextNote; split
  · rename_i n hf
    have hn := List.mem_of_find?_eq_some hf
    have e1 : ∀ t, (s.onPort p (fun P => { P with notes := P.notes.erase n })).reservations t +
        (if n.reservedFor t then 1 else 0) = s.reservations t :=
        fun t => reservations_onPort _ _ _ _ _ (reserved_erase _ _ _ hn)
    have e2 : ∀ t, ((s.onPort p (fun P => { P with notes := P.notes.erase n })).port t).notices =
        (s.port t).notices ∧ ((s.onPort p (fun P => { P with notes := P.notes.erase n })).port t).events =
        (s.port t).events ∧ ((s.onPort p (fun P => { P with notes := P.notes.erase n })).port t).session =
        (s.port t).session ∧ ∀ m ∈ ((s.onPort p (fun P => { P with notes := P.notes.erase n })).port t).notes,
        m ∈ (s.port t).notes := by
      intro t; rw [State.port_onPort]; split
      · subst_vars; exact ⟨rfl, rfl, rfl, fun m hm => List.mem_of_mem_erase hm⟩
      · exact ⟨rfl, rfl, rfl, fun m hm => hm⟩
    generalize (s.onPort p (fun P => { P with notes := P.notes.erase n })) = s1 at *
    have h1 : NoticesLegalFor on s1 := by
      refine ⟨fun t => ?_, fun q m hm => h.b q m ((e2 q).2.2.2 m hm),
          fun q hq => by rw [(e2 q).1]; exact h.c q hq, fun q => by rw [(e2 q).1, (e2 q).2.1]; exact h.d q⟩
      have := h.a t; have := e1 t; unfold State.noticePlaces at *; rw [(e2 t).1]; omega
    have c1 : InContactFor on s1 := fun q hq => by rw [(e2 q).2.2.1]; exact hc q hq
    unfold State.fireNote; split
    · exact noticesLegalFor_same sameNotices_respondDue h1
    · rename_i hcan
      have hcan' : n.cancelled = false := by simpa using hcan
      refine noticesLegalFor_appendNotice h1 (h.b p n hn hcan') ?_ c1
      have := h.a n.target; have e := e1 n.target
      have hr : n.reservedFor n.target = true := by simp [Note.reservedFor, hcan']
      rw [hr] at e; simp at e
      unfold State.noticePlaces at *; rw [(e2 _).1]; omega
  · exact h

theorem session_fireNextNote (s : State) (p q) : ((s.fireNextNote p).port q).session = (s.port q).session := by
  have hd : ∀ (t : State) (x : Response), ((t.respondDue p x).port q).session = (t.port q).session := by
    intro t x; unfold State.respondDue; split
    · rw [State.port_respond]; split
      · subst_vars; rfl
      · rfl
    · rfl
  have ho : ∀ (t : State) (r : Port) (f : PortState → PortState), (∀ P, (f P).session = P.session) →
      ((t.onPort r f).port q).session = (t.port q).session := by
    intro t r f hf; rw [State.port_onPort]; split
    · subst_vars; exact hf _
    · rfl
  unfold State.fireNextNote; split
  · unfold State.fireNote; split
    · rw [hd]; exact ho _ _ _ (fun _ => rfl)
    · unfold State.appendNotice; dsimp only
      rw [State.raise, ho _ _ _ (fun _ => session_raise _ _), hd]; refine Eq.trans (ho _ _ _ ?_) (ho _ _ _ ?_) <;> (intro P; rfl)
  · rfl

theorem noticesLegalFor_fireNotes {on} {s : State} {p} (h : NoticesLegalFor on s) (hc : InContactFor on s) :
    NoticesLegalFor on (s.fireNotes p) ∧ InContactFor on (s.fireNotes p) := by
  unfold State.fireNotes
  generalize List.range (s.firedNotes p) = l
  induction l generalizing s with
  | nil => exact ⟨h, hc⟩
  | cons x l ih => exact ih (noticesLegalFor_fireNextNote h hc) (fun q hq => by rw [session_fireNextNote]; exact hc q hq)

/-- Every reservation toward the port becomes a pending answer (R134). -/
def State.cancelNotes (s : State) (p : Port) : State := allPorts.foldl (fun t q => t.onPort q (fun P => { P with
    notes := P.notes.map (fun n => if n.target = p then { n with cancelled := true } else n) })) s

/-- The same in one sender's record. -/
def PortState.cancelNotes (p : Port) (P : PortState) : PortState := { P with
    notes := P.notes.map (fun n => if n.target = p then { n with cancelled := true } else n) }

theorem port_cancelNotes (s : State) (p q : Port) :
    (State.cancelNotes s p).port q = PortState.cancelNotes p (s.port q) := by
  unfold State.cancelNotes allPorts
  simp only [List.foldl_cons, List.foldl_nil, State.port_onPort]
  fin_cases q <;> simp [PortState.cancelNotes]

theorem noticesLegalFor_departTarget {on} {s : State} {p} (h : NoticesLegalFor on s)
    (hc : InContactFor (fun q => on q ∧ q ≠ p) s) : NoticesLegalFor (fun q => on q ∧ q ≠ p) (s.departTarget p) ∧
    InContactFor (fun q => on q ∧ q ≠ p) (s.departTarget p) := by
  unfold State.departTarget; dsimp only
  have e1 : ∀ q, (s.onPort p (fun P => ({ P with notices := [] }).withdraw .notice)).port q = if q = p then
      ({ s.port p with notices := [] }).withdraw .notice else s.port q := fun q => State.port_onPort _ _ _ _
  generalize (s.onPort p (fun P => ({ P with notices := [] }).withdraw .notice)) = s1 at *
  have e2 : ∀ q, (State.cancelNotes s1 p).port q = PortState.cancelNotes p (s1.port q) := port_cancelNotes s1 p
  change NoticesLegalFor _ (allPorts.foldl (fun t q => t.fireNotes q) (State.cancelNotes s1 p)) ∧
      InContactFor _ (allPorts.foldl (fun t q => t.fireNotes q) (State.cancelNotes s1 p))
  generalize State.cancelNotes s1 p = s2 at *
  have f : ∀ q, (s2.port q).session = (s.port q).session ∧
      (s2.port q).notes = (s.port q).notes.map (fun n => if n.target = p then { n with cancelled := true } else n) ∧
      (s2.port q).notices = (if q = p then [] else (s.port q).notices) ∧
      (.notice ∈ (s2.port q).events ↔ (q ≠ p ∧ .notice ∈ (s.port q).events)) := by
    intro q; rw [e2, e1]; split
    · subst_vars; refine ⟨rfl, rfl, rfl, ?_⟩
      simp [PortState.cancelNotes, PortState.withdraw, Item.sameKey]
    · rename_i hq; refine ⟨rfl, rfl, rfl, ?_⟩; simp [hq, PortState.cancelNotes]
  have n2 : NoticesLegalFor (fun q => on q ∧ q ≠ p) s2 := by
    refine ⟨fun t => ?_, fun q n hn hcn => ?_, fun q hq => ?_, fun q => ?_⟩
    · have hr : s2.reservations t ≤ s.reservations t := by
        unfold State.reservations allPorts
        have : ∀ q, ((s2.port q).notes.filter (·.reservedFor t)).length ≤
            ((s.port q).notes.filter (·.reservedFor t)).length := by
          intro q; rw [(f q).2.1]
          generalize (s.port q).notes = l
          induction l with
          | nil => simp
          | cons x l ih =>
            by_cases hx : x.target = p
            · have : ({ x with cancelled := true } : Note).reservedFor t = false := by simp [Note.reservedFor]
              simp only [List.map_cons, hx, if_true, List.filter_cons]
              simp only [hx] at this
              simp only [this]
              have hle : (l.filter (·.reservedFor t)).length ≤
                  (if x.reservedFor t = true then x :: l.filter (·.reservedFor t)
                  else l.filter (·.reservedFor t)).length := by split <;> simp
              exact le_trans (by simpa using ih) hle
            · simp only [List.map_cons, hx, if_false, List.filter_cons]
              by_cases hr : x.reservedFor t = true <;> simp [hr] at ih ⊢ <;> omega
        simp only [List.map_cons, List.map_nil, List.sum_cons, List.sum_nil]
        have a0 := this 0; have a1 := this 1; have a2 := this 2; have a3 := this 3; omega
      have := h.a t
      unfold State.noticePlaces at *; rw [(f t).2.2.1]; split
      · simp; omega
      · omega
    · rw [(f q).2.1] at hn
      obtain ⟨m, hm, rfl⟩ := List.mem_map.mp hn
      split at hcn
      · simp at hcn
      · rename_i hmt; rw [if_neg hmt]; exact ⟨h.b q m hm hcn, hmt⟩
    · rw [(f q).2.2.1]; split
      · rfl
      · rename_i hqp; exact h.c q (fun ho => hq ⟨ho, hqp⟩)
    · rw [(f q).2.2.1, (f q).2.2.2]; split
      · subst_vars; simp
      · rename_i hqp; simp only [ne_eq, hqp, not_false_eq_true, true_and]; exact h.d q
  have c2 : InContactFor (fun q => on q ∧ q ≠ p) s2 := fun q hq => by rw [(f q).1]; exact hc q hq
  generalize allPorts = l
  clear e2 f e1
  induction l generalizing s2 with
  | nil => exact ⟨n2, c2⟩
  | cons q l ih => exact ih _ (noticesLegalFor_fireNotes n2 c2).1 (noticesLegalFor_fireNotes n2 c2).2

/-! ## The invariant over states -/

/-- The ports that are ONLINE. -/
def online (s : State) : Port → Prop := fun p => (s.port p).session = .online

theorem noticesLegalFor_of_ports {on} {s t : State} (h : NoticesLegalFor on s) (hp : t.ports = s.ports) :
    NoticesLegalFor on t := noticesLegalFor_same (sameNotices_ports hp) h

theorem inContactFor_of_online (s : State) : InContactFor (online s) s := fun _ h => .inl h

theorem noticesLegalFor_online {s t : State} (h : NoticesLegalFor (online s) t) (u : KeepsOnline s t) :
    NoticesLegalFor (online t) t := noticesLegalFor_mono h u

/-- The notification invariant of a state. -/
def NoticesLegal (s : State) : Prop := NoticesLegalFor (online s) s

theorem noticesLegal_same {s t : State} (h : NoticesLegal s) (n : SameNotices s t) (u : KeepsOnline s t) :
    NoticesLegal t := noticesLegalFor_online (noticesLegalFor_same n h) u

theorem noticesLegal_keep {s : State} {p f} (h : NoticesLegal s) (h1 : (f (s.port p)).notes = (s.port p).notes)
    (h2 : (f (s.port p)).notices = (s.port p).notices) (h3 : (f (s.port p)).events = (s.port p).events)
    (h4 : (f (s.port p)).session = (s.port p).session) : NoticesLegal (s.onPort p f) :=
  noticesLegal_same h (sameNotices_keep h1 h2 h3) (keepsOnline_onPort (fun e => h4.trans e))

theorem noticesLegal_respond {s : State} {p x} (h : NoticesLegal s) : NoticesLegal (s.respond p x) :=
    noticesLegal_keep h rfl rfl rfl rfl

theorem noticesLegal_respondDue {s : State} {p x} (h : NoticesLegal s) : NoticesLegal (s.respondDue p x) :=
    noticesLegal_same h sameNotices_respondDue (keepsOnline_respondDue _ _ _)

theorem noticesLegal_raise {s : State} {p it} (h : NoticesLegal s) (hi : it ≠ .notice) :
    NoticesLegal (s.raise p it) := noticesLegal_same h (sameNotices_raise hi) (keepsOnline_raise _ _ _)

theorem noticesLegal_ports {s t : State} (h : NoticesLegal s) (hp : t.ports = s.ports) : NoticesLegal t :=
    noticesLegal_same h (sameNotices_ports hp) (keepsOnline_ports hp)

theorem noticesLegal_setLock {s : State} {k l} (h : NoticesLegal s) : NoticesLegal (s.setLock k l) :=
    noticesLegal_ports h rfl

theorem inContactFor_up {s t : State} (u : KeepsOnline s t) : InContactFor (online s) t := fun _ h => .inl (u _ h)

theorem noticesLegalFor_runTasks {s0 s : State} {p l} (h : NoticesLegalFor (online s0) s) (u : KeepsOnline s0 s) :
    NoticesLegalFor (online s0) (s.runTasks p l) := by
  unfold State.runTasks
  generalize (s.arranged l).1 = ts
  have h' : NoticesLegalFor (online s0) (s.arranged l).2 := noticesLegalFor_of_ports h rfl
  have u' : KeepsOnline s0 (s.arranged l).2 := u.trans (keepsOnline_ports rfl)
  generalize (s.arranged l).2 = s1 at *
  induction ts generalizing s1 with
  | nil => exact h'
  | cons x ts ih =>
    have ux : KeepsOnline s1 (s1.runTask p x) := by
      unfold State.runTask; split
      · exact keepsOnline_handoff _ _
      · exact keepsOnline_fireNextNote _ _
      · exact keepsOnline_completeCommit _
      · exact keepsOnline_revoke _ _ _
      · exact keepsOnline_releaseByLeave _ _
    have g : NoticesLegalFor (online s0) (s1.runTask p x) := by
      cases x
      · exact noticesLegalFor_same (sameNotices_handoff _ _) h'
      · exact noticesLegalFor_fireNextNote h' (inContactFor_up u')
      · exact noticesLegalFor_same (sameNotices_completeCommit _) h'
      · exact noticesLegalFor_same (sameNotices_revoke _ _ _) h'
      · exact noticesLegalFor_same (sameNotices_releaseByLeave _ _) h'
    exact ih _ g (u'.trans ux)

theorem noticesLegal_closeEvent {s : State} {p l} (h : NoticesLegal s) : NoticesLegal (s.closeEvent p l) := by
  refine noticesLegalFor_online ?_ (keepsOnline_closeEvent _ _ _)
  have e : ∀ l, NoticesLegalFor (online s) (({ s with fresh := s.fresh + 1 } : State).runTasks p l) ∧
      KeepsOnline s (({ s with fresh := s.fresh + 1 } : State).runTasks p l) := by
    intro l
    have u0 : KeepsOnline s ({ s with fresh := s.fresh + 1 } : State) := keepsOnline_ports rfl
    exact ⟨noticesLegalFor_runTasks (noticesLegalFor_of_ports h rfl) u0, u0.trans (keepsOnline_runTasks _ _ _)⟩
  unfold State.closeEvent; dsimp only; split
  · obtain ⟨a, b⟩ := e l
    generalize (({ s with fresh := s.fresh + 1 } : State).runTasks p l) = s1 at *
    obtain ⟨c, d⟩ := noticesLegalFor_sessionTests a (inContactFor_up b)
    have u2 := b.trans (keepsOnline_sessionTests s1)
    generalize s1.sessionTests = s2 at *
    have u3 := u2.trans (keepsOnline_completeCommit s2)
    have c3 := noticesLegalFor_same (sameNotices_completeCommit s2) c
    generalize s2.completeCommit = s3 at *
    exact (noticesLegalFor_sessionTests c3 (inContactFor_up u3)).1
  · obtain ⟨a, b⟩ := e (l ++ if s.commitDue then [.commit] else [])
    exact (noticesLegalFor_sessionTests a (inContactFor_up b)).1

theorem noticesLegal_leaveDrain {s : State} {p r} (h : NoticesLegal s) : NoticesLegal (s.leaveDrain p r) := by
  unfold State.leaveDrain; split
  · exact noticesLegal_ports h rfl
  · exact h

theorem noticesLegal_noticeFailures {s : State} {e} (h : NoticesLegal s) : NoticesLegal (s.noticeFailures e) := 
  noticesLegal_ports h (foldl_keeps State.ports (fun t (g : GuardMark) => t.noticeFailure g.lock) (fun _ _ => rfl)
      _ _)

theorem noticesLegal_record {s : State} {p r} (h : NoticesLegal s) : NoticesLegal (s.onPort p (·.record r)) :=
    noticesLegal_same h (sameNotices_onPort portSameNotices_record)
    (keepsOnline_onPort (fun e => (session_record _ _).trans e))

theorem noticesLegal_finishRead {s : State} {p e} (h : NoticesLegal s) : NoticesLegal (s.finishRead p e) :=
    noticesLegal_leaveDrain (noticesLegal_respondDue (noticesLegal_keep h rfl rfl rfl rfl))

theorem noticesLegal_finishWrite {s : State} {p e} (h : NoticesLegal s) : NoticesLegal (s.finishWrite p e) := by
  unfold State.finishWrite
  refine noticesLegal_leaveDrain (noticesLegal_keep ?_ rfl rfl rfl rfl)
  unfold State.writeReport; dsimp only
  have ga : NoticesLegal (s.onPort p (·.onWrite e.seq (fun x => { x with completed := true }))) :=
      noticesLegal_keep h rfl rfl rfl rfl
  cases hf : e.failed <;> cases hp : e.posted <;> simp only [if_true, Bool.false_eq_true, if_false]
  · exact noticesLegal_respondDue ga
  · exact ga
  · exact noticesLegal_noticeFailures (noticesLegal_respondDue ga)
  · exact noticesLegal_record (noticesLegal_noticeFailures ga)

theorem noticesLegal_endPiece {s : State} {j e} (g : NoticesLegal s) : NoticesLegal (s.endPiece j e) := by
  unfold State.endPiece; split
  · split
    · dsimp only; split
      · exact noticesLegal_closeEvent (noticesLegal_finishWrite (noticesLegal_keep g rfl rfl rfl rfl))
      · exact noticesLegal_keep g rfl rfl rfl rfl
    · exact g
  · split
    · dsimp only; split
      · exact noticesLegal_closeEvent (noticesLegal_finishRead (noticesLegal_keep g rfl rfl rfl rfl))
      · exact noticesLegal_keep g rfl rfl rfl rfl
    · exact g

theorem noticesLegal_endJob {s : State} {n j e} (g : NoticesLegal s) : NoticesLegal (s.endJob n j e) :=
    noticesLegal_endPiece (noticesLegal_ports g rfl)

theorem noticesLegal_tagCheck {s : State} {p r go} (h : NoticesLegal s)
    (hgo : ∀ t, NoticesLegal t → (t.port p).session = (s.port p).session → (t.port p).events = (s.port p).events →
    NoticesLegal (go t)) : NoticesLegal (s.tagCheck p r go) := by
  unfold State.tagCheck; split
  · exact noticesLegal_keep h rfl rfl rfl rfl
  · split
    · exact noticesLegal_same h (sameNotices_onPort (PortState.SameNotices.trans (Q := { s.port p with places := (s.port p).places - 1 }) ⟨rfl, rfl, Iff.rfl⟩ portSameNotices_record)) (keepsOnline_onPort (fun e => (session_record _ _).trans e))
    · exact hgo _ (noticesLegal_keep h rfl rfl rfl rfl) (by simp) (by simp)

theorem noticesLegal_request {s : State} {p r go} (h : NoticesLegal s)
    (hgo : ∀ t, NoticesLegal t → (t.port p).session = .online → NoticesLegal (go t)) :
    NoticesLegal (s.request p r go) := by
  unfold State.request; split
  · have h1 : NoticesLegal (s.taken p) := noticesLegal_keep h rfl rfl rfl rfl
    unfold State.sessionCheck; split
    · exact noticesLegal_keep h1 rfl rfl rfl rfl
    · exact noticesLegal_keep h1 rfl rfl rfl rfl
    · exact noticesLegal_keep h1 rfl rfl rfl rfl
    · rename_i ho
      exact noticesLegal_tagCheck h1 (fun t ht hs _ => hgo t ht (hs.trans ho))
  · exact h

theorem noticesLegal_leaveEvent {s : State} {p tag} (g : NoticesLegal s) : NoticesLegal (s.leaveEvent p tag) := by
  unfold State.leaveEvent; dsimp only
  have ses : ∀ q, online s q ∧ q ≠ p → online (s.onPort p (·.startLeave tag)) q := by
    rintro q ⟨h, hq⟩; unfold online; rw [State.port_onPort_ne _ _ hq]; exact h
  have n1 : NoticesLegalFor (online s) (s.onPort p (·.startLeave tag)) :=
      noticesLegalFor_same (sameNotices_keep rfl rfl rfl) g
  generalize (s.onPort p (·.startLeave tag)) = s1 at *
  have n2 : NoticesLegalFor (online s) (s1.runTasks p ((s1.heldLocks p).map .release)) := by
    unfold State.runTasks
    have hx : ∀ x ∈ (s1.arranged ((s1.heldLocks p).map Task.release)).1, ∃ k, x = .release k := by
      intro x hx
      have := (arrange_perm _ s1.fresh _ (le_refl _)).mem_iff.mp hx
      obtain ⟨k, _, rfl⟩ := List.mem_map.mp this; exact ⟨k, rfl⟩
    have h' : NoticesLegalFor (online s) (s1.arranged ((s1.heldLocks p).map Task.release)).2 :=
        noticesLegalFor_of_ports n1 rfl
    generalize (s1.arranged ((s1.heldLocks p).map Task.release)).2 = s2 at *
    generalize (s1.arranged ((s1.heldLocks p).map Task.release)).1 = ts at *
    induction ts generalizing s2 with
    | nil => exact h'
    | cons x ts ih =>
      obtain ⟨k, rfl⟩ := hx x (by simp)
      exact ih _ (noticesLegalFor_same (sameNotices_releaseByLeave _ _) h') (fun y hy => hx y (by simp [hy]))
  have u2 := keepsOnline_runTasks s1 p ((s1.heldLocks p).map .release)
  generalize (s1.runTasks p ((s1.heldLocks p).map .release)) = s2 at *
  have n3 := noticesLegalFor_same (sameNotices_removeWaits s2 p) n2
  have u3 : KeepsOnline s2 (s2.removeWaits p) :=
      keepsOnline_ports (foldl_keeps State.ports (fun t k => t.setLock k ((t.lock k).removeWaiter p))
      (fun _ _ => rfl) _ _)
  generalize s2.removeWaits p = s3 at *
  have n4 : NoticesLegalFor (online s) ({ s3 with edit := s3.edit.departs p false } : State) :=
      noticesLegalFor_of_ports n3 rfl
  have u4 : KeepsOnline s3 ({ s3 with edit := s3.edit.departs p false } : State) := keepsOnline_ports rfl
  generalize ({ s3 with edit := s3.edit.departs p false } : State) = s4 at *
  have c4 : InContactFor (fun q => online s q ∧ q ≠ p) s4 := fun q hq => .inl (u4 _ (u3 _ (u2 _ (ses q hq))))
  obtain ⟨n5, c5⟩ := noticesLegalFor_departTarget n4 c4
  have u5 := keepsOnline_departTarget s4 p
  generalize s4.departTarget p = s5 at *
  have n6 := (noticesLegalFor_sessionTests n5 c5).1
  have u6 := keepsOnline_sessionTests s5
  refine noticesLegalFor_mono n6 (fun q hq => u6 _ (u5 _ (u4 _ (u3 _ (u2 _ (ses q hq))))))

theorem noticesLegalFor_dropNotes {on} {s : State} {p} (h : NoticesLegalFor on s) :
    NoticesLegalFor on (s.dropNotes p) := by
  have e : ∀ q, ((s.dropNotes p).port q).notes = (if q = p then [] else (s.port q).notes) ∧
      ((s.dropNotes p).port q).notices = (s.port q).notices ∧ ((s.dropNotes p).port q).events = (s.port q).events :=
      by
    intro q; unfold State.dropNotes; rw [State.port_onPort]; split
    · subst_vars; exact ⟨rfl, rfl, rfl⟩
    · exact ⟨rfl, rfl, rfl⟩
  refine ⟨fun t => ?_, fun q n hn => ?_, fun q hq =>
      by rw [(e q).2.1]; exact h.c q hq, fun q => by rw [(e q).2.1, (e q).2.2]; exact h.d q⟩
  · have hr : (s.dropNotes p).reservations t ≤ s.reservations t := by
      unfold State.reservations allPorts
      have : ∀ q, (((s.dropNotes p).port q).notes.filter (·.reservedFor t)).length ≤
          ((s.port q).notes.filter (·.reservedFor t)).length := by
        intro q; rw [(e q).1]; split <;> simp
      simp only [List.map_cons, List.map_nil, List.sum_cons, List.sum_nil]
      have a0 := this 0; have a1 := this 1; have a2 := this 2; have a3 := this 3; omega
    have := h.a t
    unfold State.noticePlaces at *; rw [(e t).2.1]; omega
  · rw [(e q).1] at hn; split at hn
    · simp at hn
    · exact h.b q n hn

theorem noticesLegal_linkLossEvent {s : State} {p} (g : NoticesLegal s) : NoticesLegal (s.linkLossEvent p) := by
  unfold State.linkLossEvent; dsimp only
  have ses : ∀ q, online s q ∧ q ≠ p → online (s.onPort p (·.loseLink)) q := by
    rintro q ⟨h, hq⟩; unfold online; rw [State.port_onPort_ne _ _ hq]; exact h
  have n0 : NoticesLegalFor (online s) (s.onPort p (·.loseLink)) :=
      noticesLegalFor_same (sameNotices_keep rfl rfl rfl) g
  generalize (s.onPort p (·.loseLink)) = s0 at *
  have n1 : NoticesLegalFor (online s) (s0.dropReads p ((s.port p).readL.filter (fun e => !e.survives))) :=
      noticesLegalFor_same (sameNotices_ports (ports_dropReads _ _ _)) n0
  have u1 : KeepsOnline s0 (s0.dropReads p ((s.port p).readL.filter (fun e => !e.survives))) :=
      keepsOnline_ports (ports_dropReads _ _ _)
  generalize (s0.dropReads p ((s.port p).readL.filter (fun e => !e.survives))) = s1 at *
  have n2 : NoticesLegalFor (online s) (s1.runTasks p
      ((s1.heldLocks p).map .revoke ++ if s1.commitDue then [.commit] else [])) := by
    unfold State.runTasks
    have hx : ∀ x ∈ (s1.arranged ((s1.heldLocks p).map Task.revoke ++ if s1.commitDue then [.commit] else [])).1,
        (∃ k, x = .revoke k) ∨ x = .commit := by
      intro x hx
      have := (arrange_perm _ s1.fresh _ (le_refl _)).mem_iff.mp hx
      rcases List.mem_append.mp this with h | h
      · obtain ⟨k, _, rfl⟩ := List.mem_map.mp h; exact .inl ⟨k, rfl⟩
      · split at h <;> simp at h; exact .inr h
    have h' : NoticesLegalFor (online s) (s1.arranged
        ((s1.heldLocks p).map Task.revoke ++ if s1.commitDue then [.commit] else [])).2 :=
        noticesLegalFor_of_ports n1 rfl
    generalize (s1.arranged ((s1.heldLocks p).map Task.revoke ++ if s1.commitDue then [.commit] else [])).2 = s2 at *
    generalize (s1.arranged ((s1.heldLocks p).map Task.revoke ++ if s1.commitDue then [.commit] else [])).1 = ts at *
    induction ts generalizing s2 with
    | nil => exact h'
    | cons x ts ih =>
      rcases hx x (by simp) with ⟨k, rfl⟩ | rfl
      · exact ih _ (noticesLegalFor_same (sameNotices_revoke _ _ _) h') (fun y hy => hx y (by simp [hy]))
      · exact ih _ (noticesLegalFor_same (sameNotices_completeCommit _) h') (fun y hy => hx y (by simp [hy]))
  have u2 := keepsOnline_runTasks s1 p ((s1.heldLocks p).map .revoke ++ if s1.commitDue then [.commit] else [])
  generalize (s1.runTasks p ((s1.heldLocks p).map .revoke ++ if s1.commitDue then [.commit] else [])) = s2 at *
  have n3 := noticesLegalFor_same (sameNotices_removeWaits s2 p) n2
  have u3 : KeepsOnline s2 (s2.removeWaits p) :=
      keepsOnline_ports (foldl_keeps State.ports (fun t k => t.setLock k ((t.lock k).removeWaiter p))
      (fun _ _ => rfl) _ _)
  generalize s2.removeWaits p = s3 at *
  have n4 : NoticesLegalFor (online s) ({ s3 with edit := s3.edit.departs p true } : State) :=
      noticesLegalFor_of_ports n3 rfl
  have u4 : KeepsOnline s3 ({ s3 with edit := s3.edit.departs p true } : State) := keepsOnline_ports rfl
  generalize ({ s3 with edit := s3.edit.departs p true } : State) = s4 at *
  have c4 : InContactFor (fun q => online s q ∧ q ≠ p) s4 := fun q hq => .inl (u4 _ (u3 _ (u2 _ (u1 _ (ses q hq)))))
  obtain ⟨n5, c5⟩ := noticesLegalFor_departTarget n4 c4
  have u5 := keepsOnline_departTarget s4 p
  generalize s4.departTarget p = s5 at *
  have n5' := noticesLegalFor_dropNotes (p := p) n5
  have u5' : KeepsOnline s5 (s5.dropNotes p) := keepsOnline_onPort id
  have c5' : InContactFor (fun q => online s q ∧ q ≠ p) (s5.dropNotes p) := by
    intro q hq; exact .inl (u5' _ (u5 _ (u4 _ (u3 _ (u2 _ (u1 _ (ses q hq)))))))
  generalize s5.dropNotes p = s5b at *
  have n6 := (noticesLegalFor_sessionTests n5' c5').1
  have u6 := keepsOnline_sessionTests s5b
  refine noticesLegalFor_mono n6 (fun q hq => u6 _ (u5' _ (u5 _ (u4 _ (u3 _ (u2 _ (u1 _ (ses q hq))))))))

theorem noticesLegal_withLock {s : State} {p r l go} (g : NoticesLegal s) (h : ∀ k, NoticesLegal (go s k)) :
    NoticesLegal (s.withLock p r l go) := by
  unfold State.withLock; split
  · exact h _
  · exact noticesLegal_respond g

theorem noticesLegal_asOwner {s : State} {p r go} (g : NoticesLegal s) (h : ∀ o, NoticesLegal (go s o)) :
    NoticesLegal (s.asOwner p r go) := by
  unfold State.asOwner; split
  · split
    · exact h _
    · exact noticesLegal_respond g
  · exact noticesLegal_respond g

theorem noticesLegal_asHolder {s : State} {p r gen k go} (g : NoticesLegal s)
    (h : ∀ o, (s.lock k).phase = .held o → NoticesLegal (go s o)) : NoticesLegal (s.asHolder p r gen k go) := by
  unfold State.asHolder; split
  · split
    · split
      · exact h _ ‹_›
      · exact noticesLegal_respond g
    · exact noticesLegal_respond g
  · exact noticesLegal_respond g

theorem noticesLegal_reserve {s : State} {p tag q code} (g : NoticesLegal s) (hq : (s.port q).session = .online)
    (hr : s.noticePlaces q < 8) : NoticesLegal (s.reserve p tag q code) := by
  unfold State.reserve; dsimp only; split
  · refine noticesLegalFor_online ?_ (keepsOnline_fireNote _ _ _)
    unfold State.fireNote; simp only [Bool.false_eq_true, if_false]
    exact noticesLegalFor_appendNotice g hq (by dsimp only; omega) (inContactFor_of_online s)
  · have e : ∀ t, ((s.onPort p (fun P => { P with notes := P.notes ++ [{ target := q, tag := tag, code := code, watched := (s.port p).writeSeq, cancelled := false }] })).reservations t) = s.reservations t + (if q = t then 1 else 0) := by
      intro t; refine reservations_onPort_add _ _ _ _ _ ?_
      simp only [List.filter_append, List.length_append]
      congr 1
      simp only [List.filter_cons, Note.reservedFor]; by_cases h : q = t <;> simp [h]
    have e2 : ∀ t, ((s.onPort p (fun P => { P with notes := P.notes ++ [{ target := q, tag := tag, code := code, watched := (s.port p).writeSeq, cancelled := false }] })).port t).notices = (s.port t).notices ∧ ((s.onPort p (fun P => { P with notes := P.notes ++ [{ target := q, tag := tag, code := code, watched := (s.port p).writeSeq, cancelled := false }] })).port t).events = (s.port t).events ∧ ((s.onPort p (fun P => { P with notes := P.notes ++ [{ target := q, tag := tag, code := code, watched := (s.port p).writeSeq, cancelled := false }] })).port t).session = (s.port t).session ∧ ∀ m ∈ ((s.onPort p (fun P => { P with notes := P.notes ++ [{ target := q, tag := tag, code := code, watched := (s.port p).writeSeq, cancelled := false }] })).port t).notes, m ∈ (s.port t).notes ∨ m.target = q := by
      intro t; rw [State.port_onPort]; split
      · subst_vars; refine ⟨rfl, rfl, rfl, fun m hm => ?_⟩
        rcases List.mem_append.mp hm with h | h
        · exact .inl h
        · simp at h; subst h; exact .inr rfl
      · exact ⟨rfl, rfl, rfl, fun m hm => .inl hm⟩
    generalize (s.onPort p (fun P => { P with notes := P.notes ++ [{ target := q, tag := tag, code := code, watched := (s.port p).writeSeq, cancelled := false }] })) = s1 at *
    refine ⟨fun t => ?_, fun r m hm hc => ?_, fun t ht => ?_, fun t => by rw [(e2 t).1, (e2 t).2.1]; exact g.d t⟩
    · have := g.a t; have := e t; unfold State.noticePlaces at *; rw [(e2 t).1]
      split at this
      · subst_vars; omega
      · omega
    · unfold online; rw [(e2 _).2.2.1]
      rcases (e2 r).2.2.2 m hm with h | h
      · exact g.b r m h hc
      · rw [h]; exact hq
    · rw [(e2 t).1]; apply g.c t; unfold online at *; rwa [(e2 t).2.2.1] at ht

theorem deliver_len (l : List Notice) : (deliverFirst l).length = l.length := by
  induction l with
  | nil => rfl
  | cons x l ih => unfold deliverFirst; split <;> simp [ih]

theorem noticesLegal_ack {s : State} {p n} (g : NoticesLegal s) (hd : n.delivered = true) :
    NoticesLegal (s.onPort p (fun P => { P with notices := P.notices.erase n })) := by
  have e : ∀ q, ((s.onPort p (fun P => { P with notices := P.notices.erase n })).port q).notes = (s.port q).notes ∧
      ((s.onPort p (fun P => { P with notices := P.notices.erase n })).port q).events = (s.port q).events ∧
      ((s.onPort p (fun P => { P with notices := P.notices.erase n })).port q).session = (s.port q).session ∧
      ((s.onPort p (fun P => { P with notices := P.notices.erase n })).port q).notices = if q = p then
      (s.port q).notices.erase n else (s.port q).notices := by
    intro q; rw [State.port_onPort]; split
    · subst_vars; exact ⟨rfl, rfl, rfl, rfl⟩
    · exact ⟨rfl, rfl, rfl, rfl⟩
  generalize (s.onPort p (fun P => { P with notices := P.notices.erase n })) = s1 at *
  have und : ∀ l : List Notice, (∃ m ∈ l.erase n, m.delivered = false) ↔ (∃ m ∈ l, m.delivered = false) := by
    intro l; constructor
    · rintro ⟨m, hm, h⟩; exact ⟨m, List.mem_of_mem_erase hm, h⟩
    · rintro ⟨m, hm, h⟩; refine ⟨m, ?_, h⟩; rw [List.mem_erase_of_ne]; exact hm; rintro rfl; simp [hd] at h
  refine ⟨fun t => ?_, fun r m hm hc => ?_, fun t ht => ?_, fun t => ?_⟩
  · have hr : s1.reservations t = s.reservations t := by
      unfold State.reservations; congr 1; apply List.map_congr_left; intro q _; rw [(e q).1]
    have := g.a t
    unfold State.noticePlaces at *; rw [hr, (e t).2.2.2]; split
    · have := List.length_erase_le (a := n) (l := (s.port t).notices); omega
    · exact this
  · rw [(e r).1] at hm; unfold online; rw [(e _).2.2.1]; exact g.b r m hm hc
  · have : ¬ online s t := by unfold online at *; rwa [(e t).2.2.1] at ht
    rw [(e t).2.2.2, g.c t this]; split <;> rfl
  · rw [(e t).2.1, (e t).2.2.2]; split
    · subst_vars; rw [und]; exact g.d _
    · exact g.d t

/-- A change of one port's own record that keeps its reservations. -/
theorem noticesLegal_onPort {s : State} {p f} (g : NoticesLegal s) (h1 : (f (s.port p)).notes = (s.port p).notes)
    (h2 : (f (s.port p)).session = (s.port p).session ∨ ((s.port p).session ≠ .online))
    (h3 : (f (s.port p)).notices.length ≤ (s.port p).notices.length)
    (h4 : (∃ n ∈ (f (s.port p)).notices, n.delivered = false) ↔ .notice ∈ (f (s.port p)).events) :
    NoticesLegal (s.onPort p f) := by
  have e : ∀ q, ((s.onPort p f).port q) = if q = p then f (s.port p) else s.port q :=
      fun q => State.port_onPort _ _ _ _
  generalize (s.onPort p f) = s1 at *
  have en : ∀ q, (s1.port q).notes = (s.port q).notes := by intro q; rw [e]; split; subst_vars; exact h1; rfl
  have on1 : ∀ q, online s q → online s1 q := by
    intro q hq; unfold online at *; rw [e]; split
    · subst_vars; rcases h2 with h2 | h2
      · exact h2.trans hq
      · exact absurd hq h2
    · exact hq
  refine ⟨fun t => ?_, fun r m hm hc => ?_, fun t ht => ?_, fun t => ?_⟩
  · have hr : s1.reservations t = s.reservations t := by
      unfold State.reservations; congr 1; apply List.map_congr_left; intro q _; rw [en q]
    have := g.a t
    unfold State.noticePlaces at *; rw [hr, e]; split
    · subst_vars; omega
    · exact this
  · rw [en] at hm; exact on1 _ (g.b r m hm hc)
  · have hn : ¬ online s t := fun h => ht (on1 t h)
    rw [e]; split
    · subst_vars
      have := g.c _ hn; rw [this] at h3; exact List.length_eq_zero_iff.mp (by simpa using h3)
    · exact g.c t hn
  · rw [e]; split
    · subst_vars; exact h4
    · exact g.d t

theorem noticesLegal_sub {s : State} (g : NoticesLegal s) (p r) (index : Byte) (v) :
    NoticesLegal (s.writeSubscribe p r index v) := by
  have hs : ∀ P : PortState, (P.subscribe v).session = P.session := by
    intro P; unfold PortState.subscribe PortState.setSubFault PortState.setSubRev
    dsimp only
    split <;> (try split) <;> (try split) <;> simp [session_raise, PortState.withdraw]
  have hA : ∀ (P : PortState) b, PortState.SameNotices P (P.setSubRev b) := by
    intro P b; unfold PortState.setSubRev; split
    · exact PortState.SameNotices.trans (Q := { P with subRev := b }) ⟨rfl, rfl, Iff.rfl⟩ (portSameNotices_withdraw (by simp))
    · exact ⟨rfl, rfl, Iff.rfl⟩
  have hB : ∀ (P : PortState) b, PortState.SameNotices P (P.setSubFault b) := by
    intro P b; unfold PortState.setSubFault; dsimp only; split
    · exact PortState.SameNotices.trans (Q := { P with subFault := b }) ⟨rfl, rfl, Iff.rfl⟩ (portSameNotices_raise (by simp))
    · split
      · exact PortState.SameNotices.trans (Q := { P with subFault := b }) ⟨rfl, rfl, Iff.rfl⟩ (portSameNotices_withdraw (by simp))
      · exact ⟨rfl, rfl, Iff.rfl⟩
  unfold State.writeSubscribe; split
  · exact noticesLegal_respond g
  · split
    · refine noticesLegal_respond (noticesLegal_same g (sameNotices_onPort ?_) (keepsOnline_onPort (fun e => (hs _).trans e)))
      exact (hA _ _).trans (hB _ _)
    · exact noticesLegal_respond g

theorem noticesLegal_glob {s : State} (g : NoticesLegal s) (p r) (item index : Byte) (v : Word) :
    NoticesLegal (s.writeGlobal p r item index v) := by
  unfold State.writeGlobal; split
  · exact noticesLegal_respond g
  · split
    · refine noticesLegal_respond ?_; exact noticesLegal_ports (s := s) g rfl
    · exact noticesLegal_respond g

theorem noticesLegal_configWrite {s : State} (g : NoticesLegal s) (p r) (item index : Byte) (v : Word) :
    NoticesLegal (s.configWrite p r item index v) := by
  unfold State.configWrite; split
  · exact noticesLegal_sub g _ _ _ _
  · split
    · exact noticesLegal_glob g _ _ _ _ _
    · exact noticesLegal_respond g

theorem noticesLegal_reset {s : State} (t : State) (h : t.ports = s.toReset.ports) : NoticesLegal t := by
  have hp : ∀ p, t.port p = PortState.reset (s.port p).link := by
    intro p; unfold State.port; rw [h]; fin_cases p <;> rfl
  refine ⟨fun p => ?_, fun q n hn => ?_, fun q _ => ?_, fun q => ?_⟩
  · unfold State.noticePlaces State.reservations allPorts; simp [hp, PortState.reset]
  · rw [hp] at hn; simp [PortState.reset] at hn
  · rw [hp]; rfl
  · rw [hp]; simp [PortState.reset]

end Sys2Proof.Machine
end

