-- ==== Sys2Proof/Laws/Leaving.lean ====
section
/-! SUPPORT. Departures, operation by operation: the notification unit after a target's departure, each held lock ended once, and
the record of a port that is not in contact. -/

namespace Sys2Proof.Machine

open Sys2Proof

/-- The port has departed as a target: no entry, no NOTICE item,
    every reservation toward it cancelled (R133, R134). -/
def DepartedTarget (p : Port) (s : State) : Prop :=
  (s.port p).notices = [] ∧ .notice ∉ (s.port p).events ∧ ∀ q, ∀ n ∈ (s.port q).notes, n.target = p →
      n.cancelled = true

theorem departedTarget_same {p : Port} {s t : State} (h : SameNotices s t) (g : DepartedTarget p s) :
    DepartedTarget p t := by
  obtain ⟨a, b, c⟩ := g
  exact ⟨(h p).2.1.trans a, fun e => b ((h p).2.2.mp e), fun q n hn => c q n (by rw [(h q).1] at hn; exact hn)⟩

theorem departedTarget_fireNextNote {p : Port} (s : State) (q : Port) (g : DepartedTarget p s) :
    DepartedTarget p (s.fireNextNote q) := by
  unfold State.fireNextNote; split
  · rename_i n hf
    have hn := List.mem_of_find?_eq_some hf
    have g1 : DepartedTarget p (s.onPort q (fun P => { P with notes := P.notes.erase n })) := by
      obtain ⟨a, b, c⟩ := g
      have e : ∀ r, ((s.onPort q (fun P => { P with notes := P.notes.erase n })).port r).notices =
          (s.port r).notices ∧ ((s.onPort q (fun P => { P with notes := P.notes.erase n })).port r).events =
          (s.port r).events ∧ ∀ m ∈ ((s.onPort q (fun P => { P with notes := P.notes.erase n })).port r).notes,
          m ∈ (s.port r).notes := by
        intro r; rw [State.port_onPort]; split
        · subst_vars; exact ⟨rfl, rfl, fun m hm => List.mem_of_mem_erase hm⟩
        · exact ⟨rfl, rfl, fun m hm => hm⟩
      exact ⟨(e p).1.trans a, by rw [(e p).2.1]; exact b, fun r m hm => c r m ((e r).2.2 m hm)⟩
    generalize (s.onPort q (fun P => { P with notes := P.notes.erase n })) = s1 at *
    unfold State.fireNote; split
    · exact departedTarget_same sameNotices_respondDue g1
    · rename_i hcan
      have hne : p ≠ n.target := fun e => hcan (g.2.2 q n hn e.symm)
      unfold State.appendNotice; dsimp only
      have g2 : DepartedTarget p (s1.onPort n.target (fun T => { T with
          notices := T.notices ++ [{ sender := q, code := n.code, seq := (s1.port n.target).noticeSeq, delivered := false }], noticeSeq := T.noticeSeq + 1 })) := by
        obtain ⟨a, b, c⟩ := g1
        refine ⟨by rw [State.port_onPort_ne _ _ hne]; exact a, by rw [State.port_onPort_ne _ _ hne]; exact b, fun r m hm => c r m ?_⟩
        rw [State.port_onPort] at hm; split at hm
        · subst_vars; exact hm
        · exact hm
      generalize (s1.onPort n.target (fun T => { T with
          notices := T.notices ++ [{ sender := q, code := n.code, seq := (s1.port n.target).noticeSeq, delivered := false }], noticeSeq := T.noticeSeq + 1 })) = s2 at *
      have g3 := departedTarget_same (sameNotices_respondDue (p := q)
          (x := { code := 0x30#8, tag := n.tag, status := .ok, body := .noticeSeq (s1.port n.target).noticeSeq })) g2
      generalize s2.respondDue q { code := 0x30#8, tag := n.tag, status := .ok, body := .noticeSeq (s1.port n.target).noticeSeq } = s3 at *
      obtain ⟨a, b, c⟩ := g3
      have e : ∀ r, ((s3.raise n.target .notice).port r).notes = (s3.port r).notes := by
        intro r; rw [State.port_raise]; split
        · subst_vars; unfold PortState.raise; split <;> rfl
        · rfl
      refine ⟨by rw [State.port_raise, if_neg hne]; exact a, by rw [State.port_raise, if_neg hne]; exact b, fun r m hm => c r m (by rw [e] at hm; exact hm)⟩
  · exact g

theorem departedTarget_departTarget (s : State) (p : Port) : DepartedTarget p (s.departTarget p) := by
  unfold State.departTarget; dsimp only
  have g0 : (((s.onPort p (fun P => ({ P with notices := [] }).withdraw .notice)).port p).notices = []) ∧
      .notice ∉ ((s.onPort p (fun P => ({ P with notices := [] }).withdraw .notice)).port p).events := by
    rw [State.port_onPort, if_pos rfl]; refine ⟨rfl, ?_⟩
    simp [PortState.withdraw, Item.sameKey]
  generalize (s.onPort p (fun P => ({ P with notices := [] }).withdraw .notice)) = s1 at *
  have g1 : DepartedTarget p (State.cancelNotes s1 p) := by
    have e := port_cancelNotes s1 p
    refine ⟨by rw [e]; exact g0.1, by rw [e]; exact g0.2, fun q n hn ht => ?_⟩
    rw [e] at hn
    obtain ⟨m, hm, rfl⟩ := List.mem_map.mp hn
    split at ht
    · rename_i h; rw [if_pos h]
    · rename_i h; exact absurd ht h
  change DepartedTarget p (allPorts.foldl (fun t q => t.fireNotes q) (State.cancelNotes s1 p))
  generalize State.cancelNotes s1 p = s2 at *
  have hf : ∀ (l : List Nat) (t : State) q, DepartedTarget p t →
      DepartedTarget p (l.foldl (fun t _ => t.fireNextNote q) t) := by
    intro l; induction l with
    | nil => exact fun t q h => h
    | cons x l ih => exact fun t q h => ih _ q (departedTarget_fireNextNote t q h)
  generalize allPorts = l
  clear g0
  induction l generalizing s2 with
  | nil => exact g1
  | cons q l ih => exact ih _ (hf _ _ _ g1)

theorem departedTarget_goOffline {p : Port} (s : State) (q : Port) (g : DepartedTarget p s) :
    DepartedTarget p (s.onPort q (·.goOffline)) := by
  obtain ⟨a, b, c⟩ := g
  have e : ∀ r, ((s.onPort q (·.goOffline)).port r).notices = (s.port r).notices ∧
      ((s.onPort q (·.goOffline)).port r).notes = (s.port r).notes ∧
      (Item.notice ∈ ((s.onPort q (·.goOffline)).port r).events → Item.notice ∈ (s.port r).events) := by
    intro r; rw [State.port_onPort]; split
    · subst_vars; exact ⟨rfl, rfl, fun h => by simp [PortState.goOffline] at h⟩
    · exact ⟨rfl, rfl, id⟩
  exact ⟨(e p).1.trans a, fun h => b ((e p).2.2 h), fun r m hm => c r m (by rw [(e r).2.1] at hm; exact hm)⟩

theorem departedTarget_closingTest {p : Port} (s1 : State) (q : Port) (g1 : DepartedTarget p s1) :
    DepartedTarget p (s1.closingTest q) := by
    unfold State.closingTest; split
    · have g2 := departedTarget_goOffline s1 q g1
      generalize s1.onPort q (·.goOffline) = s2 at *
      unfold State.retakeHello; split
      · split
        · refine departedTarget_same (sameNotices_helloOffline _ _ _ _ _) (departedTarget_same ?_ g2); exact sameNotices_keep rfl rfl rfl
        · exact g2
      · exact g2
    · exact g1

theorem departedTarget_sessionTests {p : Port} (s : State) (g : DepartedTarget p s) :
    DepartedTarget p s.sessionTests := by
  unfold State.sessionTests
  generalize allPorts = l
  induction l generalizing s with
  | nil => exact g
  | cons q l ih =>
    exact ih _ (departedTarget_closingTest _ q (departedTarget_same (sameNotices_leaveTest s q) g))

/-- A lock that no task names is left alone. -/
theorem lock_foldl_other {q : Port} {mk} (d : EndsGrants q mk) (l : List Task)
    (hl : ∀ x ∈ l, (∃ k, x = mk k) ∨ x = .commit) (s : State) (k : Lock) (h : mk k ∉ l) :
    (l.foldl (fun t x => t.runTask q x) s).lock k = s.lock k := by
  induction l generalizing s with
  | nil => rfl
  | cons x l ih =>
    simp only [List.foldl_cons]
    rw [ih (fun y hy => hl y (by simp [hy])) _ (fun hh => h (by simp [hh]))]
    rcases hl x (by simp) with ⟨j, rfl⟩ | rfl
    · exact d.ne s j k (fun e => h (by simp [e]))
    · exact lock_of_locks (locks_completeCommit s) k

/-- The task of a lock runs once, in a state in which the lock is as at the start. -/
theorem lock_foldl_once {q : Port} {mk} (d : EndsGrants q mk) (C : State → Prop) (l : List Task)
    (hC : ∀ x ∈ l, ∀ t, C t → C (t.runTask q x)) (hn : l.Nodup) (hl : ∀ x ∈ l, (∃ k, x = mk k) ∨ x = .commit)
    (s : State) (hs : C s) (k : Lock) (h : mk k ∈ l) :
   ∃ u, C u ∧ u.lock k = s.lock k ∧ (l.foldl (fun t x => t.runTask q x) s).lock k = (u.runTask q (mk k)).lock k := by
  induction l generalizing s with
  | nil => simp at h
  | cons x l ih =>
    rw [List.nodup_cons] at hn
    simp only [List.foldl_cons]
    by_cases e : x = mk k
    · subst e
      exact ⟨s, hs, rfl, lock_foldl_other d l (fun y hy => hl y (by simp [hy])) _ k hn.1⟩
    · have hk : mk k ∈ l := by rcases List.mem_cons.mp h with h | h; exact absurd h.symm e; exact h
      obtain ⟨u, a, b, c⟩ := ih (fun y hy => hC y (by simp [hy])) hn.2 (fun y hy => hl y (by simp [hy])) _ (hC x (by simp) _ hs) hk
      refine ⟨u, a, b.trans ?_, c⟩
      rcases hl x (by simp) with ⟨j, rfl⟩ | rfl
      · exact d.ne s j k (fun h => e (by rw [h]))
      · exact lock_of_locks (locks_completeCommit s) k

theorem removeWaiter_none {on} (l : LockRecord) (p : Port) (hl : LockRecord.legalFor on l)
    (h : ∀ e ∈ l.queue, e.port ≠ p) : l.removeWaiter p = l := by
  have hq : l.queue.filter (fun e => e.port != p) = l.queue := by
    rw [List.filter_eq_self]; intro e he; simpa using h e he
  unfold LockRecord.removeWaiter
  dsimp only; rw [hq]; split
  · rename_i h0 hp
    have := hl.2.2; rw [hp] at this
    have hd : (if l.queue.isEmpty = true then { h0 with deadline := none } else h0) = h0 := by
      split
      · rename_i he
        have h2 : ¬ (h0.deadline.isSome = true) := fun hs => this.2.2.2.1 hs (by simpa using he)
        cases h0; simp at h2; simp [h2]
      · rfl
    rw [hd, ← hp]
  · rfl

theorem endGrant_waits (s : State) (k p tag) (h : watermarkReaches (s.port p).watermark (s.port p).writeSeq = false) :
   (s.endGrant k p tag).lock k = { s.lock k with phase := .releasing { prev := p, watch := (s.port p).writeSeq, tag := tag } } := by
  unfold State.endGrant; dsimp only; rw [if_neg (by simp [h])]; simp

theorem rest_runTasks_release (s : State) (p : Port) (l : List Lock) :
    (s.runTasks p (l.map .release)).rest = s.rest :=
  runTasks_ind (C := fun t => t.rest = s.rest) p _ (fun t _ h => h) (fun x hx t ht => by
    obtain ⟨k, _, rfl⟩ := List.mem_map.mp hx
    exact (rest_releaseByLeave t k).trans ht) s rfl

theorem inFlight_slots {s t : State} (h : t.slots = s.slots) (p) : t.inFlight p = s.inFlight p := by
  unfold State.inFlight State.slot; rw [h]

/-- The port's record is untouched. -/
def SameAt (p : Port) (s t : State) : Prop := t.port p = s.port p

theorem SameAt.trans {p : Port} {s t u : State} (a : SameAt p s t) (b : SameAt p t u) : SameAt p s u := Eq.trans b a

/-- The port is not in contact with its host. -/
def Away (p : Port) (s : State) : Prop := (s.port p).inContact = false

theorem away_same {p s t} (h : SameAt p s t) (a : Away p s) : Away p t := by unfold Away; rw [h]; exact a

theorem sameAt_raise {p : Port} (s : State) (q it) (a : Away p s) : SameAt p s (s.raise q it) := by
  unfold SameAt; rw [State.port_raise]; split
  · subst_vars; unfold PortState.raise; unfold Away at a; simp [a]
  · rfl

theorem sameAt_respondDue {p : Port} (s : State) (q x) (a : Away p s) : SameAt p s (s.respondDue q x) := by
  unfold State.respondDue; split
  · rename_i h; unfold SameAt; rw [State.port_respond]; split
    · subst_vars; unfold Away at a; simp [a] at h
    · rfl
  · rfl

theorem sameAt_askYield {p : Port} (s : State) (k) (a : Away p s) : SameAt p s (s.askYield k) := by
  unfold State.askYield; split
  · split
    · refine SameAt.trans (t := s.setLock k _) rfl (sameAt_raise _ _ _ ?_); exact a
    · rfl
  · rfl

theorem sameAt_passLock {p : Port} (s : State) (k) (a : Away p s) : SameAt p s (s.passLock k) := by
  unfold State.passLock; split
  · rename_i e rest _
    have h1 := sameAt_raise (p := p) (s.setLock k ((s.lock k).granted e.port e.owner e.yield e.lease rest))
        e.port (.grant k ((s.lock k).generation + 1) e.owner (s.lock k).handoffCause) a
    refine SameAt.trans (t := s.setLock k _) rfl (h1.trans (sameAt_askYield _ _ (away_same h1 a)))
  · rfl

theorem sameAt_handoff {p : Port} (s : State) (k) (a : Away p s) : SameAt p s (s.handoff k) := by
  have h := sameAt_passLock s k a
  unfold State.handoff; split
  · split
    · exact h.trans (sameAt_respondDue _ _ _ (away_same h a))
    · exact h
  · rfl

theorem sameAt_endGrant {p : Port} (s : State) (k q t) (a : Away p s) : SameAt p s (s.endGrant k q t) := by
  unfold State.endGrant; dsimp only; split
  · exact SameAt.trans (t := s.setLock k _) rfl (sameAt_handoff _ k a)
  · rfl

theorem sameAt_revoke {p : Port} (s : State) (k c) (a : Away p s) : SameAt p s (s.revoke k c) := by
  unfold State.revoke; split
  · dsimp only; split
    · exact SameAt.trans (t := s.setLock k _) rfl (sameAt_endGrant _ k _ _ a)
    · rename_i h _ _
      have h1 := sameAt_raise (p := p) (s.setLock k { s.lock k with cause := (s.lock k).revokedCause c })
          h.port (.revoked k (s.lock k).generation c) a
      exact SameAt.trans (t := s.setLock k _) rfl (h1.trans (sameAt_endGrant _ k _ _ (away_same h1 a)))
  · rfl

theorem port_accepting_ne (s : State) {p q : Port} (r) (h : p ≠ q) : (s.accepting q r).port p = s.port p := by
  have t : ∀ (u : State) (f : PortState → PortState), (u.onPort q f).port p = u.port p :=
      fun u f => State.port_onPort_ne _ _ h
  unfold State.accepting; split
  · split
    · exact t _ _
    · exact t _ _
    · exact t _ _
  · split
    · exact t _ _
    · exact t _ _
    · unfold State.acceptWrite; dsimp only; split
      · exact (t _ _).trans (t _ _)
      · exact t _ _
  · rfl

/-- The removal of a departing port's wait entry, as the claims say it (R53, R66, R67, R77). -/
theorem removeWaiter_eq_withoutWait (l : LockRecord) (p : Port) : l.removeWaiter p = l.withoutWait p := by
  unfold LockRecord.removeWaiter LockRecord.withoutWait
  cases hl : l.phase <;> simp [List.filter_eq_nil_iff]

theorem port_retake_ne (s : State) {p q : Port} (h : p ≠ q) : (s.retake q).port p = s.port p := by
  have t : ∀ (u : State) (f : PortState → PortState), (u.onPort q f).port p = u.port p :=
      fun u f => State.port_onPort_ne _ _ h
  unfold State.retake; split
  · split
    · dsimp only; split
      · exact (port_accepting_ne _ _ h).trans (t _ _)
      all_goals exact (t _ _).trans (t _ _)
    · rfl
  · rfl

theorem sameAt_raiseRevision {p : Port} (t : State) (q) (a : Away p t) : SameAt p t (t.raiseRevision q) := by
  exact sameAt_raise _ _ _ a

theorem sameAt_completeCommit {p : Port} (s : State) (a : (s.port p).session = .closing)
    (hh : (s.port p).hold = none) : SameAt p s s.completeCommit := by
  have aw : Away p s := by unfold Away PortState.inContact; simp [a]
  unfold State.completeCommit; split
  · rename_i c hc
    dsimp only
    set s1 : State := { s.replaceRows c.change with revision := s.revision + 1, edit := .absent } with hs1
    have e1 : SameAt p s s1 := by unfold SameAt State.port; rw [hs1]; show (s.replaceRows c.change).ports.get p = _; rw [ports_replaceRows]
    have e2 : SameAt p s (s1.answerCommit c) := by
      unfold State.answerCommit; split
      · exact e1
      · exact e1.trans (sameAt_respondDue _ _ _ (away_same e1 aw))
    generalize s1.answerCommit c = s2 at *
    have hr : ∀ (l : List Port) (t : State), SameAt p s t → SameAt p s (l.foldl (fun t q => t.raiseRevision q) t) :=
        by
      intro l; induction l with
      | nil => exact fun t h => h
      | cons q l ih =>
        intro t h
        exact ih _ (h.trans (sameAt_raiseRevision t q (away_same h aw)))
    have e3 := hr allPorts s2 e2
    generalize allPorts.foldl (fun t q => t.raiseRevision q) s2 = s3 at *
    have hk : ∀ (l : List Port) (t : State), SameAt p s t → SameAt p s (l.foldl (fun t q => t.retake q) t) := by
      intro l; induction l with
      | nil => exact fun t h => h
      | cons q l ih =>
        intro t h
        refine ih _ (h.trans ?_)
        show SameAt p t (t.retake q)
        by_cases e : p = q
        · subst e; rw [retake_none t p (by rw [h]; exact hh)]; rfl
        · exact port_retake_ne t e
    exact hk _ _ e3
  · rfl

/-- Only items, reservations and entries of the port have changed. -/
def StillAt (p : Port) (s t : State) : Prop := (t.port p).kept = (s.port p).kept ∧
    (t.port p).respQ = (s.port p).respQ ∧ (t.port p).pendingLeave = (s.port p).pendingLeave ∧
    (t.port p).tags = (s.port p).tags

theorem StillAt.trans {p s t u} (a : StillAt p s t) (b : StillAt p t u) : StillAt p s u :=
    ⟨b.1.trans a.1, b.2.1.trans a.2.1, b.2.2.1.trans a.2.2.1, b.2.2.2.trans a.2.2.2⟩

theorem stillAt_refl (p s) : StillAt p s s := ⟨rfl, rfl, rfl, rfl⟩

theorem stillAt_same {p s t} (h : SameAt p s t) : StillAt p s t :=
    by unfold StillAt; rw [h]; exact ⟨rfl, rfl, rfl, rfl⟩

theorem away_still {p s t} (h : StillAt p s t) (a : Away p s) : Away p t :=
    by unfold Away PortState.inContact at *; rw [kept_session h.1]; exact a

theorem stillAt_onPort {p : Port} (s : State) (q) (f : PortState → PortState)
    (h : ∀ P, (f P).kept = P.kept ∧ (f P).respQ = P.respQ ∧ (f P).pendingLeave = P.pendingLeave ∧
    (f P).tags = P.tags) : StillAt p s (s.onPort q f) := by
  unfold StillAt; rw [State.port_onPort]; split
  · subst_vars; exact h _
  · exact ⟨rfl, rfl, rfl, rfl⟩

theorem stillAt_fireNextNote {p : Port} (s : State) (q) (a : Away p s) : StillAt p s (s.fireNextNote q) := by
  unfold State.fireNextNote; split
  · rename_i n hf
    have e1 : StillAt p s (s.onPort q (fun P => { P with notes := P.notes.erase n })) :=
        stillAt_onPort s q _ (fun _ => ⟨rfl, rfl, rfl, rfl⟩)
    have a1 := away_still e1 a
    generalize (s.onPort q (fun P => { P with notes := P.notes.erase n })) = s1 at *
    unfold State.fireNote; split
    · exact e1.trans (stillAt_same (sameAt_respondDue _ _ _ a1))
    · unfold State.appendNotice; dsimp only
      have e2 : StillAt p s1 (s1.onPort n.target (fun T => { T with
          notices := T.notices ++ [{ sender := q, code := n.code, seq := (s1.port n.target).noticeSeq, delivered := false }], noticeSeq := T.noticeSeq + 1 })) := stillAt_onPort _ _ _ (fun _ => ⟨rfl, rfl, rfl, rfl⟩)
      have a2 := away_still e2 a1
      generalize (s1.onPort n.target (fun T => { T with
          notices := T.notices ++ [{ sender := q, code := n.code, seq := (s1.port n.target).noticeSeq, delivered := false }], noticeSeq := T.noticeSeq + 1 })) = s2 at *
      have e3 := sameAt_respondDue (p := p) s2 q
          { code := 0x30#8, tag := n.tag, status := .ok, body := .noticeSeq (s1.port n.target).noticeSeq } a2
      have a3 := away_same e3 a2
      exact ((e1.trans e2).trans (stillAt_same e3)).trans (stillAt_same (sameAt_raise _ _ _ a3))
  · exact stillAt_refl _ _

theorem stillAt_departTarget {p : Port} (s : State) (a : Away p s) : StillAt p s (s.departTarget p) := by
  unfold State.departTarget; dsimp only
  have e1 : StillAt p s (s.onPort p (fun P => ({ P with notices := [] }).withdraw .notice)) :=
      stillAt_onPort _ _ _ (fun _ => ⟨rfl, rfl, rfl, rfl⟩)
  generalize (s.onPort p (fun P => ({ P with notices := [] }).withdraw .notice)) = s1 at *
  have e2 : StillAt p s1 (State.cancelNotes s1 p) := by
    unfold StillAt; rw [port_cancelNotes]; exact ⟨rfl, rfl, rfl, rfl⟩
  change StillAt p s (allPorts.foldl (fun t q => t.fireNotes q) (State.cancelNotes s1 p))
  have e3 := e1.trans e2
  generalize State.cancelNotes s1 p = s2 at *
  have hf : ∀ (l : List Nat) (t : State) q, StillAt p s t → StillAt p s (l.foldl (fun t _ => t.fireNextNote q) t) :=
      by
    intro l; induction l with
    | nil => exact fun t q h => h
    | cons x l ih => exact fun t q h => ih _ q (h.trans (stillAt_fireNextNote t q (away_still h a)))
  generalize allPorts = l
  clear e1 e2
  induction l generalizing s2 with
  | nil => exact e3
  | cons q l ih => exact ih _ (hf _ _ _ e3)

theorem revoke_waits (s : State) (k p) (h0 : Holder) (hp : (s.lock k).phase = .held h0) (hpp : h0.port = p)
    (hc : (s.lock k).cause = .none) (h : watermarkReaches (s.port p).watermark (s.port p).writeSeq = false) :
   (s.revoke k .departed).lock k = { s.lock k with cause := .departed, phase := .releasing { prev := p, watch := (s.port p).writeSeq, tag := none } } := by
  unfold State.revoke; rw [hp]; dsimp only; simp only [if_true]
  rw [hpp]
  have := endGrant_waits (s.setLock k { s.lock k with cause := (s.lock k).revokedCause .departed }) k p none h
  rw [this]; simp [LockRecord.revokedCause, hc]

end Sys2Proof.Machine
end

