-- ==== Sys2Proof/WellFormed.lean ====
section
/-! DEFINITION. Which commands are well formed: the ones that can occur. A WRITE in an intake queue carries as many bytes
as its length field says, at most 256 (R165, check 3); CONFIG_WRITE of items 7 and 8 has rows of its own; the bytes of a
FRAME_RECEIPT are those of one whole frame (Table 10-1). -/

namespace Sys2Proof

open Sys2Proof.Machine

/-- The form of a command, beyond what its types say. -/
def Instr.wellFormed : Instr → Bool
  | .write _ _ _ len data => data.length == len.toNat && len.toNat ≤ Config.maxLength
  | .configWrite _ _ item _ _ => item != 7#8 && item != 8#8
  | .frameReceipt _ bytes => (Frame.ofWire bytes).isSome
  | .hello .. | .leave .. | .read .. | .mapRead .. | .mapOpen .. | .mapStage .. | .mapUnstage .. | .mapAbort ..
  | .mapCommit .. | .lockAcquire .. | .lockRelease .. | .lockRenew .. | .lockCancel .. | .lockQuery .. | .notify ..
  | .noticeAck .. | .faultTake .. | .configRead .. | .configWriteSubscribe .. | .configWriteSlotQuota .. | .linkUp ..
  | .linkDown .. | .deviceReset | .supplyOrRefclkLoss | .resetRelease | .editIdleExpiry | .leaseExpiry ..
  | .yieldDeadlineExpiry .. | .accessTimerExpiry .. | .replyDone .. | .replyError .. | .replyRetry .. | .slotArbiterRun
  | .sendResponse .. | .sendEvent .. => true

end Sys2Proof
end

