-- ==== Sys2Proof/Tests/Slice0.lean ====
section
/-! SUPPORT. Small tests of the model: the form checks, one step of each command on small states of the manual's worked
examples, and for each claim with hypotheses a state that meets them. -/

namespace Sys2Proof.Tests

open Sys2Proof Sys2Proof.Machine

set_option Elab.async false

/-! ## States of the worked examples -/

/-- What a command makes of a state. -/
def after (c : Instr) (s : State) : State :=
  match exec c s with
  | .next t => t
  | _ => s

/-- A port in session 1 with its link UP and nothing in its queues. -/
def sessionPort (writeSeq watermark : Word) : PortState :=
  { PortState.reset .up with session := .online, sessionNo := 1#8, writeSeq := writeSeq, watermark := watermark }

/-- The part with all four ports in session. -/
def live : State := { State.reset with ports := Vector.replicate 4 (sessionPort 0#32 0#32) }

/-- The state with one request at the head of a port's intake queue. -/
def asked (s : State) (p : Port) (tag : Byte) (op : ReqOp) : State :=
  s.onPort p (fun P => { P with intake := [{ tag := tag, op := op }] })

/-- The statuses and bodies in a port's response queue. -/
def responsesOf (s : State) (p : Port) : List (Status × Body) := (s.port p).respQ.map (fun r => (r.status, r.body))

/-- Row 3 of Table 1-5. -/
def row3 : RowRecord :=
  { valid := true, frame := 1000#18, cls := .memory, rights := #v[.readWrite, .read, .none, .readWrite], posting := true,
    guard := some 5 }

/-- Row 4 of Table 1-5. -/
def row4 : RowRecord :=
  { valid := true, frame := 17#18, cls := .memory, rights := #v[.readWrite, .read, .read, .readWrite], posting := false,
    guard := none }

/-- Row 10 of Table 1-5. -/
def row10 : RowRecord :=
  { valid := true, frame := 262143#18, cls := .device, rights := Vector.replicate 4 .readWrite, posting := false,
    guard := none }

/-- A grant of a lock without lease and without agreement to yield. -/
def plainHolder (p : Port) (owner : Half) : Holder :=
  { port := p, owner := owner, yield := false, yieldSent := false, lease := none, deadline := none }

/-- A lock record held by a port. -/
def heldBy (p : Port) (owner gen : Half) : LockRecord :=
  { phase := .held (plainHolder p owner), generation := gen, faultSeen := false, cause := .none, queue := [] }

/-- The map of Table 1-5, lock 5 held by port A with generation 12, port A's write sequence at 40 (section 1.8). -/
def sample : State :=
  ((((live.setRow 3 row3).setRow 4 row4).setRow 10 row10).setLock 5 (heldBy 0 30#16 12#16)).onPort 0
    (fun _ => sessionPort 40#32 40#32)

/-- A piece of 4 bytes in flight. -/
def flying (addr : Word) : Piece :=
  { addr := addr, pool := 0#40, len := 4, pos := 0, cond := .inFlight, data := [] }

/-- A write of one piece, non-posted and without guard. -/
def oneWrite (seq : Word) (x : Piece) : WriteEntry :=
  { seq := seq, tag := 9#8, addr := x.addr, len := x.len, data := [1#8, 2#8, 3#8, 4#8], parts := [], guards := [],
    posted := false, pieces := [x], failed := none, completed := false }

/-- A read of one piece. -/
def oneRead (tag : Byte) (x : Piece) : ReadEntry :=
  { tag := tag, addr := x.addr, len := x.len, parts := [], fence := 0#32, pieces := [x], failed := none, cut := false }

/-- A job of port A for a piece. -/
def jobOf (ref : ReqRef) (piece : Nat) : Job :=
  { port := 0, ref := ref, piece := piece, pool := 0#40, len := 4, dir := ref.dir, retries := 0, retryLimit := 3,
    timeLimit := 64 }

/-- Port A's write 41 in flight in slot 2 under issue number 7, its watermark at 40. -/
def writing : State :=
  (sample.onPort 0 (fun P => { P with writeSeq := 41#32, tags := [9#8], writeQ := [oneWrite 41#32 (flying 16777216#32)] }))
    |>.setSlot 2 { issueNo := 7#8, job := some (jobOf (.write 41#32) 0) }

/-- Port A's read with tag 9 in flight in slot 2 under issue number 7. -/
def reading : State :=
  (sample.onPort 0 (fun P => { P with tags := [9#8], readL := [oneRead 9#8 (flying 16777216#32)] }))
    |>.setSlot 2 { issueNo := 7#8, job := some (jobOf (.read 9#8) 0) }

/-- An edit of port B in OPEN with these staged rows. -/
def openBy (p : Port) (staged : List Staged) : Edit := .opened { owner := p, base := 0#16, staged := staged, idle := 250 }

/-! ## The form of commands -/

theorem test_write_of_wrong_length_is_ill_formed : (Instr.write 0 0#8 0#32 2#16 [1#8]).wellFormed = false := by decide

theorem test_write_above_256_is_ill_formed :
    (Instr.write 0 0#8 0#32 257#16 (List.replicate 257 0#8)).wellFormed = false := by decide +kernel

theorem test_slot_quota_and_subscribe_have_their_own_rows :
    (Instr.configWrite 0 0#8 7#8 0#8 1#32).wellFormed = false ∧
    (Instr.configWrite 0 0#8 8#8 0#8 1#32).wellFormed = false ∧
    (Instr.configWrite 0 0#8 6#8 0#8 1#32).wellFormed = true := by decide

theorem test_bytes_that_are_not_one_whole_frame_are_ill_formed :
    let bytes := (Frame.make 0x24#8 3#8 0#8 0#8 [5#8, 0#8, 0#8, 0#8]).wire
    (Instr.frameReceipt 0 bytes).wellFormed = true ∧ (Instr.frameReceipt 0 bytes.dropLast).wellFormed = false ∧
    (Instr.frameReceipt 0 (bytes ++ [0#8])).wellFormed = false ∧ (Instr.frameReceipt 0 []).wellFormed = false := by
  decide +kernel

theorem test_no_word_spells_a_command : decodeTableWord 8 1 = none := rfl

/-! ## Translation, pieces, watermark and check value -/

/-- Table 1-6. -/
theorem test_two_row_translation :
    (sample.translate 16777152 128).map (fun t => (t.row, t.start.toNat, t.len, t.pool.toNat)) =
      [(3, 16777152, 64, 4198498240), (4, 16777216, 64, 71303168)] := by decide +kernel

/-- Table 1-7, the refusals. -/
theorem test_refusals_of_the_sample_map :
    sample.judge 1 true 16777152 128 = .refuse .noRight ∧ sample.judge 2 false 16777152 128 = .refuse .noRight ∧
    sample.judge 3 true 16777152 128 = .refuse .guard ∧ sample.judge 2 true 16777216 4 = .refuse .noRight ∧
    sample.judge 0 true 2147483640 16 = .refuse .badArg ∧ sample.judge 0 true 16777152 0 = .refuse .badArg ∧
    sample.judge 0 false 41943036 8 = .refuse .noMap ∧ sample.judge 3 false 41943052 6 = .refuse .badArg ∧
    sample.judge 3 false 41943052 8 = .refuse .badArg := by decide +kernel

/-- Table 1-7, what is accepted. -/
theorem test_acceptances_of_the_sample_map :
    sample.judge 1 false 16777152 128 = .accept ∧ sample.judge 3 false 16777152 128 = .accept ∧
    sample.judge 0 true 12582912 64 = .accept ∧ sample.judge 0 true 16777216 256 = .accept ∧
    sample.judge 3 false 41943052 4 = .accept ∧ sample.judge 3 true 41943048 8 = .accept := by decide +kernel

/-- Table 6-4. -/
theorem test_pieces_of_write_30 :
    (makePieces (sample.translate 12582948 256) 12582948 256).map (fun x => (x.addr.toNat, x.len, x.pos, x.pool.toNat)) =
      [(12582948, 28, 0, 4194304036), (12582976, 64, 28, 4194304064), (12583040, 64, 92, 4194304128),
       (12583104, 64, 156, 4194304192), (12583168, 36, 220, 4194304256)] := by decide +kernel

/-- Table 5-2: writes 9 and 10 completed before write 8, write 11 not yet. -/
theorem test_watermark_waits_for_the_oldest_write :
    (advanceQueue [oneWrite 8#32 (flying 0#32), { oneWrite 9#32 (flying 0#32) with completed := true }] 7#32).2 = 7#32 ∧
    (advanceQueue [{ oneWrite 8#32 (flying 0#32) with completed := true },
      { oneWrite 9#32 (flying 0#32) with completed := true }, { oneWrite 10#32 (flying 0#32) with completed := true },
      oneWrite 11#32 (flying 0#32)] 7#32).2 = 10#32 := by decide +kernel

theorem test_check_value_of_one_byte : checkValue [0x00#8] = 0x527D5351#32 := by decide +kernel

theorem test_watermark_comparison_wraps :
    watermarkReaches 2#32 0xFFFFFFFF#32 = true ∧ watermarkReaches 0xFFFFFFFF#32 2#32 = false := by decide

/-! ## One step of each command -/

theorem test_hello_starts_session_1 :
    let s := asked (sample.onPort 2 (fun _ => PortState.reset .up)) 2 0#8 (.hello 1#8 0#8)
    let t := after (.hello 2 0#8 1#8 0#8) s
    (t.port 2).session = .online ∧ (t.port 2).subRev = true ∧
      responsesOf t 2 = [(.ok, .welcome 2 1#8 0#16 0x54#8 0x12#8)] := by decide +kernel

theorem test_leave_of_a_quiet_port_is_answered_at_once :
    let t := after (.leave 0 3#8) (asked sample 0 3#8 .leave)
    (t.port 0).session = .leaving ∧ responsesOf t 0 = [(.ok, .left 1#8 40#32)] ∧ (t.lock 5).phase = .free := by decide +kernel

theorem test_read_of_two_pieces :
    let t := after (.read 1 4#8 16777152#32 128#16) (asked sample 1 4#8 (.read 16777152#32 128#16))
    ((t.port 1).readL.map (fun e => e.pieces.map Piece.len)) = [[64, 64]] ∧ responsesOf t 1 = [] := by decide +kernel

theorem test_posted_write_is_answered_at_once :
    let data := List.replicate 64 7#8
    let t := after (.write 0 4#8 12582912#32 64#16 data) (asked sample 0 4#8 (.write 12582912#32 64#16 data))
    responsesOf t 0 = [(.ok, .written 41#32 none)] ∧ (t.port 0).writeSeq = 41#32 ∧ (t.port 0).tags = [] := by decide +kernel

theorem test_two_row_write_is_not_posted :
    let data := List.replicate 128 7#8
    let t := after (.write 0 4#8 16777152#32 128#16 data) (asked sample 0 4#8 (.write 16777152#32 128#16 data))
    responsesOf t 0 = [] ∧ (t.port 0).writeQ.map (fun e => (e.seq, e.posted, e.guards)) =
      [(41#32, false, [{ lock := 5, gen := 12#16 }])] := by decide +kernel

theorem test_map_read_of_row_4 :
    responsesOf (after (.mapRead 2 0#8 4#16 0#8) (asked sample 2 0#8 (.mapRead 4#16 0#8))) 2 =
      [(.ok, .row 4 row4 0#16 false)] := by decide +kernel

theorem test_map_open_starts_an_empty_edit :
    let t := after (.mapOpen 1 0#8 none) (asked sample 1 0#8 (.mapOpen none))
    t.edit = openBy 1 [] ∧ responsesOf t 1 = [(.ok, .revision 0#16)] := by decide +kernel

/-- Row 4 as MAP_STAGE carries it. -/
def rawRow4 : RawRow :=
  { row := 4#16, valid := true, cls := 0#8, frame := 17#32, rights := 0x96#8, posting := false, guard := 0xFF#8 }

theorem test_map_stage_appends :
    let s := { sample with edit := openBy 1 [] }
    let t := after (.mapStage 1 0#8 rawRow4) (asked s 1 0#8 (.mapStage rawRow4))
    t.edit = openBy 1 [{ row := 4, content := row4 }] ∧ responsesOf t 1 = [(.ok, .stagedAt 1 1)] := by decide +kernel

theorem test_map_stage_of_right_3_is_ill_formed :
    (({ rawRow4 with rights := 0x0C#8 } : RawRow).wellFormed) = none ∧
    (({ rawRow4 with cls := 1#8, posting := true } : RawRow).wellFormed) = none ∧
    (({ rawRow4 with guard := 0#8 } : RawRow).wellFormed) = none := by decide +kernel

theorem test_map_unstage_removes :
    let s := { sample with edit := openBy 1 [{ row := 4, content := row4 }, { row := 3, content := row3 }] }
    let t := after (.mapUnstage 1 0#8 4#16) (asked s 1 0#8 (.mapUnstage 4#16))
    t.edit = openBy 1 [{ row := 3, content := row3 }] ∧ responsesOf t 1 = [(.ok, .listLength 1)] := by decide +kernel

theorem test_map_abort_discards :
    let s := { sample with edit := openBy 1 [{ row := 4, content := row4 }] }
    let t := after (.mapAbort 1 0#8) (asked s 1 0#8 .mapAbort)
    t.edit = .absent ∧ t.row 4 = row4 ∧ responsesOf t 1 = [(.ok, .empty)] := by decide +kernel

theorem test_map_commit_without_traffic :
    let s := { sample.onPort 3 (fun P => { P with subRev := true }) with
      revision := 65535#16, edit := openBy 1 [{ row := 9, content := row4 }] }
    let t := after (.mapCommit 1 0#8) (asked s 1 0#8 .mapCommit)
    t.row 9 = row4 ∧ t.revision = 0#16 ∧ t.edit = .absent ∧ (t.port 3).events = [.revision 0#16] ∧
      responsesOf t 1 = [(.ok, .revision 0#16)] := by decide +kernel

theorem test_map_commit_waits_for_a_write :
    let e : WriteEntry := { oneWrite 41#32 (flying 16777216#32) with parts := sample.translate 16777216 4 }
    let s := { writing.onPort 0 (fun P => { P with writeQ := [e] }) with edit := openBy 1 [{ row := 4, content := row3 }] }
    let t := after (.mapCommit 1 0#8) (asked s 1 0#8 .mapCommit)
    t.edit = .committing { owner := 1, departed := false, base := 0#16, change := [{ row := 4, content := row3 }],
                           drain := [{ port := 0, ref := .write 41#32 }], tag := 0#8 } ∧ t.row 4 = row4 := by decide +kernel

/-- Section 3.8, step 1. -/
theorem test_lock_acquire_waits :
    let t := after (.lockAcquire 1 0#8 5#8 true false 200#16 (some 500#16))
      (asked sample 1 0#8 (.lockAcquire 5#8 true false 200#16 (some 500#16)))
    (t.lock 5).queue = [{ port := 1, owner := 200#16, yield := false, lease := some 500 }] ∧
      responsesOf t 1 = [(.queued, .queuedAt 1)] := by decide +kernel

theorem test_lock_acquire_of_a_free_lock :
    let t := after (.lockAcquire 1 0#8 31#8 false true 7#16 none) (asked sample 1 0#8 (.lockAcquire 31#8 false true 7#16 none))
    (t.lock 31).phase = .held { plainHolder 1 7#16 with yield := true } ∧
      responsesOf t 1 = [(.ok, .granted 1#16 .none)] := by decide +kernel

/-- Section 3.8, step 3. -/
theorem test_lock_release_waits_for_the_writes :
    let t := after (.lockRelease 0 1#8 5#8 12#16) (asked writing 0 1#8 (.lockRelease 5#8 12#16))
    (t.lock 5).phase = .releasing { prev := 0, watch := 41#32, tag := some 1#8 } ∧ responsesOf t 0 = [] := by decide +kernel

/-- Section 3.8, step 13. -/
theorem test_lock_release_of_an_old_generation :
    responsesOf (after (.lockRelease 0 1#8 5#8 11#16) (asked sample 0 1#8 (.lockRelease 5#8 11#16))) 0 =
      [(.stale, .generation 12#16)] := by decide +kernel

theorem test_lock_renew_starts_a_lease :
    let t := after (.lockRenew 0 1#8 5#8 12#16 (some 65535#16)) (asked sample 0 1#8 (.lockRenew 5#8 12#16 (some 65535#16)))
    (t.lock 5).phase = .held { plainHolder 0 30#16 with lease := some (Lease.start 65535) } ∧
      responsesOf t 0 = [(.ok, .renewed 12#16 (some 65535))] := by decide +kernel

/-- A renewal without a lease restarts the running one: all of its duration is left again (R73). -/
theorem test_lock_renew_restarts_the_lease :
    let l := fun (left : Nat) => { heldBy 0 30#16 12#16 with
      phase := .held { plainHolder 0 30#16 with lease := some { duration := 1000, remaining := left } } }
    let t := after (.lockRenew 0 1#8 5#8 12#16 none) (asked (sample.setLock 5 (l 300)) 0 1#8 (.lockRenew 5#8 12#16 none))
    t.lock 5 = l 1000 ∧ responsesOf t 0 = [(.ok, .renewed 12#16 (some 1000))] := by decide +kernel

/-- A wait entry of a port. -/
def waiter (p : Port) (owner : Half) : WaitEntry := { port := p, owner := owner, yield := false, lease := none }

theorem test_lock_cancel_removes :
    let s := sample.setLock 5 { sample.lock 5 with queue := [waiter 1 200#16, waiter 2 7#16] }
    let t := after (.lockCancel 1 1#8 5#8) (asked s 1 1#8 (.lockCancel 5#8))
    (t.lock 5).queue = [waiter 2 7#16] ∧ responsesOf t 1 = [(.ok, .empty)] := by decide +kernel

theorem test_lock_query_of_a_held_lock :
    responsesOf (after (.lockQuery 3 1#8 5#8) (asked sample 3 1#8 (.lockQuery 5#8))) 3 =
      [(.ok, .lockInfo { state := .held, holder := some 0, owner := some 30#16, prev := none, gen := 12#16, queue := [],
                         faultSeen := false, cause := .none, remaining := none })] := by decide +kernel

/-- What is left of a lease at a reading is kept, and is no more than the reading before it found (R71). -/
theorem test_lock_query_reads_the_lease_down :
    let l := fun (left : Nat) => { heldBy 0 30#16 12#16 with
      phase := .held { plainHolder 0 30#16 with lease := some { duration := 9, remaining := left } } }
    let t := after (.lockQuery 3 1#8 5#8) (asked (sample.setLock 5 (l 7)) 3 1#8 (.lockQuery 5#8))
    t.lock 5 = l (Config.leaseRemaining 0 % 8) ∧ Config.leaseRemaining 0 % 8 ≤ 7 :=
  ⟨rfl, by omega⟩

theorem test_notify_appends_at_once :
    let t := after (.notify 0 1#8 1#8 77#32) (asked sample 0 1#8 (.notify 1#8 77#32))
    (t.port 1).notices = [{ sender := 0, code := 77#32, seq := 0#8, delivered := false }] ∧
      (t.port 1).events = [.notice] ∧ responsesOf t 0 = [(.ok, .noticeSeq 0#8)] := by decide +kernel

theorem test_notify_waits_for_the_writes :
    let t := after (.notify 0 1#8 1#8 77#32) (asked writing 0 1#8 (.notify 1#8 77#32))
    (t.port 0).notes = [{ target := 1, tag := 1#8, code := 77#32, watched := 41#32, cancelled := false }] ∧
      responsesOf t 0 = [] := by decide +kernel

theorem test_notice_ack_removes_the_delivered_entry :
    let n : Notice := { sender := 2, code := 5#32, seq := 255#8, delivered := true }
    let s := sample.onPort 0 (fun P => { P with notices := [n] })
    let t := after (.noticeAck 0 1#8 255#16) (asked s 0 1#8 (.noticeAck 255#16))
    (t.port 0).notices = [] ∧ responsesOf t 0 = [(.ok, .acknowledged 2 5#32)] := by decide +kernel

theorem test_fault_take_reports_the_lost_count :
    let s := sample.onPort 0 (fun P => { P with faults := [.badCheck], lost := 0, subFault := true, events := [.fault] })
    let t := after (.faultTake 0 1#8) (asked s 0 1#8 .faultTake)
    (t.port 0).faults = [] ∧ (t.port 0).events = [] ∧ responsesOf t 0 = [(.ok, .faultTaken .badCheck 0)] := by decide +kernel

theorem test_config_read_of_port_state :
    responsesOf (after (.configRead 0 1#8 11#8 3#8) (asked sample 0 1#8 (.configRead 11#8 3#8))) 0 =
      [(.ok, .config 11#8 3#8 0x01010100#32)] := by decide +kernel

theorem test_config_write_needs_lock_0 :
    let s := asked sample 0 1#8 (.configWrite 4#8 0#8 2000#32)
    responsesOf (after (.configWrite 0 1#8 4#8 0#8 2000#32) s) 0 = [(.locked, .empty)] ∧
      (after (.configWrite 0 1#8 4#8 0#8 2000#32) (s.setLock 0 (heldBy 0 0#16 1#16))).config.editIdle = 2000 := by
  decide +kernel

theorem test_subscribe_to_faults :
    let s := sample.onPort 0 (fun P => { P with faults := [.badCheck] })
    let t := after (.configWriteSubscribe 0 1#8 0#8 0x00010000#32) (asked s 0 1#8 (.configWrite 8#8 0#8 0x00010000#32))
    (t.port 0).subFault = true ∧ (t.port 0).events = [.fault] := by decide +kernel

theorem test_slot_quota_takes_a_value :
    let s := (asked sample 0 1#8 (.configWrite 7#8 0#8 8#32)).setLock 0 (heldBy 0 0#16 1#16)
    (after (.configWriteSlotQuota 0 1#8 0#8 8#32) s).config.slotQuota = 8 := by decide +kernel

/-- A LOCK_QUERY of lock 5 with tag 3, its bytes as Tables 10-1 and 10-4 give them. -/
def queryFrame : Frame := Frame.make 0x24#8 3#8 0#8 0#8 [5#8, 0#8, 0#8, 0#8]

theorem test_frame_receipt_queues_the_request :
    ((after (.frameReceipt 1 queryFrame.wire) sample).port 1).intake = [{ tag := 3#8, op := .lockQuery 5#8 }] := by
  decide +kernel

/-- The last bytes of a frame are its check value, most significant byte first (R163). -/
theorem test_check_value_goes_last :
    (Frame.make 0x00#8 0#8 0#8 0#8 []).wire = [0#8, 0#8, 0#8, 0#8, 0#8, 0#8, 0#8, 0#8, 0x8C#8, 0x28#8, 0xB2#8, 0x8A#8] := by
  decide +kernel

/-- The intake takes the 32nd response place between the beginning and the end of a frame: the frame is received (R166). -/
theorem test_frame_begun_with_a_place_free_is_received :
    let s := (asked live 1 3#8 .mapAbort).onPort 1 (fun P => { P with places := 31 })
    let t := after (.mapAbort 1 3#8) s
    (t.port 1).places = 32 ∧ (t.port 1).begun = true ∧
      ((after (.frameReceipt 1 queryFrame.wire) t).port 1).intake = [{ tag := 3#8, op := .lockQuery 5#8 }] ∧
      ((after (.frameReceipt 1 queryFrame.wire) (after (.frameReceipt 1 queryFrame.wire) t)).port 1).intake.length = 1 := by
  decide +kernel

/-- A refused frame whose end finds every response place taken waits for one (R92; log 3). -/
theorem test_refusal_waits_for_a_response_place :
    let f := Frame.make 0xA4#8 3#8 0#8 0#8 []
    let t := fun (places : Nat) => sample.onPort 1 (fun P => { P with places := places, begun := true })
    after (.frameReceipt 1 f.wire) (t 32) = t 32 ∧
      ((after (.frameReceipt 1 f.wire) (t 31)).port 1).places = 32 := by decide +kernel

theorem test_frame_of_a_response_kind_is_unknown :
    responsesOf (after (.frameReceipt 1 (Frame.make 0xA4#8 3#8 0#8 0#8 []).wire) sample) 1 = [(.unknown, .empty)] := by
  decide +kernel

theorem test_link_up : ((after (.linkUp 1) State.reset).port 1).link = .up := by decide +kernel

theorem test_link_loss_revokes :
    let t := after (.linkDown 0) sample
    (t.port 0).session = .offline ∧ (t.lock 5).phase = .free ∧ (t.lock 5).cause = .departed := by decide +kernel

theorem test_device_reset_keeps_the_links :
    let t := after .deviceReset sample
    t.running = false ∧ (t.port 0).session = .offline ∧ (t.port 0).link = .up ∧ (t.row 3).valid = false ∧
      (t.lock 5).generation = 0#16 := by decide +kernel

theorem test_supply_loss_resets :
    let t := after .supplyOrRefclkLoss sample
    t.powerGood = false ∧ (t.port 0).session = .offline ∧ (t.lock 5).phase = .free := by decide +kernel

theorem test_reset_release : (after .resetRelease (after .deviceReset sample)).running = true := by decide +kernel

theorem test_edit_idle_expiry :
    let t := after .editIdleExpiry { sample with edit := openBy 1 [{ row := 4, content := row4 }] }
    t.edit = .absent ∧ (t.port 1).events = [.editExpired] := by decide +kernel

theorem test_lease_expiry_revokes :
    let s := writing.setLock 5 { heldBy 0 30#16 12#16 with phase := .held { plainHolder 0 30#16 with lease := some (Lease.start 1) } }
    let t := after (.leaseExpiry 5) s
    (t.lock 5).phase = .releasing { prev := 0, watch := 41#32, tag := none } ∧ (t.lock 5).cause = .expired ∧
      (t.port 0).events = [.revoked 5 12#16 .expired] := by decide +kernel

theorem test_yield_deadline_expiry_passes_the_lock :
    let s := sample.setLock 5 { heldBy 0 30#16 12#16 with
      phase := .held { plainHolder 0 30#16 with yield := true, yieldSent := true, deadline := some 1 }
      queue := [waiter 1 200#16] }
    let t := after (.yieldDeadlineExpiry 5) s
    (t.lock 5).phase = .held (plainHolder 1 200#16) ∧ (t.lock 5).generation = 13#16 ∧
      (t.port 1).events = [.grant 5 13#16 200#16 .yieldTimeout] := by decide +kernel

theorem test_access_timer_aborts :
    let t := after (.accessTimerExpiry 2) writing
    t.busAbort = some { slot := 2, issueNo := 7#8 } ∧ (t.slot 2).job = none ∧
      responsesOf t 0 = [(.poolError, .written 41#32 (some .timeout))] ∧ (t.port 0).watermark = 41#32 := by decide +kernel

/-- Section 3.8, step 8: the last write completes and the lock is handed off with WRITE_FAILED. -/
theorem test_done_fires_the_handoff :
    let s := writing.setLock 5 { heldBy 0 30#16 12#16 with
      phase := .releasing { prev := 0, watch := 41#32, tag := some 1#8 }, faultSeen := true, queue := [waiter 1 200#16] }
    let t := after (.replyDone 2#8 7#8 []) s
    responsesOf t 0 = [(.ok, .written 41#32 none), (.ok, .generation 12#16)] ∧
      (t.port 1).events = [.grant 5 13#16 200#16 .writeFailed] ∧ (t.port 0).watermark = 41#32 := by decide +kernel

theorem test_done_brings_the_data :
    responsesOf (after (.replyDone 2#8 7#8 [1#8, 2#8, 3#8, 4#8]) reading) 0 = [(.ok, .data [1#8, 2#8, 3#8, 4#8])] := by
  decide +kernel

theorem test_error_fails_the_read :
    responsesOf (after (.replyError 2#8 7#8 []) reading) 0 = [(.poolError, .poolError .targetError)] := by decide +kernel

theorem test_retry_issues_again :
    let t := after (.replyRetry 2#8 7#8 []) writing
    t.busIssue = some { slot := 2, issueNo := 8#8, pool := 0#40, len := 4, dir := .write, data := [1#8, 2#8, 3#8, 4#8] } ∧
      (t.slot 2).job = some { jobOf (.write 41#32) 0 with retries := 1 } := by decide +kernel

theorem test_arbiter_issues_the_oldest_piece :
    let s := sample.onPort 0 (fun P => { P with
      writeSeq := 41#32, writeQ := [oneWrite 41#32 { flying 16777216#32 with cond := .unissued }] })
    let t := after .slotArbiterRun s
    t.rr = 0 ∧ (t.slot 0).issueNo = 1#8 ∧ ((t.slot 0).job.map Job.ref) = some (.write 41#32) := by decide +kernel

/-- A response in a port's queue, its response place in use. -/
def answered (s : State) (p : Port) (r : Response) : State := s.onPort p (fun P => { P with respQ := [r], places := 1 })

theorem test_send_response_frees_the_place :
    let r : Response := { code := 0x23#8, tag := 3#8, status := .ok, body := .empty }
    let t := after (.sendResponse 0) (answered sample 0 r)
    (t.port 0).places = 0 ∧ (t.port 0).tx.map (·.take 8) =
      some [0xA3#8, 3#8, 0#8, 0#8, 0#8, 0#8, 0#8, 0#8] := by decide +kernel

theorem test_send_event_carries_the_grant :
    let t := after (.sendEvent 1) (sample.onPort 1 (fun P => { P with events := [.grant 5 13#16 200#16 .writeFailed] }))
    (t.port 1).events = [] ∧ (t.port 1).tx.map (·.take 16) =
      some [0xC0#8, 0xFF#8, 0#8, 0#8, 0#8, 8#8, 0#8, 0#8, 5#8, 4#8, 0#8, 13#8, 0#8, 200#8, 0#8, 0#8] := by decide +kernel

theorem test_step_takes_the_front :
    step { State.reset with pending := [.linkUp 0, .linkUp 1] } =
      .next { State.reset.onPort 0 (fun P => { P with link := .up }) with pending := [.linkUp 1] } := rfl

theorem test_empty_queue_idles : step State.reset = .next State.reset := rfl

/-! ## What the claims assume can be met

One theorem for each claim with hypotheses: states and operands that meet them, for every clause. -/

/-- The port's session state replaced. -/
def inSession (s : State) (p : Port) (x : Session) : State := s.onPort p (fun P => { P with session := x })

theorem none_open {e : Edit} {f : OpenEdit → Prop} (h : e.state ≠ .opened) : ∀ o, e = .opened o → f o := by
  rintro o rfl; exact absurd rfl h

theorem none_committing {e : Edit} (h : e.state ≠ .committing) : ∀ c, e ≠ .committing c := by
  rintro c rfl; exact absurd rfl h

theorem only_piece_is_last (x : Piece) (b : Bool) : lastPiece [x] 0 b := by
  intro i y h hy
  cases i with
  | zero => exact absurd rfl h
  | succ i => simp at hy

/-- The end of the piece in slot 2 of port A, under issue number 7, by a DONE reply and by an ERROR reply. -/
theorem ends_by_done {s : State} {j : Job} {data : List Byte} (h : s.running = true) (hj : (s.slot 2).job = some j)
    (hi : (s.slot 2).issueNo = 7#8) (hr : j.dir = .read → data.length = j.len) (hw : j.dir = .write → data = []) :
    endsPiece (.replyDone 2#8 7#8 data) s 2 j (.well data) :=
  ⟨h, hj, 2#8, rfl, .inl ⟨data, by rw [hi], hr, hw, rfl⟩⟩

theorem ends_by_error {s : State} {j : Job} (h : s.running = true) (hj : (s.slot 2).job = some j)
    (hi : (s.slot 2).issueNo = 7#8) : endsPiece (.replyError 2#8 7#8 []) s 2 j (.failed .targetError) :=
  ⟨h, hj, 2#8, rfl, .inr ⟨.targetError, .inl ⟨[], by rw [hi], rfl⟩, rfl⟩⟩

/-- A condition on its row holds of every byte of a range inside one row. -/
theorem everyByte_in_row {f : Row → Prop} {a len : Nat} (r : Row) (lo : r.val * 4194304 ≤ a)
    (hi : a + len ≤ (r.val + 1) * 4194304) (h : f r) : everyByte a len (fun x => f (rowIndex x)) := by
  intro x h1 h2
  have e : rowIndex x = r := by
    apply Fin.ext
    have hr := r.isLt
    have : x / 4194304 = r.val := by omega
    simp [rowIndex, Config.rowSize, Fin.ofNat, this, Nat.mod_eq_of_lt hr]
  show f (rowIndex x)
  rw [e]; exact h

/-- The locks of a state are legal when all but one are as at reset and that one is legal. -/
theorem legal_locks {s : State} (k : Lock) (h : ∀ j, j ≠ k → s.lock j = LockRecord.reset) (hk : s.lockLegal k) :
    ∀ j, s.lockLegal j := by
  intro j
  by_cases e : j = k
  · exact e ▸ hk
  · simp [State.lockLegal, State.queueLegal, h j e, LockRecord.reset]

theorem witness_DeviceReset :
    (after .deviceReset live).running = false ∧ (after .supplyOrRefclkLoss live).running = false ∧
    requestOf (.leave 3 31#8) = some (3, { tag := 31#8, op := .leave }) ∧
    resetValues live (after .deviceReset live) ∧
    exec .resetRelease (after .deviceReset live) = .next (after .resetRelease (after .deviceReset live)) ∧
    ((after .resetRelease (after .deviceReset live)).port 3).link = .up := by
  refine ⟨by decide +kernel, by decide +kernel, rfl,
    ⟨by decide +kernel, fun r => ?_, by decide +kernel⟩, rfl, by decide +kernel⟩
  have e : (after .deviceReset live).row r = RowRecord.reset := by
    show (Vector.replicate 512 RowRecord.reset).get r = _
    simp [Vector.get]
  rw [e]
  decide +kernel

theorem witness_SessionAndTagChecksComeFirst :
    let r : Request := { tag := 31#8, op := .leave }
    requestOf (.leave 3 31#8) = some (3, r) ∧ r.op.isHello = false ∧
    (let s := inSession (asked live 3 31#8 .leave) 3 .offline
     s.takes 3 r = true ∧ (s.port 3).session = .offline) ∧
    (let s := inSession (asked live 3 31#8 .leave) 3 .closing
     s.takes 3 r = true ∧ (s.port 3).session = .closing) ∧
    (let s := inSession (asked live 3 31#8 .leave) 3 .leaving
     s.takes 3 r = true ∧ (s.port 3).session = .leaving) ∧
    (let s := asked live 3 32#8 .leave
     s.takes 3 { tag := 32#8, op := .leave } = true ∧ (s.port 3).session = .online ∧ 31 < (32#8).toNat) ∧
    (let s := (asked live 3 31#8 .leave).onPort 3 (fun P => { P with tags := [0#8, 31#8] })
     s.takes 3 r = true ∧ (s.port 3).session = .online ∧ r.tag.toNat ≤ 31 ∧ r.tag ∈ (s.port 3).tags) := by
  decide +kernel

theorem witness_AbsentEventsDoNothing :
    (∀ o, live.edit ≠ .opened o) ∧ (∀ h, (live.lock 31).phase = .held h → h.lease = none) ∧
    (∀ h, (sample.lock 5).phase = .held h → h.lease = none) ∧
    (∀ h, (sample.lock 5).phase = .held h → h.deadline = none) ∧ (live.slot 7).job = none ∧
    requestOf (.read 0 1#8 0#32 1#16) = some (0, { tag := 1#8, op := .read 0#32 1#16 }) ∧
    requestOf (.write 0 1#8 0#32 0#16 []) = some (0, { tag := 1#8, op := .write 0#32 0#16 [] }) ∧
    (live.port 0).intake.head? ≠ some { tag := 1#8, op := .read 0#32 1#16 } ∧
    16 ≤ ((live.onPort 0 (fun P => { P with writeQ := List.replicate 16 (oneWrite 1#32 (flying 0#32)) })).port 0).writeQ.length ∧
    8 ≤ ((live.onPort 0 (fun P => { P with readL := List.replicate 8 (oneRead 1#8 (flying 0#32)) })).port 0).readL.length ∧
    ((live.onPort 0 (fun P => { P with hold := some { tag := 1#8, op := .leave } })).port 0).hold.isSome = true ∧
    32 ≤ ((live.onPort 0 (fun P => { P with places := 32 })).port 0).places := by
  have e : (sample.lock 5).phase = .held (plainHolder 0 30#16) := by decide +kernel
  have f : (live.lock 31).phase = .free := by decide +kernel
  have g : live.edit = .absent := rfl
  refine ⟨?_, ?_, ?_, ?_, ?_⟩
  · intro o; rw [g]; simp
  · intro h; rw [f]; simp
  · intro h; rw [e]; rintro ⟨⟩; rfl
  · intro h; rw [e]; rintro ⟨⟩; rfl
  · decide +kernel

theorem witness_HelloAnswers :
    let off := live.onPort 3 (fun _ => PortState.reset .up)
    let s := fun (t : State) (tag a b : Byte) => asked t 3 tag (.hello a b)
    let r := fun (tag a b : Byte) => ({ tag := tag, op := .hello a b } : Request)
    let used := fun (t : State) => (s t 31#8 0#8 0#8).onPort 3 (fun P => { P with tags := [31#8] })
    ((s off 32#8 0#8 0#8).takes 3 (r 32#8 0#8 0#8) = true ∧ ((s off 32#8 0#8 0#8).port 3).session = .offline) ∧
    ((s live 32#8 0#8 0#8).takes 3 (r 32#8 0#8 0#8) = true ∧ ((s live 32#8 0#8 0#8).port 3).session = .online) ∧
    ((used live).takes 3 (r 31#8 0#8 0#8) = true ∧ ((used live).port 3).session = .online ∧
      31#8 ∈ ((used live).port 3).tags) ∧
    ((used off).takes 3 (r 31#8 0#8 0#8) = true ∧ ((used off).port 3).session = .offline ∧
      31#8 ∈ ((used off).port 3).tags) ∧
    ((s off 31#8 2#8 0#8).takes 3 (r 31#8 2#8 0#8) = true ∧ 31#8 ∉ ((s off 31#8 2#8 0#8).port 3).tags ∧ 1 < (2#8).toNat) ∧
    ((s off 31#8 1#8 1#8).takes 3 (r 31#8 1#8 1#8) = true ∧ ((s off 31#8 1#8 1#8).port 3).session = .offline) ∧
    ((s live 0#8 0#8 0#8).takes 3 (r 0#8 0#8 0#8) = true ∧ ((s live 0#8 0#8 0#8).port 3).session = .online ∧
      0#8 ∉ ((s live 0#8 0#8 0#8).port 3).tags) ∧
    ((s (inSession live 3 .leaving) 0#8 0#8 0#8).takes 3 (r 0#8 0#8 0#8) = true) ∧
    ((s (inSession live 3 .closing) 0#8 0#8 0#8).takes 3 (r 0#8 0#8 0#8) = true) := by
  decide +kernel

theorem legal_sample_locks (f : PortState → PortState) (q : List WaitEntry)
    (h : let s := (sample.setLock 5 { sample.lock 5 with queue := q }).onPort 0 f
      (s.lock 5) = { heldBy 0 30#16 12#16 with queue := q } ∧ (s.port 0).session = .online ∧
        (q.map WaitEntry.port).Nodup ∧ (∀ e ∈ q, (s.port e.port).session = .online ∧ e.port ≠ 0) ∧
        ∀ j, j ≠ 5 → s.lock j = LockRecord.reset) :
    ∀ k, ((sample.setLock 5 { sample.lock 5 with queue := q }).onPort 0 f).lockLegal k := by
  obtain ⟨h5, h0, hn, hq, hr⟩ := h
  refine legal_locks 5 hr ?_
  unfold State.lockLegal State.queueLegal
  rw [h5]
  exact ⟨⟨hn, fun e he => (hq e he).1⟩, h0, fun e he => (hq e he).2, rfl, fun h => by simp [plainHolder] at h,
    fun x h => by simp [plainHolder] at h⟩

/-- Port A holding lock 5 with port B waiting, and asking to leave. -/
def leaver (f : PortState → PortState) : State :=
  (sample.setLock 5 { sample.lock 5 with queue := [waiter 1 200#16] }).onPort 0
    (fun P => f { P with intake := [{ tag := 3#8, op := .leave }] })

/-- The only waiter leaves: its entry is gone, the yield deadline stops, and the rest of the record stays (R66, R77). -/
theorem test_leave_removes_the_wait_entry :
    let l := fun (deadline : Option Nat) (queue : List WaitEntry) => { heldBy 0 30#16 12#16 with
      queue := queue, phase := .held { plainHolder 0 30#16 with yield := true, yieldSent := true, deadline := deadline } }
    let t := after (.leave 1 3#8) (asked (sample.setLock 5 (l (some 9) [waiter 1 200#16])) 1 3#8 .leave)
    t.lock 5 = l none [] ∧ l none [] = (l (some 9) [waiter 1 200#16]).withoutWait 1 := by decide +kernel

theorem witness_LeaveDeparts :
    ((leaver id).ready 0 { tag := 3#8, op := .leave } = true ∧ (∀ k, (leaver id).lockLegal k) ∧
      ((leaver id).port 0).tags = [] ∧ ((leaver id).port 0).readL = [] ∧ (leaver id).inFlight 0 = 0 ∧
      watermarkReaches ((leaver id).port 0).watermark ((leaver id).port 0).writeSeq = true ∧
      (leaver id).holds 0 5 = true ∧ (leaver id).holds 0 31 = false ∧ (∀ e ∈ ((leaver id).lock 31).queue, e.port ≠ 0)) ∧
    (let s := leaver (fun P => { P with writeSeq := 41#32 })
     s.ready 0 { tag := 3#8, op := .leave } = true ∧ (∀ k, s.lockLegal k) ∧ s.holds 0 5 = true ∧
      watermarkReaches (s.port 0).watermark (s.port 0).writeSeq = false) ∧
    (let s := leaver (fun P => { P with readL := [oneRead 9#8 (flying 0#32)] })
     s.ready 0 { tag := 3#8, op := .leave } = true ∧ (∀ k, s.lockLegal k) ∧ (s.port 0).readL ≠ []) ∧
    (let s := leaver (fun P => { P with tags := [9#8] })
     s.ready 0 { tag := 3#8, op := .leave } = true ∧ (∀ k, s.lockLegal k) ∧ 9#8 ∈ (s.port 0).tags ∧
      (∀ n ∈ (s.port 0).notes, watermarkReaches (s.port 0).watermark n.watched = true → n.tag ≠ 9#8)) := by
  refine ⟨⟨by decide +kernel, legal_sample_locks _ _ (by decide +kernel), by decide +kernel⟩,
    ⟨by decide +kernel, legal_sample_locks _ _ (by decide +kernel), by decide +kernel⟩,
    ⟨by decide +kernel, legal_sample_locks _ _ (by decide +kernel), by decide +kernel⟩,
    ⟨by decide +kernel, legal_sample_locks _ _ (by decide +kernel), by decide +kernel⟩⟩

theorem witness_LinkChangesWithoutSession :
    (let s := inSession live 0 .offline
     (s.port 0).link = .up ∧ s.running = true ∧ (s.port 0).session = .offline) ∧
    (let s := inSession live 3 .closing
     (s.port 3).link = .up ∧ s.running = true ∧ (s.port 3).session = .closing) ∧
    (State.reset.port 3).link = .down := by decide +kernel

theorem witness_LinkLossDeparts :
    ((leaver id).running = true ∧ ((leaver id).port 0).link = .up ∧ ((leaver id).port 0).session = .online ∧
      (∀ k, (leaver id).lockLegal k) ∧ ((leaver id).port 0).watermark = ((leaver id).port 0).writeSeq ∧
      (leaver id).inFlight 0 = 0 ∧ ((leaver id).port 0).readL = [] ∧ (leaver id).holds 0 5 = true ∧
      watermarkReaches ((leaver id).port 0).watermark ((leaver id).port 0).writeSeq = true ∧
      (leaver id).edit = .absent) ∧
    (let s := leaver (fun P => { P with writeSeq := 41#32 })
     s.running = true ∧ (s.port 0).link = .up ∧ (s.port 0).session = .online ∧ (∀ k, s.lockLegal k) ∧
      s.holds 0 5 = true ∧ watermarkReaches (s.port 0).watermark (s.port 0).writeSeq = false) ∧
    (let s := inSession live 3 .leaving
     s.running = true ∧ (s.port 3).link = .up ∧ (s.port 3).session = .leaving ∧ ∀ k, s.lockLegal k) := by
  refine ⟨⟨by decide +kernel, by decide +kernel, by decide +kernel, legal_sample_locks _ _ (by decide +kernel),
      by decide +kernel⟩,
    ⟨by decide +kernel, by decide +kernel, by decide +kernel, legal_sample_locks _ _ (by decide +kernel),
      by decide +kernel⟩,
    ⟨by decide +kernel, by decide +kernel, by decide +kernel, legal_locks 0 (by decide +kernel) ?_⟩⟩
  have e : (inSession live 3 .leaving).lock 0 = LockRecord.reset := by decide +kernel
  simp [State.lockLegal, State.queueLegal, e, LockRecord.reset]

/-- A commit of port A that waits for these requests of port A. -/
def waiting (drain : List ReqRef) : CommitEdit :=
  { owner := 0, departed := false, base := 0#16, change := [{ row := 4, content := row3 }],
    drain := drain.map (fun r => { port := 0, ref := r }), tag := 0#8 }

/-- A link loss with a commit that the port's write holds up, and with one that only a discarded read held up; and with a
lock in RELEASING. -/
theorem witness_LinkLossDeparts_edit :
    let gone := oneRead 9#8 { flying 0#32 with cond := .unissued }
    let left := fun (c : CommitEdit) (s : State) => c.drain.filter (fun d => decide (¬ (d.port = 0 ∧
      ∃ e ∈ (s.port 0).readL, d.ref = .read e.tag ∧ ∀ x ∈ e.pieces, x.cond ≠ .inFlight)))
    let s := fun (c : CommitEdit) => { leaver (fun P => { P with readL := [gone] }) with edit := .committing c }
    ((s (waiting [.read 9#8])).running = true ∧ ((s (waiting [.read 9#8])).port 0).link = .up ∧
      ((s (waiting [.read 9#8])).port 0).session = .online ∧ (∀ k, (s (waiting [.read 9#8])).lockLegal k) ∧
      left (waiting [.read 9#8]) (s (waiting [.read 9#8])) = []) ∧
    (left (waiting [.write 41#32, .read 9#8]) (s (waiting [.write 41#32, .read 9#8])) ≠ []) ∧
    ((leaver id).setLock 31 { LockRecord.reset with
      phase := .releasing { prev := 0, watch := 41#32, tag := none } }).lock 31 =
      { LockRecord.reset with phase := .releasing { prev := 0, watch := 41#32, tag := none } } ∧
    openBy 0 [] ≠ openBy 1 [] := by
  refine ⟨⟨by decide +kernel, by decide +kernel, by decide +kernel,
    legal_sample_locks (fun P => { P with
      readL := [oneRead 9#8 { flying 0#32 with cond := .unissued }], intake := [{ tag := 3#8, op := .leave }] })
      [waiter 1 200#16] (by decide +kernel), by decide +kernel⟩, by decide +kernel, by decide +kernel, by decide⟩

theorem witness_ResponseIsSent :
    let ok : Response := { code := 0x02#8, tag := 3#8, status := .ok, body := .left 1#8 0#32 }
    let plain : Response := { code := 0x23#8, tag := 3#8, status := .ok, body := .empty }
    (let s := answered live 3 plain
     s.running = true ∧ (s.port 3).link = .up ∧ (s.port 3).respQ = [plain] ∧ plain.isLeaveOk = false) ∧
    (let s := inSession (answered live 3 ok) 3 .closing
     (s.port 3).respQ = [ok] ∧ ok.isLeaveOk = true ∧ (s.port 3).session ≠ .leaving) ∧
    (let s := inSession (answered live 3 ok) 3 .leaving
     s.running = true ∧ (s.port 3).link = .up ∧ (s.port 3).respQ = [ok] ∧ ok.isLeaveOk = true ∧
      (s.port 3).session = .leaving) := by decide +kernel

/-- A notice of port B, delivered or not. -/
def notice (seq : Byte) (delivered : Bool) : Notice := { sender := 1, code := 5#32, seq := seq, delivered := delivered }

/-- Kind bytes of requests and of refused frames. -/
theorem witness_ResponseIsSent_frame :
    (0x23#8 : Byte).toNat < 128 ∧ 128 ≤ (0xA4#8 : Byte).toNat ∧
    (∃ gen d, (Body.renewed 1#16 (some 5)) = .renewed gen (some d)) := ⟨by decide, by decide, 1#16, 5, rfl⟩

theorem witness_EventIsSent :
    let s := fun (events : List Item) (notices : List Notice) =>
      live.onPort 3 (fun P => { P with events := events, notices := notices })
    ((s [.editExpired] []).running = true ∧ ((s [.editExpired] []).port 3).link = .up ∧
      ((s [.editExpired] []).port 3).respQ = [] ∧ ((s [.editExpired] []).port 3).session = .online ∧
      ((s [.editExpired] []).port 3).events = [.editExpired] ∧ Item.editExpired ≠ .notice ∧ Item.editExpired ≠ .fault) ∧
    ((inSession (s [.fault] []) 3 .leaving).port 3).events = [.fault] ∧
    (let t := s [.notice] [notice 0#8 true, notice 1#8 false, notice 2#8 false]
     (t.port 3).events = .notice :: [] ∧
      (t.port 3).notices = [notice 0#8 true] ++ notice 1#8 false :: [notice 2#8 false] ∧
      (∀ m ∈ [notice 0#8 true], m.delivered = true) ∧ (notice 1#8 false).delivered = false ∧
      Item.notice ∉ ([] : List Item) ∧ ∃ m ∈ [notice 2#8 false], m.delivered = false) := by decide +kernel

/-- An edit of port B in COMMITTING that changes row 4 and waits for write 41 of port A. -/
def committing (p : Port) (departed : Bool) : Edit :=
  .committing { owner := p, departed := departed, base := 0#16, change := [{ row := 4, content := row3 }],
                drain := [{ port := 0, ref := .write 41#32 }], tag := 0#8 }

theorem witness_ReadOutcome :
    let s := fun (t : State) (a : Word) (len : Half) => asked t 3 31#8 (.read a len)
    let r := fun (a : Word) (len : Half) => ({ tag := 31#8, op := .read a len } : Request)
    ((s sample 41943052#32 6#16).ready 3 (r 41943052#32 6#16) = true ∧
      (s sample 41943052#32 6#16).judge 3 false (41943052#32).toNat (6#16).toNat = .refuse .badArg) ∧
    ((s { sample with edit := committing 1 false } 16777216#32 256#16).ready 3 (r 16777216#32 256#16) = true ∧
      (s { sample with edit := committing 1 false } 16777216#32 256#16).judge 3 false (16777216#32).toNat (256#16).toNat =
        .hold) ∧
    ((s sample 16777216#32 256#16).ready 3 (r 16777216#32 256#16) = true ∧
      (s sample 16777216#32 256#16).judge 3 false (16777216#32).toNat (256#16).toNat = .accept) := by decide +kernel

theorem witness_WriteOutcome :
    let s := fun (t : State) (a : Word) => asked t 0 31#8 (.write a 1#16 [7#8])
    let r := fun (a : Word) => ({ tag := 31#8, op := .write a 1#16 [7#8] } : Request)
    ((s sample 37748736#32).ready 0 (r 37748736#32) = true ∧
      (s sample 37748736#32).judge 0 true (37748736#32).toNat (1#16).toNat = .refuse .noMap) ∧
    ((s { sample with edit := committing 1 false } 16777216#32).ready 0 (r 16777216#32) = true ∧
      (s { sample with edit := committing 1 false } 16777216#32).judge 0 true (16777216#32).toNat (1#16).toNat = .hold) ∧
    ((s sample 16777215#32).ready 0 (r 16777215#32) = true ∧
      (s sample 16777215#32).judge 0 true (16777215#32).toNat (1#16).toNat = .accept ∧
      (s sample 16777215#32).postedWrite (touchedRows 16777215 1) = true) ∧
    ((s sample 16777216#32).ready 0 (r 16777216#32) = true ∧
      (s sample 16777216#32).judge 0 true (16777216#32).toNat (1#16).toNat = .accept ∧
      (s sample 16777216#32).postedWrite (touchedRows 16777216 1) = false) := by decide +kernel

theorem witness_AcceptanceVerdict :
    (¬ (1 ≤ 0 ∧ 0 ≤ 256 ∧ 0 ≤ 2147483647 ∧ 0 + 0 - 1 ≤ 2147483647)) ∧
    (¬ (1 ≤ 257 ∧ 257 ≤ 256 ∧ 0 ≤ 2147483647 ∧ 0 + 257 - 1 ≤ 2147483647)) ∧
    (¬ (1 ≤ 1 ∧ 1 ≤ 256 ∧ 2147483648 ≤ 2147483647 ∧ 2147483648 + 1 - 1 ≤ 2147483647)) ∧
    2147483392 + 256 - 1 ≤ 2147483647 ∧
    someByte 16777215 2 (fun x => ({ sample with edit := committing 1 false }).edit.changes (rowIndex x) = true) ∧
    (∀ a len, everyByte a len (fun x => sample.edit.changes (rowIndex x) = false)) ∧
    someByte 41943039 2 (fun x => (sample.rowAt x).valid = false) ∧
    everyByte 41943040 256 (fun x => (sample.rowAt x).valid = true) ∧
    (¬ everyByte 41943040 1 (fun x => (sample.rowAt x).cls = .memory)) ∧
    (¬ deviceAccess 41943052 8) ∧ (¬ deviceAccess 41943040 3) ∧ deviceAccess 41943048 8 ∧
    everyByte 41943040 8 (fun x => (sample.rowAt x).cls = .device) ∧
    everyByte 16777216 256 (fun x => (sample.rowAt x).cls = .memory) ∧
    someByte 12582912 1 (fun x => (sample.rowAt x).rights.get 2 = .none) ∧
    someByte 12582912 1 (fun x => (sample.rowAt x).rights.get 1 = .read) ∧
    everyByte 12582912 256 (fun x => (sample.rowAt x).rights.get 3 = .readWrite) ∧
    everyByte 12582912 256 (fun x => (sample.rowAt x).rights.get 1 = .read) ∧
    someByte 16777215 1 (fun x => ∃ k, (sample.rowAt x).guard = some k ∧ sample.holds 3 k = false) ∧
    everyByte 16777216 1 (fun x => ∀ k, (sample.rowAt x).guard = some k → sample.holds 0 k = true) ∧
    everyByte 12582912 1 (fun x => ∀ k, (sample.rowAt x).guard = some k → sample.holds 0 k = true) := by
  have r10 : sample.row 10 = row10 := by decide +kernel
  have r4 : sample.row 4 = row4 := by decide +kernel
  have r3 : sample.row 3 = row3 := by decide +kernel
  refine ⟨by omega, by omega, by omega, by omega, ⟨16777216, by omega, by omega, by decide +kernel⟩,
    fun _ _ _ _ _ => rfl, ⟨41943039, by omega, by omega, by decide +kernel⟩,
    everyByte_in_row (f := fun r => (sample.row r).valid = true) 10 (by decide) (by decide) (by rw [r10]; rfl),
    fun h => absurd (h 41943040 (by omega) (by omega)) (by decide +kernel), by unfold deviceAccess; omega,
    by unfold deviceAccess; omega, by unfold deviceAccess; omega,
    everyByte_in_row (f := fun r => (sample.row r).cls = .device) 10 (by decide) (by decide) (by rw [r10]; rfl),
    everyByte_in_row (f := fun r => (sample.row r).cls = .memory) 4 (by decide) (by decide) (by rw [r4]; rfl),
    ⟨12582912, by omega, by omega, by decide +kernel⟩, ⟨12582912, by omega, by omega, by decide +kernel⟩,
    everyByte_in_row (f := fun r => (sample.row r).rights.get 3 = .readWrite) 3 (by decide) (by decide) (by rw [r3]; rfl),
    everyByte_in_row (f := fun r => (sample.row r).rights.get 1 = .read) 3 (by decide) (by decide) (by rw [r3]; rfl),
    ⟨16777215, by omega, by omega, 5, by decide +kernel⟩,
    everyByte_in_row (f := fun r => ∀ k, (sample.row r).guard = some k → sample.holds 0 k = true) 4 (by decide) (by decide)
      (by rw [r4]; simp [row4]),
    everyByte_in_row (f := fun r => ∀ k, (sample.row r).guard = some k → sample.holds 0 k = true) 3 (by decide) (by decide)
      ?_⟩
  rw [r3]
  rintro k ⟨⟩
  decide +kernel

theorem witness_InvalidRowIsRefused :
    let s := asked sample 0 0#8 (.read 41943036#32 8#16)
    requestOf (.read 0 0#8 41943036#32 8#16) = some (0, { tag := 0#8, op := .read 41943036#32 8#16 }) ∧
    s.ready 0 { tag := 0#8, op := .read 41943036#32 8#16 } = true ∧ 1 ≤ (8#16).toNat ∧ (8#16).toNat ≤ 256 ∧
    (41943036#32).toNat + (8#16).toNat - 1 ≤ 2147483647 ∧
    everyByte (41943036#32).toNat (8#16).toNat (fun x => s.edit.changes (rowIndex x) = false) ∧
    someByte (41943036#32).toNat (8#16).toNat (fun x => (s.rowAt x).valid = false) := by
  refine ⟨rfl, by decide +kernel, by decide, by decide, by decide, fun _ _ _ => rfl,
    ⟨41943036, by decide, by decide, by decide +kernel⟩⟩

theorem witness_TranslationFollowsTheRows :
    (1 ≤ 1 ∧ 1 ≤ 256 ∧ 2147483647 + 1 - 1 ≤ 2147483647) ∧ (1 ≤ 256 ∧ 256 ≤ 256 ∧ 4194303 + 256 - 1 ≤ 2147483647) := by
  decide

theorem witness_PiecesAreTheBlocks :
    (makePieces (sample.translate 12582948 256) 12582948 256)[4]?.isSome = true ∧ deviceAccess 41943048 8 := by
  refine ⟨by decide +kernel, by unfold deviceAccess; omega⟩

theorem witness_MapReadAnswers :
    let q := fun (t : State) (row : Half) (view : Byte) => (asked t 1 0#8 (.mapRead row view)).ready 1
      { tag := 0#8, op := .mapRead row view }
    q sample 512#16 0#8 = true ∧ q sample 0#16 2#8 = true ∧ q sample 511#16 0#8 = true ∧ q sample 511#16 1#8 = true ∧
    (∀ o, (asked sample 1 0#8 (.mapRead 511#16 1#8)).edit = .opened o → o.owner ≠ 1) ∧
    (let e := openBy 1 [{ row := 4, content := row4 }]
     q { sample with edit := e } 4#16 1#8 = true ∧ (asked { sample with edit := e } 1 0#8 (.mapRead 4#16 1#8)).edit = e ∧
      (∀ x ∈ [({ row := 4, content := row4 } : Staged)], x.row ≠ 0) ∧
      ([({ row := 4, content := row4 } : Staged)].map Staged.row).Nodup) ∧ (4#16).toNat = (4 : Row).val := by
  refine ⟨by decide +kernel, by decide +kernel, by decide +kernel, by decide +kernel, none_open (by decide +kernel),
    by decide +kernel, by decide⟩

theorem witness_MapOpenAnswers :
    let s := fun (e : Edit) (x : Option Half) => asked { sample with edit := e } 1 0#8 (.mapOpen x)
    let r := fun (x : Option Half) => ({ tag := 0#8, op := .mapOpen x } : Request)
    ((s .absent (some 65535#16)).ready 1 (r (some 65535#16)) = true ∧
      65535#16 ≠ (s .absent (some 65535#16)).revision) ∧
    ((s .absent none).ready 1 (r none) = true ∧ (s .absent none).edit = .absent) ∧
    ((s .absent (some 0#16)).ready 1 (r (some 0#16)) = true ∧ (s .absent (some 0#16)).revision = 0#16) ∧
    ((s (openBy 1 []) none).ready 1 (r none) = true ∧ (s (openBy 1 []) none).edit = openBy 1 []) ∧
    ((s (openBy 0 []) none).ready 1 (r none) = true ∧ (s (openBy 0 []) none).edit = openBy 0 []) ∧
    ((s (committing 1 false) none).ready 1 (r none) = true ∧ (s (committing 1 false) none).edit = committing 1 false) ∧
    ((s (committing 1 true) none).ready 1 (r none) = true ∧ (s (committing 1 true) none).edit = committing 1 true) ∧
    ((s (committing 0 false) none).ready 1 (r none) = true ∧ (s (committing 0 false) none).edit = committing 0 false) := by
  decide +kernel

theorem rawRow4_is_staged : rawRow4.wellFormed = some { row := 4, content := row4 } := by decide +kernel

theorem witness_MapStageAnswers :
    let s := fun (e : Edit) (x : RawRow) => asked { sample with edit := e } 1 0#8 (.mapStage x)
    let r := fun (x : RawRow) => ({ tag := 0#8, op := .mapStage x } : Request)
    let full := List.replicate 32 ({ row := 0, content := row4 } : Staged)
    ((s .absent rawRow4).ready 1 (r rawRow4) = true ∧ ∀ o, (s .absent rawRow4).edit = .opened o → o.owner ≠ 1) ∧
    (let x := { rawRow4 with row := 512#16 }
     (s (openBy 1 []) x).ready 1 (r x) = true ∧ x.illFormed) ∧
    ((s (openBy 1 full) rawRow4).ready 1 (r rawRow4) = true ∧ (∀ y ∈ full, y.row ≠ 4) ∧ 32 ≤ full.length) ∧
    ((s (openBy 1 (full.take 31)) rawRow4).ready 1 (r rawRow4) = true ∧ (∀ y ∈ full.take 31, y.row ≠ 4) ∧
      (full.take 31).length < 32) ∧
    (let before := full.take 1
     let after := ([{ row := 511, content := row4 }] : List Staged)
     (s (openBy 1 (before ++ { row := 4, content := row3 } :: after)) rawRow4).ready 1 (r rawRow4) = true ∧
      (∀ z ∈ before, z.row ≠ 4) ∧ (∀ z ∈ after, z.row ≠ 4)) := by
  refine ⟨⟨by decide +kernel, none_open (by decide +kernel)⟩, ⟨by decide +kernel, .inl (by decide)⟩, by decide +kernel,
    by decide +kernel, by decide +kernel⟩

theorem witness_StagedContentForm :
    rawRow4.wellFormed = some { row := 4, content := row4 } ∧
    ({ rawRow4 with frame := 262144#32 } : RawRow).illFormed ∧ ({ rawRow4 with cls := 2#8 } : RawRow).illFormed ∧
    ({ rawRow4 with rights := 0x03#8 } : RawRow).illFormed ∧ ({ rawRow4 with rights := 0xC0#8 } : RawRow).illFormed ∧
    ({ rawRow4 with guard := 32#8 } : RawRow).illFormed ∧ ({ rawRow4 with guard := 0#8 } : RawRow).illFormed ∧
    ({ rawRow4 with cls := 1#8, posting := true } : RawRow).illFormed := by
  refine ⟨rawRow4_is_staged, ?_, ?_, ?_, ?_, ?_, ?_, ?_⟩ <;> (unfold RawRow.illFormed; decide)

theorem witness_MapUnstageRemovesTheEntry :
    let s := fun (e : Edit) (row : Half) => asked { sample with edit := e } 1 0#8 (.mapUnstage row)
    let r := fun (row : Half) => ({ tag := 0#8, op := .mapUnstage row } : Request)
    let before := ([{ row := 0, content := row4 }] : List Staged)
    let after := ([{ row := 511, content := row4 }] : List Staged)
    ((s .absent 4#16).ready 1 (r 4#16) = true ∧ ∀ o, (s .absent 4#16).edit = .opened o → o.owner ≠ 1) ∧
    ((s (openBy 1 before) 512#16).ready 1 (r 512#16) = true ∧ ∀ y ∈ before, y.row.val ≠ (512#16).toNat) ∧
    ((s (openBy 1 (before ++ { row := 4, content := row4 } :: after)) 4#16).ready 1 (r 4#16) = true ∧
      (4 : Row).val = (4#16).toNat ∧ (∀ z ∈ before, z.row ≠ 4) ∧ ∀ z ∈ after, z.row ≠ 4) := by
  refine ⟨⟨by decide +kernel, none_open (by decide +kernel)⟩, by decide +kernel, by decide +kernel⟩

theorem witness_MapAbortDiscardsTheEdit :
    let s := fun (e : Edit) => asked { sample with edit := e } 1 0#8 .mapAbort
    ((s .absent).ready 1 { tag := 0#8, op := .mapAbort } = true ∧ ∀ o, (s .absent).edit = .opened o → o.owner ≠ 1) ∧
    ((s (openBy 1 [])).ready 1 { tag := 0#8, op := .mapAbort } = true ∧ (s (openBy 1 [])).edit = openBy 1 []) := by
  refine ⟨⟨by decide +kernel, none_open (by decide +kernel)⟩, by decide +kernel⟩

theorem witness_MapCommitAnswers :
    let s := fun (t : State) (e : Edit) => asked { t with edit := e } 1 0#8 .mapCommit
    let r : Request := { tag := 0#8, op := .mapCommit }
    let change := ([{ row := 4, content := row3 }] : List Staged)
    let busy := writing.onPort 0 (fun P => { P with
      writeQ := [{ oneWrite 41#32 (flying 16777216#32) with parts := sample.translate 16777216 4 }] })
    ((s sample .absent).ready 1 r = true ∧ ∀ o, (s sample .absent).edit = .opened o → o.owner ≠ 1) ∧
    ((s sample (openBy 1 [])).ready 1 r = true ∧ (s sample (openBy 1 [])).edit = openBy 1 []) ∧
    ((s busy (openBy 1 change)).ready 1 r = true ∧ change ≠ [] ∧ (s busy (openBy 1 change)).drainSet change ≠ []) ∧
    ((s sample (openBy 1 change)).ready 1 r = true ∧ (s sample (openBy 1 change)).drainSet change = [] ∧
      (change.map Staged.row).Nodup ∧ ((s sample (openBy 1 change)).port 3).session = .online) ∧
    (let hello : Request := { tag := 0#8, op := .hello 0#8 0#8 }
     let t := s (sample.onPort 2 (fun P => { P with session := .closing, hold := some hello })) (openBy 1 change)
     t.ready 1 r = true ∧ t.drainSet change = [] ∧ (t.port 2).session = .closing ∧ (t.port 2).hold = some hello ∧
      hello.op.isRead = false ∧ hello.op.isWrite = false) := by
  refine ⟨⟨by decide +kernel, none_open (by decide +kernel)⟩, by decide +kernel, by decide +kernel, by decide +kernel,
    by decide +kernel⟩

theorem sample_rows_are_legal : ∀ r : Row, ((sample.row r).cls = .device → (sample.row r).posting = false) ∧
    (sample.row r).guard ≠ some 0 := by
  intro r
  have e : sample.row r = if r = 10 then row10 else if r = 4 then row4 else if r = 3 then row3 else RowRecord.reset := by
    simp only [sample, State.row_onPort, State.row_setLock, State.row_setRow]
    split_ifs <;> first | rfl | (show (Vector.replicate 512 RowRecord.reset).get r = _; simp [Vector.get])
  rw [e]
  split_ifs <;> decide

theorem witness_MapChangesOnlyAtCommits :
    let s := asked { sample with edit := openBy 1 [{ row := 4, content := row3 }] } 1 0#8 .mapCommit
    Instr.mapCommit 1 0#8 ≠ .deviceReset ∧ Instr.mapCommit 1 0#8 ≠ .supplyOrRefclkLoss ∧ s.mapLegal ∧
    exec (.mapCommit 1 0#8) s = .next (after (.mapCommit 1 0#8) s) ∧ (after (.mapCommit 1 0#8) s).revision = 1#16 := by
  refine ⟨by simp, by simp, ⟨fun r => sample_rows_are_legal r, ?_⟩, rfl, by decide +kernel⟩
  show legalStaged [{ row := 4, content := row3 }] ∧ (0#16 : Half) = sample.revision
  refine ⟨⟨?_, by decide, by decide⟩, by decide +kernel⟩
  simp [RowRecord.legal, row3]

/-! ### Locks -/

/-- The sample state with this record for lock 31. -/
def lock31 (l : LockRecord) : State := sample.setLock 31 l

/-- A lock record in RELEASING whose former holder is port A. -/
def releasing (tag : Option Byte) (faultSeen : Bool) (queue : List WaitEntry) : LockRecord :=
  { phase := .releasing { prev := 0, watch := 40#32, tag := tag }, generation := 65535#16, faultSeen := faultSeen,
    cause := .none, queue := queue }

theorem witness_LockAcquireAnswers :
    let s := fun (t : State) (lock : Byte) (wait : Bool) (lease : Option Half) =>
      asked t 1 0#8 (.lockAcquire lock wait false 7#16 lease)
    let q := fun (t : State) (lock : Byte) (wait : Bool) (lease : Option Half) =>
      (s t lock wait lease).ready 1 { tag := 0#8, op := .lockAcquire lock wait false 7#16 lease }
    let required := { sample with config := { sample.config with leaseRequired := true, leaseMax := 1 } }
    q sample 32#8 true none = true ∧ (31 : Lock).val = (31#8).toNat ∧
    q sample 31#8 true (some 0#16) = true ∧ q required 31#8 true (some 2#16) = true ∧ 1 < (2#16).toNat ∧
    q required 31#8 true none = true ∧ q required 31#8 true (some 1#16) = true ∧
    (q (lock31 (heldBy 1 7#16 1#16)) 31#8 true none = true ∧
      (s (lock31 (heldBy 1 7#16 1#16)) 31#8 true none).holds 1 31 = true) ∧
    (let l := { heldBy 0 7#16 1#16 with queue := [waiter 2 0#16, waiter 1 0#16, waiter 3 0#16] }
     q (lock31 l) 31#8 true none = true ∧ (s (lock31 l) 31#8 true none).holds 1 31 = false ∧
      l.queue = [waiter 2 0#16] ++ waiter 1 0#16 :: [waiter 3 0#16] ∧ ∀ x ∈ [waiter 2 0#16], x.port ≠ 1) ∧
    (q sample 31#8 false none = true ∧ ((s sample 31#8 false none).lock 31).phase = .free) ∧
    (q (lock31 (heldBy 0 7#16 1#16)) 31#8 false none = true ∧
      ((s (lock31 (heldBy 0 7#16 1#16)) 31#8 false none).lock 31).phase ≠ .free) ∧
    (q (lock31 (releasing none false [])) 31#8 true none = true ∧
      ∀ h, ((s (lock31 (releasing none false [])) 31#8 true none).lock 31).phase = .held h →
        h.yield = false ∨ h.yieldSent = true) ∧
    (let l := { heldBy 0 7#16 1#16 with phase := .held { plainHolder 0 7#16 with yield := true } }
     q (lock31 l) 31#8 true none = true ∧
      ((s (lock31 l) 31#8 true none).lock 31).phase = .held { plainHolder 0 7#16 with yield := true }) := by
  refine ⟨by decide +kernel, by decide, by decide +kernel, by decide +kernel, by decide, by decide +kernel,
    by decide +kernel, by decide +kernel, by decide +kernel, by decide +kernel, by decide +kernel,
    ⟨by decide +kernel, ?_⟩, by decide +kernel⟩
  intro h e
  have : ((asked (lock31 (releasing none false [])) 1 0#8 (.lockAcquire 31#8 true false 7#16 none)).lock 31).phase =
      (releasing none false []).phase := by decide +kernel
  rw [this] at e
  cases e

theorem witness_HandoffPassesTheLock :
    ((lock31 (releasing none true [])).lock 31).phase = .releasing { prev := 0, watch := 40#32, tag := none } ∧
    ((lock31 (releasing none true [])).lock 31).queue = [] ∧
    (let s := lock31 (releasing (some 3#8) true [{ waiter 1 0#16 with yield := true }, waiter 2 0#16])
     (s.lock 31).phase = .releasing { prev := 0, watch := 40#32, tag := some 3#8 } ∧
      (s.lock 31).queue = { waiter 1 0#16 with yield := true } :: [waiter 2 0#16] ∧
      ((s.lock 31).faultSeen = true ∧ (s.lock 31).cause = .none) ∧ (s.port 0).session = .online) ∧
    (let s := inSession (lock31 (releasing (some 3#8) false [waiter 1 0#16])) 0 .closing
     (s.lock 31).phase = .releasing { prev := 0, watch := 40#32, tag := some 3#8 } ∧
      (s.lock 31).queue = waiter 1 0#16 :: [] ∧ (s.port 0).session = .closing) := by decide +kernel

theorem witness_LockReleaseAnswers :
    let s := fun (t : State) (lock : Byte) (gen : Half) => asked t 0 3#8 (.lockRelease lock gen)
    let q := fun (t : State) (lock : Byte) (gen : Half) =>
      (s t lock gen).ready 0 { tag := 3#8, op := .lockRelease lock gen }
    q sample 32#8 12#16 = true ∧ (31 : Lock).val = (31#8).toNat ∧ (5 : Lock).val = (5#8).toNat ∧
    (q sample 31#8 0#16 = true ∧ (s sample 31#8 0#16).holds 0 31 = false) ∧
    (q sample 5#8 13#16 = true ∧ (s sample 5#8 13#16).holds 0 5 = true ∧
      ((s sample 5#8 13#16).lock 5).generation ≠ 13#16) ∧
    (q writing 5#8 12#16 = true ∧ (s writing 5#8 12#16).holds 0 5 = true ∧
      ((s writing 5#8 12#16).lock 5).generation = 12#16 ∧
      watermarkReaches ((s writing 5#8 12#16).port 0).watermark ((s writing 5#8 12#16).port 0).writeSeq = false) ∧
    (q sample 5#8 12#16 = true ∧ (s sample 5#8 12#16).holds 0 5 = true ∧
      watermarkReaches ((s sample 5#8 12#16).port 0).watermark ((s sample 5#8 12#16).port 0).writeSeq = true) := by
  decide +kernel

theorem witness_LockRenewAnswers :
    let s := fun (lock : Byte) (gen : Half) (lease : Option Half) => asked sample 0 3#8 (.lockRenew lock gen lease)
    let q := fun (lock : Byte) (gen : Half) (lease : Option Half) =>
      (s lock gen lease).ready 0 { tag := 3#8, op := .lockRenew lock gen lease }
    q 32#8 12#16 none = true ∧ (q 31#8 0#16 none = true ∧ (s 31#8 0#16 none).holds 0 31 = false) ∧
    (q 5#8 11#16 none = true ∧ ((s 5#8 11#16 none).lock 5).generation ≠ 11#16) ∧
    (q 5#8 12#16 (some 0#16) = true ∧ ((s 5#8 12#16 (some 0#16)).lock 5).phase = .held (plainHolder 0 30#16) ∧
      (0#16 : Half).toNat = 0) ∧
    (q 5#8 12#16 (some 65535#16) = true ∧ (65535#16).toNat ≤ (s 5#8 12#16 (some 65535#16)).config.leaseMax) ∧
    q 5#8 12#16 none = true := by decide +kernel

theorem witness_LockCancelRemovesTheEntry :
    let s := fun (lock : Byte) (queue : List WaitEntry) =>
      asked (lock31 { heldBy 0 7#16 1#16 with queue := queue }) 1 3#8 (.lockCancel lock)
    let q := fun (lock : Byte) (queue : List WaitEntry) =>
      (s lock queue).ready 1 { tag := 3#8, op := .lockCancel lock }
    q 32#8 [] = true ∧ (q 31#8 [waiter 2 0#16] = true ∧ ∀ e ∈ ((s 31#8 [waiter 2 0#16]).lock 31).queue, e.port ≠ 1) ∧
    (q 31#8 [waiter 1 0#16] = true ∧ ((s 31#8 [waiter 1 0#16]).lock 31).queue = [] ++ waiter 1 0#16 :: []) ∧
    (let before := [waiter 2 0#16]
     let after := [waiter 3 0#16]
     q 31#8 (before ++ waiter 1 0#16 :: after) = true ∧ (∀ x ∈ before, x.port ≠ 1) ∧ ∀ x ∈ after, x.port ≠ 1) := by
  decide +kernel

theorem witness_LockQueryAnswers :
    let s := fun (t : State) (lock : Byte) => asked t 1 3#8 (.lockQuery lock)
    let q := fun (t : State) (lock : Byte) => (s t lock).ready 1 { tag := 3#8, op := .lockQuery lock }
    let l := { heldBy 0 7#16 1#16 with phase := .held { plainHolder 0 7#16 with lease := some (Lease.start 1) } }
    q sample 32#8 = true ∧ (q sample 31#8 = true ∧ ((s sample 31#8).lock 31).phase = .free) ∧
    (q (lock31 (releasing none false [])) 31#8 = true ∧
      ((s (lock31 (releasing none false [])) 31#8).lock 31).phase =
        .releasing { prev := 0, watch := 40#32, tag := none }) ∧
    (q sample 5#8 = true ∧ ((s sample 5#8).lock 5).phase = .held (plainHolder 0 30#16)) ∧
    (q (lock31 l) 31#8 = true ∧
      ((s (lock31 l) 31#8).lock 31).phase = .held { plainHolder 0 7#16 with lease := some (Lease.start 1) }) ∧
    (let t := after .slotArbiterRun (lock31 l)
     exec .slotArbiterRun (lock31 l) = .next t ∧ ((lock31 l).lock 31).phase = l.phase ∧ (t.lock 31).phase = l.phase ∧
      (t.lock 31).generation = ((lock31 l).lock 31).generation) := by
  refine ⟨by decide +kernel, by decide +kernel, by decide +kernel, by decide +kernel, by decide +kernel, rfl,
    by decide +kernel⟩

theorem witness_TimersRunOut :
    let l := { heldBy 0 7#16 1#16 with phase := .held { plainHolder 0 7#16 with lease := some (Lease.start 1), deadline := some 1 } }
    ({ sample with edit := openBy 3 [] }).edit = openBy 3 [] ∧
    ((lock31 l).lock 31).phase = .held { plainHolder 0 7#16 with lease := some (Lease.start 1), deadline := some 1 } ∧
    watermarkReaches ((lock31 l).port 0).watermark ((lock31 l).port 0).writeSeq = true ∧
    ((writing.setLock 31 l).lock 31).phase = ((lock31 l).lock 31).phase ∧
    watermarkReaches ((writing.setLock 31 l).port 0).watermark ((writing.setLock 31 l).port 0).writeSeq = false := by
  decide +kernel

theorem witness_GenerationCountsGrants :
    let c : Instr := .lockAcquire 1 0#8 31#8 false false 7#16 none
    let s := asked sample 1 0#8 (.lockAcquire 31#8 false false 7#16 none)
    c ≠ .deviceReset ∧ c ≠ .supplyOrRefclkLoss ∧ exec c s = .next (after c s) ∧
    ((after c s).lock 31).generation = (s.lock 31).generation + 1 := by
  refine ⟨by simp, by simp, rfl, by decide +kernel⟩

/-! ### Notifications, faults and configuration -/

theorem witness_NotifyAnswers :
    let s := fun (t : State) (target : Byte) => asked t 0 3#8 (.notify target 77#32)
    let q := fun (t : State) (target : Byte) => (s t target).ready 0 { tag := 3#8, op := .notify target 77#32 }
    let full := sample.onPort 3 (fun P => { P with notices := List.replicate 8 (notice 0#8 false) })
    let seven := writing.onPort 3 (fun P => { P with notices := List.replicate 7 (notice 0#8 false) })
    q sample 4#8 = true ∧ q sample 0#8 = true ∧ (3 : Port).val = (3#8).toNat ∧
    (q (inSession sample 3 .leaving) 3#8 = true ∧ ((s (inSession sample 3 .leaving) 3#8).port 3).session ≠ .online) ∧
    (q full 3#8 = true ∧ 8 ≤ (s full 3#8).noticePlaces 3) ∧
    (q seven 3#8 = true ∧ (s seven 3#8).noticePlaces 3 < 8 ∧
      watermarkReaches ((s seven 3#8).port 0).watermark ((s seven 3#8).port 0).writeSeq = false) ∧
    (q sample 3#8 = true ∧ ((s sample 3#8).port 3).session = .online ∧ (s sample 3#8).noticePlaces 3 < 8 ∧
      watermarkReaches ((s sample 3#8).port 0).watermark ((s sample 3#8).port 0).writeSeq = true) := by decide +kernel

theorem witness_NoticeAckRemovesTheEntry :
    let s := fun (l : List Notice) (seq : Half) => asked (live.onPort 3 (fun P => { P with notices := l })) 3 0#8 (.noticeAck seq)
    let q := fun (l : List Notice) (seq : Half) => (s l seq).ready 3 { tag := 0#8, op := .noticeAck seq }
    q [] 256#16 = true ∧ (q [notice 255#8 false] 255#16 = true ∧
      ∀ n ∈ [notice 255#8 false], n.delivered = true → n.seq.toNat ≠ (255#16).toNat) ∧
    (let l := [notice 254#8 true] ++ notice 255#8 true :: [notice 0#8 false]
     q l 255#16 = true ∧ ((s l 255#16).port 3).notices = l ∧
      ∀ m ∈ [notice 254#8 true], m.delivered = true → m.seq.toNat ≠ (255#16).toNat) := by decide +kernel

theorem witness_FaultTakeAnswers :
    let s := fun (l : List FaultRecord) => asked (live.onPort 3 (fun P => { P with faults := l })) 3 0#8 .faultTake
    (s []).ready 3 { tag := 0#8, op := .faultTake } = true ∧ ((s []).port 3).faults = [] ∧
    (s [.badCheck]).ready 3 { tag := 0#8, op := .faultTake } = true ∧ ((s [.badCheck]).port 3).faults = .badCheck :: [] ∧
    (s (List.replicate 8 .badCheck)).ready 3 { tag := 0#8, op := .faultTake } = true := by decide +kernel

theorem witness_RaiseKeepsOneItemPerKey :
    let P := { sessionPort 0#32 0#32 with subRev := true, subFault := true }
    (P.session = .online ∧ P.subRev = true ∧ P.subFault = true) ∧
    ((PortState.reset .up).session = .offline ∧ (sessionPort 0#32 0#32).subRev = false) ∧
    (let Q := { P with events := [Item.editExpired] ++ Item.yield 5 1#16 :: [.yield 4 1#16] }
     (∀ e ∈ [Item.editExpired], (Item.yield 5 2#16).sameKey e = false) ∧
      (Item.yield 5 2#16).sameKey (.yield 5 1#16) = true ∧
      (∀ e ∈ [Item.yield 4 1#16], (Item.yield 5 2#16).sameKey e = false) ∧
      ∀ e ∈ Q.events, (Item.fault).sameKey e = false) := by decide +kernel

theorem witness_FaultRecordIsKeptOrCounted :
    let P := fun (n lost : Nat) => { sessionPort 0#32 0#32 with faults := List.replicate n .badCheck, lost := lost }
    (PortState.reset .up).session = .offline ∧ (P 7 0).session = .online ∧ (P 7 0).faults.length < 8 ∧
    8 ≤ (P 8 254).faults.length ∧ (P 8 254).lost < 255 ∧ 8 ≤ (P 8 255).faults.length ∧ (P 8 255).lost = 255 := by
  decide +kernel

theorem witness_ConfigReadAnswers :
    let q := fun (item index : Byte) => (asked sample 0 0#8 (.configRead item index)).ready 0
      { tag := 0#8, op := .configRead item index }
    (q 0#8 0#8 = true ∧ q 12#8 0#8 = true ∧ q 8#8 1#8 = true ∧ q 11#8 4#8 = true) ∧
    (q 1#8 0#8 = true ∧ q 7#8 0#8 = true ∧ q 8#8 0#8 = true ∧ q 9#8 0#8 = true ∧ q 10#8 0#8 = true ∧ q 11#8 3#8 = true) ∧
    sample.config.leaseMax ≤ 65535 ∧ (65535#32).toNat = sample.config.leaseMax ∧
    be32 0#32 = [flagByte (sample.port 0).subRev, flagByte (sample.port 0).subFault, 0#8, 0#8] ∧
    be32 0x01010100#32 = [(sample.port 3).session.code, (sample.port 3).link.code, (sample.port 3).sessionNo, 0#8] := by
  decide +kernel

theorem witness_ConfigWriteAnswers :
    let s := fun (item : Byte) (v : Word) => asked sample 0 0#8 (.configWrite item 0#8 v)
    let u := fun (item : Byte) (v : Word) => (s item v).setLock 0 (heldBy 0 0#16 1#16)
    let r := fun (item : Byte) (v : Word) => ({ tag := 0#8, op := .configWrite item 0#8 v } : Request)
    (s 0#8 0#32).ready 0 (r 0#8 0#32) = true ∧ (s 9#8 0#32).ready 0 (r 9#8 0#32) = true ∧
    ((s 1#8 0#32).ready 0 (r 1#8 0#32) = true ∧ (s 1#8 0#32).holds 0 0 = false) ∧
    ((u 4#8 9#32).ready 0 (r 4#8 9#32) = true ∧ (u 4#8 9#32).holds 0 0 = true ∧ (9#32).toNat < 10) ∧
    ((u 6#8 16#32).ready 0 (r 6#8 16#32) = true ∧ 15 < (16#32).toNat) ∧
    ((u 4#8 2000#32).ready 0 (r 4#8 2000#32) = true ∧ (u 4#8 2000#32).holds 0 0 = true ∧ (2000#32).toNat ≤ 2000) := by
  decide +kernel

theorem witness_SlotQuotaWriteAnswers :
    let s := fun (v : Word) => asked sample 0 0#8 (.configWrite 7#8 0#8 v)
    let u := fun (v : Word) => (s v).setLock 0 (heldBy 0 0#16 1#16)
    let r := fun (v : Word) => ({ tag := 0#8, op := .configWrite 7#8 0#8 v } : Request)
    ((s 1#32).ready 0 (r 1#32) = true ∧ (s 1#32).holds 0 0 = false) ∧
    ((u 0#32).ready 0 (r 0#32) = true ∧ (u 0#32).holds 0 0 = true) ∧ (u 9#32).ready 0 (r 9#32) = true ∧
    (u 1#32).ready 0 (r 1#32) = true ∧ (u 8#32).ready 0 (r 8#32) = true := by decide +kernel

theorem witness_SubscribeWriteAnswers :
    let s := fun (t : State) (index : Byte) (v : Word) => asked t 3 0#8 (.configWrite 8#8 index v)
    let q := fun (t : State) (index : Byte) (v : Word) => (s t index v).ready 3 { tag := 0#8, op := .configWrite 8#8 index v }
    q live 2#8 0#32 = true ∧ (q live 3#8 0x00020000#32 = true ∧ ∃ b ∈ be32 0x00020000#32, 1 < b.toNat) ∧
    (q live 3#8 0x01010001#32 = true ∧ be32 0x01010001#32 = [flagByte true, flagByte true, 0#8, 1#8]) ∧
    (let t := live.onPort 3 (fun P => { P with
       subRev := true, subFault := true, faults := [.badCheck], events := [.revision 1#16, .fault] })
     q t 3#8 0#32 = true ∧ be32 0#32 = [flagByte false, flagByte false, 0#8, 0#8]) ∧
    (let t := live.onPort 3 (fun P => { P with faults := [.badCheck] })
     q t 3#8 0x00010000#32 = true ∧ (t.port 3).faults ≠ []) ∧
    (let t := live.onPort 3 (fun P => { P with
       subRev := true, subFault := true, faults := [.badCheck], events := [.revision 1#16, .fault] })
     q t 3#8 0x00010000#32 = true ∧ be32 0x00010000#32 = [flagByte false, flagByte true, 0#8, 0#8] ∧
      (t.port 3).subRev = true ∧ (t.port 3).subFault = true) := by decide +kernel

/-! ### Frames and the pool bus -/

/-- A WRITE of 257 bytes, one more than a body's room. -/
def longBody : List Byte := [0#8, 0#8, 0#8, 0#8, 1#8, 1#8, 0#8, 0#8] ++ List.replicate 257 0#8

theorem made_frame_checks (kind tag status flags : Byte) (body : List Byte) :
    checkValue (Frame.make kind tag status flags body).covered = (Frame.make kind tag status flags body).check := rfl

theorem witness_FrameReceiptChecks :
    (Frame.ofWire [] = none ∧ Frame.ofWire queryFrame.wire.dropLast = none ∧
      Frame.ofWire queryFrame.wire = some queryFrame ∧ (State.reset.port 3).link = .down ∧
      8 ≤ ((live.onPort 3 (fun P => { P with intake := List.replicate 8 { tag := 0#8, op := .leave } })).port 3).intake.length ∧
      (live.port 3).begun = false ∧
      ((live.onPort 3 (fun P => { P with places := 32, begun := true })).port 3).begun = true) ∧
    live.running = true ∧ (live.port 3).link = .up ∧ (live.port 3).intake.length < 8 ∧ (live.port 3).places < 32 ∧
    checkValue { queryFrame with tag := 4#8 }.covered ≠ queryFrame.check ∧
    (checkValue queryFrame.covered = queryFrame.check ∧
      requiredLength queryFrame.kind queryFrame.body = some queryFrame.body.length ∧ queryFrame.body.length ≤ 264) ∧
    requiredLength 0xA4#8 [] = none ∧ requiredLength 0x24#8 [5#8] = some 4 ∧ [5#8].length ≠ 4 ∧
    requiredLength 4#8 longBody = some longBody.length ∧ 264 < longBody.length := by decide +kernel

/-- Frames that are refused, one too long and one of no kind, and a port that has no response place for a refusal. -/
theorem witness_FrameReceiptChecks_refused :
    checkValue (Frame.make 4#8 3#8 0#8 0#8 longBody).covered = (Frame.make 4#8 3#8 0#8 0#8 longBody).check ∧
    checkValue (Frame.make 0xA4#8 3#8 0#8 0#8 []).covered = (Frame.make 0xA4#8 3#8 0#8 0#8 []).check ∧
    (∀ n, requiredLength 0xA4#8 [] = some n → ([] : List Byte).length ≠ n ∨ 264 < ([] : List Byte).length) ∧
    (let s := live.onPort 3 (fun P => { P with places := 32, begun := true })
     s.running = true ∧ (s.port 3).link = .up ∧ (s.port 3).begun = true ∧ 32 ≤ (s.port 3).places) :=
  ⟨made_frame_checks .., made_frame_checks .., fun n h => by simp [requiredLength] at h, by decide +kernel⟩

theorem witness_RequestFrameRoundTrip :
    ({ tag := 255#8, op := .write 0#32 256#16 (List.replicate 256 7#8) } : Request).carriable = true ∧
    ({ tag := 0#8, op := .write 0#32 0#16 [] } : Request).carriable = true := by decide +kernel

/-- Port A's write 41 with a piece to issue. -/
def issuing : State :=
  sample.onPort 0 (fun P => { P with
    writeSeq := 41#32, writeQ := [oneWrite 41#32 { flying 16777216#32 with cond := .unissued }] })

theorem witness_ArbiterServesInTurn :
    (∀ p, sample.eligible p = false) ∧ issuing.running = true ∧ (issuing.slot 0).job = none ∧
    (0 : Port) = issuing.rr + 1 + 0 ∧ issuing.eligible 0 = true ∧ (issuing.port 0).offer = some (.write 41#32, 0) ∧
    ((issuing.port 0).piecesOf (.write 41#32))[0]? = some { flying 16777216#32 with cond := .unissued } ∧
    (let s := { issuing with rr := 0 }.setSlot 0 { issueNo := 255#8, job := some (jobOf (.read 9#8) 0) }
     (s.slot 1).job = none ∧ (∀ l, l < 1 → (s.slot l).job ≠ none) ∧ (0 : Port) = s.rr + 1 + 3 ∧ s.eligible 0 = true ∧
      ∀ j, j < 3 → s.eligible (s.rr + 1 + j) = false) := by decide +kernel

/-- What the clauses on the offer assume: nothing left to issue, a write behind a failed one, and a read behind a write that is
all issued, its fence reached or not. -/
theorem witness_ArbiterServesInTurn_offer :
    let fresh := { flying 0#32 with cond := .unissued }
    let failedWrite := { oneWrite 1#32 fresh with failed := some { sub := .timeout, addr := 0#32 } }
    let cutRead := { oneRead 1#8 fresh with cut := true }
    spent failedWrite.pieces failedWrite.failed.isSome ∧ spent cutRead.pieces (cutRead.failed.isSome || cutRead.cut) ∧
    spent [flying 0#32] false ∧ nextUnissued [fresh] 0 ∧ nextUnissued [flying 0#32, fresh] 1 ∧
    (oneWrite 2#32 fresh).failed = none ∧ (oneRead 2#8 fresh).cut = false ∧ (oneRead 2#8 fresh).failed = none ∧
    watermarkReaches (oneRead 2#8 fresh).fence (oneWrite 1#32 fresh).seq = false ∧
    watermarkReaches ({ oneRead 2#8 fresh with fence := 1#32 }).fence (oneWrite 1#32 fresh).seq = true ∧
    watermarkReaches 0#32 1#32 = false ∧ watermarkReaches 1#32 1#32 = true := by
  refine ⟨.inl rfl, .inl rfl, .inr (by decide), ⟨⟨_, rfl, rfl⟩, fun i x h => by omega⟩, ⟨⟨_, rfl, rfl⟩, ?_⟩, by decide +kernel⟩
  intro i x h hx
  obtain rfl : i = 0 := by omega
  obtain rfl := Option.some.inj hx
  decide

theorem witness_RepliesAreMatchedToIssues :
    8 ≤ (8#8).toNat ∧ (sample.slot 7).job = none ∧ (7 : SlotNo).val = (7#8).toNat ∧ (writing.slot 2).issueNo ≠ 6#8 ∧
    ((writing.slot 2).job = some (jobOf (.write 41#32) 0) ∧ (writing.slot 2).issueNo = 7#8 ∧ ([0#8] : List Byte) ≠ []) ∧
    ((reading.slot 2).job = some (jobOf (.read 9#8) 0) ∧ (jobOf (.read 9#8) 0).dir = .read ∧
      ([0#8, 0#8, 0#8] : List Byte).length ≠ (jobOf (.read 9#8) 0).len) := by decide +kernel

theorem witness_RetryIssuesAgain :
    let s := writing.setSlot 2 { issueNo := 255#8, job := some { jobOf (.write 41#32) 0 with retries := 2 } }
    s.running = true ∧ (2#8).toNat = (2 : SlotNo).val ∧ (s.slot 2).issueNo = 255#8 ∧
    (s.slot 2).job = some { jobOf (.write 41#32) 0 with retries := 2 } ∧ 2 < 3 := by decide +kernel

/-- A read of two pieces in flight. -/
def twoReads : ReadEntry :=
  { oneRead 9#8 (flying 16777276#32) with len := 8, pieces := [flying 16777276#32, flying 16777280#32] }

/-- A write of two pieces in flight. -/
def twoWrites : WriteEntry := { oneWrite 41#32 (flying 16777276#32) with pieces := [flying 16777276#32, flying 16777280#32] }

theorem witness_DoneEndsThePiece :
    (let s := reading.onPort 0 (fun P => { P with readL := [twoReads] })
     s.running = true ∧ (s.slot 2).job = some (jobOf (.read 9#8) 0) ∧ (s.slot 2).issueNo = 7#8 ∧ 1 ≠ 0 ∧
      ([0#8, 0#8, 0#8, 0#8] : List Byte).length = (jobOf (.read 9#8) 0).len ∧
      (s.port 0).readL.find? (fun r => r.tag == 9#8) = some twoReads ∧
      twoReads.pieces[0]? = some (flying 16777276#32) ∧ twoReads.pieces[1]? = some (flying 16777280#32) ∧
      (flying 16777280#32).cond = .inFlight) ∧
    (let s := writing.onPort 0 (fun P => { P with writeQ := [twoWrites] })
     s.running = true ∧ (s.slot 2).job = some (jobOf (.write 41#32) 0) ∧
      (s.port 0).writeQ.find? (fun e => e.seq == 41#32) = some twoWrites ∧
      twoWrites.pieces[0]? = some (flying 16777276#32) ∧ (flying 16777276#32).data = []) ∧
    (let later := { flying 16777280#32 with cond := .unissued }
     let e := { twoReads with pieces := [flying 16777276#32, later] }
     let w := { twoWrites with pieces := [flying 16777276#32, later] }
     e.pieces[1]? = some later ∧ later.cond = .unissued ∧ e.failed = none ∧ e.cut = false ∧ w.pieces[1]? = some later ∧
      w.failed = none) := by decide +kernel

theorem witness_ReadCompletes :
    let e := oneRead 9#8 (flying 16777216#32)
    let data := ([1#8, 2#8, 3#8, 4#8] : List Byte)
    let j := jobOf (.read 9#8) 0
    (endsPiece (.replyDone 2#8 7#8 data) reading 2 j (.well data) ∧
      endsPiece (.replyError 2#8 7#8 []) reading 2 j (.failed .targetError) ∧ j.ref = .read 9#8 ∧
      (reading.port j.port).readL.find? (fun r => r.tag == 9#8) = some e ∧
      e.pieces[j.piece]? = some (flying 16777216#32) ∧ (∀ b, lastPiece e.pieces j.piece b) ∧ (reading.port 0).reached ∧
      (reading.port 0).hold = none ∧ e.failed = none ∧
      firstFailure e.failed (.failed .targetError) 16777216#32 = some { sub := .targetError, addr := 16777216#32 }) ∧
    (∀ c, reading.edit ≠ .committing c) ∧
    (let s := { reading with edit := .committing (waiting [.read 9#8]) }
     s.edit = .committing (waiting [.read 9#8]) ∧
      (waiting [.read 9#8]).drain.filter (fun d => d != { port := 0, ref := .read 9#8 }) = [] ∧
      (waiting [.read 9#8, .read 8#8]).drain.filter (fun d => d != { port := 0, ref := .read 9#8 }) ≠ []) ∧
    (let s := reading.onPort 0 (fun P => { P with
       session := .leaving, pendingLeave := some { tag := 3#8, watch := 40#32 }, tags := [9#8, 3#8] })
     (s.port 0).session = .leaving ∧ (s.port 0).pendingLeave = some { tag := 3#8, watch := 40#32 } ∧
      watermarkReaches (s.port 0).watermark 40#32 = true ∧ s.onlySlot 2 0) ∧
    (let hello : Request := { tag := 0#8, op := .hello 1#8 0#8 }
     let s := reading.onPort 0 (fun P => { P with session := .closing, tags := [], hold := some hello })
     (s.port 0).session = .closing ∧ (s.port 0).holdLegal ∧ (s.port 0).hold = some hello ∧
      (s.port 0).watermark = (s.port 0).writeSeq ∧ s.onlySlot 2 0) := by
  have alone : ∀ f : PortState → PortState, (reading.onPort 0 f).onlySlot 2 0 := by
    intro f m j hm hj
    have h : ∀ m : SlotNo, m ≠ 2 → ((reading.onPort 0 f).slot m).job = none := by
      intro m hm; revert m; exact (by decide +kernel : ∀ m : SlotNo, m ≠ 2 → (reading.slot m).job = none)
    rw [h m hm] at hj; cases hj
  refine ⟨⟨ends_by_done (by decide +kernel) (by decide +kernel) (by decide +kernel) (fun _ => rfl) (by simp [jobOf, ReqRef.dir]),
      ends_by_error (by decide +kernel) (by decide +kernel) (by decide +kernel), rfl, by decide +kernel, by decide +kernel,
      only_piece_is_last _, .inl (by decide +kernel), by decide +kernel⟩,
    none_committing (by decide +kernel), ⟨rfl, by decide +kernel⟩,
    ⟨by decide +kernel, by decide +kernel, by decide +kernel, alone _⟩,
    ⟨by decide +kernel, ?_, by decide +kernel, by decide +kernel, alone _⟩⟩
  intro r hr
  have e : (reading.onPort 0 (fun P => { P with session := .closing, tags := [], hold := some { tag := 0#8, op := .hello 1#8 0#8 } })).port 0 =
    { reading.port 0 with session := .closing, tags := [], hold := some { tag := 0#8, op := .hello 1#8 0#8 } } := by
    decide +kernel
  rw [e] at hr ⊢
  obtain rfl := Option.some.inj hr
  exact .inr ⟨rfl, rfl⟩

theorem witness_PieceFailureIsRecorded :
    failsBy (.replyError 2#8 7#8 [0#8]) 2 2#8 7#8 (jobOf (.write 41#32) 0) .targetError ∧
    failsBy (.replyRetry 2#8 7#8 []) 2 2#8 7#8 { jobOf (.write 41#32) 0 with retries := 3 } .retryExhausted ∧
    failsBy (.accessTimerExpiry 2) 2 2#8 7#8 (jobOf (.write 41#32) 0) .timeout ∧
    (let s := writing.onPort 0 (fun P => { P with writeQ := [twoWrites] })
     s.running = true ∧ (2#8).toNat = (2 : SlotNo).val ∧ (s.slot 2).job = some (jobOf (.write 41#32) 0) ∧
      (s.slot 2).issueNo = 7#8 ∧ (s.port 0).writeQ.find? (fun e => e.seq == 41#32) = some twoWrites ∧
      twoWrites.pieces[0]? = some (flying 16777276#32) ∧ twoWrites.pieces[1]? = some (flying 16777280#32)) ∧
    (let s := reading.onPort 0 (fun P => { P with readL := [twoReads] })
     s.running = true ∧ (s.slot 2).job = some (jobOf (.read 9#8) 0) ∧ (s.slot 2).issueNo = 7#8 ∧
      (s.port 0).readL.find? (fun r => r.tag == 9#8) = some twoReads) := by
  refine ⟨.inl ⟨_, rfl, rfl⟩, .inr (.inl ⟨rfl, by decide, rfl⟩), .inr (.inr ⟨rfl, rfl⟩), by decide +kernel,
    by decide +kernel⟩

theorem witness_PostedWriteFailureIsReported :
    let w := { oneWrite 41#32 (flying 16777216#32) with posted := true, guards := [{ lock := 5, gen := 12#16 }] }
    let was := { w with failed := some { sub := .timeout, addr := 0#32 } }
    let j := jobOf (.write 41#32) 0
    let s := fun (w : WriteEntry) (n lost : Nat) => writing.onPort 0 (fun P => { P with
      writeQ := [w], tags := [], faults := List.replicate n .badCheck, lost := lost })
    (endsPiece (.replyError 2#8 7#8 []) (s w 7 0) 2 j (.failed .targetError) ∧ j.ref = .write w.seq ∧
      ((s w 7 0).port j.port).writeQ.find? (fun e => e.seq == w.seq) = some w ∧ w.posted = true ∧
      w.pieces[j.piece]? = some (flying 16777216#32) ∧ lastPiece w.pieces j.piece true ∧
      firstFailure w.failed (.failed .targetError) 16777216#32 = some { sub := .targetError, addr := 16777216#32 } ∧
      ((s w 7 0).port 0).session = .online ∧ ((s w 7 0).port 0).faults.length < 8) ∧
    (endsPiece (.replyDone 2#8 7#8 []) (s was 8 255) 2 j (.well []) ∧
      ((s was 8 255).port j.port).writeQ.find? (fun e => e.seq == was.seq) = some was ∧
      firstFailure was.failed (.well []) 16777216#32 = some { sub := .timeout, addr := 0#32 } ∧
      8 ≤ ((s was 8 255).port 0).faults.length ∧ ((s was 8 255).port 0).lost ≤ 255) ∧
    ((s w 7 0).lock 5).phase = .held (plainHolder 0 30#16) ∧
    (((s w 7 0).setLock 5 (releasing none false [])).lock 5).phase =
      .releasing { prev := 0, watch := 40#32, tag := none } := by
  refine ⟨⟨ends_by_error (by decide +kernel) (by decide +kernel) (by decide +kernel), rfl, by decide +kernel, rfl, rfl,
      only_piece_is_last _ _, by decide +kernel⟩,
    ⟨ends_by_done (by decide +kernel) (by decide +kernel) (by decide +kernel) (by simp [jobOf, ReqRef.dir]) (fun _ => rfl),
      by decide +kernel⟩, by decide +kernel⟩

theorem witness_WriteCompletes :
    let w := oneWrite 41#32 (flying 16777216#32)
    let j := jobOf (.write 41#32) 0
    let done := { oneWrite 42#32 (flying 0#32) with completed := true }
    let s := fun (before after : List WriteEntry) => writing.onPort 0 (fun P => { P with
      writeSeq := 43#32, writeQ := before ++ w :: after })
    (endsPiece (.replyDone 2#8 7#8 []) (s [] [done, oneWrite 43#32 (flying 0#32)]) 2 j (.well []) ∧
      endsPiece (.replyError 2#8 7#8 []) (s [oneWrite 40#32 (flying 0#32)] [done]) 2 j (.failed .targetError) ∧
      j.ref = .write w.seq ∧
      (∀ e ∈ [] ++ [done, oneWrite 43#32 (flying 0#32)], e.seq ≠ w.seq) ∧
      (∀ e ∈ [oneWrite 40#32 (flying 0#32)] ++ [done], e.seq ≠ w.seq) ∧
      w.pieces[j.piece]? = some (flying 16777216#32) ∧ (∀ b, lastPiece w.pieces j.piece b) ∧
      ((s [] [done]).port 0).reached ∧ ((s [] [done]).port 0).hold = none ∧ w.posted = false ∧ w.failed = none) ∧
    (let n : Note := { target := 1, tag := 7#8, code := 77#32, watched := 42#32, cancelled := false }
     let t := (s [] [done]).onPort 0 (fun P => { P with notes := [n, { n with cancelled := true }] })
     ((t.port 0).firing 42#32 1)[0]? = some n ∧ { n with cancelled := true } ∈ (t.port 0).notes ∧
      watermarkReaches 42#32 n.watched = true) ∧
    (let t := { s [] [] with edit := .committing (waiting [.write 41#32]) }
     t.edit = .committing (waiting [.write 41#32]) ∧
      (waiting [.write 41#32]).drain.filter (fun d => d != { port := 0, ref := .write 41#32 }) = []) ∧
    (let t := (s [] []).onPort 0 (fun P => { P with session := .closing, hold := none, tags := [] })
     (t.port 0).session = .closing ∧ (∀ r, (t.port 0).hold ≠ some r)) := by
  refine ⟨⟨ends_by_done (by decide +kernel) (by decide +kernel) (by decide +kernel) (by simp [jobOf, ReqRef.dir]) (fun _ => rfl),
      ends_by_error (by decide +kernel) (by decide +kernel) (by decide +kernel), rfl, by decide +kernel, by decide +kernel,
      rfl, only_piece_is_last _, .inl (by decide +kernel), by decide +kernel⟩,
    by decide +kernel, ⟨rfl, by decide +kernel⟩, by decide +kernel, ?_⟩
  intro r
  have e : (((writing.onPort 0 (fun P => { P with writeSeq := 43#32, writeQ := [oneWrite 41#32 (flying 16777216#32)] })).onPort 0
    (fun P => { P with session := .closing, hold := none, tags := [] })).port 0).hold = none := by decide +kernel
  exact fun h => nomatch e.symm.trans h

/-! ### Invariants -/

/-- The state with one command at the front of its queue. -/
def next1 (s : State) (c : Instr) : State := { s with pending := [c] }

theorem witness_StepKeepsConfigInRange :
    (next1 sample .slotArbiterRun).config.inRange ∧
    step (next1 sample .slotArbiterRun) = .next (after .slotArbiterRun sample) := by
  refine ⟨?_, rfl⟩
  show sample.config.inRange
  unfold ConfigTable.inRange
  decide +kernel

theorem witness_StepKeepsMapLegal :
    (next1 sample .slotArbiterRun).mapLegal ∧
    step (next1 sample .slotArbiterRun) = .next (after .slotArbiterRun sample) :=
  ⟨⟨fun r => sample_rows_are_legal r, trivial⟩, rfl⟩

/-- A port in session with nothing in its queues is legal. -/
theorem sessionPort_is_legal (w v : Word) : (sessionPort w v).legal := by
  refine ⟨⟨List.Pairwise.nil, by simp [sessionPort, PortState.reset], by simp [sessionPort, PortState.reset]⟩, ?_, ?_, ?_⟩
  · simp [PortState.faultsLegal, sessionPort, PortState.reset]
  · simp [PortState.roomLegal, sessionPort, PortState.reset]
  · simp [PortState.offlineClear, sessionPort, PortState.reset]

theorem sample_ports_are_legal : ∀ p, (sample.port p).legal := by
  have h : ∀ p : Port, sample.port p = sessionPort 40#32 40#32 ∨ sample.port p = sessionPort 0#32 0#32 := by
    decide +kernel
  intro p
  rcases h p with e | e <;> rw [e] <;> exact sessionPort_is_legal _ _

theorem sample_holds_nothing : ∀ p, (sample.port p).hold = none := by decide +kernel

theorem witness_StepKeepsPortsLegal :
    (∀ p, ((next1 sample .slotArbiterRun).port p).legal ∧ ((next1 sample .slotArbiterRun).port p).holdLegal) ∧
    step (next1 sample .slotArbiterRun) = .next (after .slotArbiterRun sample) :=
  ⟨fun p => ⟨sample_ports_are_legal p, fun _ h => nomatch (sample_holds_nothing p).symm.trans h⟩, rfl⟩

theorem witness_StepKeepsLocksLegal :
    (∀ k, (next1 sample .slotArbiterRun).lockLegal k) ∧
    step (next1 sample .slotArbiterRun) = .next (after .slotArbiterRun sample) := by
  refine ⟨legal_locks 5 (by decide +kernel) ?_, rfl⟩
  have e : (next1 sample .slotArbiterRun).lock 5 = heldBy 0 30#16 12#16 := by decide +kernel
  have h : ((next1 sample .slotArbiterRun).port 0).session = .online := by decide +kernel
  simp [State.lockLegal, State.queueLegal, e, heldBy, plainHolder, h]

theorem witness_StepKeepsNoticesLegal :
    (∀ p, ((next1 sample .slotArbiterRun).port p).legal) ∧ (next1 sample .slotArbiterRun).noticesLegal ∧
    step (next1 sample .slotArbiterRun) = .next (after .slotArbiterRun sample) := by
  refine ⟨sample_ports_are_legal, ?_, rfl⟩
  unfold State.noticesLegal
  decide +kernel

end Sys2Proof.Tests
end

/-! # The map invariant and what every command does to the map (spec/01 R3, R5; spec/02 R23, R25, R27, R39) -/

namespace Sys2Proof.Machine

open Sys2Proof

/-! ## What a command does to the map

The commands that do not edit, and the ends of accepted work, are `MapStep`s (Sys2Proof/Laws/Map.lean). The edit
requests and the idle timer also open, change or discard an edit, or complete its commit in the same event.
`MapEffect` covers both, so that one inversion lemma, `exec_mapEffect`, serves both claims about the map. -/

/-- The rows the edit holds: the staged list of an OPEN edit, the change set of a commit. -/
def Edit.rows : Edit → List Staged
  | .absent => []
  | .opened o => o.staged
  | .committing c => c.change

/-- Map and revision are as before, and the edit is legal where it was. -/
def MapUnchanged (s t : State) : Prop :=
  t.map = s.map ∧ t.revision = s.revision ∧ (s.edit.legal s.revision → t.edit.legal s.revision)

/-- The rows of the edit have replaced those of the map, with the revision, and the edit is gone (R39). -/
def MapReplaced (s t : State) : Prop :=
  s.edit ≠ .absent ∧ t.revision = s.revision + 1 ∧ t.edit = .absent ∧ t.map = (s.replaceRows s.edit.rows).map

/-- What a command other than a device reset does to the map. -/
def MapEffect (s t : State) : Prop := MapUnchanged s t ∨ MapReplaced s t

theorem Edit.legal_of_keepsRows {e f : Edit} {revision : Half} (h : Edit.keepsRows e f) (he : e.legal revision) :
    f.legal revision := by
  cases e with
  | absent => obtain rfl := h; exact he
  | opened o =>
    rcases h with rfl | rfl
    · exact he
    · trivial
  | committing c =>
    obtain ⟨d, rfl, hchange, hbase⟩ := h
    exact ⟨hchange ▸ he.1, hbase.trans he.2⟩

theorem Edit.rows_legal {e : Edit} {revision : Half} (h : e.legal revision) : legalStaged e.rows := by
  cases e with
  | absent => exact ⟨by simp [Edit.rows], by simp [Edit.rows], Nat.zero_le _⟩
  | opened o => exact h.1
  | committing c => exact h.1

theorem mapEffect_of_mapStep {s t : State} (h : MapStep s t) : MapEffect s t := by
  rcases h with ⟨hmap, hrev, hedit⟩ | ⟨c, hc, hrev, hedit, hmap⟩
  · exact .inl ⟨hmap, hrev, Edit.legal_of_keepsRows hedit⟩
  · exact .inr ⟨by simp [hc], hrev, hedit, by rw [hmap, hc]; rfl⟩

theorem mapEffect_of_rest {s t : State} (h : t.rest = s.rest) : MapEffect s t := mapEffect_of_mapStep (mapStep_rest h)

/-- The rows of an edit replace those of the map all the same when the edit has gone on with its rows before. -/
theorem MapReplaced.of_same_rows {s u t : State} (g : MapReplaced u t) (hmap : u.map = s.map)
    (hrev : u.revision = s.revision) (hne : s.edit ≠ .absent) (hrows : u.edit.rows = s.edit.rows) :
    MapReplaced s t := by
  obtain ⟨-, grev, gedit, gmap⟩ := g
  refine ⟨hne, by rw [grev, hrev], gedit, ?_⟩
  rw [gmap, hrows]
  exact map_replaceRows hmap _

theorem mapReplaced_completeCommit {s : State} {c : CommitEdit} (h : s.edit = .committing c) :
    MapReplaced s s.completeCommit := by
  have hdone := rest_completeCommit s c h
  exact ⟨by simp [h], rest_revision hdone, rest_edit hdone, by rw [h]; exact (rest_map hdone).trans rfl⟩

/-- What happens to the rest before an effect does not count. -/
theorem MapEffect.of_rest_eq {s u t : State} (h : u.rest = s.rest) (g : MapEffect u t) : MapEffect s t := by
  have hrev := rest_revision h
  have hedit := rest_edit h
  rcases g with ⟨gmap, grev, gedit⟩ | g
  · rw [hrev, hedit] at gedit
    exact .inl ⟨gmap.trans (rest_map h), grev.trans hrev, gedit⟩
  · exact .inr (g.of_same_rows (rest_map h) hrev (hedit ▸ g.1) (by rw [hedit]))

/-- A change of the edit alone, answered to a port or told to one, keeps map and revision. -/
theorem mapUnchanged_edit {s t : State} {e : Edit} (ht : t.rest = ({ s with edit := e } : State).rest)
    (he : s.edit.legal s.revision → e.legal s.revision) : MapUnchanged s t :=
  ⟨(rest_map ht).trans rfl, (rest_revision ht).trans rfl, fun h => by rw [rest_edit ht]; exact he h⟩

/-! ## Requests -/

/-- The checks in front of a request's own leave the map alone. -/
theorem mapEffect_request {s : State} {p : Port} {r : Request} {go : State → State}
    (h : ∀ u : State, MapEffect u (go u)) : MapEffect s (s.request p r go) := by
  rcases rest_request_cases s p r go with e | ⟨u, hu, e⟩
  · exact mapEffect_of_rest e
  · rw [e]; exact .of_rest_eq hu (h u)

/-- A request whose own part keeps the rest of the state leaves the map alone. -/
theorem mapEffect_request_rest {s : State} {p : Port} {r : Request} {go : State → State}
    (h : ∀ u : State, (go u).rest = u.rest) : MapEffect s (s.request p r go) :=
  mapEffect_request fun u => mapEffect_of_rest (h u)

/-- An owner request acts on the map only where the requester owns an OPEN edit (R24). -/
theorem mapEffect_asOwner {s : State} {p : Port} {r : Request} {go : State → OpenEdit → State}
    (h : ∀ o, s.edit = .opened o → MapEffect s (go s o)) : MapEffect s (s.asOwner p r go) := by
  unfold State.asOwner
  split
  next o ho =>
    split
    · exact h o ho
    · exact mapEffect_of_rest (rest_respond ..)
  · exact mapEffect_of_rest (rest_respond ..)

theorem rest_takeHello (s : State) (p : Port) (r : Request) (a b : Byte) : (s.takeHello p r a b).rest = s.rest := by
  unfold State.takeHello
  split
  · exact rest_helloOffline ..
  · exact rest_tagCheck _ _ _ _ fun _ => rfl
  · rfl
  · rfl

theorem rest_mapRead (s : State) (p : Port) (r : Request) (row : Half) (view : Byte) :
    (s.mapRead p r row view).rest = s.rest := by
  unfold State.mapRead
  split
  · rfl
  · split
    · rfl
    · split
      · split <;> rfl
      · rfl

theorem rest_acquire (s : State) (p : Port) (r : Request) (wait yield : Bool) (owner : Half) (lease : Option Half)
    (k : Lock) : (s.acquire p r wait yield owner lease k).rest = s.rest := by
  unfold State.acquire
  repeat' split
  · rfl
  · rfl
  · rfl
  · rfl
  · simp [State.enqueue]
  · rfl

theorem rest_renew (s : State) (p : Port) (r : Request) (lease : Option Half) (k : Lock) (h : Holder) :
    (s.renew p r lease k h).rest = s.rest := by
  unfold State.renew; split <;> rfl

theorem rest_cancel (s : State) (p : Port) (r : Request) (k : Lock) : (s.cancel p r k).rest = s.rest := by
  unfold State.cancel; split <;> rfl

theorem rest_reserve (s : State) (p : Port) (tag : Byte) (target : Port) (code : Word) :
    (s.reserve p tag target code).rest = s.rest := by
  unfold State.reserve
  dsimp only
  split
  · exact rest_fireNote ..
  · rfl

theorem rest_notify (s : State) (p : Port) (r : Request) (target : Byte) (code : Word) :
    (s.notify p r target code).rest = s.rest := by
  unfold State.notify
  dsimp only
  repeat' split
  · rfl
  · rfl
  · rfl
  · exact rest_reserve ..
  · rfl

theorem rest_acknowledge (s : State) (p : Port) (r : Request) (seq : Half) : (s.acknowledge p r seq).rest = s.rest := by
  unfold State.acknowledge
  split
  · rfl
  · split <;> rfl

theorem rest_faultTake (s : State) (p : Port) (r : Request) : (s.faultTake p r).rest = s.rest := by
  unfold State.faultTake; split <;> rfl

theorem rest_configRead (s : State) (p : Port) (r : Request) (item index : Byte) :
    (s.configRead p r item index).rest = s.rest := by
  unfold State.configRead; split <;> rfl

theorem rest_writeSubscribe (s : State) (p : Port) (r : Request) (index : Byte) (v : Word) :
    (s.writeSubscribe p r index v).rest = s.rest := by
  unfold State.writeSubscribe
  split
  · rfl
  · split <;> rfl

theorem mapEffect_writeGlobal (s : State) (p : Port) (r : Request) (item index : Byte) (v : Word) :
    MapEffect s (s.writeGlobal p r item index v) := by
  unfold State.writeGlobal
  split
  · exact mapEffect_of_rest rfl
  · split
    · exact mapEffect_of_mapStep (mapStep_plain rfl rfl rfl)
    · exact mapEffect_of_rest rfl

theorem mapEffect_configWrite (s : State) (p : Port) (r : Request) (item index : Byte) (v : Word) :
    MapEffect s (s.configWrite p r item index v) := by
  unfold State.configWrite
  split
  · exact mapEffect_of_rest (rest_writeSubscribe ..)
  · split
    · exact mapEffect_writeGlobal ..
    · exact mapEffect_of_rest rfl

/-! ## Edit requests -/

/-- The idle timer's restart leaves the rows of the edit alone (R31). -/
theorem mapUnchanged_restartIdle {s t : State} {o : OpenEdit} (ho : s.edit = .opened o)
    (h : t.rest = (s.restartIdle o).rest) : MapUnchanged s t :=
  mapUnchanged_edit h fun g => by rw [ho] at g; exact g

/-- A new edit stages nothing and starts from the current revision (R25). -/
theorem mapEffect_mapOpen (s : State) (p : Port) (r : Request) (expected : Option Half) :
    MapEffect s (s.mapOpen p r expected) := by
  unfold State.mapOpen
  split
  · split
    · exact mapEffect_of_rest rfl
    · exact .inl (mapUnchanged_edit rfl fun _ => ⟨⟨by simp, by simp, Nat.zero_le _⟩, rfl⟩)
  next o ho =>
    split
    · exact .inl (mapUnchanged_restartIdle ho rfl)
    · exact mapEffect_of_rest rfl
  · split <;> exact mapEffect_of_rest rfl

/-- A row enters the staged list only with a legal content and where there is room (R27, R28). -/
theorem mapEffect_stageRow {s : State} {o : OpenEdit} (ho : s.edit = .opened o) (p : Port) (r : Request)
    (raw : RawRow) : MapEffect s (s.stageRow p r raw o) := by
  unfold State.stageRow
  split
  · exact .inl (mapUnchanged_restartIdle ho rfl)
  next x hx =>
    split
    · exact .inl (mapUnchanged_restartIdle ho rfl)
    next hroom =>
      refine .inl (mapUnchanged_edit rfl fun h => ?_)
      rw [ho] at h
      exact ⟨legalStaged_stage h.1 (wellFormed_legal hx) hroom, h.2⟩

theorem legalStaged_filter {l : List Staged} (h : legalStaged l) (f : Staged → Bool) : legalStaged (l.filter f) := by
  obtain ⟨hlegal, hnodup, hroom⟩ := h
  exact ⟨fun x hx => hlegal x (List.mem_of_mem_filter hx), hnodup.sublist (List.filter_sublist.map _),
    (List.length_filter_le _ _).trans hroom⟩

theorem mapEffect_unstageRow {s : State} {o : OpenEdit} (ho : s.edit = .opened o) (p : Port) (r : Request)
    (row : Half) : MapEffect s (s.unstageRow p r row o) := by
  unfold State.unstageRow
  split
  · exact .inl (mapUnchanged_restartIdle ho rfl)
  · refine .inl (mapUnchanged_edit rfl fun h => ?_)
    rw [ho] at h
    exact ⟨legalStaged_filter h.1 _, h.2⟩

theorem mapUnchanged_discardEdit {s t : State} (h : t.rest = s.discardEdit.rest) : MapUnchanged s t :=
  mapUnchanged_edit (e := .absent) h fun _ => trivial

/-- A commit of the staged list that completes in its first event puts the staged rows in their places. -/
theorem mapReplaced_commit_staged {s : State} {o : OpenEdit} {c : CommitEdit} (ho : s.edit = .opened o)
    (hc : c.change = o.staged) : MapReplaced s ({ s with edit := .committing c } : State).completeCommit := by
  have hdone : MapReplaced { s with edit := .committing c } ({ s with edit := .committing c } : State).completeCommit :=
    mapReplaced_completeCommit rfl
  exact hdone.of_same_rows rfl rfl (by simp [ho]) (by rw [ho]; exact hc)

/-- A commit that starts keeps the staged list as its change set; with nothing to drain it completes (R35, R39). -/
theorem mapEffect_startCommit {s : State} {o : OpenEdit} (ho : s.edit = .opened o) (p : Port) (tag : Byte) :
    MapEffect s (s.startCommit p tag o) := by
  unfold State.startCommit
  dsimp only
  split
  · exact .inr (mapReplaced_commit_staged ho rfl)
  · exact .inl (mapUnchanged_edit rfl fun h => by rw [ho] at h; exact h)

theorem mapEffect_commitEdit {s : State} {o : OpenEdit} (ho : s.edit = .opened o) (p : Port) (r : Request) :
    MapEffect s (s.commitEdit p r o) := by
  unfold State.commitEdit
  split
  · exact .inl (mapUnchanged_discardEdit rfl)
  · exact mapEffect_startCommit ho p r.tag

/-! ## Links, timers and the pool bus -/

theorem mapEffect_linkFalls (s : State) (p : Port) : MapEffect s (s.linkFalls p) := by
  unfold State.linkFalls
  split
  · exact mapEffect_of_rest rfl
  · split
    · exact mapEffect_of_rest rfl
    · split
      · exact mapEffect_of_mapStep (mapStep_linkLossEvent s p)
      · exact mapEffect_of_rest rfl

theorem mapEffect_endJob (s : State) (n : SlotNo) (j : Job) (e : Ending) : MapEffect s (s.endJob n j e) :=
  mapEffect_of_mapStep (mapStep_endJob s n j e)

theorem mapEffect_takeDone (s : State) (n : SlotNo) (j : Job) (data : List Byte) :
    MapEffect s (s.takeDone n j data) := by
  unfold State.takeDone; split <;> exact mapEffect_endJob ..

theorem mapEffect_takeRetry (s : State) (n : SlotNo) (j : Job) (data : List Byte) :
    MapEffect s (s.takeRetry n j data) := by
  unfold State.takeRetry
  split
  · exact mapEffect_endJob ..
  · split
    · exact mapEffect_of_mapStep (mapStep_issue s n _)
    · exact mapEffect_endJob ..

theorem mapEffect_takeTimeout (s : State) (n : SlotNo) : MapEffect s (s.takeTimeout n) := by
  unfold State.takeTimeout
  split
  next j _ =>
    have habort : MapStep s { s with busAbort := some { slot := n, issueNo := (s.slot n).issueNo } } :=
      mapStep_plain rfl rfl rfl
    exact mapEffect_of_mapStep (habort.trans (mapStep_endJob _ n j _))
  · exact mapEffect_of_rest rfl

/-! ## Every command -/

theorem mapEffect_next {s t u : State} {o : Host.Outcome State Fault Refusal} (h : o = .next t) (ho : o = .next u)
    (g : MapEffect s u) : MapEffect s t := by
  cases h.symm.trans ho; exact g

/-- A command acts on the map only by way of the edit, device resets apart. -/
theorem exec_mapEffect {c : Instr} {s t : State} (hreset : c ≠ .deviceReset) (hsupply : c ≠ .supplyOrRefclkLoss)
    (h : exec c s = .next t) : MapEffect s t := by
  cases c with
  | hello p tag a b =>
    refine mapEffect_next h rfl (mapEffect_of_rest ?_)
    split
    · exact rest_takeHello ..
    · rfl
  | leave p tag =>
    exact mapEffect_next h rfl (mapEffect_request fun u => mapEffect_of_mapStep (mapStep_leaveEvent u p tag))
  | read p tag addr len => exact mapEffect_next h rfl (mapEffect_request_rest fun u => rest_accepting u p _)
  | write p tag addr len data => exact mapEffect_next h rfl (mapEffect_request_rest fun u => rest_accepting u p _)
  | mapRead p tag row view => exact mapEffect_next h rfl (mapEffect_request_rest fun u => rest_mapRead u p _ row view)
  | mapOpen p tag expected => exact mapEffect_next h rfl (mapEffect_request fun u => mapEffect_mapOpen u p _ expected)
  | mapStage p tag raw =>
    exact mapEffect_next h rfl (mapEffect_request fun _ => mapEffect_asOwner fun _ ho => mapEffect_stageRow ho p _ raw)
  | mapUnstage p tag row =>
    exact mapEffect_next h rfl (mapEffect_request fun _ => mapEffect_asOwner fun _ ho =>
      mapEffect_unstageRow ho p _ row)
  | mapAbort p tag =>
    exact mapEffect_next h rfl (mapEffect_request fun _ => mapEffect_asOwner fun _ _ =>
      .inl (mapUnchanged_discardEdit rfl))
  | mapCommit p tag =>
    exact mapEffect_next h rfl (mapEffect_request fun _ => mapEffect_asOwner fun _ ho => mapEffect_commitEdit ho p _)
  | lockAcquire p tag lock wait yield owner lease =>
    exact mapEffect_next h rfl (mapEffect_request_rest fun u => rest_withLock u p _ lock _ fun k =>
      rest_acquire u p _ wait yield owner lease k)
  | lockRelease p tag lock gen =>
    exact mapEffect_next h rfl (mapEffect_request_rest fun u => rest_withLock u p _ lock _ fun k =>
      rest_asHolder u p _ gen k _ fun _ => rest_endGrant u k p (some tag))
  | lockRenew p tag lock gen lease =>
    exact mapEffect_next h rfl (mapEffect_request_rest fun u => rest_withLock u p _ lock _ fun k =>
      rest_asHolder u p _ gen k _ fun x => rest_renew u p _ lease k x)
  | lockCancel p tag lock =>
    exact mapEffect_next h rfl (mapEffect_request_rest fun u => rest_withLock u p _ lock _ fun k => rest_cancel u p _ k)
  | lockQuery p tag lock =>
    exact mapEffect_next h rfl (mapEffect_request_rest fun u => rest_withLock u p _ lock _ fun _ => rfl)
  | notify p tag target code =>
    exact mapEffect_next h rfl (mapEffect_request_rest fun u => rest_notify u p _ target code)
  | noticeAck p tag seq => exact mapEffect_next h rfl (mapEffect_request_rest fun u => rest_acknowledge u p _ seq)
  | faultTake p tag => exact mapEffect_next h rfl (mapEffect_request_rest fun u => rest_faultTake u p _)
  | configRead p tag item index =>
    exact mapEffect_next h rfl (mapEffect_request_rest fun u => rest_configRead u p _ item index)
  | configWrite p tag item index v =>
    exact mapEffect_next h rfl (mapEffect_request fun u => mapEffect_configWrite u p _ item index v)
  | configWriteSubscribe p tag index v =>
    exact mapEffect_next h rfl (mapEffect_request_rest fun u => rest_writeSubscribe u p _ index v)
  | configWriteSlotQuota p tag index v =>
    exact mapEffect_next h rfl (mapEffect_request fun u => mapEffect_writeGlobal u p _ 7#8 index v)
  | frameReceipt p bytes =>
    refine mapEffect_next h rfl (mapEffect_of_rest ?_)
    split
    · split <;> rfl
    · rfl
  | linkUp p => exact mapEffect_next h rfl (mapEffect_of_rest rfl)
  | linkDown p => exact mapEffect_next h rfl (mapEffect_linkFalls s p)
  | deviceReset => exact absurd rfl hreset
  | supplyOrRefclkLoss => exact absurd rfl hsupply
  | resetRelease => exact mapEffect_next h rfl (mapEffect_of_mapStep (mapStep_plain rfl rfl rfl))
  | editIdleExpiry =>
    refine mapEffect_next h rfl ?_
    split
    · exact .inl (mapUnchanged_discardEdit (rest_raise ..))
    · exact mapEffect_of_rest rfl
  | leaseExpiry k =>
    refine mapEffect_next h rfl (mapEffect_of_rest ?_)
    split
    · exact rest_revoke ..
    · rfl
  | yieldDeadlineExpiry k =>
    refine mapEffect_next h rfl (mapEffect_of_rest ?_)
    split
    · exact rest_revoke ..
    · rfl
  | accessTimerExpiry n => exact mapEffect_next h rfl (mapEffect_takeTimeout s n)
  | replyDone slot issue data =>
    refine mapEffect_next h rfl ?_
    split
    · exact mapEffect_takeDone ..
    · exact mapEffect_of_rest rfl
  | replyError slot issue data =>
    refine mapEffect_next h rfl ?_
    split
    · exact mapEffect_endJob ..
    · exact mapEffect_of_rest rfl
  | replyRetry slot issue data =>
    refine mapEffect_next h rfl ?_
    split
    · exact mapEffect_takeRetry ..
    · exact mapEffect_of_rest rfl
  | slotArbiterRun =>
    refine mapEffect_next h rfl ?_
    split
    · exact mapEffect_of_mapStep (mapStep_arbiterRun s)
    · exact mapEffect_of_rest rfl
  | sendResponse p =>
    refine mapEffect_next h rfl (mapEffect_of_rest ?_)
    split <;> rfl
  | sendEvent p =>
    refine mapEffect_next h rfl (mapEffect_of_rest ?_)
    split <;> rfl

/-! ## The claims -/

theorem MapEffect.mapLegal {s t : State} (h : MapEffect s t) (g : s.mapLegal) : t.mapLegal := by
  obtain ⟨grows, gedit⟩ := g
  rcases h with ⟨hmap, hrev, hedit⟩ | ⟨-, -, hedit, hmap⟩
  · refine ⟨fun r => ?_, ?_⟩
    · rw [row_of_map hmap]; exact grows r
    · rw [hrev]; exact hedit gedit
  · refine ⟨fun r => ?_, ?_⟩
    · rw [row_of_map hmap]
      exact legal_replaceRows s _ grows (Edit.rows_legal gedit).1 r
    · rw [hedit]; trivial

theorem row_toReset (s : State) (r : Row) : s.toReset.row r = RowRecord.reset := by
  simp [State.toReset, State.row, State.reset, Vector.get_eq_getElem]

theorem mapLegal_toReset (s : State) : s.toReset.mapLegal :=
  ⟨fun r => by rw [row_toReset]; simp [RowRecord.legal, RowRecord.reset], trivial⟩

theorem exec_keeps_mapLegal {c : Instr} {s t : State} (g : s.mapLegal) (h : exec c s = .next t) : t.mapLegal := by
  by_cases hreset : c = .deviceReset
  · subst hreset; cases h; exact mapLegal_toReset s
  · by_cases hsupply : c = .supplyOrRefclkLoss
    · subst hsupply; cases h; exact mapLegal_toReset s
    · exact (exec_mapEffect hreset hsupply h).mapLegal g

/-- Settles O56: a command acts on the map through the edit, whose rows are legal, or resets it. -/
theorem stepKeepsMapLegal : Obligations.StepKeepsMapLegal := by
  intro s t g h
  unfold step at h
  split at h
  · cases h; exact g
  next c rest _ =>
    have gtaken : ({ s with pending := rest } : State).mapLegal := g
    exact exec_keeps_mapLegal gtaken h

/-- Settles O25: by the inversion of every command, whose one change of the map puts the rows of the edit, each staged
once, in their places. -/
theorem mapChangesOnlyAtCommits : Obligations.MapChangesOnlyAtCommits := by
  intro c s t hreset hsupply g h
  rcases exec_mapEffect hreset hsupply h with ⟨hmap, hrev, -⟩ | ⟨hne, hrev, hedit, hmap⟩
  · exact .inl ⟨hmap, hrev⟩
  · obtain ⟨-, hnodup, -⟩ := Edit.rows_legal g.2
    refine .inr ⟨hrev, hedit, s.edit.rows, ?_, fun x hx => ?_, fun r hr => ?_⟩
    · cases he : s.edit with
      | absent => exact absurd he hne
      | opened o => exact .inl ⟨o, rfl, rfl⟩
      | committing e => exact .inr ⟨e, rfl, rfl⟩
    · rw [row_of_map hmap]; exact row_replaceRows s _ hnodup x hx
    · rw [row_of_map hmap]; exact row_replaceRows_ne s _ r hr

end Sys2Proof.Machine

/-! # Acceptance, translation and MAP_READ (spec/01 R1 to R22; spec/05 R94, R95) -/

namespace Sys2Proof.Machine

open Sys2Proof

/-! ## The single checks, byte by byte (R13 to R15, R18) -/

/-- Check 5 over the bytes of the range (R13). -/
theorem classOk_touched {s : State} {a len : Nat} (hl : 1 ≤ len) (h2 : len ≤ 256)
    (hr : a + len - 1 ≤ 2147483647) :
    s.classOk (touchedRows a len) a len = true ↔
      everyByte a len (fun x => (s.rowAt x).cls = .memory) ∨
        (everyByte a len (fun x => (s.rowAt x).cls = .device) ∧ deviceAccess a len) := by
  have hmemory := all_touched hl h2 hr (fun r => (s.row r).cls == .memory)
  have hdevice := all_touched hl h2 hr (fun r => (s.row r).cls == .device)
  simp only [beq_iff_eq] at hmemory hdevice
  unfold State.classOk State.rowAt deviceAccess
  rw [← hmemory, ← hdevice]
  split
  · simp [*]
  · split <;> simp [*, or_assoc]

/-- Check 6 in one row (R14). -/
theorem permits_iff (c : RowRecord) (p : Port) (w : Bool) : c.permits p w = true ↔
    c.rights.get p = .readWrite ∨ (w = false ∧ c.rights.get p = .read) := by
  unfold RowRecord.permits
  cases c.rights.get p <;> simp

/-- Check 6 fails in one row (R14). -/
theorem permits_false_iff (c : RowRecord) (p : Port) (w : Bool) : c.permits p w = false ↔
    c.rights.get p = .none ∨ (w = true ∧ c.rights.get p = .read) := by
  unfold RowRecord.permits
  cases c.rights.get p <;> simp

/-- Check 7 over the bytes of the range (R15). -/
theorem guards_held_touched {s : State} {p : Port} {a len : Nat} (hl : 1 ≤ len) (h2 : len ≤ 256)
    (hr : a + len - 1 ≤ 2147483647) :
    (s.guardLocks (touchedRows a len)).all (s.holds p) = true ↔
      everyByte a len (fun x => ∀ k, (s.rowAt x).guard = some k → s.holds p k = true) := by
  simp only [List.all_eq_true, mem_guardLocks hl h2 hr, someByte, everyByte]
  constructor
  · intro h x hlo hhi k hk
    exact h k ⟨x, hlo, hhi, hk⟩
  · rintro h k ⟨x, hlo, hhi, hk⟩
    exact h x hlo hhi k hk

/-- Check 7 fails in some byte of the range (R15). -/
theorem guards_not_held_touched {s : State} {p : Port} {a len : Nat} (hl : 1 ≤ len) (h2 : len ≤ 256)
    (hr : a + len - 1 ≤ 2147483647) :
    (s.guardLocks (touchedRows a len)).all (s.holds p) = false ↔
      someByte a len (fun x => ∃ k, (s.rowAt x).guard = some k ∧ s.holds p k = false) := by
  rw [← Bool.not_eq_true, guards_held_touched hl h2 hr]
  simp [everyByte, someByte]

/-- The posted decision over the bytes of the range (R18). -/
theorem postedWrite_touched {s : State} {a len : Nat} (hl : 1 ≤ len) (h2 : len ≤ 256)
    (hr : a + len - 1 ≤ 2147483647) :
    s.postedWrite (touchedRows a len) = true ↔
      everyByte a len (fun x => (s.rowAt x).cls = .memory ∧ (s.rowAt x).posting = true) := by
  unfold State.postedWrite
  rw [all_touched hl h2 hr]
  simp only [Bool.and_eq_true, beq_iff_eq]
  rfl

/-! ## The verdict (Table 1-3) -/

/-- A range that fails check 3 is refused before any row is looked at (R10). -/
theorem judge_outOfRange {s : State} {p : Port} {w : Bool} {a len : Nat} (h : rangeOk a len = false) :
    s.judge p w a len = .refuse .badArg := by simp [State.judge, h]

/-- What is accepted has passed check 3. -/
theorem rangeOk_of_accept {s : State} {p : Port} {w : Bool} {a len : Nat} (h : s.judge p w a len = .accept) :
    rangeOk a len = true := by
  by_contra hr
  rw [judge_outOfRange (by simpa using hr)] at h
  cases h

section

variable {s : State} {p : Port} {w : Bool} {a len : Nat}

theorem judge_hold (hrange : rangeOk a len = true) (hhold : (touchedRows a len).any s.edit.changes = true) :
    s.judge p w a len = .hold := by simp only [State.judge, hrange, hhold]; rfl

theorem judge_noMap (hrange : rangeOk a len = true) (hhold : (touchedRows a len).any s.edit.changes = false)
    (hvalid : (touchedRows a len).all (fun r => (s.row r).valid) = false) :
    s.judge p w a len = .refuse .noMap := by simp only [State.judge, hrange, hhold, hvalid]; rfl

theorem judge_badClass (hrange : rangeOk a len = true) (hhold : (touchedRows a len).any s.edit.changes = false)
    (hvalid : (touchedRows a len).all (fun r => (s.row r).valid) = true)
    (hcls : s.classOk (touchedRows a len) a len = false) : s.judge p w a len = .refuse .badArg := by
  simp only [State.judge, hrange, hhold, hvalid, hcls]; rfl

theorem judge_noRight (hrange : rangeOk a len = true) (hhold : (touchedRows a len).any s.edit.changes = false)
    (hvalid : (touchedRows a len).all (fun r => (s.row r).valid) = true)
    (hcls : s.classOk (touchedRows a len) a len = true)
    (hright : (touchedRows a len).all (fun r => (s.row r).permits p w) = false) :
    s.judge p w a len = .refuse .noRight := by
  simp only [State.judge, hrange, hhold, hvalid, hcls, hright]; rfl

theorem judge_lastCheck (hrange : rangeOk a len = true) (hhold : (touchedRows a len).any s.edit.changes = false)
    (hvalid : (touchedRows a len).all (fun r => (s.row r).valid) = true)
    (hcls : s.classOk (touchedRows a len) a len = true)
    (hright : (touchedRows a len).all (fun r => (s.row r).permits p w) = true) :
    s.judge p w a len =
      if w && !(s.guardLocks (touchedRows a len)).all (s.holds p) then .refuse .guard else .accept := by
  simp only [State.judge, hrange, hhold, hvalid, hcls, hright]; rfl

end

/-- Settles O14: each check decides over the rows touched, and so over the bytes, once those before it have passed. -/
theorem acceptanceVerdict : Obligations.AcceptanceVerdict := by
  intro s p w a len
  refine ⟨fun h => judge_outOfRange ?_, fun hl h2 hr => ?_⟩
  · rw [← Bool.not_eq_true, rangeOk_iff]; exact h
  have hrange : rangeOk a len = true := (rangeOk_iff a len).mpr ⟨hl, h2, by omega, hr⟩
  refine ⟨fun h => judge_hold hrange ((any_touched hl h2 hr _).mpr h), fun hheld => ?_⟩
  replace hheld := (any_touched_false hl h2 hr s.edit.changes).mpr hheld
  refine ⟨fun h => judge_noMap hrange hheld ((all_touched_false hl h2 hr _).mpr h), fun hvalid => ?_⟩
  replace hvalid := (all_touched hl h2 hr fun r => (s.row r).valid).mpr hvalid
  refine ⟨fun hmemory hdevice => judge_badClass hrange hheld hvalid ?_, fun hcls => ?_⟩
  · rw [← Bool.not_eq_true, classOk_touched hl h2 hr]
    exact not_or.mpr ⟨hmemory, hdevice⟩
  replace hcls := (classOk_touched hl h2 hr).mpr hcls
  refine ⟨fun h => judge_noRight hrange hheld hvalid hcls ?_, fun hright => ?_⟩
  · rw [all_touched_false hl h2 hr]
    simp only [permits_false_iff]
    exact h
  replace hright : (touchedRows a len).all (fun r => (s.row r).permits p w) = true := by
    rw [all_touched hl h2 hr]
    simp only [permits_iff]
    exact hright
  rw [judge_lastCheck hrange hheld hvalid hcls hright]
  refine ⟨fun hw h => ?_, fun h => ?_⟩
  · rw [(guards_not_held_touched hl h2 hr).mpr h, hw]; rfl
  · rcases h with hw | h
    · rw [hw]; rfl
    · rw [(guards_held_touched hl h2 hr).mpr h, Bool.not_true, Bool.and_false]; rfl

/-! ## READ and WRITE once taken (R7, R11, R17, R18, R94, R95) -/

section

variable {s : State} {p : Port} {tag : Byte} {addr : Word} {len : Half} {data : List Byte}

theorem exec_read_ready (h : s.ready p { tag := tag, op := .read addr len } = true) :
    exec (.read p tag addr len) s = .next ((s.takenOpen p tag).accepting p { tag := tag, op := .read addr len }) :=
  congrArg Host.Outcome.next (request_ready _ h)

theorem exec_write_ready (h : s.ready p { tag := tag, op := .write addr len data } = true) :
    exec (.write p tag addr len data) s =
      .next ((s.takenOpen p tag).accepting p { tag := tag, op := .write addr len data }) :=
  congrArg Host.Outcome.next (request_ready _ h)

/-- A READ that acceptance refuses is answered at once (R7). -/
theorem exec_read_refused {st : Status} (h : s.ready p { tag := tag, op := .read addr len } = true)
    (hj : s.judge p false addr.toNat len.toNat = .refuse st) :
    exec (.read p tag addr len) s =
      .next (s.answeredNow p { code := 0x03#8, tag := tag, status := st, body := .empty }) := by
  rw [exec_read_ready h, ← takenOpen_respond _ h rfl]
  simp only [State.accepting, takenOpen_judge, hj]
  rfl

/-- A WRITE that acceptance refuses is answered at once (R7). -/
theorem exec_write_refused {st : Status} (h : s.ready p { tag := tag, op := .write addr len data } = true)
    (hj : s.judge p true addr.toNat len.toNat = .refuse st) :
    exec (.write p tag addr len data) s =
      .next (s.answeredNow p { code := 0x04#8, tag := tag, status := st, body := .empty }) := by
  rw [exec_write_ready h, ← takenOpen_respond _ h rfl]
  simp only [State.accepting, takenOpen_judge, hj]
  rfl

end

@[simp] theorem takenOpen_writeSeq (s : State) (p q : Port) (tag : Byte) :
    ((s.takenOpen p tag).port q).writeSeq = (s.port q).writeSeq := by
  by_cases h : q = p
  · subst h; simp
  · rw [takenOpen_port_ne s tag h]

@[simp] theorem takenOpen_readEntry (s : State) (p q : Port) (tag tag' : Byte) (addr : Word) (len : Nat) :
    (s.takenOpen p tag).readEntry q tag' addr len = s.readEntry q tag' addr len := by
  simp [State.readEntry]

@[simp] theorem takenOpen_writeEntry (s : State) (p q : Port) (tag tag' : Byte) (addr : Word) (len : Nat)
    (data : List Byte) : (s.takenOpen p tag).writeEntry q tag' addr len data = s.writeEntry q tag' addr len data := by
  simp only [State.writeEntry, takenOpen_writeSeq]
  rfl

/-- Settles O12: by the verdict, which is that of the part before the request was taken. -/
theorem readOutcome : Obligations.ReadOutcome := by
  intro p tag addr len s h
  refine ⟨fun st hj => exec_read_refused h hj, fun hj => ?_, fun hj => ?_⟩
  · rw [exec_read_ready h]
    simp only [State.accepting, takenOpen_judge, hj]
    rfl
  · rw [exec_read_ready h]
    simp only [State.accepting, takenOpen_judge, hj, State.acceptRead, takenOpen_readEntry]
    rfl

theorem nodup_eraseDups {α : Type} [BEq α] [LawfulBEq α] (l : List α) : l.eraseDups.Nodup := by
  induction hn : l.length using Nat.strong_induction_on generalizing l with
  | _ n ih =>
    cases l with
    | nil => simp
    | cons x l =>
      have hlen : (l.filter (fun b => !b == x)).length < n := by
        subst hn; exact Nat.lt_succ_of_le (List.length_filter_le _ _)
      rw [List.eraseDups_cons, List.nodup_cons]
      exact ⟨by simp, ih _ hlen _ rfl⟩

/-- The locks of an accepted write's guard marks are the guard locks of its rows (R6). -/
theorem writeEntry_guards (s : State) (p : Port) (tag : Byte) (addr : Word) (len : Nat) (data : List Byte) :
    (s.writeEntry p tag addr len data).guards.map GuardMark.lock = s.guardLocks (touchedRows addr.toNat len) := by
  simp [State.writeEntry, Function.comp_def]

/-- A WRITE that acceptance accepts and that is not posted joins the write queue, its response withheld (R17, R94). -/
theorem exec_write_withheld {s : State} {p : Port} {tag : Byte} {addr : Word} {len : Half} {data : List Byte}
    {e : WriteEntry} (h : s.ready p { tag := tag, op := .write addr len data } = true)
    (hj : s.judge p true addr.toNat len.toNat = .accept) (he : e = s.writeEntry p tag addr len.toNat data)
    (hp : e.posted = false) :
    exec (.write p tag addr len data) s =
      .next ((s.takenOpen p tag).onPort p (fun P => { P with writeQ := P.writeQ ++ [e], writeSeq := e.seq })) := by
  rw [exec_write_ready h]
  simp only [State.accepting, takenOpen_judge, hj, State.acceptWrite, takenOpen_writeEntry, ← he, hp]
  rfl

/-- A posted WRITE is answered OK with its sequence number as it joins the write queue (R18). -/
theorem exec_write_posted {s : State} {p : Port} {tag : Byte} {addr : Word} {len : Half} {data : List Byte}
    {e : WriteEntry} (h : s.ready p { tag := tag, op := .write addr len data } = true)
    (hj : s.judge p true addr.toNat len.toNat = .accept) (he : e = s.writeEntry p tag addr len.toNat data)
    (hp : e.posted = true) :
    exec (.write p tag addr len data) s =
      .next ((s.answeredNow p { code := 0x04#8, tag := tag, status := .ok, body := .written e.seq none }).onPort p
        (fun P => { P with writeQ := P.writeQ ++ [e], writeSeq := e.seq })) := by
  rw [exec_write_ready h, ← takenOpen_respond _ h rfl]
  simp only [State.accepting, takenOpen_judge, hj, State.acceptWrite, takenOpen_writeEntry, ← he, hp]
  exact congrArg Host.Outcome.next (onPort_respond_comm _ _ _ _ rfl)

/-- Settles O13: the entry is the one acceptance forms, its posted mark and guard locks those of the rows touched. -/
theorem writeOutcome : Obligations.WriteOutcome := by
  intro p tag addr len data s h
  refine ⟨fun st hj => exec_write_refused h hj, fun hj => ?_, fun hj => ?_⟩
  · rw [exec_write_ready h]
    simp only [State.accepting, takenOpen_judge, hj]
    rfl
  · obtain ⟨hl, h2, -, hr⟩ := (rangeOk_iff _ _).mp (rangeOk_of_accept hj)
    refine ⟨s.writeEntry p tag addr len.toNat data, rfl, rfl, rfl, rfl, rfl, rfl, rfl, rfl, rfl,
      postedWrite_touched hl h2 hr, ?_, ?_, fun k => ?_, exec_write_withheld h hj rfl, exec_write_posted h hj rfl⟩
    · rw [writeEntry_guards]; exact nodup_eraseDups _
    · intro g hg
      obtain ⟨k, -, rfl⟩ := List.mem_map.mp hg
      rfl
    · rw [writeEntry_guards]; exact mem_guardLocks hl h2 hr k

/-- Only a READ command names a READ. -/
theorem requestOf_read {c : Instr} {p : Port} {tag : Byte} {addr : Word} {len : Half}
    (h : requestOf c = some (p, { tag := tag, op := .read addr len })) : c = .read p tag addr len := by
  cases c <;> cases h
  rfl

/-- Only a WRITE command names a WRITE. -/
theorem requestOf_write {c : Instr} {p : Port} {tag : Byte} {addr : Word} {len : Half} {data : List Byte}
    (h : requestOf c = some (p, { tag := tag, op := .write addr len data })) : c = .write p tag addr len data := by
  cases c <;> cases h
  rfl

/-- Settles O15: check 4 is the first that fails. -/
theorem invalidRowIsRefused : Obligations.InvalidRowIsRefused := by
  intro c p r addr len s hc hop h hl h2 hr hheld hvalid
  have hrange : rangeOk addr.toNat len.toNat = true := (rangeOk_iff _ _).mpr ⟨hl, h2, by omega, hr⟩
  have hj : ∀ w, s.judge p w addr.toNat len.toNat = .refuse .noMap := fun w =>
    judge_noMap hrange ((any_touched_false hl h2 hr s.edit.changes).mpr hheld)
      ((all_touched_false hl h2 hr fun r => (s.row r).valid).mpr hvalid)
  obtain ⟨tag, op⟩ := r
  rcases hop with rfl | ⟨data, rfl⟩
  · obtain rfl := requestOf_read hc
    exact exec_read_refused h (hj false)
  · obtain rfl := requestOf_write hc
    exact exec_write_refused h (hj true)

/-! ## Translation (R1, R2, R6, R20) -/

/-- The rows a range touches, said by division (R1, R10). -/
theorem touchedRows_eq {a len : Nat} (hl : 1 ≤ len) (hr : a + len - 1 ≤ 2147483647) :
    touchedRows a len =
      if a / 4194304 = (a + len - 1) / 4194304 then [rowIndex a] else [rowIndex a, rowIndex (a + len - 1)] := by
  unfold touchedRows
  simp only [rowIndex_eq (show a ≤ 2147483647 by omega) hr]

theorem translate_rows (s : State) (a len : Nat) : (s.translate a len).map TransPart.row = touchedRows a len := by
  simp [State.translate, Function.comp_def, State.transPart]

theorem transPart_len (s : State) (a len : Nat) (r : Row) : (s.transPart a len r).len =
    min (a + len - 1) (r.val * 4194304 + 4194303) + 1 - max a (r.val * 4194304) := rfl

theorem transPart_start {s : State} {a len : Nat} {r : Row} (ha : a ≤ 2147483647) :
    (s.transPart a len r).start.toNat = max a (r.val * 4194304) := by
  have hr := r.isLt
  show (BitVec.ofNat 32 (max a (r.val * 4194304))).toNat = _
  rw [BitVec.toNat_ofNat, Nat.mod_eq_of_lt (by omega)]

/-- The parts of a range have its length together. -/
theorem translate_lengths {s : State} {a len : Nat} (hl : 1 ≤ len) (h2 : len ≤ 256)
    (hr : a + len - 1 ≤ 2147483647) :
    ((s.translate a len).map TransPart.len).sum = len := by
  have hfirst := rowIndex_val (show a ≤ 2147483647 by omega)
  have hlast := rowIndex_val hr
  unfold State.translate
  rw [touchedRows_eq hl hr]
  split
  · simp only [List.map_cons, List.map_nil, List.sum_cons, List.sum_nil, transPart_len, hfirst]; omega
  · simp only [List.map_cons, List.map_nil, List.sum_cons, List.sum_nil, transPart_len, hfirst, hlast]; omega

/-- A byte of the range lies in the part of its own row and in no other. -/
theorem transPart_holds_iff {s : State} {a len x : Nat} {r : Row} (hr : a + len - 1 ≤ 2147483647) (hlo : a ≤ x)
    (hhi : x < a + len) :
    ((s.transPart a len r).start.toNat ≤ x ∧ x < (s.transPart a len r).start.toNat + (s.transPart a len r).len) ↔
      r = rowIndex x := by
  rw [transPart_start (by omega), transPart_len, Fin.ext_iff, rowIndex_val (by omega)]
  omega

/-- The one entry of a list that meets a test is the first that does. -/
theorem find?_of_only {α : Type} {l : List α} {q : α → Bool} {y : α} (hy : y ∈ l)
    (h : ∀ x ∈ l, q x = true ↔ x = y) : l.find? q = some y := by
  cases hf : l.find? q with
  | none => exact absurd ((h y hy).mpr rfl) (List.find?_eq_none.mp hf y hy)
  | some x => rw [(h x (List.mem_of_find?_eq_some hf)).mp (List.find?_some hf)]

theorem mem_translate {s : State} {a len x : Nat} (hl : 1 ≤ len) (h2 : len ≤ 256) (hr : a + len - 1 ≤ 2147483647)
    (hlo : a ≤ x) (hhi : x < a + len) : s.transPart a len (rowIndex x) ∈ s.translate a len :=
  List.mem_map.mpr ⟨rowIndex x, (mem_touched hl h2 hr _).mpr ⟨x, hlo, hhi, rfl⟩, rfl⟩

/-- A byte of the range is translated through the part of its own row (R107). -/
theorem partAddress_translate {s : State} {a len x : Nat} (hl : 1 ≤ len) (h2 : len ≤ 256)
    (hr : a + len - 1 ≤ 2147483647) (hlo : a ≤ x) (hhi : x < a + len) :
    partAddress (s.translate a len) x = (s.transPart a len (rowIndex x)).pool +
      BitVec.ofNat 40 (x - (s.transPart a len (rowIndex x)).start.toNat) := by
  have hfind : (s.translate a len).find? (fun t => t.start.toNat ≤ x && x < t.start.toNat + t.len) =
      some (s.transPart a len (rowIndex x)) := by
    refine find?_of_only (mem_translate hl h2 hr hlo hhi) fun t ht => ?_
    obtain ⟨r, -, rfl⟩ := List.mem_map.mp ht
    rw [Bool.and_eq_true, decide_eq_true_iff, decide_eq_true_iff, transPart_holds_iff hr hlo hhi]
    exact ⟨fun e => by rw [e], fun e => congrArg TransPart.row e⟩
  unfold partAddress
  rw [hfind]

/-- A pool address lies in its frame (R2). -/
theorem poolAddress_toNat (frame : BitVec 18) (a : Nat) :
    (poolAddress frame a).toNat = frame.toNat * 4194304 + a % 4194304 := by
  have hframe := frame.isLt
  unfold poolAddress Config.rowSize
  rw [BitVec.toNat_ofNat, Nat.mod_eq_of_lt (by omega)]

theorem transPart_pool (s : State) (a len : Nat) (r : Row) :
    (s.transPart a len r).pool = poolAddress (s.row r).frame (max a (r.val * 4194304)) := rfl

/-- The pool address of a byte is its frame's base plus its offset in the row (R2). -/
theorem transPart_pool_toNat {s : State} {a len x : Nat} (hr : a + len - 1 ≤ 2147483647) (hlo : a ≤ x)
    (hhi : x < a + len) :
    ((s.transPart a len (rowIndex x)).pool + BitVec.ofNat 40 (x - (s.transPart a len (rowIndex x)).start.toNat)).toNat =
      (s.rowAt x).frame.toNat * 4194304 + x % 4194304 := by
  have hframe := (s.rowAt x).frame.isLt
  rw [BitVec.toNat_add, BitVec.toNat_ofNat, transPart_pool, poolAddress_toNat, transPart_start (by omega),
    rowIndex_val (by omega), ← State.rowAt]
  omega

/-- Settles O16: every byte lies in the part of its own row, whose frame gives its pool address. -/
theorem translationFollowsTheRows : Obligations.TranslationFollowsTheRows := by
  intro s a len hl h2 hr
  refine ⟨(translate_rows s a len).trans (touchedRows_eq hl hr), translate_lengths hl h2 hr, fun x hlo hhi => ?_⟩
  obtain ⟨hstart, hend⟩ := (transPart_holds_iff (s := s) (r := rowIndex x) hr hlo hhi).mpr rfl
  have haddress := partAddress_translate (s := s) hl h2 hr hlo hhi
  refine ⟨s.transPart a len (rowIndex x), mem_translate hl h2 hr hlo hhi, hstart, hend, rowIndex_val (by omega), rfl,
    rfl, haddress, ?_⟩
  rw [haddress]
  exact transPart_pool_toNat hr hlo hhi

/-! ## MAP_READ (R21, R22) -/

theorem rowOf_above {row : Half} (h : 512 ≤ row.toNat) : rowOf row = none := by
  simp [rowOf, Nat.not_lt.mpr h]

theorem rowOf_row {row : Half} {n : Row} (h : n.val = row.toNat) : rowOf row = some n := by
  unfold rowOf
  rw [dif_pos (h ▸ n.isLt)]
  exact congrArg some (Fin.ext h.symm)

/-- A ready MAP_READ goes on to its own checks. -/
theorem exec_mapRead_ready {s : State} {p : Port} {tag : Byte} {row : Half} {view : Byte}
    (h : s.ready p { tag := tag, op := .mapRead row view } = true) :
    exec (.mapRead p tag row view) s =
      .next ((s.takenOpen p tag).mapRead p { tag := tag, op := .mapRead row view } row view) :=
  congrArg Host.Outcome.next (request_ready _ h)

theorem openFor_false {e : Edit} {p : Port} (h : ∀ o, e = .opened o → o.owner ≠ p) : e.openFor p = false := by
  cases e with
  | opened o => simpa [Edit.openFor] using h o rfl
  | absent => rfl
  | committing c => rfl

theorem stagedView_unstaged {s : State} {o : OpenEdit} {n : Row} (ho : s.edit = .opened o)
    (h : ∀ x ∈ o.staged, x.row ≠ n) : s.stagedView n = .row n (s.row n) s.revision false := by
  have hfind : o.staged.find? (fun x => x.row == n) = none := by simpa using h
  simp [State.stagedView, Edit.stagedFor, ho, hfind]

theorem stagedView_staged {s : State} {o : OpenEdit} {x : Staged} (ho : s.edit = .opened o) (hx : x ∈ o.staged)
    (hnodup : (o.staged.map Staged.row).Nodup) :
    s.stagedView x.row = .row x.row x.content s.revision true := by
  have hfind : o.staged.find? (fun y => y.row == x.row) = some x := find?_of_only hx fun y hy => by
    rw [beq_iff_eq]
    exact ⟨fun e => List.inj_on_of_nodup_map hnodup hy hx e, fun e => congrArg Staged.row e⟩
  simp [State.stagedView, Edit.stagedFor, ho, hfind]

section

variable {s : State} {p : Port} {r : Request} {row : Half} {view : Byte} {n : Row}

theorem mapRead_illFormed (h : 512 ≤ row.toNat ∨ 1 < view.toNat) :
    s.mapRead p r row view = s.respond p (r.response .badArg .empty) := by
  unfold State.mapRead
  split
  · rfl
  next n hn =>
    rcases h with h | h
    · rw [rowOf_above h] at hn; cases hn
    · rw [if_neg (by rintro rfl; simp at h), if_neg (by rintro rfl; simp at h)]

theorem mapRead_active (hn : n.val = row.toNat) :
    s.mapRead p r row 0#8 = s.respond p (r.response .ok (.row n (s.row n) s.revision false)) := by
  simp [State.mapRead, rowOf_row hn]

theorem mapRead_staged_noEdit (hn : n.val = row.toNat) (h : s.edit.openFor p = false) :
    s.mapRead p r row 1#8 = s.respond p (r.response .noEdit .empty) := by
  simp [State.mapRead, rowOf_row hn, h]

theorem mapRead_staged_owner (hn : n.val = row.toNat) (h : s.edit.openFor p = true) :
    s.mapRead p r row 1#8 = s.respond p (r.response .ok (s.stagedView n)) := by
  simp [State.mapRead, rowOf_row hn, h]

end

/-- Settles O18: by row, view and owner, each answered at once. -/
theorem mapReadAnswers : Obligations.MapReadAnswers := by
  intro p tag row view s h
  rw [exec_mapRead_ready h]
  refine ⟨fun hbad => ?_, fun n hn => ⟨?_, ?_, ?_⟩⟩
  · rw [mapRead_illFormed hbad]
    exact congrArg Host.Outcome.next (takenOpen_respond _ h rfl)
  · rintro rfl
    rw [mapRead_active hn]
    exact congrArg Host.Outcome.next (takenOpen_respond _ h rfl)
  · rintro rfl hother
    have hclosed : (s.takenOpen p tag).edit.openFor p = false := openFor_false hother
    rw [mapRead_staged_noEdit hn hclosed]
    exact congrArg Host.Outcome.next (takenOpen_respond _ h rfl)
  · rintro o rfl ho howner
    have hopen : (s.takenOpen p tag).edit.openFor p = true := by simp [Edit.openFor, ho, howner]
    rw [mapRead_staged_owner hn hopen]
    refine ⟨fun hno => ?_, ?_⟩
    · rw [stagedView_unstaged (s := s.takenOpen p tag) ho hno]
      exact congrArg Host.Outcome.next (takenOpen_respond _ h rfl)
    · rintro x hx hnodup rfl
      rw [stagedView_staged (s := s.takenOpen p tag) ho hx hnodup]
      exact congrArg Host.Outcome.next (takenOpen_respond _ h rfl)

end Sys2Proof.Machine

/-! # The requests of the map edit unit (spec/02 R24 to R31, R42, R44; Table 10-3) -/

namespace Sys2Proof.Machine

open Sys2Proof

/-! ## The requests of the edit unit (R24) -/

/-- A request command but HELLO meets the session check and the tag check first (R8, R24, R90). -/
theorem checkedFirst_of_request {c : Instr} {p : Port} {r : Request} {go : State → State}
    (h : ∀ s, exec c s = .next (s.request p r go)) : checkedFirst c p r := by
  intro s ht
  rw [h]
  refine ⟨fun hs => ?_, fun hs => ?_, fun hs htag => ?_, fun hs htag hused => ?_⟩
  · rw [request_offline go ht hs]
  · rw [request_leaving go ht hs]
  · rw [request_tag_above go ht hs htag]
  · rw [request_tag_used go ht hs htag hused]

section

variable {s : State} {p : Port} {r : Request} {go : State → OpenEdit → State} {o : OpenEdit}

/-- An owner request of a port without an own OPEN edit is refused (R24). -/
theorem request_asOwner_refused (h : s.ready p r = true) (hno : ∀ o, s.edit = .opened o → o.owner ≠ p) :
    s.request p r (fun t => t.asOwner p r go) = s.answeredNow p (r.response .noEdit .empty) := by
  rw [request_ready _ h, asOwner_no (s.takenOpen p r.tag) p r go hno]
  exact takenOpen_respond _ h rfl

/-- An owner request of the port that owns the OPEN edit goes on with it (R24). -/
theorem request_asOwner_owner (h : s.ready p r = true) (ho : s.edit = .opened o) (howner : o.owner = p) :
    s.request p r (fun t => t.asOwner p r go) = go (s.takenOpen p r.tag) o := by
  rw [request_ready _ h]
  exact asOwner_yes _ p r go o ho howner

/-- An owner's request answered at once, the idle timer restarted (R31). -/
theorem restartIdle_takenOpen_respond (x : Response) (h : s.ready p r = true) (hx : x.tag = r.tag) :
    ((s.takenOpen p r.tag).restartIdle o).respond p x =
      { s.answeredNow p x with edit := .opened { o with idle := s.config.editIdle } } :=
  takenOpen_respond_edit x h hx _

end

/-! ## MAP_OPEN (R25, R26, R42, R44) -/

section

variable {s : State} {p : Port} {r : Request} {expected : Option Half} {o : OpenEdit} {c : CommitEdit}

theorem mapOpen_stale {v : Half} (he : s.edit = .absent) (hv : v ≠ s.revision) :
    s.mapOpen p r (some v) = s.respond p (r.response .stale (.revision s.revision)) := by
  simp [State.mapOpen, he, hv]

theorem mapOpen_opens (he : s.edit = .absent) (hv : expected = none ∨ expected = some s.revision) :
    s.mapOpen p r expected = (s.openEdit p).respond p (r.response .ok (.revision s.revision)) := by
  rcases hv with rfl | rfl <;> simp [State.mapOpen, he]

theorem mapOpen_own (he : s.edit = .opened o) (ho : o.owner = p) :
    s.mapOpen p r expected = (s.restartIdle o).respond p (r.response .already (.editState .opened o.base)) := by
  simp [State.mapOpen, he, ho]

theorem mapOpen_busy (he : s.edit = .opened o) (ho : o.owner ≠ p) :
    s.mapOpen p r expected = s.respond p (r.response .editBusy (.editBusy o.owner .opened s.revision)) := by
  simp [State.mapOpen, he, ho]

theorem mapOpen_own_committing (he : s.edit = .committing c) (ho : c.owner = p) (hd : c.departed = false) :
    s.mapOpen p r expected = s.respond p (r.response .already (.editState .committing c.base)) := by
  simp [State.mapOpen, he, ho, hd]

theorem mapOpen_busy_committing (he : s.edit = .committing c) (h : c.owner ≠ p ∨ c.departed = true) :
    s.mapOpen p r expected = s.respond p (r.response .editBusy (.editBusy c.owner .committing s.revision)) := by
  have hother : ¬ (c.owner = p ∧ c.departed = false) := by
    rintro ⟨ho, hd⟩
    rcases h with h | h
    · exact h ho
    · rw [hd] at h; cases h
  simp only [State.mapOpen, he, if_neg hother]

end

theorem exec_mapOpen_ready {s : State} {p : Port} {tag : Byte} {expected : Option Half}
    (h : s.ready p { tag := tag, op := .mapOpen expected } = true) :
    exec (.mapOpen p tag expected) s =
      .next ((s.takenOpen p tag).mapOpen p { tag := tag, op := .mapOpen expected } expected) :=
  congrArg Host.Outcome.next (request_ready _ h)

/-- The new edit stands, the answer is queued and the item gone, whatever came first (R25). -/
theorem openEdit_takenOpen_respond {s : State} {p : Port} {r : Request} (x : Response) (h : s.ready p r = true)
    (hx : x.tag = r.tag) :
    ((s.takenOpen p r.tag).openEdit p).respond p x =
      { (s.answeredNow p x).onPort p (·.withdraw .editExpired) with
        edit := .opened { owner := p, base := s.revision, staged := [], idle := s.config.editIdle } } := by
  rw [← takenOpen_respond x h hx]
  exact onPort_respond_comm _ _ _ _ rfl

/-- Settles O19: by the state of the edit and, where it is open, its owner. -/
theorem mapOpenAnswers : Obligations.MapOpenAnswers := by
  intro p tag expected s h
  rw [exec_mapOpen_ready h]
  refine ⟨?_, fun he hv => ?_, fun o he ho => ?_, fun o he ho => ?_, fun c he ho hd => ?_, fun c he hc => ?_⟩
  · rintro v he rfl hv
    rw [mapOpen_stale (s := s.takenOpen p tag) he hv, takenOpen_respond _ h rfl]
    rfl
  · rw [mapOpen_opens (s := s.takenOpen p tag) he hv, openEdit_takenOpen_respond _ h rfl]
    rfl
  · rw [mapOpen_own (s := s.takenOpen p tag) he ho, restartIdle_takenOpen_respond _ h rfl]
    rfl
  · rw [mapOpen_busy (s := s.takenOpen p tag) he ho, takenOpen_respond _ h rfl]
    rfl
  · rw [mapOpen_own_committing (s := s.takenOpen p tag) he ho hd, takenOpen_respond _ h rfl]
    rfl
  · rw [mapOpen_busy_committing (s := s.takenOpen p tag) he hc, takenOpen_respond _ h rfl]
    rfl

/-! ## MAP_STAGE (R27, R28) -/

section

variable {raw : RawRow} {o : OpenEdit} {x y : Staged} {before after : List Staged}

theorem not_any_row {l : List Staged} {n : Row} (h : ∀ z ∈ l, z.row ≠ n) : l.any (fun z => z.row == n) = false := by
  simpa using h

/-- A new row goes to the end of the list (R28). -/
theorem stageInto_new {l : List Staged} (h : ∀ z ∈ l, z.row ≠ x.row) : stageInto l x = l ++ [x] := by
  simp [stageInto, not_any_row h]

theorem map_replace_other {l : List Staged} (h : ∀ z ∈ l, z.row ≠ x.row) :
    l.map (fun z => if z.row = x.row then x else z) = l :=
  (List.map_congr_left (g := id) fun z hz => if_neg (h z hz)).trans (List.map_id l)

/-- The entry of a row that is staged already is replaced in place (R28). -/
theorem stageInto_replaces (hy : y.row = x.row) (hbefore : ∀ z ∈ before, z.row ≠ x.row)
    (hafter : ∀ z ∈ after, z.row ≠ x.row) : stageInto (before ++ y :: after) x = before ++ x :: after := by
  simp [stageInto, hy, map_replace_other hbefore, map_replace_other hafter]

/-- The position of an entry counts from 1, those before it being of other rows (R28). -/
theorem stagedPosition_append (hbefore : ∀ z ∈ before, z.row ≠ x.row) :
    stagedPosition (before ++ x :: after) x.row = before.length + 1 :=
  congrArg (· + 1) (findIdx_split _ rfl (fun z hz => by simpa using hbefore z hz) (by simp))

variable {s : State} {p : Port} {r : Request}

theorem stageRow_illFormed (h : raw.wellFormed = none) :
    s.stageRow p r raw o = (s.restartIdle o).respond p (r.response .badArg .empty) := by
  simp [State.stageRow, h]

theorem stageRow_full (hx : raw.wellFormed = some x) (hnew : ∀ z ∈ o.staged, z.row ≠ x.row)
    (hfull : 32 ≤ o.staged.length) :
    s.stageRow p r raw o = (s.restartIdle o).respond p (r.response .listFull .empty) := by
  have hroom : Config.stagedRoom ≤ o.staged.length := hfull
  simp [State.stageRow, hx, not_any_row hnew, hroom]

/-- The row is staged where it has an entry or there is room for one; the answer gives its position (R28). -/
theorem stageRow_stages {l : List Staged} (hx : raw.wellFormed = some x) (hl : stageInto o.staged x = l)
    (hroom : o.staged.length < 32 ∨ ∃ y ∈ o.staged, y.row = x.row) :
    s.stageRow p r raw o = (s.restartIdle { o with staged := l }).respond p
      (r.response .ok (.stagedAt (stagedPosition l x.row) l.length)) := by
  have hopen : ¬ (!o.staged.any (fun z => z.row == x.row) && decide (Config.stagedRoom ≤ o.staged.length)) = true := by
    rcases hroom with hroom | ⟨y, hy, hrow⟩
    · have hnotFull : ¬ Config.stagedRoom ≤ o.staged.length := Nat.not_le.mpr hroom
      simp [hnotFull]
    · have hstaged : o.staged.any (fun z => z.row == x.row) = true := List.any_eq_true.mpr ⟨y, hy, beq_iff_eq.mpr hrow⟩
      simp [hstaged]
  subst hl
  simp only [State.stageRow, hx, if_neg hopen]

end

/-! ## The form of a staged row (R27, Table 10-3) -/

theorem rowOf_eq_none {h : Half} : rowOf h = none ↔ 512 ≤ h.toNat := by
  simp [rowOf]

theorem rowOf_eq_some {h : Half} {n : Row} (e : rowOf h = some n) : n.val = h.toNat := by
  unfold rowOf at e
  split at e
  · cases e; rfl
  · cases e

theorem classOf_eq_none {b : Byte} : classOf b = none ↔ 1 < b.toNat := by
  revert b; decide

theorem classOf_eq_device {b : Byte} {c : RowClass} (e : classOf b = some c) : c = .device ↔ b = 1#8 := by
  revert b; cases c <;> decide

theorem guardOf_eq_none {b : Byte} : guardOf b = none ↔ b ≠ 0xFF#8 ∧ (b.toNat = 0 ∨ 32 ≤ b.toNat) := by
  revert b; decide

theorem guardOf_absent {b : Byte} {g : Option Lock} (e : guardOf b = some g) : g = none ↔ b = 0xFF#8 := by
  unfold guardOf at e
  split at e
  next h => cases e; simp [h]
  next h =>
    split at e
    · split at e
      · cases e
      · cases e; simp [h]
    · cases e

theorem guardOf_lock {b : Byte} {k : Lock} (e : guardOf b = some (some k)) : k.val = b.toNat := by
  unfold guardOf at e
  split at e
  · cases e
  · split at e
    · split at e
      · cases e
      · cases e; rfl
    · cases e

/-- A staged row is formed from fields each of which is well formed (R27, check 3). -/
theorem wellFormed_eq_some {raw : RawRow} {x : Staged} : raw.wellFormed = some x ↔
    ∃ n cls rights guard, rowOf raw.row = some n ∧ classOf raw.cls = some cls ∧ rightsOf raw.rights = some rights ∧
      guardOf raw.guard = some guard ∧ raw.frame.toNat ≤ 262143 ∧ ¬ (cls = .device ∧ raw.posting = true) ∧
      x = { row := n, content :=
        { valid := raw.valid, frame := raw.frame.setWidth 18, cls := cls, rights := rights, posting := raw.posting,
          guard := guard } } := by
  unfold RawRow.wellFormed
  constructor
  · intro h
    split at h
    next n cls rights guard hn hcls hrights hguard =>
      split at h
      next hform => cases h; exact ⟨n, cls, rights, guard, hn, hcls, hrights, hguard, hform.1, hform.2, rfl⟩
      next => cases h
    next => cases h
  · rintro ⟨n, cls, rights, guard, hn, hcls, hrights, hguard, hframe, hposting, rfl⟩
    simp only [hn, hcls, hrights, hguard]
    exact if_pos ⟨hframe, hposting⟩

/-- No row is staged exactly when some field is ill formed (R27, check 3; Table 10-3). -/
theorem wellFormed_eq_none {raw : RawRow} : raw.wellFormed = none ↔ raw.illFormed := by
  constructor
  · intro h
    by_contra hill
    simp only [RawRow.illFormed, not_or] at hill
    obtain ⟨hrow, hframe, hcls, hrights, hguard, hposting⟩ := hill
    obtain ⟨n, hn⟩ := Option.ne_none_iff_exists'.mp (mt rowOf_eq_none.mp hrow)
    obtain ⟨cls, hc⟩ := Option.ne_none_iff_exists'.mp (mt classOf_eq_none.mp hcls)
    obtain ⟨rights, hr⟩ := Option.ne_none_iff_exists'.mp
      (mt (rightsOf_none _).mp (by simpa only [not_or] using hrights))
    obtain ⟨guard, hg⟩ := Option.ne_none_iff_exists'.mp (mt guardOf_eq_none.mp hguard)
    have hdevice : ¬ (cls = .device ∧ raw.posting = true) := fun ⟨hd, hp⟩ =>
      hposting ⟨by rw [(classOf_eq_device hc).mp hd]; rfl, hp⟩
    have hsome := wellFormed_eq_some.mpr ⟨n, cls, rights, guard, hn, hc, hr, hg, by omega, hdevice, rfl⟩
    rw [h] at hsome
    cases hsome
  · intro hill
    by_contra h
    obtain ⟨x, hx⟩ := Option.ne_none_iff_exists'.mp h
    obtain ⟨n, cls, rights, guard, hn, hc, hr, hg, hframe, hdevice, -⟩ := wellFormed_eq_some.mp hx
    rcases hill with hrow | hlarge | hcls | hrights | hguard | ⟨hcls, hposting⟩
    · rw [rowOf_eq_none.mpr hrow] at hn; cases hn
    · omega
    · rw [classOf_eq_none.mpr hcls] at hc; cases hc
    · rw [(rightsOf_none _).mpr hrights] at hr; cases hr
    · rw [guardOf_eq_none.mpr hguard] at hg; cases hg
    · exact hdevice ⟨(classOf_eq_device hc).mpr (BitVec.eq_of_toNat_eq hcls), hposting⟩

/-- Settles O21: field by field, a staged row being formed exactly when every field is. -/
theorem stagedContentForm : Obligations.StagedContentForm := by
  intro raw
  refine ⟨wellFormed_eq_none, fun x hx => ⟨wellFormed_legal hx, ?_⟩⟩
  obtain ⟨n, cls, rights, guard, hn, hc, hr, hg, hframe, -, rfl⟩ := wellFormed_eq_some.mp hx
  refine ⟨rowOf_eq_some hn, ?_, rfl, rfl, classOf_eq_device hc, guardOf_absent hg, ?_, rightsOf_some _ _ hr⟩
  · show (raw.frame.setWidth 18).toNat = raw.frame.toNat
    rw [BitVec.toNat_setWidth, Nat.mod_eq_of_lt (by omega)]
  · rintro k rfl
    exact guardOf_lock hg

theorem exec_mapStage (p : Port) (tag : Byte) (raw : RawRow) (s : State) :
    exec (.mapStage p tag raw) s = .next (s.request p { tag := tag, op := .mapStage raw } fun t =>
      t.asOwner p { tag := tag, op := .mapStage raw } fun u o =>
        u.stageRow p { tag := tag, op := .mapStage raw } raw o) := rfl

/-- Settles O20: a new row needs room and goes to the end, a staged one keeps its place. -/
theorem mapStageAnswers : Obligations.MapStageAnswers := by
  intro p tag raw s h
  rw [exec_mapStage]
  refine ⟨fun hno => ?_, fun o ho howner => ?_⟩
  · rw [request_asOwner_refused h hno]
    rfl
  rw [request_asOwner_owner h ho howner]
  refine ⟨fun hill => ?_, fun x hx hnew hfull => ?_, fun x hx hnew hroom => ?_, ?_⟩
  · rw [stageRow_illFormed (wellFormed_eq_none.mpr hill), restartIdle_takenOpen_respond _ h rfl]
    rfl
  · rw [stageRow_full hx hnew hfull, restartIdle_takenOpen_respond _ h rfl]
    rfl
  · rw [stageRow_stages hx (stageInto_new hnew) (.inl hroom), restartIdle_takenOpen_respond _ h rfl,
      stagedPosition_append hnew, List.length_append]
    rfl
  · intro x before y after hx hstaged hy hbefore hafter
    have hplace : stageInto o.staged x = before ++ x :: after := by
      rw [hstaged, stageInto_replaces hy hbefore hafter]
    have hlength : (before ++ x :: after).length = o.staged.length := by rw [hstaged]; simp
    rw [stageRow_stages hx hplace (.inr ⟨y, by simp [hstaged], hy⟩), restartIdle_takenOpen_respond _ h rfl,
      stagedPosition_append hbefore, hlength]
    rfl

/-! ## MAP_UNSTAGE (R29) -/

section

variable {s : State} {p : Port} {r : Request} {o : OpenEdit} {row : Half} {y : Staged} {before after : List Staged}

theorem unstageRow_absent (h : ∀ z ∈ o.staged, z.row.val ≠ row.toNat) :
    s.unstageRow p r row o = (s.restartIdle o).respond p (r.response .badArg .empty) := by
  have hfind : o.staged.find? (fun z => z.row.val == row.toNat) = none := by simpa using h
  simp only [State.unstageRow, hfind]

theorem filter_other {l : List Staged} {n : Row} (h : ∀ z ∈ l, z.row ≠ n) : l.filter (fun z => z.row != n) = l := by
  simpa using h

/-- The row's entry leaves the list, the others keep their order (R29). -/
theorem unstageRow_removes (hstaged : o.staged = before ++ y :: after) (hrow : y.row.val = row.toNat)
    (hbefore : ∀ z ∈ before, z.row ≠ y.row) (hafter : ∀ z ∈ after, z.row ≠ y.row) :
    s.unstageRow p r row o = (s.restartIdle { o with staged := before ++ after }).respond p
      (r.response .ok (.listLength (before.length + after.length))) := by
  have hother : ∀ z ∈ before, (z.row.val == row.toNat) = false := fun z hz =>
    beq_eq_false_iff_ne.mpr fun e => hbefore z hz (Fin.ext (e.trans hrow.symm))
  have hfind := find_split (fun z : Staged => z.row.val == row.toNat) hstaged hother (beq_iff_eq.mpr hrow)
  have hleft : o.staged.filter (fun z => z.row != y.row) = before ++ after := by
    simp [hstaged, List.filter_append, filter_other hbefore, filter_other hafter]
  simp only [State.unstageRow, hfind, hleft, List.length_append]

end

theorem exec_mapUnstage (p : Port) (tag : Byte) (row : Half) (s : State) :
    exec (.mapUnstage p tag row) s = .next (s.request p { tag := tag, op := .mapUnstage row } fun t =>
      t.asOwner p { tag := tag, op := .mapUnstage row } fun u o =>
        u.unstageRow p { tag := tag, op := .mapUnstage row } row o) := rfl

/-- Settles O22: after the common checks, by owner and by whether the row has an entry. -/
theorem mapUnstageRemovesTheEntry : Obligations.MapUnstageRemovesTheEntry := by
  intro p tag row
  refine ⟨checkedFirst_of_request (exec_mapUnstage p tag row), fun s h => ?_⟩
  rw [exec_mapUnstage]
  refine ⟨fun hno => ?_, fun o ho howner => ?_⟩
  · rw [request_asOwner_refused h hno]
    rfl
  rw [request_asOwner_owner h ho howner]
  refine ⟨fun habsent => ?_, fun before y after hstaged hrow hbefore hafter => ?_⟩
  · rw [unstageRow_absent habsent, restartIdle_takenOpen_respond _ h rfl]
    rfl
  · rw [unstageRow_removes hstaged hrow hbefore hafter, restartIdle_takenOpen_respond _ h rfl]
    rfl

/-! ## MAP_ABORT (R30) -/

/-- An owner's request that ends the edit, answered at once (R30, R34). -/
theorem discardEdit_takenOpen_respond {s : State} {p : Port} {r : Request} (x : Response) (h : s.ready p r = true)
    (hx : x.tag = r.tag) :
    (s.takenOpen p r.tag).discardEdit.respond p x = { s.answeredNow p x with edit := .absent } :=
  takenOpen_respond_edit x h hx _

theorem exec_mapAbort (p : Port) (tag : Byte) (s : State) :
    exec (.mapAbort p tag) s = .next (s.request p { tag := tag, op := .mapAbort } fun t =>
      t.asOwner p { tag := tag, op := .mapAbort } fun u _ =>
        u.discardEdit.respond p (Request.response { tag := tag, op := .mapAbort } .ok .empty)) := rfl

/-- Settles O23: an own OPEN edit is discarded; that of another and a COMMITTING one are no such edit. -/
theorem mapAbortDiscardsTheEdit : Obligations.MapAbortDiscardsTheEdit := by
  intro p tag
  refine ⟨checkedFirst_of_request (exec_mapAbort p tag), fun s h => ⟨fun hno => ?_, fun o ho howner => ?_⟩⟩
  · rw [exec_mapAbort, request_asOwner_refused h hno]
    rfl
  · rw [exec_mapAbort, request_asOwner_owner h ho howner, discardEdit_takenOpen_respond _ h rfl]
    rfl

end Sys2Proof.Machine

/-! # The commit of an edit (spec/02 R34 to R41, R44) -/

namespace Sys2Proof.Machine

open Sys2Proof

/-! ## REVISION items (R40, R139) -/

theorem self_mem_raiseInto (it : Item) (l : List Item) : it ∈ raiseInto it l := by
  unfold raiseInto
  split
  next h =>
    obtain ⟨e, he, hkey⟩ := List.any_eq_true.mp h
    exact List.mem_map.mpr ⟨e, he, if_pos hkey⟩
  · simp

/-- The one REVISION item after a raise is the one raised (R137, R139). -/
theorem revision_mem_raiseInto (v w : Half) (l : List Item) : .revision v ∈ raiseInto (.revision w) l ↔ v = w := by
  constructor
  · intro h
    rcases mem_raiseInto h with e | ⟨-, hkey⟩
    · injection e
    · simp [Item.sameKey, Item.key] at hkey
  · rintro rfl
    exact self_mem_raiseInto _ l

theorem inContact_iff (P : PortState) : P.inContact = true ↔ P.reached := by
  simp [PortState.inContact, PortState.reached]

theorem inContact_of_away {P : PortState} (h : P.session = .offline ∨ P.session = .closing) : P.inContact = false := by
  rcases h with h | h <;> simp [PortState.inContact, h]

/-- A raise for a port out of contact has no effect (R139, step 1). -/
theorem raise_away {P : PortState} (it : Item) (h : P.inContact = false) : P.raise it = P := by
  simp [PortState.raise, h]

theorem raise_revision_subscribed {P : PortState} (w : Half) (h : P.reached) (hsub : P.subRev = true) :
    (P.raise (.revision w)).events = raiseInto (.revision w) P.events := by
  simp [PortState.raise, (inContact_iff P).mpr h, Item.wanted, hsub]

theorem raise_revision_unsubscribed {P : PortState} (w : Half) (hsub : P.subRev = false) :
    P.raise (.revision w) = P := by
  simp [PortState.raise, Item.wanted, hsub]

/-! ## A port when the commit is answered and told (R40) -/

/-- The answer of a commit that completes (R40). -/
def CommitEdit.answer (c : CommitEdit) (revision : Half) : Response :=
  { code := 0x15#8, tag := c.tag, status := .ok, body := .revision revision }

/-- A port's record after the answer to the commit's owner, unless it departed or is out of contact (R40, R44). -/
def State.answeredPort (s : State) (c : CommitEdit) (q : Port) : PortState :=
  if q = c.owner ∧ c.departed = false ∧ (s.port q).inContact = true then
    (s.port q).respond (c.answer (s.revision + 1))
  else s.port q

/-- A port's record after the answer and the raise of the REVISION item, before the held requests are taken again. -/
def State.toldPort (s : State) (c : CommitEdit) (q : Port) : PortState :=
  (s.answeredPort c q).raise (.revision (s.revision + 1))

/-- The part with the commit's rows and revision in place, the commit answered and the ports told (R39, R40). -/
def State.told (s : State) (c : CommitEdit) : State :=
  allPorts.foldl (fun t q => t.raiseRevision q)
    (({ s.replaceRows c.change with revision := s.revision + 1, edit := .absent } : State).answerCommit c)

section

variable {s : State} {c : CommitEdit}

theorem completeCommit_eq (h : s.edit = .committing c) :
    s.completeCommit = allPorts.foldl (fun t q => t.retake q) (s.told c) := by
  simp only [State.completeCommit, h, State.told]

theorem port_replaceRows (s : State) (l : List Staged) (q : Port) : (s.replaceRows l).port q = s.port q := by
  simp only [State.port, ports_replaceRows]

theorem port_answerCommit (u : State) (c : CommitEdit) (q : Port) : (u.answerCommit c).port q =
    if q = c.owner ∧ c.departed = false ∧ (u.port q).inContact = true then (u.port q).respond (c.answer u.revision)
    else u.port q := by
  unfold State.answerCommit
  split
  next hd => simp [hd]
  next hd =>
    unfold State.respondDue
    by_cases hq : q = c.owner
    · subst hq
      by_cases hcontact : (u.port c.owner).inContact = true
      · simp [hd, hcontact, State.port_respond, CommitEdit.answer]
      · simp [hcontact]
    · split
      · rw [State.port_respond, if_neg hq, if_neg fun h => hq h.1]
      · rw [if_neg fun h => hq h.1]

theorem port_told (s : State) (c : CommitEdit) (q : Port) : (s.told c).port q = s.toldPort c q := by
  have hport : ∀ p, ({ s.replaceRows c.change with revision := s.revision + 1, edit := .absent } : State).port p =
      s.port p := port_replaceRows s c.change
  unfold State.told
  rw [port_fold_rev _ (by decide), if_pos (mem_allPorts q), rest_revision (rest_answerCommit ..), port_answerCommit,
    hport]
  rfl

theorem answeredPort_kept (s : State) (c : CommitEdit) (q : Port) : (s.answeredPort c q).kept = (s.port q).kept := by
  unfold State.answeredPort; split <;> rfl

theorem toldPort_kept (s : State) (c : CommitEdit) (q : Port) : (s.toldPort c q).kept = (s.port q).kept :=
  (kept_raise _ _).1.trans (answeredPort_kept s c q)

/-- The answer does not bear on the items: a port has the REVISION item it would have without it. -/
theorem toldPort_events (s : State) (c : CommitEdit) (q : Port) :
    (s.toldPort c q).events = ((s.port q).raise (.revision (s.revision + 1))).events := by
  unfold State.toldPort State.answeredPort
  split
  · exact raise_events _ _ _ rfl rfl rfl rfl
  · rfl

/-- The owner's queue ends in the answer, and its tag is free (R40, R91). -/
theorem toldPort_owner (hd : c.departed = false) (ho : (s.port c.owner).reached) :
    (s.toldPort c c.owner).respQ = (s.port c.owner).respQ ++ [c.answer (s.revision + 1)] ∧
      c.tag ∉ (s.toldPort c c.owner).tags := by
  obtain ⟨-, hresp, -, htags⟩ := kept_raise (s.answeredPort c c.owner) (.revision (s.revision + 1))
  have hanswered : s.answeredPort c c.owner = (s.port c.owner).respond (c.answer (s.revision + 1)) :=
    if_pos ⟨rfl, hd, (inContact_iff _).mpr ho⟩
  rw [State.toldPort, hresp, htags, hanswered]
  exact ⟨rfl, by simp [PortState.respond, CommitEdit.answer]⟩

/-- Where the owner departed no answer is queued (R44). -/
theorem toldPort_respQ_departed (hd : c.departed = true) (q : Port) : (s.toldPort c q).respQ = (s.port q).respQ := by
  have hanswered : s.answeredPort c q = s.port q := if_neg fun h => by rw [hd] at h; cases h.2.1
  rw [State.toldPort, (kept_raise _ _).2.1, hanswered]

theorem toldPort_respQ_grows (s : State) (c : CommitEdit) (q : Port) :
    (s.port q).respQ <+: (s.toldPort c q).respQ := by
  rw [State.toldPort, (kept_raise _ _).2.1, State.answeredPort]
  split
  · exact ⟨_, rfl⟩
  · exact ⟨[], List.append_nil _⟩

end

/-! ## A held request taken again (R41) -/

theorem code_of_access {op : ReqOp} (h : op.isRead = true ∨ op.isWrite = true) : op.code ≠ 0x15#8 := by
  cases op with
  | read | write => simp [ReqOp.code]
  | _ => simp [ReqOp.isRead, ReqOp.isWrite] at h

/-- With no commit in progress no request is held (R11). -/
theorem judge_ne_hold {s : State} (h : s.edit = .absent) (p : Port) (w : Bool) (a len : Nat) :
    s.judge p w a len ≠ .hold := by
  have hfree : (touchedRows a len).any s.edit.changes = false := by simp [h, Edit.changes]
  simp only [State.judge, hfree, Bool.false_eq_true, if_false]
  split_ifs <;> simp

/-- What taking a held request again does to its port: the items are as they were, no tag is entered, and what is queued
answers no commit. -/
def RetakeKeeps (P Q : PortState) : Prop :=
  Q.events = P.events ∧ Q.tags ⊆ P.tags ∧ ∃ new, Q.respQ = P.respQ ++ new ∧ ∀ x ∈ new, x.code ≠ 0x15#8

theorem retakeKeeps_same {P Q : PortState} (hevents : Q.events = P.events) (htags : Q.tags = P.tags)
    (hresp : Q.respQ = P.respQ) : RetakeKeeps P Q :=
  ⟨hevents, htags ▸ List.Subset.refl _, [], by simp [hresp], by simp⟩

theorem RetakeKeeps.trans {P Q R : PortState} (h : RetakeKeeps P Q) (g : RetakeKeeps Q R) : RetakeKeeps P R := by
  obtain ⟨hevents, htags, new, hresp, hnew⟩ := h
  obtain ⟨gevents, gtags, later, gresp, glater⟩ := g
  refine ⟨gevents.trans hevents, fun _ ht => htags (gtags ht), new ++ later, by rw [gresp, hresp, List.append_assoc],
    fun x hx => ?_⟩
  exact (List.mem_append.mp hx).elim (hnew x) (glater x)

theorem retakeKeeps_respond (P : PortState) {x : Response} (hx : x.code ≠ 0x15#8) : RetakeKeeps P (P.respond x) :=
  ⟨rfl, List.filter_subset_self _, [x], rfl, by simpa using hx⟩

section

variable {s : State} {p : Port} {r : Request} {addr : Word} {len : Half} {data : List Byte} {st : Status}

theorem accepting_read_refused (hop : r.op = .read addr len)
    (hj : s.judge p false addr.toNat len.toNat = .refuse st) :
    s.accepting p r = s.respond p (r.response st .empty) := by simp only [State.accepting, hop, hj]

theorem accepting_read_accepted (hop : r.op = .read addr len)
    (hj : s.judge p false addr.toNat len.toNat = .accept) :
    s.accepting p r = s.acceptRead p r.tag addr len.toNat := by simp only [State.accepting, hop, hj]

theorem accepting_write_refused (hop : r.op = .write addr len data)
    (hj : s.judge p true addr.toNat len.toNat = .refuse st) :
    s.accepting p r = s.respond p (r.response st .empty) := by simp only [State.accepting, hop, hj]

theorem accepting_write_accepted (hop : r.op = .write addr len data)
    (hj : s.judge p true addr.toNat len.toNat = .accept) :
    s.accepting p r = s.acceptWrite p r addr len.toNat data := by simp only [State.accepting, hop, hj]

/-- A WRITE that joins the queue, not posted or posted (R17, R18, R94). -/
theorem port_acceptWrite (s : State) (p : Port) (r : Request) (addr : Word) (n : Nat) (data : List Byte) :
    ((s.acceptWrite p r addr n data).port p) =
      if (s.writeEntry p r.tag addr n data).posted = true then
        ({ s.port p with
            writeQ := (s.port p).writeQ ++ [s.writeEntry p r.tag addr n data]
            writeSeq := (s.port p).writeSeq + 1 } : PortState).respond
          (r.response .ok (.written ((s.port p).writeSeq + 1) none))
      else
        { s.port p with
          writeQ := (s.port p).writeQ ++ [s.writeEntry p r.tag addr n data]
          writeSeq := (s.port p).writeSeq + 1 } := by
  unfold State.acceptWrite State.joinWrite
  dsimp only
  split
  · rw [State.port_respond, if_pos rfl, State.port_onPort_same]; rfl
  · rw [State.port_onPort_same]; rfl

/-- Every outcome of acceptance keeps this much of the port's record. -/
theorem retakeKeeps_accepting (hop : r.op.isRead = true ∨ r.op.isWrite = true) :
    RetakeKeeps (s.port p) ((s.accepting p r).port p) := by
  have hrefused : ∀ st, RetakeKeeps (s.port p) ((s.respond p (r.response st .empty)).port p) := fun st => by
    rw [State.port_respond, if_pos rfl]
    exact retakeKeeps_respond _ (code_of_access hop)
  have hheld : RetakeKeeps (s.port p) ((s.placeHold p r).port p) := by
    rw [State.placeHold, State.port_onPort_same]
    exact retakeKeeps_same rfl rfl rfl
  unfold State.accepting
  split
  · split
    · exact hrefused _
    · exact hheld
    · rw [State.acceptRead, State.port_onPort_same]
      exact retakeKeeps_same rfl rfl rfl
  · split
    · exact hrefused _
    · exact hheld
    · rw [port_acceptWrite]
      split
      · exact (retakeKeeps_same rfl rfl rfl).trans (retakeKeeps_respond _ (code_of_access hop))
      · exact retakeKeeps_same rfl rfl rfl
  · exact retakeKeeps_same rfl rfl rfl

/-- Where no READ and no WRITE is held nothing is taken again (R41). -/
theorem retake_nothing (h : ∀ r, (s.port p).hold = some r → r.op.isRead = false ∧ r.op.isWrite = false) :
    s.retake p = s := by
  unfold State.retake
  split
  next r hr =>
    obtain ⟨hread, hwrite⟩ := h r hr
    simp [hread, hwrite]
  · rfl

/-- The part with the hold slot of a port empty (R41). -/
def State.released (s : State) (p : Port) : State := s.onPort p (fun P => { P with hold := none })

theorem retake_online (hhold : (s.port p).hold = some r) (hop : r.op.isRead = true ∨ r.op.isWrite = true)
    (hs : (s.port p).session = .online) : s.retake p = (s.released p).accepting p r := by
  have haccess : (r.op.isRead || r.op.isWrite) = true := by simpa using hop
  simp only [State.retake, hhold, haccess, if_true, State.port_onPort_same, hs]
  rfl

theorem retakeKeeps_retake (s : State) (p : Port) : RetakeKeeps (s.port p) ((s.retake p).port p) := by
  have hreleased : RetakeKeeps (s.port p) ((s.released p).port p) := by
    rw [State.released, State.port_onPort_same]
    exact retakeKeeps_same rfl rfl rfl
  unfold State.retake
  split
  next r _ =>
    split
    next haccess =>
      have hop : r.op.isRead = true ∨ r.op.isWrite = true := by simpa using haccess
      have hanswered : ∀ st, RetakeKeeps (s.port p) (((s.released p).respond p (r.response st .empty)).port p) :=
        fun st => by
          rw [State.port_respond, if_pos rfl]
          exact hreleased.trans (retakeKeeps_respond _ (code_of_access hop))
      dsimp only
      split
      · exact hreleased.trans (retakeKeeps_accepting hop)
      · exact hanswered .departing
      · exact hanswered .notOnline
      · exact hanswered .notOnline
    · exact retakeKeeps_same rfl rfl rfl
  · exact retakeKeeps_same rfl rfl rfl

end

/-- Of the held requests taken again in turn, each meets its port as it was before the first (R41). -/
theorem port_foldl_retake {l : List Port} (hl : l.Nodup) {q : Port} (hq : q ∈ l) (s : State) :
    ∃ u : State, u.port q = s.port q ∧ u.rest = s.rest ∧ u.locks = s.locks ∧
      (l.foldl (fun t p => t.retake p) s).port q = (u.retake q).port q := by
  have others : ∀ (l : List Port) (s : State), q ∉ l → (l.foldl (fun t p => t.retake p) s).port q = s.port q := by
    intro l
    induction l with
    | nil => exact fun _ _ => rfl
    | cons p l ih =>
      intro s h
      rw [List.mem_cons, not_or] at h
      exact (ih _ h.2).trans (port_retake_ne s h.1)
  induction l generalizing s with
  | nil => cases hq
  | cons p l ih =>
    obtain ⟨hp, hnodup⟩ := List.nodup_cons.mp hl
    by_cases hqp : q = p
    · subst hqp
      exact ⟨s, rfl, rfl, rfl, others l _ hp⟩
    · obtain ⟨u, hport, hrest, hlocks, hresult⟩ := ih hnodup ((List.mem_cons.mp hq).resolve_left hqp) (s.retake p)
      exact ⟨u, hport.trans (port_retake_ne s hqp), hrest.trans (rest_retake s p), hlocks.trans (locks_retake s p),
        hresult⟩

/-! ## The completion at one port (R39 to R41) -/

section

variable {s : State} {c : CommitEdit}

/-- A port after the completion: as it was told of the commit, and its held request taken again through the new map. -/
theorem port_completeCommit (h : s.edit = .committing c) (q : Port) :
    ∃ u : State, u.port q = s.toldPort c q ∧ u.map = s.completeCommit.map ∧ u.edit = .absent ∧ u.locks = s.locks ∧
      s.completeCommit.port q = (u.retake q).port q := by
  obtain ⟨u, hport, hrest, hlocks, hresult⟩ :=
    port_foldl_retake (l := allPorts) (by decide) (mem_allPorts q) (s.told c)
  rw [← completeCommit_eq h] at hresult
  have htold : (s.told c).rest = s.completeCommit.rest := by
    rw [completeCommit_eq h]
    exact (foldl_keeps State.rest _ (fun t p => rest_retake t p) _ _).symm
  have hdone : s.completeCommit.edit = .absent := rest_edit (rest_completeCommit s c h)
  have hlocked : (s.told c).locks = s.locks := by
    rw [← locks_completeCommit s, completeCommit_eq h]
    exact (foldl_keeps State.locks _ (fun t p => locks_retake t p) _ _).symm
  exact ⟨u, hport.trans (port_told s c q), rest_map (hrest.trans htold), (rest_edit (hrest.trans htold)).trans hdone,
    hlocks.trans hlocked, hresult⟩

theorem retakeKeeps_completeCommit (h : s.edit = .committing c) (q : Port) :
    RetakeKeeps (s.toldPort c q) (s.completeCommit.port q) := by
  obtain ⟨u, hport, -, -, -, hresult⟩ := port_completeCommit h q
  rw [hresult, ← hport]
  exact retakeKeeps_retake u q

theorem completeCommit_events (h : s.edit = .committing c) (q : Port) :
    (s.completeCommit.port q).events = ((s.port q).raise (.revision (s.revision + 1))).events :=
  (retakeKeeps_completeCommit h q).1.trans (toldPort_events s c q)

/-- A port without a held READ or WRITE is left as it was told (R41). -/
theorem port_completeCommit_nothing (h : s.edit = .committing c) {q : Port}
    (hold : ∀ r, (s.port q).hold = some r → r.op.isRead = false ∧ r.op.isWrite = false) :
    s.completeCommit.port q = s.toldPort c q := by
  obtain ⟨u, hport, -, -, -, hresult⟩ := port_completeCommit h q
  have hsame : (u.port q).hold = (s.port q).hold := by rw [hport, kept_hold (toldPort_kept s c q)]
  rw [hresult, retake_nothing (by rw [hsame]; exact hold), hport]

/-- The commit's owner is answered and its tag is free, whatever is answered after it (R40). -/
theorem completeCommit_answers (h : s.edit = .committing c) (hd : c.departed = false)
    (ho : (s.port c.owner).reached) :
    c.tag ∉ (s.completeCommit.port c.owner).tags ∧
      answers s s.completeCommit c.owner (c.answer (s.revision + 1)) := by
  obtain ⟨-, htags, new, hresp, -⟩ := retakeKeeps_completeCommit h c.owner
  obtain ⟨htold, hfree⟩ := toldPort_owner hd ho
  exact ⟨fun ht => hfree (htags ht), [], new, by rw [hresp, htold]; simp⟩

/-- A commit whose owner departed is not answered (R44). -/
theorem completeCommit_unanswered (h : s.edit = .committing c) (hd : c.departed = true) {q : Port} {x : Response}
    (hx : x ∈ (s.completeCommit.port q).respQ) (hcode : x.code = 0x15#8) : x ∈ (s.port q).respQ := by
  obtain ⟨-, -, new, hresp, hnew⟩ := retakeKeeps_completeCommit h q
  rw [hresp, toldPort_respQ_departed hd, List.mem_append] at hx
  exact hx.resolve_right fun hlater => hnew x hlater hcode

theorem completeCommit_revision_iff (h : s.edit = .committing c) {q : Port} (v : Half) (hq : (s.port q).reached)
    (hsub : (s.port q).subRev = true) :
    .revision v ∈ (s.completeCommit.port q).events ↔ v = s.revision + 1 := by
  rw [completeCommit_events h, raise_revision_subscribed _ hq hsub]
  exact revision_mem_raiseInto ..

theorem completeCommit_events_untold (h : s.edit = .committing c) {q : Port}
    (hq : (s.port q).session = .offline ∨ ((s.port q).reached ∧ (s.port q).subRev = false)) :
    (s.completeCommit.port q).events = (s.port q).events := by
  rw [completeCommit_events h]
  rcases hq with hq | ⟨-, hsub⟩
  · rw [raise_away _ (inContact_of_away (.inl hq))]
  · rw [raise_revision_unsubscribed _ hsub]

end

/-! ## What a held request comes to (R41) -/

theorem holds_of_locks {s t : State} (h : s.locks = t.locks) (p : Port) (k : Lock) : s.holds p k = t.holds p k := by
  simp only [State.holds, State.lock, h]

theorem translate_of_map {s t : State} (h : s.map = t.map) (a len : Nat) : s.translate a len = t.translate a len := by
  have hpart : s.transPart a len = t.transPart a len := funext fun r => by
    simp only [State.transPart, row_of_map h]
  simp only [State.translate, hpart]

theorem rowAt_of_map {s t : State} (h : s.map = t.map) (x : Nat) : s.rowAt x = t.rowAt x := row_of_map h _

/-- Acceptance fills no hold slot when no commit is in progress (R11). -/
theorem hold_accepting {s : State} (h : s.edit = .absent) (p : Port) (r : Request) :
    ((s.accepting p r).port p).hold = (s.port p).hold := by
  unfold State.accepting
  split
  · split
    · rw [State.port_respond, if_pos rfl]; rfl
    next hj => exact (judge_ne_hold h _ _ _ _ hj).elim
    · rw [State.acceptRead, State.port_onPort_same]
  · split
    · rw [State.port_respond, if_pos rfl]; rfl
    next hj => exact (judge_ne_hold h _ _ _ _ hj).elim
    · rw [port_acceptWrite]; split <;> rfl
  · rfl

/-- A port whose last event is an answer has it queued, and the tag is free. -/
theorem answers_of_respond {s t : State} {q : Port} {P : PortState} {x : Response} (ht : t.port q = P.respond x)
    (hP : (s.port q).respQ <+: P.respQ) : answers s t q x ∧ x.tag ∉ (t.port q).tags := by
  obtain ⟨before, hbefore⟩ := hP
  rw [answers, ht]
  exact ⟨⟨before, [], by rw [hbefore]; rfl⟩, by simp [PortState.respond]⟩

/-- An accepted WRITE is the last in its port's queue, and its number the port's; a posted one is answered last of all
(R17, R18, R94). -/
theorem acceptWrite_joins (s : State) (p : Port) (r : Request) (addr : Word) (n : Nat) (data : List Byte) :
    ((s.acceptWrite p r addr n data).port p).writeQ = (s.port p).writeQ ++ [s.writeEntry p r.tag addr n data] ∧
      ((s.acceptWrite p r addr n data).port p).writeSeq = (s.writeEntry p r.tag addr n data).seq ∧
      ((s.writeEntry p r.tag addr n data).posted = true → ∃ P : PortState,
        (s.acceptWrite p r addr n data).port p =
          P.respond (r.reply .ok (.written (s.writeEntry p r.tag addr n data).seq none)) ∧
        P.respQ = (s.port p).respQ) := by
  rw [port_acceptWrite]
  split
  · exact ⟨rfl, rfl, fun _ => ⟨_, rfl, rfl⟩⟩
  next hp => exact ⟨rfl, rfl, fun h => absurd h hp⟩

section

variable {s t v : State} {q : Port} {r : Request}

/-- A held request that goes through acceptance again is refused or accepted as the checks find it (R41). v is the part
as its turn comes. -/
theorem retaken_of_accepting (hport : t.port q = (v.accepting q r).port q) (hmap : v.map = t.map)
    (hedit : v.edit = .absent) (hlocks : v.locks = s.locks) (hhold : (v.port q).hold = none)
    (hreadL : (v.port q).readL = (s.port q).readL) (hwriteQ : (v.port q).writeQ = (s.port q).writeQ)
    (hseq : (v.port q).writeSeq = (s.port q).writeSeq) (hresp : (s.port q).respQ <+: (v.port q).respQ) :
    retaken s t q r := by
  refine ⟨by rw [hport, hold_accepting hedit, hhold], v, hmap, hedit, fun k => .inl (holds_of_locks hlocks q k),
    fun addr len hop => ⟨fun st hj => ?_, fun hj => ?_⟩, fun addr len data hop => ⟨fun st hj => ?_, fun hj => ?_⟩⟩
  · have hanswered : t.port q = (v.port q).respond (r.response st .empty) := by
      rw [hport, accepting_read_refused hop hj, State.port_respond, if_pos rfl]
    obtain ⟨hanswers, htag⟩ := answers_of_respond hanswered hresp
    exact ⟨hanswers, htag, by rw [hanswered]; exact hreadL⟩
  · rw [hport, accepting_read_accepted hop hj, State.acceptRead, State.port_onPort_same]
    dsimp only [State.readEntry]
    rw [hreadL, hseq, translate_of_map hmap]
  · have hanswered : t.port q = (v.port q).respond (r.response st .empty) := by
      rw [hport, accepting_write_refused hop hj, State.port_respond, if_pos rfl]
    obtain ⟨hanswers, htag⟩ := answers_of_respond hanswered hresp
    exact ⟨hanswers, htag, by rw [hanswered]; exact hwriteQ, by rw [hanswered]; exact hseq⟩
  · obtain ⟨hl, h2, -, hr⟩ := (rangeOk_iff _ _).mp (rangeOk_of_accept hj)
    have hparts := translate_of_map hmap addr.toNat len.toNat
    have hposted := postedWrite_touched (s := v) hl h2 hr
    have hguards := mem_guardLocks (s := v) hl h2 hr
    simp only [rowAt_of_map hmap] at hposted hguards
    obtain ⟨hqueue, hnumber, hanswered⟩ := acceptWrite_joins v q r addr len.toNat data
    rw [← accepting_write_accepted hop hj, ← hport] at hqueue hnumber hanswered
    refine ⟨v.writeEntry q r.tag addr len.toNat data, by rw [← hseq]; rfl, rfl, rfl, rfl, rfl, hparts, ?_, rfl, rfl,
      hposted, fun k => by rw [writeEntry_guards]; exact hguards k, by rw [hqueue, hwriteQ], hnumber, fun hp => ?_⟩
    · rw [← hparts]; rfl
    · obtain ⟨P, hP, hrespQ⟩ := hanswered hp
      exact answers_of_respond hP (hrespQ ▸ hresp)

theorem retaken_of_retake (hport : t.port q = (v.retake q).port q) (hmap : v.map = t.map) (hedit : v.edit = .absent)
    (hlocks : v.locks = s.locks) (hkept : (v.port q).kept = (s.port q).kept)
    (hresp : (s.port q).respQ <+: (v.port q).respQ) (hs : (s.port q).session = .online)
    (hhold : (s.port q).hold = some r) (hop : r.op.isRead = true ∨ r.op.isWrite = true) : retaken s t q r := by
  rw [retake_online ((kept_hold hkept).trans hhold) hop ((kept_session hkept).trans hs)] at hport
  have hreleased : (v.released q).port q = { v.port q with hold := none } := State.port_onPort_same ..
  have hreadL := kept_readL hkept
  have hwriteQ := kept_writeQ hkept
  have hseq := kept_writeSeq hkept
  exact retaken_of_accepting hport hmap hedit hlocks (by rw [hreleased]) (by rw [hreleased]; exact hreadL)
    (by rw [hreleased]; exact hwriteQ) (by rw [hreleased]; exact hseq) (by rw [hreleased]; exact hresp)

end

/-! ## The completion (R39) -/

/-- What the completion of a commit in progress brings about, whatever the ports hold (R39, R40, R41, R44). -/
theorem committed_completeCommit {s : State} {c : CommitEdit} (h : s.edit = .committing c) :
    committed s s.completeCommit c := by
  have hdone := rest_completeCommit s c h
  have hrow : ∀ r, s.completeCommit.row r = (s.replaceRows c.change).row r := row_of_map ((rest_map hdone).trans rfl)
  refine ⟨rest_edit hdone, rest_revision hdone, fun hnodup x hx => ?_, fun r hr => ?_, completeCommit_answers h,
    fun hd q x hx hcode => completeCommit_unanswered h hd hx hcode,
    fun q v hq hsub => completeCommit_revision_iff h v hq hsub, fun q v hq => by rw [completeCommit_events_untold h hq], fun q r hs hhold hop => ?_⟩
  · rw [hrow]; exact row_replaceRows s _ hnodup x hx
  · rw [hrow]; exact row_replaceRows_ne s _ r hr
  · obtain ⟨u, hport, hmap, hedit, hlocks, hresult⟩ := port_completeCommit h q
    exact retaken_of_retake hresult hmap hedit hlocks (by rw [hport]; exact toldPort_kept s c q)
      (by rw [hport]; exact toldPort_respQ_grows s c q) hs hhold hop

/-! ## MAP_COMMIT (R34, R35) -/

/-- The edit of a MAP_COMMIT of this staged list as it starts (R35). -/
def State.commitOf (s : State) (p : Port) (tag : Byte) (o : OpenEdit) : CommitEdit :=
  { owner := p, departed := false, base := o.base, change := o.staged, drain := s.drainSet o.staged, tag := tag }

section

variable {s : State} {p : Port} {r : Request} {o : OpenEdit}

theorem commitEdit_empty (h : o.staged = []) :
    s.commitEdit p r o = s.discardEdit.respond p (r.response .ok (.revision s.revision)) := by
  simp [State.commitEdit, h]

theorem commitEdit_drains (h : o.staged ≠ []) (hdrain : s.drainSet o.staged ≠ []) :
    s.commitEdit p r o = { s with edit := .committing (s.commitOf p r.tag o) } := by
  have hstaged : o.staged.isEmpty = false := by simpa using h
  have hdue : (s.drainSet o.staged).isEmpty = false := by simpa using hdrain
  simp [State.commitEdit, State.startCommit, State.commitDue, State.commitOf, hstaged, hdue]

theorem commitEdit_completes (h : o.staged ≠ []) (hdrain : s.drainSet o.staged = []) :
    s.commitEdit p r o = ({ s with edit := .committing (s.commitOf p r.tag o) } : State).completeCommit := by
  have hstaged : o.staged.isEmpty = false := by simpa using h
  simp [State.commitEdit, State.startCommit, State.commitDue, State.commitOf, hstaged, hdrain]

end

theorem exec_mapCommit (p : Port) (tag : Byte) (s : State) :
    exec (.mapCommit p tag) s = .next (s.request p { tag := tag, op := .mapCommit } fun t =>
      t.asOwner p { tag := tag, op := .mapCommit } fun u o => u.commitEdit p { tag := tag, op := .mapCommit } o) := rfl

/-- Taking a request changes of a port no more than its intake, its places and its tags (R86, R90, R92). -/
theorem takenOpen_port (s : State) (p q : Port) (tag : Byte) : ∃ intake places begun tags,
    (s.takenOpen p tag).port q =
      { s.port q with intake := intake, places := places, begun := begun, tags := tags } := by
  by_cases h : q = p
  · subst h; exact ⟨_, _, _, _, takenOpen_port_same ..⟩
  · exact ⟨_, _, _, _, takenOpen_port_ne s tag h⟩

/-- The intake takes no request of a port that holds one (R88). -/
theorem ready_hold {s : State} {p : Port} {r : Request} (h : s.ready p r = true) : (s.port p).hold = none :=
  (takes_hasRoom (ready_takes h)).1.1

section

variable {s t : State} {p : Port} {tag : Byte} {c : CommitEdit}

/-- The part when a MAP_COMMIT has been taken and its commit has started. -/
def State.startedCommit (s : State) (p : Port) (tag : Byte) (c : CommitEdit) : State :=
  { s.takenOpen p tag with edit := .committing c }

theorem startedCommit_port (s : State) (p q : Port) (tag : Byte) (c : CommitEdit) :
    ∃ intake places begun tags, (s.startedCommit p tag c).port q =
      { s.port q with intake := intake, places := places, begun := begun, tags := tags } := takenOpen_port s p q tag

theorem startedCommit_events (q : Port) :
    ((s.startedCommit p tag c).completeCommit.port q).events =
      ((s.port q).raise (.revision (s.revision + 1))).events := by
  obtain ⟨_, _, _, _, hq⟩ := startedCommit_port s p q tag c
  rw [completeCommit_events rfl, hq]
  exact raise_events _ _ _ rfl rfl rfl rfl

/-- The owner, who holds nothing when its MAP_COMMIT is taken, has the answer last (R40). -/
theorem startedCommit_respQ (h : s.ready p { tag := tag, op := .mapCommit } = true) (howner : c.owner = p)
    (hd : c.departed = false) :
    ((s.startedCommit p tag c).completeCommit.port p).respQ =
      (s.port p).respQ ++ [c.answer (s.revision + 1)] := by
  obtain ⟨_, _, _, _, hp⟩ := startedCommit_port s p p tag c
  have honline : ((s.startedCommit p tag c).port p).reached := .inl (by rw [hp]; exact ready_session h)
  have hnothing : ((s.startedCommit p tag c).port p).hold = none := by rw [hp]; exact ready_hold h
  rw [port_completeCommit_nothing rfl (by simp [hnothing])]
  subst howner
  rw [(toldPort_owner hd honline).1, hp]
  rfl

/-- A port that holds no READ and no WRITE keeps its hold slot and its accepted work through the completion. -/
theorem startedCommit_keeps {q : Port}
    (hold : ∀ r, (s.port q).hold = some r → r.op.isRead = false ∧ r.op.isWrite = false) :
    ((s.startedCommit p tag c).completeCommit.port q).hold = (s.port q).hold ∧
      ((s.startedCommit p tag c).completeCommit.port q).readL = (s.port q).readL ∧
      ((s.startedCommit p tag c).completeCommit.port q).writeQ = (s.port q).writeQ := by
  obtain ⟨_, _, _, _, hq⟩ := startedCommit_port s p q tag c
  have hkept := toldPort_kept (s.startedCommit p tag c) c q
  rw [port_completeCommit_nothing rfl (by rw [hq]; exact hold), kept_hold hkept, kept_readL hkept, kept_writeQ hkept,
    hq]
  exact ⟨rfl, rfl, rfl⟩

end

/-- Settles O24: by the staged list and the drain set; the completion is that of any commit. -/
theorem mapCommitAnswers : Obligations.MapCommitAnswers := by
  intro p tag s h
  rw [exec_mapCommit]
  refine ⟨fun hno => by rw [request_asOwner_refused h hno]; rfl, fun o ho howner => ?_⟩
  rw [request_asOwner_owner h ho howner]
  refine ⟨fun hempty => ?_, mem_drainSet s o.staged, fun hstaged hdrain => ?_, fun hstaged hdrain => ?_⟩
  · rw [commitEdit_empty hempty, discardEdit_takenOpen_respond _ h rfl]
    rfl
  · rw [commitEdit_drains hstaged (by rw [takenOpen_drainSet]; exact hdrain), State.commitOf, takenOpen_drainSet]
  · rw [commitEdit_completes hstaged (by rw [takenOpen_drainSet]; exact hdrain), State.commitOf, takenOpen_drainSet,
      hdrain]
    refine ⟨(s.startedCommit p tag _).completeCommit, rfl, committed_completeCommit (s := s.startedCommit p tag _) rfl,
      startedCommit_respQ h rfl rfl, fun q _ => startedCommit_events q, fun q hq => ?_, fun q => startedCommit_keeps,
      locks_completeCommit _, device_slots (device_completeCommit _), device_config (device_completeCommit _)⟩
    rw [startedCommit_events, raise_away _ (inContact_of_away hq)]

end Sys2Proof.Machine

/-! # The timers of the edit and of the locks run out (spec/02 R32; spec/04 R74, R78 to R80) -/

namespace Sys2Proof.Machine

open Sys2Proof

section

variable {s : State} {k : Lock} {p : Port} {tag : Option Byte}

/-- With a write of the former holder uncompleted the grant ends in RELEASING (R56, R79). -/
theorem endGrant_unreached (h : watermarkReaches (s.port p).watermark (s.port p).writeSeq = false) :
    s.endGrant k p tag = s.setLock k { s.lock k with
      phase := .releasing { prev := p, watch := (s.port p).writeSeq, tag := tag } } := by
  simp [State.endGrant, h]

/-- With none the lock is handed off in the same event (R98). -/
theorem endGrant_reached (h : watermarkReaches (s.port p).watermark (s.port p).writeSeq = true) :
    s.endGrant k p tag = (s.setLock k { s.lock k with
      phase := .releasing { prev := p, watch := (s.port p).writeSeq, tag := tag } }).handoff k := by
  simp [State.endGrant, h]

end

theorem watermark_raise (s : State) (p q : Port) (it : Item) :
    ((s.raise p it).port q).watermark = (s.port q).watermark := kept_watermark (staysAt_raise q s p it).1.1

theorem writeSeq_raise (s : State) (p q : Port) (it : Item) :
    ((s.raise p it).port q).writeSeq = (s.port q).writeSeq := kept_writeSeq (staysAt_raise q s p it).1.1

/-- The grant of a HELD lock revoked for this reason, its former holder told, before any handoff (R79, R80). -/
def State.revoking (s : State) (k : Lock) (h : Holder) (reason : BreakCause) : State :=
  (s.raise h.port (.revoked k (s.lock k).generation reason)).setLock k { s.lock k with
    cause := (s.lock k).revokedCause reason
    phase := .releasing { prev := h.port, watch := (s.port h.port).writeSeq, tag := none } }

section

variable {s : State} {k : Lock} {h : Holder} {reason : BreakCause}

theorem revoke_held (hk : (s.lock k).phase = .held h) (hr : reason ≠ .departed) :
    s.revoke k reason = ((s.raise h.port (.revoked k (s.lock k).generation reason)).setLock k
      { s.lock k with cause := (s.lock k).revokedCause reason }).endGrant k h.port none := by
  simp only [State.revoke, hk, if_neg hr]
  rfl

theorem revoke_unreached (hk : (s.lock k).phase = .held h) (hr : reason ≠ .departed)
    (hw : watermarkReaches (s.port h.port).watermark (s.port h.port).writeSeq = false) :
    s.revoke k reason = s.revoking k h reason := by
  rw [revoke_held hk hr, endGrant_unreached (by simpa [watermark_raise, writeSeq_raise] using hw), setLock_setLock]
  simp [State.revoking, writeSeq_raise]

theorem revoke_reached (hk : (s.lock k).phase = .held h) (hr : reason ≠ .departed)
    (hw : watermarkReaches (s.port h.port).watermark (s.port h.port).writeSeq = true) :
    s.revoke k reason = (s.revoking k h reason).handoff k := by
  rw [revoke_held hk hr, endGrant_reached (by simpa [watermark_raise, writeSeq_raise] using hw), setLock_setLock]
  simp [State.revoking, writeSeq_raise]

theorem exec_leaseExpiry_running (hk : (s.lock k).phase = .held h) (hlease : h.lease.isSome = true) :
    exec (.leaseExpiry k) s = .next (s.revoke k .expired) := by
  have hruns : (s.lock k).leaseRuns = true := by simpa only [LockRecord.leaseRuns, hk] using hlease
  exact congrArg Host.Outcome.next (if_pos hruns)

theorem exec_yieldDeadlineExpiry_running (hk : (s.lock k).phase = .held h) (hdeadline : h.deadline.isSome = true) :
    exec (.yieldDeadlineExpiry k) s = .next (s.revoke k .yieldTimeout) := by
  have hruns : (s.lock k).deadlineRuns = true := by simpa only [LockRecord.deadlineRuns, hk] using hdeadline
  exact congrArg Host.Outcome.next (if_pos hruns)

/-- A timer of a grant that runs out revokes it, with EXPIRED or YIELD_TIMEOUT (R74, R78). -/
theorem exec_grantTimer {c : Instr} (hk : (s.lock k).phase = .held h)
    (hc : (c = .leaseExpiry k ∧ h.lease.isSome = true ∧ reason = .expired) ∨
      (c = .yieldDeadlineExpiry k ∧ h.deadline.isSome = true ∧ reason = .yieldTimeout)) :
    exec c s = .next (s.revoke k reason) ∧ reason ≠ .departed := by
  rcases hc with ⟨rfl, hlease, rfl⟩ | ⟨rfl, hdeadline, rfl⟩
  · exact ⟨exec_leaseExpiry_running hk hlease, by decide⟩
  · exact ⟨exec_yieldDeadlineExpiry_running hk hdeadline, by decide⟩

end

theorem exec_editIdleExpiry_opened {s : State} {o : OpenEdit} (ho : s.edit = .opened o) :
    exec .editIdleExpiry s = .next (s.discardEdit.raise o.owner .editExpired) := by
  show Host.Outcome.next _ = _
  rw [ho]

/-- Settles O32: the idle timer ends the edit, and the two timers of a grant revoke it. -/
theorem timersRunOut : Obligations.TimersRunOut := by
  refine ⟨fun s o ho => exec_editIdleExpiry_opened ho, fun k h reason c s u hk hc hu => ?_⟩
  obtain ⟨hexec, hreason⟩ := exec_grantTimer hk hc
  have hrevoking : u = s.revoking k h reason := hu
  rw [hexec, hrevoking]
  exact ⟨fun hw => by rw [revoke_unreached hk hreason hw], fun hw => by rw [revoke_reached hk hreason hw]⟩

end Sys2Proof.Machine

/-! # The lock table (spec/03 R48 to R61; spec/04 R70, R71, R75 to R77) -/

namespace Sys2Proof.Machine

open Sys2Proof

/-! ## Commands that leave the lock table alone

The two invariants of the lock table, its legality and the generations, and the claim about leases speak of every
command. `exec_locksUntouched` says once which commands do not act on a lock record. -/

/-- The lock table is as before, and no port has left ONLINE. -/
def LocksUntouched (s t : State) : Prop := t.locks = s.locks ∧ KeepsOnline s t

theorem LocksUntouched.refl (s : State) : LocksUntouched s s := ⟨rfl, KeepsOnline.refl s⟩

theorem LocksUntouched.trans {s t u : State} (a : LocksUntouched s t) (b : LocksUntouched t u) : LocksUntouched s u :=
  ⟨b.1.trans a.1, a.2.trans b.2⟩

theorem locksUntouched_ports {s t : State} (hlocks : t.locks = s.locks) (hports : t.ports = s.ports) :
    LocksUntouched s t := ⟨hlocks, keepsOnline_ports hports⟩

theorem locksUntouched_onPort {s : State} {p : Port} {f : PortState → PortState}
    (h : (f (s.port p)).session = (s.port p).session) : LocksUntouched s (s.onPort p f) :=
  ⟨rfl, keepsOnline_onPort fun e => h.trans e⟩

theorem locksUntouched_respond (s : State) (p : Port) (x : Response) : LocksUntouched s (s.respond p x) :=
  locksUntouched_onPort rfl

theorem LocksUntouched.respond {s t : State} (h : LocksUntouched s t) (p : Port) (x : Response) :
    LocksUntouched s (t.respond p x) := h.trans (locksUntouched_respond t p x)

/-- A change of the edit is none of the lock table. -/
theorem locksUntouched_edit (s : State) (e : Edit) : LocksUntouched s { s with edit := e } :=
  locksUntouched_ports rfl rfl

theorem locksUntouched_tagCheck {s : State} {p : Port} {r : Request} {go : State → State}
    (h : ∀ u : State, LocksUntouched u (go u)) : LocksUntouched s (s.tagCheck p r go) :=
  ⟨locks_tagCheck _ _ _ _ fun u => (h u).1, keepsOnline_tagCheck fun u => (h u).2⟩

theorem locksUntouched_request {s : State} {p : Port} {r : Request} {go : State → State}
    (h : ∀ u : State, LocksUntouched u (go u)) : LocksUntouched s (s.request p r go) := by
  unfold State.request
  split
  · have htaken : LocksUntouched s (s.taken p) := locksUntouched_onPort rfl
    unfold State.sessionCheck
    split
    · exact htaken.trans (locksUntouched_onPort rfl)
    · exact htaken.trans (locksUntouched_onPort rfl)
    · exact htaken.trans (locksUntouched_onPort rfl)
    · exact htaken.trans (locksUntouched_tagCheck h)
  · exact .refl s

theorem locksUntouched_asOwner {s : State} {p : Port} {r : Request} {go : State → OpenEdit → State}
    (h : ∀ o, LocksUntouched s (go s o)) : LocksUntouched s (s.asOwner p r go) := by
  unfold State.asOwner
  split
  · split
    · exact h _
    · exact locksUntouched_respond ..
  · exact locksUntouched_respond ..

theorem locksUntouched_accepting (s : State) (p : Port) (r : Request) : LocksUntouched s (s.accepting p r) :=
  ⟨locks_accepting s p r, keepsOnline_accepting s p r⟩

theorem locksUntouched_takeHello (s : State) (p : Port) (r : Request) (a b : Byte) :
    LocksUntouched s (s.takeHello p r a b) := by
  unfold State.takeHello
  split
  · exact ⟨locks_helloOffline s p r a b, keepsOnline_helloOffline s p r a b⟩
  · exact locksUntouched_tagCheck fun u => locksUntouched_respond u p _
  · exact locksUntouched_onPort rfl
  · exact locksUntouched_onPort rfl

/-! ### The map and its edits -/

theorem locksUntouched_mapRead (s : State) (p : Port) (r : Request) (row : Half) (view : Byte) :
    LocksUntouched s (s.mapRead p r row view) := by
  unfold State.mapRead
  repeat' split
  all_goals exact locksUntouched_respond ..

theorem locksUntouched_mapOpen (s : State) (p : Port) (r : Request) (expected : Option Half) :
    LocksUntouched s (s.mapOpen p r expected) := by
  unfold State.mapOpen
  split
  · split
    · exact locksUntouched_respond ..
    · have hopens : LocksUntouched s (s.openEdit p) := (locksUntouched_edit s _).trans (locksUntouched_onPort rfl)
      exact hopens.respond p _
  · split
    · exact (locksUntouched_edit s _).respond p _
    · exact locksUntouched_respond ..
  · split <;> exact locksUntouched_respond ..

theorem locksUntouched_stageRow (s : State) (p : Port) (r : Request) (raw : RawRow) (o : OpenEdit) :
    LocksUntouched s (s.stageRow p r raw o) := by
  unfold State.stageRow
  repeat' split
  all_goals exact (locksUntouched_edit s _).respond p _

theorem locksUntouched_unstageRow (s : State) (p : Port) (r : Request) (row : Half) (o : OpenEdit) :
    LocksUntouched s (s.unstageRow p r row o) := by
  unfold State.unstageRow
  split <;> exact (locksUntouched_edit s _).respond p _

theorem locksUntouched_completeCommit (s : State) : LocksUntouched s s.completeCommit :=
  ⟨locks_completeCommit s, keepsOnline_completeCommit s⟩

theorem locksUntouched_commitEdit (s : State) (p : Port) (r : Request) (o : OpenEdit) :
    LocksUntouched s (s.commitEdit p r o) := by
  unfold State.commitEdit State.startCommit
  dsimp only
  split
  · exact (locksUntouched_edit s _).respond p _
  · split
    · exact (locksUntouched_edit s _).trans (locksUntouched_completeCommit _)
    · exact locksUntouched_edit s _

/-! ### Notifications, faults and the configuration -/

theorem locksUntouched_reserve (s : State) (p : Port) (tag : Byte) (target : Port) (code : Word) :
    LocksUntouched s (s.reserve p tag target code) := by
  unfold State.reserve
  dsimp only
  split
  · exact ⟨locks_fireNote s p _, keepsOnline_fireNote s p _⟩
  · exact locksUntouched_onPort rfl

theorem locksUntouched_notify (s : State) (p : Port) (r : Request) (target : Byte) (code : Word) :
    LocksUntouched s (s.notify p r target code) := by
  unfold State.notify
  dsimp only
  repeat' split
  · exact locksUntouched_respond ..
  · exact locksUntouched_respond ..
  · exact locksUntouched_respond ..
  · exact locksUntouched_reserve ..
  · exact locksUntouched_respond ..

theorem locksUntouched_acknowledge (s : State) (p : Port) (r : Request) (seq : Half) :
    LocksUntouched s (s.acknowledge p r seq) := by
  unfold State.acknowledge
  split
  · exact locksUntouched_respond ..
  · split
    · exact locksUntouched_respond ..
    · exact LocksUntouched.respond (locksUntouched_onPort rfl) p _

theorem session_takeFault (P : PortState) : P.takeFault.session = P.session := by
  unfold PortState.takeFault
  dsimp only
  split <;> rfl

theorem locksUntouched_faultTake (s : State) (p : Port) (r : Request) : LocksUntouched s (s.faultTake p r) := by
  unfold State.faultTake
  split <;> exact LocksUntouched.respond (locksUntouched_onPort (session_takeFault _)) p _

theorem locksUntouched_configRead (s : State) (p : Port) (r : Request) (item index : Byte) :
    LocksUntouched s (s.configRead p r item index) := by
  unfold State.configRead
  split <;> exact locksUntouched_respond ..

theorem session_setSubRev (v : Bool) (P : PortState) : (P.setSubRev v).session = P.session := by
  unfold PortState.setSubRev; split <;> rfl

theorem session_setSubFault (v : Bool) (P : PortState) : (P.setSubFault v).session = P.session := by
  unfold PortState.setSubFault
  dsimp only
  split
  · exact session_raise ..
  · split <;> rfl

theorem session_subscribe (v : Word) (P : PortState) : (P.subscribe v).session = P.session :=
  (session_setSubFault _ _).trans (session_setSubRev _ _)

theorem locksUntouched_writeSubscribe (s : State) (p : Port) (r : Request) (index : Byte) (v : Word) :
    LocksUntouched s (s.writeSubscribe p r index v) := by
  unfold State.writeSubscribe
  split
  · exact locksUntouched_respond ..
  · split
    · exact LocksUntouched.respond (locksUntouched_onPort (session_subscribe v _)) p _
    · exact locksUntouched_respond ..

theorem locksUntouched_writeGlobal (s : State) (p : Port) (r : Request) (item index : Byte) (v : Word) :
    LocksUntouched s (s.writeGlobal p r item index v) := by
  unfold State.writeGlobal
  split
  · exact locksUntouched_respond ..
  · split
    next c _ =>
      have hconfig : LocksUntouched s { s with config := c } := locksUntouched_ports rfl rfl
      exact hconfig.respond p _
    · exact locksUntouched_respond ..

theorem locksUntouched_configWrite (s : State) (p : Port) (r : Request) (item index : Byte) (v : Word) :
    LocksUntouched s (s.configWrite p r item index v) := by
  unfold State.configWrite
  split
  · exact locksUntouched_writeSubscribe ..
  · split
    · exact locksUntouched_writeGlobal ..
    · exact locksUntouched_respond ..

/-! ### Links and the slot arbiter -/

theorem session_receive (f : Frame) (P : PortState) : (P.receive f).session = P.session := by
  unfold PortState.receive
  split
  · exact session_record ..
  · rfl
  · exact session_record ..
  · rfl

/-- The sending of the OK to LEAVE makes a LEAVING port OFFLINE, never one that is ONLINE (R157). -/
theorem session_sendResponse {P : PortState} (h : P.session = .online) : P.sendResponse.session = .online := by
  unfold PortState.sendResponse
  split
  · rw [if_neg (by simp [h])]
    exact h
  · exact h

theorem session_sendNotice (P : PortState) : P.sendNotice.session = P.session := by
  unfold PortState.sendNotice
  split
  · dsimp only
    split
    · exact session_raise ..
    · rfl
  · rfl

theorem session_sendItem (P : PortState) : P.sendItem.session = P.session := by
  unfold PortState.sendItem
  split
  · exact session_sendNotice _
  · rfl
  · rfl

theorem session_onPiece (P : PortState) (ref : ReqRef) (n : Nat) (f : Piece → Piece) :
    (P.onPiece ref n f).session = P.session := by
  unfold PortState.onPiece; split <;> rfl

theorem locksUntouched_issue (s : State) (n : SlotNo) (j : Job) : LocksUntouched s (s.issue n j) :=
  locksUntouched_ports rfl rfl

theorem locksUntouched_arbiterRun (s : State) : LocksUntouched s s.arbiterRun := by
  unfold State.arbiterRun
  split
  · split
    · split
      next n p _ _ _ ref k _ _ x _ =>
        have hpiece : LocksUntouched (s.issue n (s.firstJob p ref k x))
            ((s.issue n (s.firstJob p ref k x)).onPort p fun P =>
              P.onPiece ref k fun y => { y with cond := .inFlight }) :=
          locksUntouched_onPort (session_onPiece ..)
        exact ((locksUntouched_issue s n _).trans hpiece).trans (locksUntouched_ports rfl rfl)
      · exact .refl s
    · exact .refl s
  · exact .refl s

/-! ### Every command -/

/-- The commands that may act on a lock record: the lock requests, departures and device resets, the two timers of a
grant, and the ends of a piece. -/
def Instr.actsOnLocks : Instr → Bool
  | .leave .. | .lockAcquire .. | .lockRelease .. | .lockRenew .. | .lockCancel .. | .lockQuery .. | .linkDown ..
  | .deviceReset | .supplyOrRefclkLoss | .leaseExpiry .. | .yieldDeadlineExpiry .. | .accessTimerExpiry ..
  | .replyDone .. | .replyError .. | .replyRetry .. => true
  | _ => false

/-- Every other command leaves the lock table alone and takes no port out of ONLINE. -/
theorem exec_locksUntouched {c : Instr} {s t : State} (hc : Instr.actsOnLocks c = false) (h : exec c s = .next t) :
    LocksUntouched s t := by
  cases c with
  | leave | lockAcquire | lockRelease | lockRenew | lockCancel | lockQuery | linkDown | deviceReset | supplyOrRefclkLoss
  | leaseExpiry | yieldDeadlineExpiry | accessTimerExpiry | replyDone | replyError | replyRetry => cases hc
  | hello p tag a b =>
    cases h
    split
    · exact LocksUntouched.trans (locksUntouched_onPort rfl) (locksUntouched_takeHello ..)
    · exact .refl s
  | read p tag addr len => cases h; exact locksUntouched_request fun u => locksUntouched_accepting u p _
  | write p tag addr len data => cases h; exact locksUntouched_request fun u => locksUntouched_accepting u p _
  | mapRead p tag row view => cases h; exact locksUntouched_request fun u => locksUntouched_mapRead u p _ row view
  | mapOpen p tag expected => cases h; exact locksUntouched_request fun u => locksUntouched_mapOpen u p _ expected
  | mapStage p tag raw =>
    cases h; exact locksUntouched_request fun u => locksUntouched_asOwner fun o => locksUntouched_stageRow u p _ raw o
  | mapUnstage p tag row =>
    cases h; exact locksUntouched_request fun u => locksUntouched_asOwner fun o => locksUntouched_unstageRow u p _ row o
  | mapAbort p tag =>
    cases h
    exact locksUntouched_request fun u => locksUntouched_asOwner fun _ => (locksUntouched_edit u _).respond p _
  | mapCommit p tag =>
    cases h; exact locksUntouched_request fun u => locksUntouched_asOwner fun o => locksUntouched_commitEdit u p _ o
  | notify p tag target code => cases h; exact locksUntouched_request fun u => locksUntouched_notify u p _ target code
  | noticeAck p tag seq => cases h; exact locksUntouched_request fun u => locksUntouched_acknowledge u p _ seq
  | faultTake p tag => cases h; exact locksUntouched_request fun u => locksUntouched_faultTake u p _
  | configRead p tag item index =>
    cases h; exact locksUntouched_request fun u => locksUntouched_configRead u p _ item index
  | configWrite p tag item index v =>
    cases h; exact locksUntouched_request fun u => locksUntouched_configWrite u p _ item index v
  | configWriteSubscribe p tag index v =>
    cases h; exact locksUntouched_request fun u => locksUntouched_writeSubscribe u p _ index v
  | configWriteSlotQuota p tag index v =>
    cases h; exact locksUntouched_request fun u => locksUntouched_writeGlobal u p _ 7#8 index v
  | frameReceipt p bytes =>
    cases h
    split
    · split
      · exact locksUntouched_onPort (session_receive _ _)
      · exact .refl s
    · exact .refl s
  | linkUp p => cases h; exact locksUntouched_onPort rfl
  | resetRelease => cases h; exact locksUntouched_ports rfl rfl
  | editIdleExpiry =>
    cases h
    split
    · exact (locksUntouched_edit s _).trans (locksUntouched_onPort (session_raise ..))
    · exact .refl s
  | slotArbiterRun =>
    cases h
    split
    · exact locksUntouched_arbiterRun s
    · exact .refl s
  | sendResponse p =>
    cases h
    split
    · exact ⟨rfl, keepsOnline_onPort session_sendResponse⟩
    · exact .refl s
  | sendEvent p =>
    cases h
    split
    · exact locksUntouched_onPort (session_sendItem _)
    · exact .refl s

/-! ## The operations of the lock requests -/

section

variable {s : State} {k : Lock} {p : Port} {h : Holder}

theorem holds_held (hk : (s.lock k).phase = .held h) : s.holds p k = true ↔ h.port = p := by
  rw [holds_iff, hk]
  simp

theorem port_ne_of_not_holds (hno : s.holds p k = false) (hk : (s.lock k).phase = .held h) : h.port ≠ p := fun e => by
  rw [(holds_held hk).mpr e] at hno; cases hno

end

/-- Writing a lock's record as it stands changes nothing. -/
theorem setLock_lock (s : State) (k : Lock) : s.setLock k (s.lock k) = s := by
  simp only [State.setLock, State.lock, vector_set_get]

theorem not_any_port {l : List WaitEntry} {p : Port} :
    l.any (fun e => e.port == p) = false ↔ ∀ e ∈ l, e.port ≠ p := by simp

/-- The record with the wait entry of a LOCK_ACQUIRE appended (R52). -/
def LockRecord.waitedFor (l : LockRecord) (p : Port) (owner : Half) (yield : Bool) (lease : Option Half) : LockRecord :=
  { l with queue := l.queue ++ [{ port := p, owner := owner, yield := yield, lease := lease.map BitVec.toNat }] }

theorem enqueue_eq (s : State) (p : Port) (r : Request) (k : Lock) (owner : Half) (yield : Bool) (lease : Option Half) :
    s.enqueue p r k owner yield lease = ((s.setLock k ((s.lock k).waitedFor p owner yield lease)).askYield k).respond p
      (r.response .queued (.queuedAt ((s.lock k).queue.length + 1))) := rfl

/-- What LOCK_ACQUIRE can do to the lock table: nothing, a grant of a FREE lock, or a wait entry for a port that neither
holds the lock nor waits for it (R50 to R52). -/
theorem acquire_cases (s : State) (p : Port) (r : Request) (wait yield : Bool) (owner : Half) (lease : Option Half)
    (k : Lock) :
    (∃ x, s.acquire p r wait yield owner lease k = s.respond p x) ∨
    ((s.lock k).phase = .free ∧ s.acquire p r wait yield owner lease k = s.grantAtOnce p r k owner yield lease) ∨
    ((s.lock k).phase ≠ .free ∧ s.holds p k = false ∧ (∀ e ∈ (s.lock k).queue, e.port ≠ p) ∧
      s.acquire p r wait yield owner lease k = s.enqueue p r k owner yield lease) := by
  unfold State.acquire
  split
  · exact .inl ⟨_, rfl⟩
  · split
    · exact .inl ⟨_, rfl⟩
    next hholds =>
      split
      · exact .inl ⟨_, rfl⟩
      next hwaits =>
        split
        next hfree => exact .inr (.inl ⟨hfree, rfl⟩)
        next hfree =>
          split
          · exact .inr (.inr ⟨hfree, by simpa using hholds, not_any_port.mp (by simpa using hwaits), rfl⟩)
          · exact .inl ⟨_, rfl⟩

/-! ## Every step keeps every lock legal (R48, R63, R66, R67, R71, R77) -/

section

variable {on : Port → Prop} {l : LockRecord} {p : Port}

/-- The record of a lock granted at once is legal (R51). -/
theorem legalFor_granted (hon : on p) (owner : Half) (yield : Bool) (lease : Option Nat) :
    LockRecord.legalFor on (l.granted p owner yield lease []) :=
  ⟨List.nodup_nil, by simp [LockRecord.granted], hon, by simp [LockRecord.granted], rfl,
    by simp [LockRecord.granted], lease_started lease⟩

/-- A new entry of a port that is ONLINE, does not hold the lock and does not wait for it (R52). -/
theorem legalFor_waitedFor (hl : LockRecord.legalFor on l) (hon : on p) (hnew : ∀ e ∈ l.queue, e.port ≠ p)
    (hfree : l.phase ≠ .free) (hheld : ∀ h, l.phase = .held h → h.port ≠ p) (owner : Half) (yield : Bool)
    (lease : Option Half) : LockRecord.legalFor on (l.waitedFor p owner yield lease) := by
  obtain ⟨hnodup, hwait, hphase⟩ := hl
  refine ⟨?_, ?_, ?_⟩
  · simp only [LockRecord.waitedFor, List.map_append, List.map_cons, List.map_nil]
    refine hnodup.append (List.nodup_singleton p) ?_
    simpa using hnew
  · intro e he
    rcases List.mem_append.mp he with he | he
    · exact hwait e he
    · rw [List.mem_singleton.mp he]; exact hon
  · simp only [LockRecord.waitedFor]
    cases hp : l.phase with
    | free => exact absurd hp hfree
    | releasing r => trivial
    | held h =>
      rw [hp] at hphase
      obtain ⟨hholder, hother, hcause, -, hlease⟩ := hphase
      refine ⟨hholder, fun e he => ?_, hcause, by simp, hlease⟩
      rcases List.mem_append.mp he with he | he
      · exact hother e he
      · rw [List.mem_singleton.mp he]; exact (hheld h hp).symm

/-- A holder's lease may be replaced by one with no more than its duration left (R71, R73). -/
theorem legalFor_lease {h : Holder} {lease : Option Lease} (hl : LockRecord.legalFor on l) (hp : l.phase = .held h)
    (hlease : ∀ x, lease = some x → x.remaining ≤ x.duration) :
    LockRecord.legalFor on { l with phase := .held { h with lease := lease } } := by
  obtain ⟨hnodup, hwait, hphase⟩ := hl
  rw [hp] at hphase
  obtain ⟨hholder, hother, hcause, hdeadline, -⟩ := hphase
  exact ⟨hnodup, hwait, hholder, hother, hcause, hdeadline, hlease⟩

/-- A lease restarts with all of its duration (R73). -/
theorem renewedLease_full (running : Option Lease) (given : Option Half) (x : Lease)
    (h : renewedLease running given = some x) : x.remaining ≤ x.duration := by
  unfold renewedLease at h
  split at h
  · cases h; exact le_rfl
  · obtain ⟨y, -, rfl⟩ := Option.map_eq_some_iff.mp h
    exact le_rfl

theorem remaining_fall_le (n : Nat) (x : Lease) : (x.fall n).remaining ≤ x.remaining :=
  Nat.le_of_lt_succ (Nat.mod_lt _ (Nat.succ_pos _))

theorem fall_held {h : Holder} (hp : l.phase = .held h) (n : Nat) :
    l.fall n = { l with phase := .held { h with lease := h.lease.map (Lease.fall n) } } := by
  unfold LockRecord.fall; rw [hp]

theorem fall_not_held (hp : ∀ h, l.phase ≠ .held h) (n : Nat) : l.fall n = l := by
  unfold LockRecord.fall
  split
  next h hh => exact absurd hh (hp h)
  · rfl

/-- A reading keeps of a record what is no lease. -/
theorem fall_keeps (l : LockRecord) (n : Nat) : (l.fall n).generation = l.generation ∧
    (l.fall n).faultSeen = l.faultSeen ∧ (l.fall n).cause = l.cause ∧ (l.fall n).queue = l.queue := by
  unfold LockRecord.fall; split <;> exact ⟨rfl, rfl, rfl, rfl⟩

/-- A reading leaves no more of a lease than there was (R71; log 5). -/
theorem legalFor_fall (hl : LockRecord.legalFor on l) (n : Nat) : LockRecord.legalFor on (l.fall n) := by
  by_cases hheld : ∃ h, l.phase = .held h
  · obtain ⟨h, hp⟩ := hheld
    rw [fall_held hp]
    refine legalFor_lease hl hp fun x hx => ?_
    obtain ⟨y, hy, rfl⟩ := Option.map_eq_some_iff.mp hx
    obtain ⟨-, -, hphase⟩ := hl
    rw [hp] at hphase
    obtain ⟨-, -, -, -, hlease⟩ := hphase
    exact (remaining_fall_le n y).trans (hlease y hy)
  · rw [fall_not_held fun h hp => hheld ⟨h, hp⟩]; exact hl

end

section

variable {s : State} {p : Port} {r : Request} {k : Lock}

theorem locksLegal_askYield (g : LocksLegal s) : LocksLegal (s.askYield k) :=
  locksLegal_step (fun _ => locksLegalFor_askYield) (keepsOnline_askYield s k) g

theorem locksLegal_endGrant {tag : Option Byte} (g : LocksLegal s) : LocksLegal (s.endGrant k p tag) :=
  locksLegal_step (fun _ => locksLegalFor_endGrant') (keepsOnline_endGrant s k p tag) g

theorem locksLegal_revoke {reason : BreakCause} (g : LocksLegal s) : LocksLegal (s.revoke k reason) :=
  locksLegal_step (fun _ => locksLegalFor_revoke) (keepsOnline_revoke s k reason) g

theorem locksLegal_acquire (g : LocksLegal s) (hon : (s.port p).session = .online) (wait yield : Bool) (owner : Half)
    (lease : Option Half) : LocksLegal (s.acquire p r wait yield owner lease k) := by
  rcases acquire_cases s p r wait yield owner lease k with ⟨x, e⟩ | ⟨-, e⟩ | ⟨hfree, hholds, hnew, e⟩
  · rw [e]; exact locksLegal_respond g
  · rw [e]; exact locksLegal_respond (locksLegal_setLock g (legalFor_granted hon ..))
  · have hentry := legalFor_waitedFor (locksLegal_rec g k) hon hnew hfree (fun _ => port_ne_of_not_holds hholds) owner
      yield lease
    rw [e, enqueue_eq]
    exact locksLegal_respond (locksLegal_askYield (locksLegal_setLock g hentry))

theorem locksLegal_renew {h : Holder} (g : LocksLegal s) (hk : (s.lock k).phase = .held h) (lease : Option Half) :
    LocksLegal (s.renew p r lease k h) := by
  unfold State.renew
  split
  · exact locksLegal_respond (locksLegal_setLock g (legalFor_lease (locksLegal_rec g k) hk (renewedLease_full _ lease)))
  · exact locksLegal_respond g

theorem locksLegal_cancel (g : LocksLegal s) : LocksLegal (s.cancel p r k) := by
  unfold State.cancel
  split
  · exact locksLegal_respond (locksLegal_setLock g (legalFor_removeWaiter p (locksLegal_rec g k)))
  · exact locksLegal_respond g

theorem locksLegal_query (g : LocksLegal s) : LocksLegal (s.query p r k) :=
  locksLegal_respond (locksLegal_fresh (locksLegal_setLock g (legalFor_fall (locksLegal_rec g k) _)))

theorem locksLegal_linkFalls (g : LocksLegal s) : LocksLegal (s.linkFalls p) := by
  unfold State.linkFalls
  split
  · exact g
  · split
    · exact locksLegal_keep g rfl
    · split
      · exact locksLegal_linkLossEvent g
      · exact locksLegal_keep g rfl

theorem locksLegal_takeDone {n : SlotNo} {j : Job} {data : List Byte} (g : LocksLegal s) :
    LocksLegal (s.takeDone n j data) := by
  unfold State.takeDone; split <;> exact locksLegal_endJob g

theorem locksLegal_takeRetry {n : SlotNo} {j : Job} {data : List Byte} (g : LocksLegal s) :
    LocksLegal (s.takeRetry n j data) := by
  unfold State.takeRetry
  split
  · exact locksLegal_endJob g
  · split
    · obtain ⟨hlocks, honline⟩ := locksUntouched_issue s n { j with retries := j.retries + 1 }
      exact locksLegal_locks hlocks honline g
    · exact locksLegal_endJob g

theorem locksLegal_takeTimeout {n : SlotNo} (g : LocksLegal s) : LocksLegal (s.takeTimeout n) := by
  unfold State.takeTimeout
  split
  · exact locksLegal_endJob (locksLegal_ports_locks (s := s) rfl rfl g)
  · exact g

end

/-- Every command keeps every lock legal: one that does not act on the locks by leaving the table and the ONLINE
ports, the others each by what they do to the records. -/
theorem exec_keeps_locksLegal {c : Instr} {s t : State} (g : LocksLegal s) (h : exec c s = .next t) : LocksLegal t := by
  by_cases hc : Instr.actsOnLocks c = false
  · obtain ⟨hlocks, honline⟩ := exec_locksUntouched hc h
    exact locksLegal_locks hlocks honline g
  cases c with
  | leave p tag => cases h; exact locksLegal_request g fun _ gu _ => locksLegal_leaveEvent gu
  | lockAcquire p tag lock wait yield owner lease =>
    cases h
    exact locksLegal_request g fun _ gu hon => locksLegal_withLock gu fun _ =>
      locksLegal_acquire gu hon wait yield owner lease
  | lockRelease p tag lock gen =>
    cases h
    exact locksLegal_request g fun _ gu _ => locksLegal_withLock gu fun _ => locksLegal_asHolder gu fun _ _ =>
      locksLegal_endGrant gu
  | lockRenew p tag lock gen lease =>
    cases h
    exact locksLegal_request g fun _ gu _ => locksLegal_withLock gu fun _ => locksLegal_asHolder gu fun _ hk =>
      locksLegal_renew gu hk lease
  | lockCancel p tag lock =>
    cases h; exact locksLegal_request g fun _ gu _ => locksLegal_withLock gu fun _ => locksLegal_cancel gu
  | lockQuery p tag lock =>
    cases h; exact locksLegal_request g fun _ gu _ => locksLegal_withLock gu fun _ => locksLegal_query gu
  | linkDown p => cases h; exact locksLegal_linkFalls g
  | deviceReset => cases h; exact locksLegal_reset (s := s) _ rfl
  | supplyOrRefclkLoss => cases h; exact locksLegal_reset (s := s) _ rfl
  | leaseExpiry k =>
    cases h
    split
    · exact locksLegal_revoke g
    · exact g
  | yieldDeadlineExpiry k =>
    cases h
    split
    · exact locksLegal_revoke g
    · exact g
  | accessTimerExpiry n => cases h; exact locksLegal_takeTimeout g
  | replyDone slot issue data =>
    cases h
    split
    · exact locksLegal_takeDone g
    · exact g
  | replyError slot issue data =>
    cases h
    split
    · exact locksLegal_endJob g
    · exact g
  | replyRetry slot issue data =>
    cases h
    split
    · exact locksLegal_takeRetry g
    · exact g
  | _ => exact absurd rfl hc

/-- Settles O58: by what each command does to the records, and to the ports that may stand in them. -/
theorem stepKeepsLocksLegal : Obligations.StepKeepsLocksLegal := by
  intro s t g h
  unfold step at h
  split at h
  · cases h; exact g
  next c rest _ =>
    have gtaken : LocksLegal { s with pending := rest } := g
    exact exec_keeps_locksLegal gtaken h

/-! ## What a command does to the grant of a lock (R54, R71) -/

/-- What a command other than a device reset does to the record of a lock: no more than one grant, and the lease of a
grant that goes on as it was; a LOCK_RENEW puts another lease in its place, and a LOCK_QUERY reads it. -/
inductive GrantEffect (c : Instr) (l l' : LockRecord) : Prop where
  | plain (h : GrantedAtMostOnce l l')
  | renewed (h : Holder) (lease : Option Lease) (hc : ∃ p tag lock gen given, c = .lockRenew p tag lock gen given)
      (hl : l.phase = .held h) (hl' : l' = { l with phase := .held { h with lease := lease } })
  | read (n : Nat) (hc : ∃ p tag lock, c = .lockQuery p tag lock) (hl' : l' = l.fall n)

section

variable {c : Instr} {l l' : LockRecord} {s : State} {p : Port} {r : Request} {k : Lock}

theorem GrantEffect.refl (c : Instr) (l : LockRecord) : GrantEffect c l l := .plain (.refl l)

theorem GrantEffect.generation (h : GrantEffect c l l') :
    l'.generation = l.generation ∨ (l'.generation = l.generation + 1 ∧ ∃ h, l'.phase = .held h) := by
  cases h with
  | plain h =>
    rcases h with ⟨hgen, -⟩ | hgrant
    · exact .inl hgen
    · exact .inr hgrant
  | renewed h lease hc hl hl' => exact .inl (by rw [hl'])
  | read n hc hl' =>
    obtain ⟨hgen, -⟩ := fall_keeps l n
    exact .inl (by rw [hl', hgen])

theorem grantEffect_request {go : State → State} (h : ∀ u : State, GrantEffect c (u.lock k) ((go u).lock k)) :
    GrantEffect c (s.lock k) ((s.request p r go).lock k) := by
  rcases lock_request_cases s p r go k with e | ⟨u, hu, e⟩
  · rw [e]; exact .refl c _
  · rw [e, ← hu k]; exact h u

theorem grantEffect_withLock {lock : Byte} {go : State → Lock → State}
    (h : ∀ j, GrantEffect c (s.lock k) ((go s j).lock k)) :
    GrantEffect c (s.lock k) ((s.withLock p r lock go).lock k) := by
  unfold State.withLock
  split
  · exact h _
  · exact .refl c _

theorem grantEffect_asHolder {gen : Half} {j : Lock} {go : State → Holder → State}
    (h : ∀ x, (s.lock j).phase = .held x → GrantEffect c (s.lock k) ((go s x).lock k)) :
    GrantEffect c (s.lock k) ((s.asHolder p r gen j go).lock k) := by
  unfold State.asHolder
  split
  next x hx =>
    split
    · split
      · exact h x hx
      · exact .refl c _
    · exact .refl c _
  · exact .refl c _

theorem grantEffect_renew {j : Lock} {h : Holder} {lease : Option Half}
    (hc : ∃ p tag lock gen given, c = .lockRenew p tag lock gen given) (hj : (s.lock j).phase = .held h) :
    GrantEffect c (s.lock k) ((s.renew p r lease j h).lock k) := by
  unfold State.renew
  split
  · rw [State.lock_respond, State.lock_setLock]
    split
    next e => subst e; exact .renewed h _ hc hj rfl
    · exact .refl c _
  · exact .refl c _

theorem lock_query (s : State) (p : Port) (r : Request) (j k : Lock) :
    (s.query p r j).lock k = if k = j then (s.lock j).fall s.fresh else s.lock k :=
  State.lock_setLock s j k _

theorem grantEffect_query {j : Lock} (hc : ∃ p tag lock, c = .lockQuery p tag lock) :
    GrantEffect c (s.lock k) ((s.query p r j).lock k) := by
  rw [lock_query]
  split
  next e => subst e; exact .read s.fresh hc rfl
  · exact .refl c _

theorem grantedAtMostOnce_askYield_any (s : State) (j k : Lock) :
    GrantedAtMostOnce (s.lock k) ((s.askYield j).lock k) := by
  by_cases e : k = j
  · subst e; exact (grantedAtMostOnce_askYield s k).1
  · rw [lock_askYield_ne _ _ _ e]; exact .refl _

theorem sameGrant_setLock {j : Lock} (h : SameGrant (s.lock j) l) (k : Lock) :
    SameGrant (s.lock k) ((s.setLock j l).lock k) := by
  rw [State.lock_setLock]
  split
  next e => subst e; exact h
  · exact .refl _

theorem grantedAtMostOnce_acquire (s : State) (p : Port) (r : Request) (wait yield : Bool) (owner : Half)
    (lease : Option Half) (j k : Lock) :
    GrantedAtMostOnce (s.lock k) ((s.acquire p r wait yield owner lease j).lock k) := by
  rcases acquire_cases s p r wait yield owner lease j with ⟨x, e⟩ | ⟨-, e⟩ | ⟨-, -, -, e⟩
  · rw [e]; exact .refl _
  · rw [e]; exact grantedAtMostOnce_setLock s j k _ (.inr ⟨rfl, _, rfl⟩)
  · have hentry : SameGrant (s.lock j) ((s.lock j).waitedFor p owner yield lease) := sameGrant_of rfl rfl
    rw [e, enqueue_eq]
    exact (grantedAtMostOnce_askYield_any _ j k).after (sameGrant_setLock hentry k)

theorem grantedAtMostOnce_cancel (s : State) (p : Port) (r : Request) (j k : Lock) :
    GrantedAtMostOnce (s.lock k) ((s.cancel p r j).lock k) := by
  unfold State.cancel
  split
  · exact grantedAtMostOnce_setLock s j k _ (.inl (sameGrant_removeWaiter _ p).1)
  · exact .refl _

theorem grantedAtMostOnce_linkFalls (s : State) (p : Port) (k : Lock) :
    GrantedAtMostOnce (s.lock k) ((s.linkFalls p).lock k) := by
  unfold State.linkFalls
  split
  · exact .refl _
  · split
    · exact .refl _
    · split
      · exact grantedAtMostOnce_linkLossEvent s p k
      · exact .refl _

theorem grantedAtMostOnce_takeDone (s : State) (n : SlotNo) (j : Job) (data : List Byte) (k : Lock) :
    GrantedAtMostOnce (s.lock k) ((s.takeDone n j data).lock k) := by
  unfold State.takeDone; split <;> exact grantedAtMostOnce_endJob ..

theorem grantedAtMostOnce_takeRetry (s : State) (n : SlotNo) (j : Job) (data : List Byte) (k : Lock) :
    GrantedAtMostOnce (s.lock k) ((s.takeRetry n j data).lock k) := by
  unfold State.takeRetry
  split
  · exact grantedAtMostOnce_endJob ..
  · split
    · exact .refl _
    · exact grantedAtMostOnce_endJob ..

theorem grantedAtMostOnce_takeTimeout (s : State) (n : SlotNo) (k : Lock) :
    GrantedAtMostOnce (s.lock k) ((s.takeTimeout n).lock k) := by
  unfold State.takeTimeout
  split
  next j _ =>
    exact grantedAtMostOnce_endJob { s with busAbort := some { slot := n, issueNo := (s.slot n).issueNo } } n j _ k
  · exact .refl _

end

/-- The inversion of every command at one lock, device resets apart. -/
theorem exec_grantEffect {c : Instr} {s t : State} (hreset : c ≠ .deviceReset) (hsupply : c ≠ .supplyOrRefclkLoss)
    (h : exec c s = .next t) (k : Lock) : GrantEffect c (s.lock k) (t.lock k) := by
  by_cases hc : Instr.actsOnLocks c = false
  · obtain ⟨hlocks, -⟩ := exec_locksUntouched hc h
    rw [lock_of_locks hlocks]; exact .refl c _
  cases c with
  | leave p tag => cases h; exact grantEffect_request fun u => .plain (grantedAtMostOnce_leaveEvent u p tag k)
  | lockAcquire p tag lock wait yield owner lease =>
    cases h
    exact grantEffect_request fun u => grantEffect_withLock fun j =>
      .plain (grantedAtMostOnce_acquire u p _ wait yield owner lease j k)
  | lockRelease p tag lock gen =>
    cases h
    exact grantEffect_request fun u => grantEffect_withLock fun j => grantEffect_asHolder fun _ _ =>
      .plain (grantedAtMostOnce_endGrant_any u j p _ k)
  | lockRenew p tag lock gen lease =>
    cases h
    exact grantEffect_request fun u => grantEffect_withLock fun j => grantEffect_asHolder fun _ hj =>
      grantEffect_renew ⟨p, tag, lock, gen, lease, rfl⟩ hj
  | lockCancel p tag lock =>
    cases h
    exact grantEffect_request fun u => grantEffect_withLock fun j => .plain (grantedAtMostOnce_cancel u p _ j k)
  | lockQuery p tag lock =>
    cases h
    exact grantEffect_request fun u => grantEffect_withLock fun j => grantEffect_query ⟨p, tag, lock, rfl⟩
  | linkDown p => cases h; exact .plain (grantedAtMostOnce_linkFalls s p k)
  | deviceReset => exact absurd rfl hreset
  | supplyOrRefclkLoss => exact absurd rfl hsupply
  | leaseExpiry j =>
    cases h
    split
    · exact .plain (grantedAtMostOnce_revoke_any s j _ k)
    · exact .refl _ _
  | yieldDeadlineExpiry j =>
    cases h
    split
    · exact .plain (grantedAtMostOnce_revoke_any s j _ k)
    · exact .refl _ _
  | accessTimerExpiry n => cases h; exact .plain (grantedAtMostOnce_takeTimeout s n k)
  | replyDone slot issue data =>
    cases h
    split
    · exact .plain (grantedAtMostOnce_takeDone s _ _ data k)
    · exact .refl _ _
  | replyError slot issue data =>
    cases h
    split
    · exact .plain (grantedAtMostOnce_endJob s _ _ _ k)
    · exact .refl _ _
  | replyRetry slot issue data =>
    cases h
    split
    · exact .plain (grantedAtMostOnce_takeRetry s _ _ data k)
    · exact .refl _ _
  | _ => exact absurd rfl hc

/-- Settles O33: no command but a device reset grants a lock more than once, and only a grant counts. -/
theorem generationCountsGrants : Obligations.GenerationCountsGrants := fun _ _ _ k hreset hsupply h =>
  (exec_grantEffect hreset hsupply h k).generation

/-! ## The lock requests once ready (R49)

Each goes through `request_withLock_above` or `request_withLock_lock`, and then by one equation of its own operation for
each case. -/

section

variable {s : State} {p : Port} {r : Request} {lock : Byte} {k : Lock} {go : State → Lock → State}

/-- A lock number above 31 (R49, check 3). -/
theorem request_withLock_above (h : s.ready p r = true) (hlock : 32 ≤ lock.toNat) :
    s.request p r (fun t => t.withLock p r lock go) = s.answeredNow p (r.response .badArg .empty) := by
  rw [request_ready _ h, withLock_above hlock]
  exact takenOpen_respond _ h rfl

theorem request_withLock_lock (h : s.ready p r = true) (hk : k.val = lock.toNat) :
    s.request p r (fun t => t.withLock p r lock go) = go (s.takenOpen p r.tag) k := by
  rw [request_ready _ h]
  exact withLock_lock k hk

/-- A lock record is written and the request that was just taken answered. -/
theorem takenOpen_setLock_respond (l : LockRecord) (x : Response) (h : s.ready p r = true) (hx : x.tag = r.tag) :
    ((s.takenOpen p r.tag).setLock k l).respond p x = (s.answeredNow p x).setLock k l := by
  rw [setLock_respond, takenOpen_respond x h hx]

end

/-! ### Updates of two ports -/

theorem respond_raise (P : PortState) (it : Item) (x : Response) : (P.raise it).respond x = (P.respond x).raise it := by
  have hcontact : (P.respond x).inContact = P.inContact := rfl
  have hwanted : it.wanted (P.respond x) = it.wanted P := by cases it <;> rfl
  unfold PortState.raise
  rw [hcontact, hwanted]
  split <;> rfl

theorem setPort_comm (s : State) {p q : Port} (P Q : PortState) (h : p ≠ q) :
    (s.setPort p P).setPort q Q = (s.setPort q Q).setPort p P := by
  have hval : p.val ≠ q.val := fun e => h (Fin.ext e)
  simp only [State.setPort]
  rw [Vector.set_comm _ _ hval]

theorem onPort_comm (s : State) {p q : Port} (f g : PortState → PortState) (h : p ≠ q) :
    (s.onPort p f).onPort q g = (s.onPort q g).onPort p f := by
  unfold State.onPort
  rw [State.port_setPort_ne _ _ h.symm, State.port_setPort_ne _ _ h]
  exact setPort_comm s _ _ h

/-- An item raised and a response queued in one event: neither minds the other. -/
theorem raise_respond (s : State) (p q : Port) (it : Item) (x : Response) :
    (s.raise q it).respond p x = (s.respond p x).raise q it := by
  by_cases h : q = p
  · subst h; exact onPort_respond_comm s q _ x (respond_raise ..)
  · exact onPort_comm s _ _ h

/-! ### LOCK_ACQUIRE (R50 to R52, R70, R75, R76) -/

section

variable {s : State} {p : Port} {r : Request} {wait yield : Bool} {owner : Half} {lease : Option Half} {k : Lock}
  {h : Holder}

theorem leaseOk_false_iff : s.leaseOk lease = false ↔
    (∃ d, lease = some d ∧ (d.toNat = 0 ∨ s.config.leaseMax < d.toNat)) ∨
      (lease = none ∧ s.config.leaseRequired = true) := by
  cases lease with
  | none => simp [State.leaseOk, State.leaseInRange]
  | some d => simp [State.leaseOk, State.leaseInRange, imp_iff_not_or, Nat.one_le_iff_ne_zero]

theorem leaseOk_of (hgiven : ∀ d, lease = some d → 1 ≤ d.toNat ∧ d.toNat ≤ s.config.leaseMax)
    (hnone : lease = none → s.config.leaseRequired = false) : s.leaseOk lease = true := by
  cases lease with
  | none => simp [State.leaseOk, State.leaseInRange, hnone rfl]
  | some d =>
    obtain ⟨hmin, hmax⟩ := hgiven d rfl
    simp [State.leaseOk, State.leaseInRange, hmin, hmax]

theorem acquire_badLease (hlease : s.leaseOk lease = false) :
    s.acquire p r wait yield owner lease k = s.respond p (r.response .badArg .empty) := by
  simp [State.acquire, hlease]

theorem acquire_holder (hlease : s.leaseOk lease = true) (hholds : s.holds p k = true) :
    s.acquire p r wait yield owner lease k =
      s.respond p (r.response .already (.alreadyAt (s.lock k).generation 0)) := by
  simp [State.acquire, hlease, hholds]

theorem acquire_waiter {before after : List WaitEntry} {e : WaitEntry} (hlease : s.leaseOk lease = true)
    (hholds : s.holds p k = false) (hqueue : (s.lock k).queue = before ++ e :: after) (he : e.port = p)
    (hbefore : ∀ x ∈ before, x.port ≠ p) :
    s.acquire p r wait yield owner lease k =
      s.respond p (r.response .already (.alreadyAt (s.lock k).generation (before.length + 1))) := by
  have hwaits : (s.lock k).queue.any (fun e => e.port == p) = true := by simp [hqueue, he]
  have hposition : (s.lock k).queue.findIdx (fun e => e.port == p) = before.length :=
    findIdx_split _ hqueue (by simpa using hbefore) (by simp [he])
  simp [State.acquire, hlease, hholds, hwaits, hposition]

theorem acquire_free (hlease : s.leaseOk lease = true) (hholds : s.holds p k = false)
    (hnew : ∀ e ∈ (s.lock k).queue, e.port ≠ p) (hfree : (s.lock k).phase = .free) :
    s.acquire p r wait yield owner lease k = s.grantAtOnce p r k owner yield lease := by
  simp [State.acquire, hlease, hholds, not_any_port.mpr hnew, hfree]

theorem acquire_busy (hlease : s.leaseOk lease = true) (hholds : s.holds p k = false)
    (hnew : ∀ e ∈ (s.lock k).queue, e.port ≠ p) (hfree : (s.lock k).phase ≠ .free) :
    s.acquire p r false yield owner lease k = s.respond p (s.busyResponse r k) := by
  simp [State.acquire, hlease, hholds, not_any_port.mpr hnew, hfree]

theorem acquire_waits (hlease : s.leaseOk lease = true) (hholds : s.holds p k = false)
    (hnew : ∀ e ∈ (s.lock k).queue, e.port ≠ p) (hfree : (s.lock k).phase ≠ .free) :
    s.acquire p r true yield owner lease k = s.enqueue p r k owner yield lease := by
  simp [State.acquire, hlease, hholds, not_any_port.mpr hnew, hfree]

/-- A holder that did not agree to yield, was asked already or has no waiter is not asked; nor is anyone where nobody holds
the lock (R75). -/
theorem askYield_not_asked (hasked : ∀ h, (s.lock k).phase = .held h →
    h.yield = false ∨ h.yieldSent = true ∨ (s.lock k).queue = []) : s.askYield k = s := by
  unfold State.askYield
  split
  next h hk =>
    refine if_neg ?_
    rcases hasked h hk with e | e | e <;> simp [e]
  · rfl

/-- A holder that agreed to yield is asked once (R75, R76). -/
theorem askYield_asked (hk : (s.lock k).phase = .held h) (hyield : h.yield = true) (hsent : h.yieldSent = false)
    (hqueue : (s.lock k).queue ≠ []) :
    s.askYield k = (s.setLock k { s.lock k with phase := .held { h with
        yieldSent := true
        deadline := if s.config.yieldGrace = 0 then none else some s.config.yieldGrace } }).raise h.port
      (.yield k (s.lock k).generation) := by
  simp [State.askYield, hk, hyield, hsent, hqueue]

theorem waitedFor_queue (l : LockRecord) : (l.waitedFor p owner yield lease).queue ≠ [] := by
  simp [LockRecord.waitedFor]

theorem enqueue_not_asked (hasked : ∀ h, (s.lock k).phase = .held h → h.yield = false ∨ h.yieldSent = true) :
    s.enqueue p r k owner yield lease = (s.setLock k ((s.lock k).waitedFor p owner yield lease)).respond p
      (r.response .queued (.queuedAt ((s.lock k).queue.length + 1))) := by
  rw [enqueue_eq, askYield_not_asked]
  rw [State.lock_setLock_same]
  exact fun h hk => (hasked h hk).imp_right .inl

theorem enqueue_asked (hk : (s.lock k).phase = .held h) (hyield : h.yield = true) (hsent : h.yieldSent = false) :
    s.enqueue p r k owner yield lease =
      ((s.setLock k { (s.lock k).waitedFor p owner yield lease with phase := .held { h with
          yieldSent := true
          deadline := if s.config.yieldGrace = 0 then none else some s.config.yieldGrace } }).respond p
        (r.response .queued (.queuedAt ((s.lock k).queue.length + 1)))).raise h.port
        (.yield k (s.lock k).generation) := by
  have hheld : ((s.setLock k ((s.lock k).waitedFor p owner yield lease)).lock k).phase = .held h := by
    rw [State.lock_setLock_same]; exact hk
  rw [enqueue_eq, askYield_asked hheld hyield hsent (by rw [State.lock_setLock_same]; exact waitedFor_queue _),
    raise_respond, setLock_setLock, State.lock_setLock_same]
  rfl

end

theorem exec_lockAcquire (p : Port) (tag lock : Byte) (wait yield : Bool) (owner : Half) (lease : Option Half)
    (s : State) : exec (.lockAcquire p tag lock wait yield owner lease) s =
      .next (s.request p { tag := tag, op := .lockAcquire lock wait yield owner lease } fun t =>
        t.withLock p { tag := tag, op := .lockAcquire lock wait yield owner lease } lock fun u k =>
          u.acquire p { tag := tag, op := .lockAcquire lock wait yield owner lease } wait yield owner lease k) := rfl

/-- Settles O26: by the checks in their order, then the state of the lock, the wait choice and the holder's yield
choice. -/
theorem lockAcquireAnswers : Obligations.LockAcquireAnswers := by
  intro p tag lock wait yield owner lease s h
  rw [exec_lockAcquire]
  refine ⟨fun hlock => by rw [request_withLock_above h hlock]; rfl, fun k hk => ?_⟩
  rw [request_withLock_lock h hk]
  have hanswered : ∀ x : Response, x.tag = tag → (s.takenOpen p tag).respond p x = s.answeredNow p x :=
    fun x hx => takenOpen_respond x h hx
  have hwritten : ∀ (l : LockRecord) (x : Response), x.tag = tag →
      ((s.takenOpen p tag).setLock k l).respond p x = (s.answeredNow p x).setLock k l :=
    fun l x hx => takenOpen_setLock_respond l x h hx
  refine ⟨fun hbad => ?_, fun hgiven hnone => ?_⟩
  · rw [acquire_badLease (s := s.takenOpen p tag) (leaseOk_false_iff.mpr hbad), hanswered _ rfl]
    rfl
  have hlease : (s.takenOpen p tag).leaseOk lease = true := leaseOk_of hgiven hnone
  refine ⟨fun hholds => ?_, fun before e after hholds hqueue he hbefore => ?_, fun hholds hnew => ⟨fun hfree => ?_,
    fun hfree hwait => ?_, fun hfree hwait hasked => ?_, fun hd hheld hwait hyield hsent => ?_⟩⟩
  · rw [acquire_holder hlease hholds, hanswered _ rfl]
    rfl
  · rw [acquire_waiter hlease hholds hqueue he hbefore, hanswered _ rfl]
    rfl
  · rw [acquire_free hlease hholds hnew hfree, State.grantAtOnce, hwritten _ _ rfl]
    simp only [LockRecord.granted, Option.map_map]
    rfl
  · subst hwait
    rw [acquire_busy hlease hholds hnew hfree, hanswered _ rfl]
    rfl
  · subst hwait
    rw [acquire_waits hlease hholds hnew hfree, enqueue_not_asked (s := s.takenOpen p tag) hasked, hwritten _ _ rfl]
    rfl
  · subst hwait
    rw [acquire_waits hlease hholds hnew (by rw [takenOpen_lock, hheld]; simp),
      enqueue_asked (s := s.takenOpen p tag) hheld hyield hsent, hwritten _ _ rfl]
    rfl

/-! ### LOCK_RELEASE (R55, R56) -/

theorem exec_lockRelease (p : Port) (tag lock : Byte) (gen : Half) (s : State) :
    exec (.lockRelease p tag lock gen) s = .next (s.request p { tag := tag, op := .lockRelease lock gen } fun t =>
      t.withLock p { tag := tag, op := .lockRelease lock gen } lock fun u k =>
        u.asHolder p { tag := tag, op := .lockRelease lock gen } gen k fun v _ => v.endGrant k p (some tag)) := rfl

theorem takenOpen_watermark (s : State) (p q : Port) (tag : Byte) :
    ((s.takenOpen p tag).port q).watermark = (s.port q).watermark := by
  obtain ⟨_, _, _, _, hq⟩ := takenOpen_port s p q tag
  rw [hq]

/-- Settles O28: by the holder check; the release that proceeds ends the grant, and its handoff follows when no write of
the port is uncompleted. -/
theorem lockReleaseAnswers : Obligations.LockReleaseAnswers := by
  intro p tag lock gen s h
  rw [exec_lockRelease]
  refine ⟨fun hlock => by rw [request_withLock_above h hlock]; rfl, fun k hk => ?_⟩
  rw [request_withLock_lock h hk]
  have hanswered : ∀ x : Response, x.tag = tag → (s.takenOpen p tag).respond p x = s.answeredNow p x :=
    fun x hx => takenOpen_respond x h hx
  refine ⟨fun hno => ?_, fun hholds hgen => ?_, fun hholds hgen => ?_⟩
  · rw [asHolder_no (s := s.takenOpen p tag) hno, hanswered _ rfl]
    rfl
  · rw [asHolder_stale (s := s.takenOpen p tag) hholds hgen, hanswered _ rfl]
    rfl
  · obtain ⟨hd, hheld, hport⟩ := holds_iff.mp hholds
    rw [asHolder_yes (s := s.takenOpen p tag) hd hheld hport hgen]
    refine ⟨fun hw => ?_, fun hw => ?_⟩
    · rw [endGrant_unreached (by rw [takenOpen_watermark, takenOpen_writeSeq]; exact hw), takenOpen_writeSeq]
      rfl
    · rw [endGrant_reached (by rw [takenOpen_watermark, takenOpen_writeSeq]; exact hw), takenOpen_writeSeq]
      rfl

/-! ### LOCK_CANCEL (R60) -/

section

variable {s : State} {p : Port} {r : Request} {k : Lock} {before after : List WaitEntry} {e : WaitEntry}

theorem cancel_not_waiting (hnone : ∀ e ∈ (s.lock k).queue, e.port ≠ p) :
    s.cancel p r k = s.respond p (r.response .notWaiting .empty) := by
  simp [State.cancel, not_any_port.mpr hnone]

theorem cancel_waiting (hqueue : (s.lock k).queue = before ++ e :: after) (he : e.port = p) :
    s.cancel p r k = (s.setLock k ((s.lock k).removeWaiter p)).respond p (r.response .ok .empty) := by
  have hwaits : (s.lock k).queue.any (fun e => e.port == p) = true := by simp [hqueue, he]
  simp [State.cancel, hwaits]

/-- The queue without the one entry of a port. -/
theorem filter_port_split (he : e.port = p) (hbefore : ∀ x ∈ before, x.port ≠ p) (hafter : ∀ x ∈ after, x.port ≠ p) :
    (before ++ e :: after).filter (fun x => x.port != p) = before ++ after := by
  have hkeep : ∀ l : List WaitEntry, (∀ x ∈ l, x.port ≠ p) → l.filter (fun x => x.port != p) = l := fun l hl =>
    List.filter_eq_self.mpr fun x hx => by simpa using hl x hx
  rw [List.filter_append, List.filter_cons_of_neg (by simp [he]), hkeep before hbefore, hkeep after hafter]

theorem removeWaiter_split {l : LockRecord} (hqueue : l.queue = before ++ e :: after) (he : e.port = p)
    (hbefore : ∀ x ∈ before, x.port ≠ p) (hafter : ∀ x ∈ after, x.port ≠ p) :
    l.removeWaiter p = { l with
      queue := before ++ after
      phase := match l.phase with
        | .held h => .held (if before ++ after = [] then { h with deadline := none } else h)
        | other => other } := by
  have hrest : l.queue.filter (fun x => x.port != p) = before ++ after := by
    rw [hqueue]; exact filter_port_split he hbefore hafter
  unfold LockRecord.removeWaiter
  rw [hrest]
  cases hp : l.phase <;> simp

end

theorem exec_lockCancel (p : Port) (tag lock : Byte) (s : State) :
    exec (.lockCancel p tag lock) s = .next (s.request p { tag := tag, op := .lockCancel lock } fun t =>
      t.withLock p { tag := tag, op := .lockCancel lock } lock fun u k =>
        u.cancel p { tag := tag, op := .lockCancel lock } k) := rfl

/-- Settles O30: by whether the port waits; its one entry is taken out where it stands. -/
theorem lockCancelRemovesTheEntry : Obligations.LockCancelRemovesTheEntry := by
  intro p tag lock s h
  rw [exec_lockCancel]
  refine ⟨fun hlock => by rw [request_withLock_above h hlock]; rfl, fun k hk => ?_⟩
  rw [request_withLock_lock h hk]
  refine ⟨fun hnone => ?_, fun before e after hqueue he hbefore hafter => ?_⟩
  · rw [cancel_not_waiting (s := s.takenOpen p tag) hnone]
    exact congrArg Host.Outcome.next (takenOpen_respond _ h rfl)
  · rw [cancel_waiting (s := s.takenOpen p tag) hqueue he, takenOpen_lock, removeWaiter_split hqueue he hbefore hafter]
    exact congrArg Host.Outcome.next (takenOpen_setLock_respond _ _ h rfl)

/-! ### LOCK_QUERY (R61, R71) -/

section

variable {l : LockRecord} {h : Holder}

theorem fall_no_lease (hlease : ∀ h x, l.phase = .held h → h.lease ≠ some x) (n : Nat) : l.fall n = l := by
  by_cases hheld : ∃ h, l.phase = .held h
  · obtain ⟨h, hp⟩ := hheld
    have hnone : h.lease = none := Option.eq_none_iff_forall_ne_some.mpr fun x => hlease h x hp
    have hsame : { h with lease := h.lease.map (Lease.fall n) } = h := by rw [hnone, Option.map_none, ← hnone]
    rw [fall_held hp, hsame, ← hp]
  · exact fall_not_held (fun h hp => hheld ⟨h, hp⟩) n

theorem phase_fall (hp : l.phase = .held h) (n : Nat) :
    (l.fall n).phase = .held { h with lease := h.lease.map (Lease.fall n) } := by rw [fall_held hp]

theorem fall_lease {x : Lease} (hp : l.phase = .held h) (hx : h.lease = some x) (n : Nat) :
    l.fall n = { l with phase := .held { h with lease := some (x.fall n) } } := by
  rw [fall_held hp, hx]; rfl

theorem info_free (hp : l.phase = .free) : l.info.state = .free ∧ l.info.holder = none ∧ l.info.owner = none ∧
    l.info.prev = none ∧ l.info.remaining = none := by simp [LockRecord.info, hp, LockPhase.state]

theorem info_releasing {r : Releasing} (hp : l.phase = .releasing r) : l.info.state = .releasing ∧
    l.info.holder = none ∧ l.info.owner = none ∧ l.info.prev = some r.prev ∧ l.info.remaining = none := by
  simp [LockRecord.info, hp, LockPhase.state]

theorem info_held (hp : l.phase = .held h) : l.info.state = .held ∧ l.info.holder = some h.port ∧
    l.info.owner = some h.owner ∧ l.info.prev = none ∧ l.info.remaining = h.lease.map Lease.remaining := by
  simp [LockRecord.info, hp, LockPhase.state]

end

/-- A LOCK_QUERY that is ready is answered at once, its reading kept. -/
theorem query_takenOpen {s : State} {p : Port} {r : Request} (h : s.ready p r = true) (k : Lock) :
    (s.takenOpen p r.tag).query p r k =
      { (s.answeredNow p (r.response .ok (.lockInfo ((s.lock k).fall s.fresh).info))).setLock k
          ((s.lock k).fall s.fresh) with fresh := s.fresh + 1 } :=
  congrArg (fun t : State => { t with fresh := s.fresh + 1 }) (takenOpen_setLock_respond _ _ h rfl)

theorem exec_lockQuery (p : Port) (tag lock : Byte) (s : State) :
    exec (.lockQuery p tag lock) s = .next (s.request p { tag := tag, op := .lockQuery lock } fun t =>
      t.withLock p { tag := tag, op := .lockQuery lock } lock fun u k =>
        u.query p { tag := tag, op := .lockQuery lock } k) := rfl

theorem setLock_answeredNow (s : State) (p : Port) (x : Response) (k : Lock) :
    (s.answeredNow p x).setLock k (s.lock k) = s.answeredNow p x := setLock_lock (s.answeredNow p x) k

/-- The answer of a LOCK_QUERY is the record after the reading (R61; log 5). -/
theorem lockQuery_answer {p : Port} {tag lock : Byte} {s : State}
    (h : s.ready p { tag := tag, op := .lockQuery lock } = true) {k : Lock} (hk : k.val = lock.toNat) :
    exec (.lockQuery p tag lock) s = .next
      { (s.answeredNow p { code := 0x24#8, tag := tag, status := .ok
                           body := .lockInfo ((s.lock k).fall s.fresh).info }).setLock k ((s.lock k).fall s.fresh) with
        fresh := s.fresh + 1 } := by
  rw [exec_lockQuery, request_withLock_lock h hk]
  exact congrArg Host.Outcome.next (query_takenOpen h k)

/-! ### The lease of a grant that goes on (R71) -/

section

variable {c : Instr} {l l' : LockRecord} {h h' : Holder}

theorem SameGrant.lease (g : SameGrant l l') (hl : l.phase = .held h) (hl' : l'.phase = .held h') :
    h'.lease = h.lease := by
  obtain ⟨-, hsame⟩ := g
  obtain ⟨h1, hl1, hlease⟩ := hsame h' hl'
  rw [hl] at hl1
  cases hl1
  exact hlease

/-- While the generation stays, no grant was made. -/
theorem GrantedAtMostOnce.sameGrant (g : GrantedAtMostOnce l l') (hgen : l'.generation = l.generation) :
    SameGrant l l' := by
  rcases g with g | ⟨hnext, -⟩
  · exact g
  · rw [hgen] at hnext
    exact absurd hnext (by simp)

/-- While a grant goes on, its lease stays, but for a LOCK_RENEW, and for a LOCK_QUERY's reading. -/
theorem GrantEffect.lease (g : GrantEffect c l l') (hl : l.phase = .held h) (hl' : l'.phase = .held h')
    (hgen : l'.generation = l.generation) (hrenew : ∀ p tag lock gen lease, c ≠ .lockRenew p tag lock gen lease) :
    h'.lease = h.lease ∨ (∃ n, h'.lease = h.lease.map (Lease.fall n)) ∧ ∃ p tag lock, c = .lockQuery p tag lock := by
  cases g with
  | plain g => exact .inl ((g.sameGrant hgen).lease hl hl')
  | renewed _ _ hc => obtain ⟨p, tag, lock, gen, lease, rfl⟩ := hc; exact absurd rfl (hrenew p tag lock gen lease)
  | read n hc hfall =>
    rw [hfall, fall_held hl] at hl'
    cases hl'
    exact .inr ⟨⟨n, rfl⟩, hc⟩

end

theorem lock_toReset (s : State) (k : Lock) : s.toReset.lock k = LockRecord.reset := by
  simp [State.toReset, State.lock, State.reset, Vector.get_eq_getElem]

/-- The lease of a grant that goes on through any command but a LOCK_RENEW: a device reset leaves no grant. -/
theorem exec_lease {c : Instr} {s t : State} {k : Lock} {h h' : Holder} (hexec : exec c s = .next t)
    (hk : (s.lock k).phase = .held h) (hk' : (t.lock k).phase = .held h')
    (hgen : (t.lock k).generation = (s.lock k).generation)
    (hrenew : ∀ p tag lock gen lease, c ≠ .lockRenew p tag lock gen lease) :
    h'.lease = h.lease ∨ (∃ n, h'.lease = h.lease.map (Lease.fall n)) ∧ ∃ p tag lock, c = .lockQuery p tag lock := by
  have hfree : ∀ u : State, u.locks = s.toReset.locks → (u.lock k).phase ≠ .held h' := fun u hu => by
    rw [lock_of_locks hu, lock_toReset]; simp [LockRecord.reset]
  by_cases hreset : c = .deviceReset
  · subst hreset; cases hexec; exact absurd hk' (hfree _ rfl)
  · by_cases hsupply : c = .supplyOrRefclkLoss
    · subst hsupply; cases hexec; exact absurd hk' (hfree _ rfl)
    · exact (exec_grantEffect hreset hsupply hexec k).lease hk hk' hgen hrenew

/-- Settles O31: the answer is the record as the reading leaves it; and the lease of a grant that goes on, by the inversion
of every command. -/
theorem lockQueryAnswers : Obligations.LockQueryAnswers := by
  refine ⟨fun p tag lock s h => ⟨fun hlock => by rw [exec_lockQuery, request_withLock_above h hlock]; rfl,
    fun k hk => ?_⟩, fun c s t k h h' hexec hheld hheld' hgen hrenew => ?_⟩
  · obtain ⟨hgen, hfault, hcause, hqueue⟩ := fall_keeps (s.lock k) s.fresh
    refine ⟨((s.lock k).fall s.fresh).info, hgen, hfault, hcause, congrArg _ hqueue, fun hp => ?_, fun r hp => ?_,
      fun hd hp => ?_, fun hnone => ?_, fun hd x hp hx => ?_⟩
    · rw [fall_not_held (by simp [hp])]; exact info_free hp
    · rw [fall_not_held (by simp [hp])]; exact info_releasing hp
    · obtain ⟨hstate, hholder, howner, hprev, hremaining⟩ := info_held (phase_fall hp s.fresh)
      exact ⟨hstate, hholder, howner, hprev, fun hlease => by rw [hremaining, hlease]; rfl⟩
    · rw [lockQuery_answer h hk, fall_no_lease hnone, setLock_answeredNow]
    · refine ⟨(x.fall s.fresh).remaining, remaining_fall_le .., ?_, ?_⟩
      · rw [fall_lease hp hx]; rfl
      · rw [lockQuery_answer h hk, fall_lease hp hx]; rfl
  · rcases exec_lease hexec hheld hheld' hgen hrenew with e | ⟨⟨n, e⟩, hquery⟩
    · exact ⟨fun hnone => e.trans hnone, fun x hx => ⟨x, e.trans hx, rfl, le_rfl, fun _ => rfl⟩⟩
    · refine ⟨fun hnone => by rw [e, hnone]; rfl, fun x hx =>
        ⟨x.fall n, by rw [e, hx]; rfl, rfl, remaining_fall_le n x, fun hno => ?_⟩⟩
      obtain ⟨p, tag, lock, rfl⟩ := hquery
      exact absurd rfl (hno p tag lock)

/-! ## The handoff (R57, R59, R62, R75, R91) -/

/-- The ports are as before but for the items of their event sets. -/
def OnlyItems (s t : State) : Prop := ∀ q, ∃ events, t.port q = { s.port q with events := events }

theorem OnlyItems.refl (s : State) : OnlyItems s s := fun _ => ⟨_, rfl⟩

theorem OnlyItems.trans {s t u : State} (a : OnlyItems s t) (b : OnlyItems t u) : OnlyItems s u := fun q => by
  obtain ⟨_, ha⟩ := a q
  obtain ⟨events, hb⟩ := b q
  exact ⟨events, by rw [hb, ha]⟩

theorem onlyItems_setLock (s : State) (k : Lock) (l : LockRecord) : OnlyItems s (s.setLock k l) := fun _ => ⟨_, rfl⟩

theorem onlyItems_raise (s : State) (p : Port) (it : Item) : OnlyItems s (s.raise p it) := fun q => by
  rw [State.port_raise]
  split
  next e =>
    subst e
    unfold PortState.raise
    split <;> exact ⟨_, rfl⟩
  · exact ⟨_, rfl⟩

theorem onlyItems_askYield (s : State) (k : Lock) : OnlyItems s (s.askYield k) := by
  unfold State.askYield
  split
  · split
    · exact (onlyItems_setLock s k _).trans (onlyItems_raise _ _ _)
    · exact .refl s
  · exact .refl s

theorem onlyItems_passLock (s : State) (k : Lock) : OnlyItems s (s.passLock k) := by
  unfold State.passLock
  split
  · exact ((onlyItems_setLock s k _).trans (onlyItems_raise _ _ _)).trans (onlyItems_askYield _ _)
  · exact onlyItems_setLock s k _

theorem handoffCause_eq_reported (l : LockRecord) : l.handoffCause = l.reported := by
  simp [LockRecord.handoffCause, LockRecord.reported]

theorem setLock_raise (s : State) (k : Lock) (l : LockRecord) (p : Port) (it : Item) :
    (s.setLock k l).raise p it = (s.raise p it).setLock k l := rfl

/-- The holder a granted wait entry makes (R57, step 3). -/
def WaitEntry.holder (e : WaitEntry) : Holder :=
  { port := e.port, owner := e.owner, yield := e.yield, yieldSent := false, lease := e.lease.map Lease.start,
    deadline := none }

/-- The head of the queue granted the lock and told so, before anyone is asked to yield (R57, R62). -/
def State.passedTo (s : State) (k : Lock) (e : WaitEntry) : State :=
  (s.setLock k (s.passedOn (s.lock k))).raise e.port
    (.grant k ((s.lock k).generation + 1) e.owner (s.lock k).reported)

section

variable {s : State} {k : Lock} {e : WaitEntry} {rest : List WaitEntry}

theorem passLock_nobody (hq : (s.lock k).queue = []) : s.passLock k = s.setLock k (s.passedOn (s.lock k)) := by
  simp only [State.passLock, State.passedOn, hq, handoffCause_eq_reported]

theorem passLock_head (hq : (s.lock k).queue = e :: rest) :
    s.passLock k = ((s.setLock k ((s.lock k).granted e.port e.owner e.yield e.lease rest)).raise e.port
      (.grant k ((s.lock k).generation + 1) e.owner (s.lock k).reported)).askYield k := by
  unfold State.passLock
  rw [hq]
  simp only [handoffCause_eq_reported]

theorem passedOn_not_asked (hq : (s.lock k).queue = e :: rest) (hasked : ¬ (e.yield = true ∧ rest ≠ [])) :
    s.passedOn (s.lock k) = (s.lock k).granted e.port e.owner e.yield e.lease rest := by
  have hsent : (e.yield && !rest.isEmpty) = false := by simpa using hasked
  have hdeadline : ¬ (e.yield = true ∧ rest ≠ [] ∧ s.config.yieldGrace ≠ 0) := fun ⟨hyield, hrest, _⟩ =>
    hasked ⟨hyield, hrest⟩
  simp only [State.passedOn, hq, hsent, if_neg hdeadline]
  rfl

theorem passedOn_asked (hq : (s.lock k).queue = e :: rest) (hyield : e.yield = true) (hrest : rest ≠ []) :
    s.passedOn (s.lock k) = { (s.lock k).granted e.port e.owner e.yield e.lease rest with
      phase := .held { e.holder with
        yieldSent := true
        deadline := if s.config.yieldGrace = 0 then none else some s.config.yieldGrace } } := by
  have hsent : (e.yield && !rest.isEmpty) = true := by simp [hyield, hrest]
  have hdeadline : (e.yield = true ∧ rest ≠ [] ∧ s.config.yieldGrace ≠ 0) = ¬ (s.config.yieldGrace = 0) := by
    simp [hyield, hrest]
  simp only [State.passedOn, hq, hsent, hdeadline, ite_not]
  rfl

/-- The new holder is not asked to yield when it did not agree to or nobody waits behind it (R75). -/
theorem passLock_not_asked (hq : (s.lock k).queue = e :: rest) (hasked : ¬ (e.yield = true ∧ rest ≠ [])) :
    s.passLock k = s.passedTo k e := by
  rw [passLock_head hq, State.passedTo, passedOn_not_asked hq hasked, askYield_not_asked]
  rw [State.lock_raise, State.lock_setLock_same]
  intro h hh
  cases hh
  by_cases hyield : e.yield = true
  · exact .inr (.inr (by_contra fun hrest => hasked ⟨hyield, hrest⟩))
  · exact .inl (by simpa using hyield)

/-- One that agreed to yield is asked at once when others wait (R75, R76). -/
theorem passLock_asked (hq : (s.lock k).queue = e :: rest) (hyield : e.yield = true) (hrest : rest ≠ []) :
    s.passLock k = (s.passedTo k e).raise e.port (.yield k ((s.lock k).generation + 1)) := by
  have hrecord : ∀ (l : LockRecord) (it : Item), ((s.setLock k l).raise e.port it).lock k = l := fun l it => by
    rw [State.lock_raise, State.lock_setLock_same]
  rw [passLock_head hq, askYield_asked (h := e.holder) (by rw [hrecord]; rfl) hyield rfl (by rw [hrecord]; exact hrest),
    hrecord, State.passedTo, passedOn_asked hq hyield hrest]
  simp only [setLock_raise, setLock_setLock]
  rfl

/-- The record of the lock after steps 2 to 4 of its handoff (R57). -/
theorem lock_passLock (s : State) (k : Lock) : (s.passLock k).lock k = s.passedOn (s.lock k) := by
  cases hq : (s.lock k).queue with
  | nil => rw [passLock_nobody hq, State.lock_setLock_same]
  | cons e rest =>
    by_cases hasked : e.yield = true ∧ rest ≠ []
    · obtain ⟨hyield, hrest⟩ := hasked
      rw [passLock_asked hq hyield hrest, State.lock_raise, State.passedTo, State.lock_raise,
        State.lock_setLock_same]
    · rw [passLock_not_asked hq hasked, State.passedTo, State.lock_raise, State.lock_setLock_same]

/-- The items raised for the new holder, GRANT before YIELD (R57, R62, R75). -/
theorem passLock_events (hq : (s.lock k).queue = e :: rest) :
    ((s.passLock k).port e.port).events =
      (if e.yield = true ∧ rest ≠ [] then
        (((s.port e.port).raise (.grant k ((s.lock k).generation + 1) e.owner (s.lock k).reported)).raise
          (.yield k ((s.lock k).generation + 1))).events
      else ((s.port e.port).raise (.grant k ((s.lock k).generation + 1) e.owner (s.lock k).reported)).events) := by
  have hgranted : (s.passedTo k e).port e.port =
      (s.port e.port).raise (.grant k ((s.lock k).generation + 1) e.owner (s.lock k).reported) := by
    rw [State.passedTo, State.port_raise, if_pos rfl]; rfl
  split
  next hasked =>
    obtain ⟨hyield, hrest⟩ := hasked
    rw [passLock_asked hq hyield hrest, State.port_raise, if_pos rfl, hgranted]
  next hasked => rw [passLock_not_asked hq hasked, hgranted]

end

/-! ### The withheld response (R59, R91) -/

/-- The answer of a withheld LOCK_RELEASE with this tag (R59). -/
def LockRecord.releaseResponse (l : LockRecord) (tag : Byte) : Response :=
  { code := 0x21#8, tag := tag, status := .ok, body := .generation l.generation }

section

variable {s : State} {k : Lock} {r : Releasing}

theorem handoff_withheld {tag : Byte} (hk : (s.lock k).phase = .releasing r) (htag : r.tag = some tag) :
    s.handoff k = (s.passLock k).respondDue r.prev ((s.lock k).releaseResponse tag) := by
  simp only [State.handoff, hk, htag]
  rfl

theorem handoff_unasked (hk : (s.lock k).phase = .releasing r) (htag : r.tag = none) : s.handoff k = s.passLock k := by
  simp only [State.handoff, hk, htag]

theorem respondDue_reached {p : Port} (h : (s.port p).inContact = true) (x : Response) :
    s.respondDue p x = s.respond p x := if_pos h

theorem respondDue_away {p : Port} (h : (s.port p).inContact = false) (x : Response) : s.respondDue p x = s :=
  if_neg (by simp [h])

theorem port_respondDue_ne (s : State) {p q : Port} (h : q ≠ p) (x : Response) :
    (s.respondDue p x).port q = s.port q := by
  unfold State.respondDue
  split
  · exact State.port_onPort_ne s _ h
  · rfl

theorem events_respondDue (s : State) (p q : Port) (x : Response) :
    ((s.respondDue p x).port q).events = (s.port q).events := by
  unfold State.respondDue
  split
  · rw [State.port_respond]
    split
    next e => subst e; rfl
    · rfl
  · rfl

theorem inContact_passLock (s : State) (k : Lock) (q : Port) :
    ((s.passLock k).port q).inContact = (s.port q).inContact := by
  obtain ⟨_, hq⟩ := onlyItems_passLock s k q
  rw [hq]; rfl

theorem lock_handoff (hk : (s.lock k).phase = .releasing r) : (s.handoff k).lock k = s.passedOn (s.lock k) := by
  cases htag : r.tag with
  | none => rw [handoff_unasked hk htag, lock_passLock]
  | some tag => rw [handoff_withheld hk htag, lock_of_locks (locks_respondDue ..), lock_passLock]

theorem events_handoff (hk : (s.lock k).phase = .releasing r) (q : Port) :
    ((s.handoff k).port q).events = ((s.passLock k).port q).events := by
  cases htag : r.tag with
  | none => rw [handoff_unasked hk htag]
  | some tag => rw [handoff_withheld hk htag, events_respondDue]

/-- A port the withheld response is not for has its responses and tags as they were (R59). -/
theorem handoff_unanswered {q : Port} (hk : (s.lock k).phase = .releasing r)
    (h : q ≠ r.prev ∨ r.tag = none ∨ (s.port q).inContact = false) :
    ((s.handoff k).port q).respQ = (s.port q).respQ ∧ ((s.handoff k).port q).tags = (s.port q).tags := by
  have hpassed : (s.handoff k).port q = (s.passLock k).port q := by
    cases htag : r.tag with
    | none => rw [handoff_unasked hk htag]
    | some tag =>
      rw [handoff_withheld hk htag]
      by_cases hq : q = r.prev
      · subst hq
        have haway : (s.port r.prev).inContact = false := by simpa [htag] using h
        rw [respondDue_away (by rw [inContact_passLock]; exact haway)]
      · exact port_respondDue_ne _ hq _
  obtain ⟨_, hq⟩ := onlyItems_passLock s k q
  rw [hpassed, hq]
  exact ⟨rfl, rfl⟩

/-- The withheld response comes due to a port in contact, and its tag is free again (R59, R91). -/
theorem handoff_answered {tag : Byte} (hk : (s.lock k).phase = .releasing r) (htag : r.tag = some tag)
    (h : (s.port r.prev).inContact = true) :
    ((s.handoff k).port r.prev).respQ = (s.port r.prev).respQ ++ [(s.lock k).releaseResponse tag] ∧
      ((s.handoff k).port r.prev).tags = (s.port r.prev).tags.filter (fun x => x != tag) := by
  obtain ⟨_, hprev⟩ := onlyItems_passLock s k r.prev
  rw [handoff_withheld hk htag, respondDue_reached (by rw [inContact_passLock]; exact h), State.port_respond,
    if_pos rfl, hprev]
  exact ⟨rfl, rfl⟩

end

/-- Settles O27: the record, the items, the withheld response and the frame, each by its own lemma. -/
theorem handoffPassesTheLock : Obligations.HandoffPassesTheLock := by
  intro s k r hk
  have hrest := rest_handoff s k
  refine ⟨lock_handoff hk, fun e rest hq => by rw [events_handoff hk, passLock_events hq],
    fun tag htag => ⟨fun hreached => handoff_answered hk htag (inContact_of hreached), fun haway => ?_⟩,
    fun htag q => ?_, fun q hq => handoff_unanswered hk (.inl hq), fun j hj => lock_handoff_ne s k j hj,
    rest_map hrest, rest_edit hrest, device_slots (rest_device hrest), device_config (rest_device hrest)⟩
  · exact (handoff_unanswered hk (.inr (.inr (inContact_of_away haway)))).1
  · exact (handoff_unanswered hk (.inr (.inl htag))).1

end Sys2Proof.Machine

/-! # LOCK_RENEW (spec/04 R72, R73) -/

namespace Sys2Proof.Machine

open Sys2Proof

/-! ## The lease of a renewal -/

section

variable {s : State} {p : Port} {r : Request} {lease : Option Half} {d : Half} {k : Lock} {h : Holder}

/-- With no lease given there is nothing to check (R72). -/
@[simp] theorem leaseInRange_none (s : State) : s.leaseInRange none = true := rfl

theorem leaseInRange_some :
    s.leaseInRange (some d) = true ↔ 1 ≤ d.toNat ∧ d.toNat ≤ s.config.leaseMax := by
  simp [State.leaseInRange]

theorem leaseInRange_some_false :
    s.leaseInRange (some d) = false ↔ d.toNat = 0 ∨ s.config.leaseMax < d.toNat := by
  rw [← Bool.not_eq_true, leaseInRange_some]
  omega

/-- A given lease starts, whatever ran before (R73). -/
theorem renewedLease_some (running : Option Lease) (d : Half) :
    renewedLease running (some d) = some { duration := d.toNat, remaining := d.toNat } := rfl

/-- A running lease restarts with its own duration, and none stays none (R73). -/
theorem renewedLease_none (running : Option Lease) :
    renewedLease running none = running.map (fun x => { duration := x.duration, remaining := x.duration }) := rfl

/-- A restart keeps the duration of a lease (R73). -/
theorem renewedLease_none_duration (running : Option Lease) :
    (renewedLease running none).map Lease.duration = running.map Lease.duration := by
  cases running <;> rfl

/-! ## The holder's renewal, refused and carried out -/

theorem renew_badLease (hlease : s.leaseInRange lease = false) :
    s.renew p r lease k h = s.respond p (r.response .badArg .empty) := by
  simp [State.renew, hlease]

theorem renew_inRange (hlease : s.leaseInRange lease = true) :
    s.renew p r lease k h =
      (s.setLock k { s.lock k with phase := .held { h with lease := renewedLease h.lease lease } }).respond p
        (r.response .ok (.renewed (s.lock k).generation ((renewedLease h.lease lease).map Lease.duration))) := by
  simp [State.renew, hlease]

/-- A renewal that is ready and whose lease passes the check writes the lease and is answered at once (R73). -/
theorem renew_takenOpen (hready : s.ready p r = true) (hlease : s.leaseInRange lease = true) :
    (s.takenOpen p r.tag).renew p r lease k h =
      (s.answeredNow p (r.response .ok
        (.renewed (s.lock k).generation ((renewedLease h.lease lease).map Lease.duration)))).setLock k
        { s.lock k with phase := .held { h with lease := renewedLease h.lease lease } } := by
  rw [renew_inRange (s := s.takenOpen p r.tag) hlease, takenOpen_lock]
  exact takenOpen_setLock_respond _ _ hready rfl

end

theorem exec_lockRenew (p : Port) (tag lock : Byte) (gen : Half) (lease : Option Half) (s : State) :
    exec (.lockRenew p tag lock gen lease) s =
      .next (s.request p { tag := tag, op := .lockRenew lock gen lease } fun t =>
        t.withLock p { tag := tag, op := .lockRenew lock gen lease } lock fun u k =>
          u.asHolder p { tag := tag, op := .lockRenew lock gen lease } gen k fun v h =>
            v.renew p { tag := tag, op := .lockRenew lock gen lease } lease k h) := rfl

/-- Settles O29: by the holder check, then the lease check, then whether a lease was given. -/
theorem lockRenewAnswers : Obligations.LockRenewAnswers := by
  intro p tag lock gen lease s hready
  rw [exec_lockRenew]
  refine ⟨fun hlock => by rw [request_withLock_above hready hlock]; rfl, fun k hk => ?_⟩
  rw [request_withLock_lock hready hk]
  have hanswered : ∀ x : Response, x.tag = tag → (s.takenOpen p tag).respond p x = s.answeredNow p x :=
    fun x hx => takenOpen_respond x hready hx
  refine ⟨fun hno => ?_, fun hholds hgen => ?_, fun h hheld hport hgen => ?_⟩
  · rw [asHolder_no (s := s.takenOpen p tag) hno, hanswered _ rfl]
    rfl
  · rw [asHolder_stale (s := s.takenOpen p tag) hholds hgen, hanswered _ rfl]
    rfl
  · rw [asHolder_yes (s := s.takenOpen p tag) h hheld hport hgen]
    refine ⟨fun d hd hbad => ?_, fun d hd hmin hmax => ?_, fun hnone => ?_⟩
    · subst hd
      rw [renew_badLease (s := s.takenOpen p tag) (leaseInRange_some_false.mpr hbad), hanswered _ rfl]
      rfl
    · subst hd
      rw [renew_takenOpen hready (leaseInRange_some.mpr ⟨hmin, hmax⟩), renewedLease_some, hgen]
      rfl
    · subst hnone
      rw [renew_takenOpen hready (leaseInRange_none s), renewedLease_none_duration, renewedLease_none, hgen]
      rfl

end Sys2Proof.Machine

/-! # The intake, absent events and the comparison of write sequences (spec/05 R86, R88, R90, R97) -/

namespace Sys2Proof.Machine

open Sys2Proof

/-! ## A watermark reaches a sequence (R97) -/

/-- A watermark reaches the sequences of which it stands less than half the number range ahead (R97). -/
theorem watermarkReaches_iff (w seq : Word) : watermarkReaches w seq = true ↔ (w - seq).toNat < 2147483648 := by
  simp [watermarkReaches]

/-- A sequence d before a watermark is reached by it, as long as d is less than half the number range (R97). -/
theorem watermarkReaches_before (w : Word) {d : Nat} (hd : d < 2147483648) :
    watermarkReaches w (w - BitVec.ofNat 32 d) = true := by
  rw [watermarkReaches_iff, sub_sub_cancel, BitVec.toNat_ofNat]
  omega

/-- Settles O54: the distance from the sequence to the watermark is their difference. -/
theorem watermarkReachesByDistance : Obligations.WatermarkReachesByDistance := by
  intro w seq
  have hdistance : seq = w - BitVec.ofNat 32 (w - seq).toNat := by
    rw [BitVec.ofNat_toNat, BitVec.setWidth_eq, sub_sub_cancel]
  constructor
  · intro h
    rw [watermarkReaches_iff] at h
    by_cases hzero : (w - seq).toNat = 0
    · rw [hzero] at hdistance
      exact .inl (by simpa using hdistance)
    · exact .inr ⟨(w - seq).toNat, by omega, by omega, hdistance⟩
  · rintro (rfl | ⟨d, -, hd, rfl⟩)
    · simp [watermarkReaches_iff]
    · exact watermarkReaches_before w (by omega)

/-! ## Every request command goes through the intake (R86, R88, R90) -/

section

variable {c : Instr} {p : Port} {r : Request} {s : State}

/-- A request command is a HELLO, or a request with checks of its own behind the session and tag checks (R86, R90). -/
theorem requestOf_cases (h : requestOf c = some (p, r)) :
    (∃ revision fault, c = .hello p r.tag revision fault ∧ r.op = .hello revision fault) ∨
      ∃ go : State → State, ∀ s, exec c s = .next (s.request p r go) := by
  cases c with
  | hello => cases h; exact .inl ⟨_, _, rfl, rfl⟩
  | leave | read | write | mapRead | mapOpen | mapStage | mapUnstage | mapAbort | mapCommit | lockAcquire
  | lockRelease | lockRenew | lockCancel | lockQuery | notify | noticeAck | faultTake | configRead | configWrite
  | configWriteSubscribe | configWriteSlotQuota => cases h; exact .inr ⟨_, fun _ => rfl⟩
  | _ => cases h

/-- Settles O4: every request command but HELLO is a request, and those meet the session check and the tag check first. -/
theorem sessionAndTagChecksComeFirst : Obligations.SessionAndTagChecksComeFirst := by
  intro c p r hc hhello
  obtain ⟨_, _, -, hop⟩ | ⟨go, hexec⟩ := requestOf_cases hc
  · rw [hop] at hhello
    cases hhello
  · exact checkedFirst_of_request hexec

/-! ## Requests that the intake does not take (R86, R88) -/

/-- A HELLO that its intake does not take has no effect. -/
theorem exec_hello_not_taken {tag revision fault : Byte}
    (h : s.takes p { tag := tag, op := .hello revision fault } = false) :
    exec (.hello p tag revision fault) s = .next s := by
  simp [exec, execHello, h]

/-- A request command that the intake of its port does not take has no effect (log 2). -/
theorem exec_not_taken (hc : requestOf c = some (p, r)) (h : s.takes p r = false) : exec c s = .next s := by
  obtain ⟨revision, fault, rfl, hop⟩ | ⟨go, hexec⟩ := requestOf_cases hc
  · refine exec_hello_not_taken ?_
    rwa [← hop]
  · rw [hexec, request_not_taken go h]

/-- The stall conditions (R88). -/
theorem stalled_iff {P : PortState} {op : ReqOp} : P.stalled op = true ↔
    (op.isWrite = true ∧ 16 ≤ P.writeQ.length) ∨ (op.isRead = true ∧ 8 ≤ P.readL.length) ∨ P.hold.isSome = true ∨
      32 ≤ P.places := by
  simp only [PortState.stalled, Bool.or_eq_true, Bool.and_eq_true, decide_eq_true_eq, or_assoc]
  rfl

theorem takes_iff : s.takes p r = true ↔
    s.running = true ∧ (s.port p).intake.head? = some r ∧ (s.port p).stalled r.op = false := by
  simp [State.takes, and_assoc]

theorem takes_not_head (h : (s.port p).intake.head? ≠ some r) : s.takes p r = false := by
  rw [← Bool.not_eq_true, takes_iff]
  rintro ⟨-, hhead, -⟩
  exact h hhead

theorem takes_stalled (h : (s.port p).stalled r.op = true) : s.takes p r = false := by
  rw [← Bool.not_eq_true, takes_iff]
  rintro ⟨-, -, hfree⟩
  rw [h] at hfree
  cases hfree

end

/-! ## Timers that are not running (R171; log 4) -/

section

variable {s : State} {k : Lock} {l : LockRecord} {n : SlotNo}

theorem leaseRuns_iff : l.leaseRuns = true ↔ ∃ h, l.phase = .held h ∧ h.lease.isSome = true := by
  unfold LockRecord.leaseRuns
  cases l.phase <;> simp

theorem deadlineRuns_iff : l.deadlineRuns = true ↔ ∃ h, l.phase = .held h ∧ h.deadline.isSome = true := by
  unfold LockRecord.deadlineRuns
  cases l.phase <;> simp

theorem exec_editIdleExpiry_stopped (h : ∀ o, s.edit ≠ .opened o) : exec .editIdleExpiry s = .next s := by
  cases he : s.edit with
  | opened o => exact absurd he (h o)
  | absent | committing => simp [exec, execEditIdleExpiry, he]

theorem exec_leaseExpiry_stopped (h : ∀ x, (s.lock k).phase = .held x → x.lease = none) :
    exec (.leaseExpiry k) s = .next s := by
  have hstopped : ¬ (s.lock k).leaseRuns = true := by
    rw [leaseRuns_iff]
    rintro ⟨x, hx, hlease⟩
    simp [h x hx] at hlease
  exact congrArg Host.Outcome.next (if_neg hstopped)

theorem exec_yieldDeadlineExpiry_stopped (h : ∀ x, (s.lock k).phase = .held x → x.deadline = none) :
    exec (.yieldDeadlineExpiry k) s = .next s := by
  have hstopped : ¬ (s.lock k).deadlineRuns = true := by
    rw [deadlineRuns_iff]
    rintro ⟨x, hx, hdeadline⟩
    simp [h x hx] at hdeadline
  exact congrArg Host.Outcome.next (if_neg hstopped)

/-- The access timer runs as long as its slot is occupied, and a free slot has none (R108, R116). -/
theorem exec_accessTimerExpiry_free (h : (s.slot n).job = none) : exec (.accessTimerExpiry n) s = .next s := by
  simp [exec, execAccessTimerExpiry, State.takeTimeout, h]

end

/-- Settles O5: a request needs its intake to take it, and a timer's running out needs the timer to run. -/
theorem absentEventsDoNothing : Obligations.AbsentEventsDoNothing := by
  refine ⟨fun c p r s hc h => exec_not_taken hc ?_, fun s => exec_editIdleExpiry_stopped,
    fun s k => exec_leaseExpiry_stopped, fun s k => exec_yieldDeadlineExpiry_stopped,
    fun s n => exec_accessTimerExpiry_free⟩
  rcases h with hhead | hstall
  · exact takes_not_head hhead
  · exact takes_stalled (stalled_iff.mpr hstall)

end Sys2Proof.Machine

/-! # The pool bus: pieces, the slot arbiter and replies (spec/06 R106 to R118, R122; spec/05 R101, R102) -/

namespace Sys2Proof.Machine

open Sys2Proof

/-! ## The pieces of a request (R106, R107) -/

/-- A piece of a request is one part of its cut, unissued. -/
theorem makePieces_get {parts : List TransPart} {a len n : Nat} {x : Piece}
    (h : (makePieces parts a len)[n]? = some x) : ∃ y : Nat × Nat × Nat, (cutAt (len + 1) a len 0)[n]? = some y ∧
      x = { addr := BitVec.ofNat 32 y.1, pool := partAddress parts y.1, len := y.2.1, pos := y.2.2,
            cond := .unissued, data := [] } := by
  obtain ⟨y, hy, hx⟩ := Option.map_eq_some_iff.mp ((List.getElem?_map ..).symm.trans h)
  exact ⟨y, hy, hx.symm⟩

/-- Settles O17: the cut at block boundaries, each of its addresses in the shared view. -/
theorem piecesAreTheBlocks : Obligations.PiecesAreTheBlocks := by
  intro s a len hl h2 hr
  obtain ⟨hcount, hcut⟩ := cutAt_spec (len + 1) a len 0 (by omega)
  have hlength : (makePieces (s.translate a len) a len).length = (a % 64 + len + 63) / 64 := by
    rw [makePieces, List.length_map, hcount, if_neg (by omega)]
  refine ⟨hlength, fun n x hx => ?_, fun hdevice => ?_⟩
  · obtain ⟨y, hy, rfl⟩ := makePieces_get hx
    obtain ⟨hstart, hend, hpos, hmin, hmax, hlo, hhi⟩ := hcut n y hy
    have haddr : (BitVec.ofNat 32 y.1).toNat = y.1 := by
      rw [BitVec.toNat_ofNat, Nat.mod_eq_of_lt (by omega)]
    dsimp only
    rw [haddr]
    exact ⟨hstart, hend, by omega, hmin, hmax, rfl, rfl, rfl⟩
  · obtain ⟨hlen, halign⟩ := hdevice
    rw [hlength]
    rcases hlen with rfl | rfl | rfl | rfl <;> omega

/-! ## SLOT_QUOTA (R109, R122, R169) -/

theorem eligible_iff (s : State) (p : Port) :
    s.eligible p = true ↔ (s.port p).offer.isSome = true ∧ s.inFlight p < s.config.slotQuota := by
  simp [State.eligible]

section

variable {s : State} {p : Port} {r : Request} {item index : Byte} {value : Word}

theorem writeGlobal_locked (h : s.holds p 0 = false) :
    s.writeGlobal p r item index value = s.respond p (r.response .locked .empty) := by simp [State.writeGlobal, h]

theorem writeGlobal_outside (h : s.holds p 0 = true) (hv : s.config.write item value.toNat = none) :
    s.writeGlobal p r item index value = s.respond p (r.response .badArg .empty) := by
  simp [State.writeGlobal, h, hv]

theorem writeGlobal_inside {c : ConfigTable} (h : s.holds p 0 = true)
    (hv : s.config.write item value.toNat = some c) : s.writeGlobal p r item index value =
      { s.respond p (r.response .ok (.config item index value)) with config := c } := by
  simp only [State.writeGlobal, h, hv]
  rfl

end

theorem write_slotQuota (c : ConfigTable) (v : Nat) :
    c.write 7#8 v = if 1 ≤ v ∧ v ≤ 8 then some { c with slotQuota := v } else none := rfl

theorem exec_configWriteSlotQuota (p : Port) (tag index : Byte) (value : Word) (s : State) :
    exec (.configWriteSlotQuota p tag index value) s =
      .next (s.request p { tag := tag, op := .configWrite 7#8 index value } fun t =>
        t.writeGlobal p { tag := tag, op := .configWrite 7#8 index value } 7#8 index value) := rfl

/-- An answer does not bear on what a port offers. -/
theorem offer_answeredNow (s : State) (p q : Port) (x : Response) :
    ((s.answeredNow p x).port q).offer = (s.port q).offer := by
  rw [State.answeredNow, State.port_setPort]
  split
  next e => subst e; rfl
  · rfl

/-- Settles O41: lock 0, then the range; eligibility compares with the item as it stands. -/
theorem slotQuotaWriteAnswers : Obligations.SlotQuotaWriteAnswers := by
  intro p tag index value s h
  have hanswered : ∀ st body, (s.takenOpen p tag).respond p
      (Request.response { tag := tag, op := .configWrite 7#8 index value } st body) = s.answeredNow p
      { code := 0x3D#8, tag := tag, status := st, body := body } := fun _ _ => takenOpen_respond _ h rfl
  have hholds : (s.takenOpen p tag).holds p 0 = s.holds p 0 := rfl
  rw [exec_configWriteSlotQuota, request_ready _ h]
  dsimp only
  refine ⟨fun hno => ?_, fun hyes hv => ?_, fun hyes hlo hhi => ?_⟩
  · rw [writeGlobal_locked (hholds.trans hno), hanswered]
  · rw [writeGlobal_outside (value := value) (hholds.trans hyes) (by rw [write_slotQuota, if_neg (by omega)]), hanswered]
  · rw [writeGlobal_inside (hholds.trans hyes) (by rw [write_slotQuota, if_pos ⟨hlo, hhi⟩]), hanswered]
    refine ⟨_, rfl, rfl, fun q => ?_⟩
    rw [eligible_iff, ← offer_answeredNow s p q]
    rfl

/-! ## Replies (R112 to R117) -/

theorem exec_replyDone (slot issue : Byte) (data : List Byte) (s : State) :
    exec (.replyDone slot issue data) s = .next (match s.answered slot issue with
      | some (n, j) => s.takeDone n j data
      | none => s) := rfl

theorem exec_replyError (slot issue : Byte) (data : List Byte) (s : State) :
    exec (.replyError slot issue data) s = .next (match s.answered slot issue with
      | some (n, j) => s.endJob n j (.failed .targetError)
      | none => s) := rfl

theorem exec_replyRetry (slot issue : Byte) (data : List Byte) (s : State) :
    exec (.replyRetry slot issue data) s = .next (match s.answered slot issue with
      | some (n, j) => s.takeRetry n j data
      | none => s) := rfl

/-- A reply that answers no current issue is ignored, whatever its kind (R112). -/
theorem exec_reply_ignored {slot issue : Byte} {s : State} (data : List Byte) (h : s.answered slot issue = none) :
    exec (.replyDone slot issue data) s = .next s ∧ exec (.replyError slot issue data) s = .next s ∧
      exec (.replyRetry slot issue data) s = .next s := by
  rw [exec_replyDone, exec_replyError, exec_replyRetry, h]
  exact ⟨rfl, rfl, rfl⟩

section

variable {s : State} {n : SlotNo} {j : Job} {data : List Byte}

theorem fits_read (h : j.dir = .read) : j.fits data = true ↔ data.length = j.len := by simp [Job.fits, h]

theorem fits_write (h : j.dir = .write) : j.fits data = true ↔ data = [] := by simp [Job.fits, h]

theorem takeDone_fits (h : j.fits data = true) : s.takeDone n j data = s.endJob n j (.well data) := if_pos h

theorem takeDone_unfit (h : ¬ j.fits data = true) : s.takeDone n j data = s.endJob n j (.failed .targetError) :=
  if_neg h

theorem takeRetry_data (h : data ≠ []) : s.takeRetry n j data = s.endJob n j (.failed .targetError) := by
  simp [State.takeRetry, h]

theorem takeRetry_again (h : j.retries < j.retryLimit) :
    s.takeRetry n j [] = s.issue n { j with retries := j.retries + 1 } := by simp [State.takeRetry, h]

end

/-- Settles O47: a reply answers the current issue or nothing, and content that does not fit is an ERROR. -/
theorem repliesAreMatchedToIssues : Obligations.RepliesAreMatchedToIssues := by
  refine ⟨fun slot issue data s h => exec_reply_ignored data (answered_none h),
    fun n slot issue data j s hslot hjob hissue => ?_⟩
  simp only [exec_replyDone, exec_replyError, exec_replyRetry]
  by_cases hrun : s.running = true
  · simp only [answered_current hrun hslot hjob hissue]
    refine ⟨fun hdata => by rw [takeRetry_data hdata]; simp, fun hunfit => ?_⟩
    rw [takeDone_unfit]
    rcases hunfit with ⟨hdir, hlen⟩ | ⟨hdir, hdata⟩
    · rwa [fits_read hdir]
    · rwa [fits_write hdir]
  · simp only [answered_off (by simpa using hrun)]
    simp

/-- Settles O48: with retries left the slot's job is issued once more. -/
theorem retryIssuesAgain : Obligations.RetryIssuesAgain := by
  intro n slot issue j s hrun hslot hjob hissue hleft
  rw [exec_replyRetry, answered_current hrun hslot hjob hissue]
  dsimp only
  rw [takeRetry_again hleft, State.issue, hissue]

/-! ## What a port offers (R101, R102) -/

theorem findIdx?_unissued_none {ps : List Piece} :
    firstUnissued ps = none ↔ ∀ x ∈ ps, x.cond ≠ .unissued := by
  simp [firstUnissued, List.findIdx?_eq_none_iff]

theorem firstUnissued_of_next {ps : List Piece} {n : Nat} (h : nextUnissued ps n) : firstUnissued ps = some n := by
  obtain ⟨⟨x, hx, hcond⟩, hbefore⟩ := h
  obtain ⟨hn, rfl⟩ := List.getElem?_eq_some_iff.mp hx
  rw [firstUnissued, List.findIdx?_eq_some_iff_getElem]
  refine ⟨hn, by simpa using hcond, fun i hi => ?_⟩
  simpa using hbefore i _ hi (List.getElem?_eq_getElem (by omega))

/-- A write has no piece to issue exactly when it is spent (R102). -/
theorem write_nextPiece_none {w : WriteEntry} : w.nextPiece = none ↔ spent w.pieces w.failed.isSome := by
  unfold WriteEntry.nextPiece spent
  split
  next h => simp [h]
  next h => simp [h, findIdx?_unissued_none]

/-- A read has none when it is spent, a cut read among them (R102, R104). -/
theorem read_nextPiece_none {e : ReadEntry} : e.nextPiece = none ↔ spent e.pieces (e.failed.isSome || e.cut) := by
  unfold ReadEntry.nextPiece spent
  split
  next h => simp [h]
  next h => simp only [h, findIdx?_unissued_none]; simp

theorem write_nextPiece {w : WriteEntry} {m : Nat} (hw : w.failed = none) (h : nextUnissued w.pieces m) :
    w.nextPiece = some m := by simp [WriteEntry.nextPiece, hw, firstUnissued_of_next h]

theorem read_nextPiece {e : ReadEntry} {m : Nat} (hf : e.failed = none) (hc : e.cut = false)
    (h : nextUnissued e.pieces m) : e.nextPiece = some m := by
  simp [ReadEntry.nextPiece, hf, hc, firstUnissued_of_next h]

section

variable {P : PortState}

theorem nextWrite_none (h : ∀ w ∈ P.writeQ, spent w.pieces w.failed.isSome) : P.nextWrite = none := by
  simpa [PortState.nextWrite, write_nextPiece_none] using h

theorem nextRead_none (h : ∀ e ∈ P.readL, spent e.pieces (e.failed.isSome || e.cut)) : P.nextRead = none := by
  simpa [PortState.nextRead, read_nextPiece_none] using h

theorem nextWrite_first {w : WriteEntry} {before after : List WriteEntry} {m : Nat}
    (hq : P.writeQ = before ++ w :: after) (hw : w.nextPiece = some m)
    (hbefore : ∀ y ∈ before, spent y.pieces y.failed.isSome) : P.nextWrite = some w :=
  find_split _ hq (fun y hy => by simpa [write_nextPiece_none] using hbefore y hy) (by simp [hw])

theorem nextRead_first {e : ReadEntry} {before after : List ReadEntry} {m : Nat}
    (hl : P.readL = before ++ e :: after) (he : e.nextPiece = some m)
    (hbefore : ∀ y ∈ before, spent y.pieces (y.failed.isSome || y.cut)) : P.nextRead = some e :=
  find_split _ hl (fun y hy => by simpa [read_nextPiece_none] using hbefore y hy) (by simp [he])

theorem nextWrite_unspent {w : WriteEntry} (h : P.nextWrite = some w) :
    w ∈ P.writeQ ∧ ¬ spent w.pieces w.failed.isSome := by
  refine ⟨List.mem_of_find?_eq_some h, fun hspent => ?_⟩
  have hnext := List.find?_some h
  rw [write_nextPiece_none.mpr hspent] at hnext
  cases hnext

theorem nextRead_unspent {e : ReadEntry} (h : P.nextRead = some e) :
    e ∈ P.readL ∧ ¬ spent e.pieces (e.failed.isSome || e.cut) := by
  refine ⟨List.mem_of_find?_eq_some h, fun hspent => ?_⟩
  have hnext := List.find?_some h
  rw [read_nextPiece_none.mpr hspent] at hnext
  cases hnext

theorem offer_nothing (hw : P.nextWrite = none) (hr : P.nextRead = none) : P.offer = none := by
  simp [PortState.offer, hw, hr]

/-- The earliest write is offered unless a read was accepted before it (R101). -/
theorem offer_write {w : WriteEntry} {m : Nat} (hw : P.nextWrite = some w) (hm : w.nextPiece = some m)
    (hr : ∀ e, P.nextRead = some e → watermarkReaches e.fence w.seq = true) : P.offer = some (.write w.seq, m) := by
  cases hread : P.nextRead with
  | none => simp [PortState.offer, hw, hread, hm]
  | some e => simp [PortState.offer, hw, hread, hm, hr e hread]

/-- The earliest read is offered, once its fence is reached, unless a write was accepted before it (R101). -/
theorem offer_read {e : ReadEntry} {m : Nat} (hr : P.nextRead = some e) (hm : e.nextPiece = some m)
    (hw : ∀ w, P.nextWrite = some w → watermarkReaches e.fence w.seq = false) :
    P.offer = if watermarkReaches P.watermark e.fence = true then some (.read e.tag, m) else none := by
  have hoffer : P.offer = P.offerRead e := by
    cases hwrite : P.nextWrite with
    | none => simp [PortState.offer, hr, hwrite]
    | some w => simp [PortState.offer, hr, hwrite, hw w hwrite]
  rw [hoffer, PortState.offerRead, hm]
  rfl

end

/-! ## The slot arbiter (R109 to R111) -/

theorem exec_slotArbiterRun (s : State) :
    exec .slotArbiterRun s = .next (if s.running then s.arbiterRun else s) := rfl

/-- With no free slot, or nobody to serve, a run does nothing (R110). -/
theorem arbiterRun_idle {s : State} (h : (∀ n, (s.slot n).job ≠ none) ∨ ∀ p, s.eligible p = false) :
    s.arbiterRun = s := by
  rcases h with hfull | hnobody
  · have hslot : s.freeSlot = none := by
      rw [State.freeSlot, List.find?_eq_none]
      exact fun n _ => by simpa using hfull n
    simp [State.arbiterRun, hslot]
  · have hport : s.arbiterOrder.find? s.eligible = none := by
      rw [List.find?_eq_none]
      exact fun p _ => by simp [hnobody p]
    simp [State.arbiterRun, hport]

theorem freeSlot_lowest {s : State} {n : SlotNo} (hfree : (s.slot n).job = none)
    (hlow : ∀ l, l < n → (s.slot l).job ≠ none) : s.freeSlot = some n := by
  have hslots : allSlots = List.finRange 8 := by decide
  rw [State.freeSlot, hslots]
  have hsplit : List.finRange 8 = (List.finRange 8).take n.val ++ n :: (List.finRange 8).drop (n.val + 1) := by
    fin_cases n <;> rfl
  refine find_split _ hsplit (fun l hl => ?_) (by simp [hfree])
  obtain ⟨i, hi, rfl⟩ := List.mem_take_iff_getElem.mp hl
  have hlt : (List.finRange 8)[i] < n := by
    simp only [List.getElem_finRange, Fin.lt_def, Fin.val_cast]
    omega
  exact Option.isNone_eq_false_iff.mpr (Option.isSome_iff_ne_none.mpr (hlow _ hlt))

/-- The part with piece m of a request of port p issued in slot n, and the pointer at the port (R110, R111). -/
def State.served (s : State) (n : SlotNo) (p : Port) (ref : ReqRef) (m : Nat) (x : Piece) : State :=
  { (s.issue n (s.firstJob p ref m x)).onPort p (fun P => P.onPiece ref m (fun y => { y with cond := .inFlight }))
    with rr := p }

theorem port_served (s : State) (n : SlotNo) (p : Port) (ref : ReqRef) (m : Nat) (x : Piece) (q : Port) :
    (s.served n p ref m x).port q =
      if q = p then (s.port p).onPiece ref m (fun y => { y with cond := .inFlight }) else s.port q :=
  State.port_onPort (s.issue n (s.firstJob p ref m x)) p q
    (fun P => P.onPiece ref m (fun y => { y with cond := .inFlight }))

/-- The port that is served has its offered piece issued in the slot that is free (R110, R111). -/
theorem arbiterRun_serves {s : State} {n : SlotNo} {p : Port} {ref : ReqRef} {m : Nat} {x : Piece}
    (hslot : s.freeSlot = some n) (hport : s.arbiterOrder.find? s.eligible = some p)
    (hoffer : (s.port p).offer = some (ref, m)) (hx : ((s.port p).piecesOf ref)[m]? = some x) :
    s.arbiterRun = s.served n p ref m x := by
  simp only [State.arbiterRun, hslot, hport, hoffer, hx, State.served]

/-- Settles O46: the run of the arbiter, and what a port offers by the first entries of its queues that are not spent. -/
theorem arbiterServesInTurn : Obligations.ArbiterServesInTurn := by
  refine ⟨fun s h => ?_, fun s n turn p ref m x hrun hfree hlow hp helig hnobody hoffer hx => ?_, fun s p => ?_,
    fun P hw hr => offer_nothing (nextWrite_none hw) (nextRead_none hr),
    fun P w before after m hq hw hnext hbefore hreads => ?_,
    fun P e before after m hl hf hc hnext hbefore hwrites => ?_⟩
  · rw [exec_slotArbiterRun, arbiterRun_idle h, ite_self]
  · rw [exec_slotArbiterRun, if_pos hrun,
      arbiterRun_serves (freeSlot_lowest hfree hlow) (arbiterOrder_find hp helig hnobody) hoffer hx]
    exact ⟨_, rfl, rfl, State.slot_setSlot_same .., fun l hl => (State.slot_setSlot ..).trans (if_neg hl), rfl,
      (port_served ..).trans (if_pos rfl), fun q hq => (port_served ..).trans (if_neg hq), rfl, rfl, rfl, rfl, rfl⟩
  · rw [eligible_iff, Option.isSome_iff_ne_none]
  · have hm := write_nextPiece hw hnext
    refine offer_write (nextWrite_first hq hm hbefore) hm fun e he => ?_
    obtain ⟨hmem, hunspent⟩ := nextRead_unspent he
    exact by_contra fun hno => hunspent (hreads e hmem (by simpa using hno))
  · have hm := read_nextPiece hf hc hnext
    refine offer_read (nextRead_first hl hm hbefore) hm fun w hw => ?_
    obtain ⟨hmem, hunspent⟩ := nextWrite_unspent hw
    exact by_contra fun hno => hunspent (hwrites w hmem (by simpa using hno))

/-! ## The end of a piece (R113 to R118) -/

/-- The part with slot n free and the abort transfer as given; nothing has reached the request yet (R108). -/
def State.freed (s : State) (n : SlotNo) (abort : Option AbortTransfer) : State :=
  ({ s with busAbort := abort } : State).releaseSlot n

section

variable {s : State} {n : SlotNo} {j : Job} {abort : Option AbortTransfer}

@[simp] theorem port_freed (q : Port) : (s.freed n abort).port q = s.port q := rfl

@[simp] theorem lock_freed (k : Lock) : (s.freed n abort).lock k = s.lock k := rfl

theorem slot_freed (m : SlotNo) :
    (s.freed n abort).slot m = if m = n then { issueNo := (s.slot n).issueNo, job := none } else s.slot m :=
  State.slot_setSlot ..

theorem endJob_freed (e : Ending) :
    ({ s with busAbort := abort } : State).endJob n j e = (s.freed n abort).endPiece j e := rfl

/-- The slot with its issue number written out, and the request's list changed: as the claims say it. -/
theorem freed_onPort (p : Port) (f : PortState → PortState) (issue : Byte) (h : (s.slot n).issueNo = issue) :
    (s.freed n abort).onPort p f =
      { (s.setSlot n { issueNo := issue, job := none }).onPort p f with busAbort := abort } := by
  subst h; rfl

end

theorem pieceAddr_get {ps : List Piece} {n : Nat} {x : Piece} (h : ps[n]? = some x) : pieceAddr ps n = x.addr := by
  simp [pieceAddr, h]

/-- The pieces of a request after the end of one of them. -/
theorem updatePiece_ended {ps : List Piece} {n : Nat} {x : Piece} (f : Piece → Piece) (h : ps[n]? = some x) :
    (updatePiece ps n f)[n]? = some (f x) ∧ ∀ i, i ≠ n → (updatePiece ps n f)[i]? = ps[i]? := by
  refine ⟨by rw [updatePiece_get, if_pos rfl, h]; rfl, fun i hi => by rw [updatePiece_get, if_neg hi]⟩

/-- A piece that is still to be issued keeps its request open while it issues (R118). -/
theorem workDone_unissued {ps : List Piece} {m : Nat} {y : Piece} (h : ps[m]? = some y) (hy : y.cond = .unissued) :
    workDone ps false = false := by
  have hleft : ps.all (fun x => x.cond != .unissued) = false := by
    rw [List.all_eq_false]
    exact ⟨y, List.mem_of_getElem? h, by simp [hy]⟩
  simp [workDone, hleft]

section

variable {s : State} {n : SlotNo} {abort : Option AbortTransfer} {j : Job} {e : Ending}

theorem endPiece_write_open {seq : Word} {w : WriteEntry} (href : j.ref = .write seq)
    (hw : (s.port j.port).writeQ.find? (fun e => e.seq == seq) = some w)
    (hopen : workDone (w.ended j.piece e).pieces (w.ended j.piece e).failed.isSome = false) :
    (s.freed n abort).endPiece j e =
      (s.freed n abort).onPort j.port (·.onWrite seq (fun _ => w.ended j.piece e)) := by
  simp only [State.endPiece, href, port_freed, hw, hopen]
  rfl

theorem endPiece_read_open {tag : Byte} {r : ReadEntry} (href : j.ref = .read tag)
    (hr : (s.port j.port).readL.find? (fun r => r.tag == tag) = some r)
    (hopen : workDone (r.ended j.piece e).pieces ((r.ended j.piece e).failed.isSome || (r.ended j.piece e).cut) = false) :
    (s.freed n abort).endPiece j e =
      (s.freed n abort).onPort j.port (·.onRead tag (fun _ => r.ended j.piece e)) := by
  simp only [State.endPiece, href, port_freed, hr, hopen]
  rfl

end

/-- Settles O49: the other piece keeps the request open, so only the piece's own record changes. -/
theorem doneEndsThePiece : Obligations.DoneEndsThePiece := by
  intro n slot issue data j x y m s hrun hslot hjob hissue hm
  have hdone : j.fits data = true →
      exec (.replyDone slot issue data) s = .next ((s.freed n s.busAbort).endPiece j (.well data)) := fun hfits => by
    rw [exec_replyDone, answered_current hrun hslot hjob hissue]
    dsimp only
    rw [takeDone_fits hfits]
    rfl
  refine ⟨fun tag e hdir hlen href he hx hy hcond => ?_, fun seq w hdir hdata href hw hx hy hcond hempty => ?_⟩
  · obtain ⟨hpiece, hothers⟩ := updatePiece_ended ((Ending.well data).mark e.failed.isSome) hx
    refine ⟨e.ended j.piece (.well data), hpiece, hothers, rfl, ?_⟩
    have hother : (e.ended j.piece (.well data)).pieces[m]? = some y := (hothers m hm).trans hy
    have hopen : workDone (e.ended j.piece (.well data)).pieces (e.failed.isSome || e.cut) = false := by
      rcases hcond with hflight | ⟨hunissued, hfailed, hcut⟩
      · exact workDone_inFlight hother hflight _
      · rw [hfailed, hcut]; exact workDone_unissued hother hunissued
    rw [hdone ((fits_read hdir).mpr hlen), endPiece_read_open href he hopen, freed_onPort _ _ issue hissue]
    rfl
  · obtain ⟨hpiece, hothers⟩ := updatePiece_ended ((Ending.well data).mark w.failed.isSome) hx
    refine ⟨w.ended j.piece (.well data), hpiece.trans ?_, hothers, rfl, ?_⟩
    · simp [Ending.mark, hempty, hdata]
    have hother : (w.ended j.piece (.well data)).pieces[m]? = some y := (hothers m hm).trans hy
    have hopen : workDone (w.ended j.piece (.well data)).pieces w.failed.isSome = false := by
      rcases hcond with hflight | ⟨hunissued, hfailed⟩
      · exact workDone_inFlight hother hflight _
      · rw [hfailed]; exact workDone_unissued hother hunissued
    rw [hdone ((fits_write hdir).mpr hdata), endPiece_write_open href hw hopen, freed_onPort _ _ issue hissue]
    rfl

/-- Settles O51: the piece in flight keeps the request open, so the failure is recorded and nothing else happens. -/
theorem pieceFailureIsRecorded : Obligations.PieceFailureIsRecorded := by
  intro n slot issue j x y m sub c s hrun hslot hjob hissue hfails hm hflight
  rw [exec_failsBy hrun hslot hjob hissue hfails, endJob_freed]
  refine ⟨fun seq w href hw hx hy => ?_, fun tag e href he hx hy => ?_⟩
  · obtain ⟨hpiece, hothers⟩ := updatePiece_ended ((Ending.failed sub).mark w.failed.isSome) hx
    refine ⟨w.ended j.piece (.failed sub), hpiece, hothers, by rw [← pieceAddr_get hx]; rfl, ?_⟩
    rw [endPiece_write_open href hw (workDone_inFlight ((hothers m hm).trans hy) hflight _),
      freed_onPort _ _ issue hissue]
    rfl
  · obtain ⟨hpiece, hothers⟩ := updatePiece_ended ((Ending.failed sub).mark e.failed.isSome) hx
    refine ⟨e.ended j.piece (.failed sub), hpiece, hothers, by rw [← pieceAddr_get hx]; rfl, ?_⟩
    rw [endPiece_read_open href he (workDone_inFlight ((hothers m hm).trans hy) hflight _),
      freed_onPort _ _ issue hissue]
    rfl

end Sys2Proof.Machine

/-! # The end of an event in which a request completes (spec/05 R98, R99, R104; spec/02 R36, R39; spec/09 R156, R159) -/

namespace Sys2Proof.Machine

open Sys2Proof

/-! ## What fired watches make of a port -/

/-- What handoffs and fired NOTIFYs of an event make of a port: its work and its reports are kept, responses are added,
none of them to a MAP_COMMIT, tags become free, items other than REVISION are raised; and of a port out of contact only the
notifications change. -/
structure PortState.FiredTo (P Q : PortState) : Prop where
  kept : Q.kept = P.kept
  leave : Q.pendingLeave = P.pendingLeave
  tags : Q.tags ⊆ P.tags
  answers : ∃ new, Q.respQ = P.respQ ++ new ∧ ∀ x ∈ new, x.code ≠ 0x15#8
  revision : ∀ v, .revision v ∈ Q.events ↔ .revision v ∈ P.events
  fault : .fault ∈ P.events → .fault ∈ Q.events
  away : P.inContact = false → ∃ notes notices number,
    Q = { P with notes := notes, notices := notices, noticeSeq := number }

theorem PortState.FiredTo.refl (P : PortState) : P.FiredTo P :=
  ⟨rfl, rfl, List.Subset.refl _, ⟨[], by simp, by simp⟩, fun _ => Iff.rfl, id, fun _ => ⟨_, _, _, rfl⟩⟩

theorem inContact_of_kept {P Q : PortState} (h : Q.kept = P.kept) : Q.inContact = P.inContact := by
  unfold PortState.inContact
  rw [kept_session h]

theorem PortState.FiredTo.trans {P Q R : PortState} (h : P.FiredTo Q) (g : Q.FiredTo R) : P.FiredTo R := by
  obtain ⟨new, hnew, hcode⟩ := h.answers
  obtain ⟨later, hlater, gcode⟩ := g.answers
  refine ⟨g.kept.trans h.kept, g.leave.trans h.leave, fun _ ht => h.tags (g.tags ht),
    ⟨new ++ later, by rw [hlater, hnew, List.append_assoc], fun x hx => ?_⟩, fun v => (g.revision v).trans (h.revision v),
    fun hf => g.fault (h.fault hf), fun haway => ?_⟩
  · exact (List.mem_append.mp hx).elim (hcode x) (gcode x)
  · obtain ⟨_, _, _, hQ⟩ := h.away haway
    obtain ⟨_, _, _, hR⟩ := g.away ((inContact_of_kept h.kept).trans haway)
    exact ⟨_, _, _, by rw [hR, hQ]⟩

/-- An item of another key is in an event set after a raise exactly when it was before (R139). -/
theorem mem_raiseInto_other {it e : Item} (h : it.sameKey e = false) (l : List Item) :
    e ∈ raiseInto it l ↔ e ∈ l := by
  have hself : it.sameKey it = true := (sameKey_iff it it).mpr rfl
  have hne : e ≠ it := fun he => by rw [he, hself] at h; cases h
  unfold raiseInto
  split
  · rw [List.mem_map]
    constructor
    · rintro ⟨a, ha, rfl⟩
      split at hne <;> simp_all
    · exact fun he => ⟨e, he, by simp [h]⟩
  · simp [hne]

theorem fault_mem_raiseInto (it : Item) {l : List Item} (h : .fault ∈ l) : .fault ∈ raiseInto it l := by
  by_cases hkey : it.sameKey .fault = true
  · have hit : it = .fault := by
      rw [sameKey_iff] at hkey
      cases it with
      | fault => rfl
      | grant | revoked | yield | notice | revision | editExpired => cases hkey
    rw [hit]
    exact self_mem_raiseInto _ l
  · exact (mem_raiseInto_other (by simpa using hkey) l).mpr h

theorem fault_mem_raise (it : Item) {P : PortState} (h : .fault ∈ P.events) : .fault ∈ (P.raise it).events := by
  unfold PortState.raise
  split
  · exact fault_mem_raiseInto it h
  · exact h

theorem firedTo_raise (P : PortState) {it : Item} (h : ∀ v, it.sameKey (.revision v) = false) :
    P.FiredTo (P.raise it) := by
  obtain ⟨hkept, hresp, hleave, htags⟩ := kept_raise P it
  refine ⟨hkept, hleave, by rw [htags]; exact List.Subset.refl _, ⟨[], by simp [hresp], by simp⟩, fun v => ?_,
    fault_mem_raise it, fun haway => ⟨_, _, _, by rw [raise_away it haway]⟩⟩
  unfold PortState.raise
  split
  · exact mem_raiseInto_other (h v) P.events
  · rfl

theorem firedTo_respond {P : PortState} (hcontact : P.inContact = true) {x : Response} (h : x.code ≠ 0x15#8) :
    P.FiredTo (P.respond x) :=
  ⟨rfl, rfl, List.filter_subset_self _, ⟨[x], rfl, by simpa using h⟩, fun _ => Iff.rfl, id,
    fun haway => by rw [hcontact] at haway; cases haway⟩

/-- Every port is as fired watches make it. -/
def FiredPorts (s t : State) : Prop := ∀ q, (s.port q).FiredTo (t.port q)

theorem FiredPorts.refl (s : State) : FiredPorts s s := fun _ => .refl _

theorem FiredPorts.trans {s t u : State} (h : FiredPorts s t) (g : FiredPorts t u) : FiredPorts s u :=
  fun q => (h q).trans (g q)

theorem firedPorts_ports {s t : State} (h : t.ports = s.ports) : FiredPorts s t := fun q => by
  rw [State.port, State.port, h]; exact .refl _

theorem firedPorts_onPort {s : State} {p : Port} {f : PortState → PortState} (h : (s.port p).FiredTo (f (s.port p))) :
    FiredPorts s (s.onPort p f) := fun q => by
  rw [State.port_onPort]
  split
  next e => subst e; exact h
  · exact .refl _

theorem firedPorts_raise (s : State) (p : Port) {it : Item} (h : ∀ v, it.sameKey (.revision v) = false) :
    FiredPorts s (s.raise p it) := firedPorts_onPort (firedTo_raise _ h)

theorem firedPorts_respondDue (s : State) (p : Port) {x : Response} (h : x.code ≠ 0x15#8) :
    FiredPorts s (s.respondDue p x) := by
  unfold State.respondDue
  split
  next hcontact => exact firedPorts_onPort (firedTo_respond hcontact h)
  · exact .refl s

theorem firedPorts_askYield (s : State) (k : Lock) : FiredPorts s (s.askYield k) := by
  unfold State.askYield
  split
  · split
    · exact FiredPorts.trans (t := s.setLock k _) (firedPorts_ports rfl) (firedPorts_raise _ _ fun _ => rfl)
    · exact .refl s
  · exact .refl s

theorem firedPorts_passLock (s : State) (k : Lock) : FiredPorts s (s.passLock k) := by
  unfold State.passLock
  split
  · exact (FiredPorts.trans (t := s.setLock k _) (firedPorts_ports rfl) (firedPorts_raise _ _ fun _ => rfl)).trans
      (firedPorts_askYield _ k)
  · exact firedPorts_ports rfl

theorem firedPorts_handoff (s : State) (k : Lock) : FiredPorts s (s.handoff k) := by
  unfold State.handoff
  split
  · split
    · exact (firedPorts_passLock s k).trans (firedPorts_respondDue _ _ (by simp))
    · exact firedPorts_passLock s k
  · exact .refl s

theorem firedPorts_fireNote (s : State) (p : Port) (n : Note) : FiredPorts s (s.fireNote p n) := by
  unfold State.fireNote
  split
  · exact firedPorts_respondDue _ _ (by simp)
  · unfold State.appendNotice
    have hentry : ∀ notices number, (s.port n.target).FiredTo
        { s.port n.target with notices := notices, noticeSeq := number } := fun _ _ =>
      ⟨rfl, rfl, List.Subset.refl _, ⟨[], by simp, by simp⟩, fun _ => Iff.rfl, id, fun _ => ⟨_, _, _, rfl⟩⟩
    exact ((firedPorts_onPort (hentry _ _)).trans (firedPorts_respondDue _ _ (by simp))).trans
      (firedPorts_raise _ _ fun _ => rfl)

theorem firedPorts_fireNextNote (s : State) (p : Port) : FiredPorts s (s.fireNextNote p) := by
  unfold State.fireNextNote
  split
  next n _ =>
    have hgone : (s.port p).FiredTo { s.port p with notes := (s.port p).notes.erase n } :=
      ⟨rfl, rfl, List.Subset.refl _, ⟨[], by simp, by simp⟩, fun _ => Iff.rfl, id, fun _ => ⟨_, _, _, rfl⟩⟩
    exact (firedPorts_onPort hgone).trans (firedPorts_fireNote _ p n)
  · exact .refl s

theorem firedPorts_runTask (s : State) (p : Port) {x : Task} (h : x.fires) : FiredPorts s (s.runTask p x) := by
  cases x with
  | handoff k => exact firedPorts_handoff s k
  | note => exact firedPorts_fireNextNote s p
  | commit | revoke | release => cases h

theorem rest_runTask_fires (s : State) (p : Port) {x : Task} (h : x.fires) : (s.runTask p x).rest = s.rest := by
  cases x with
  | handoff k => exact rest_handoff s k
  | note => exact rest_fireNextNote s p
  | commit | revoke | release => cases h

/-! ## Locks that are passed on in an event (R57, R98) -/

/-- Each lock is in the phase it was in, or was RELEASING and has been passed on. -/
def HandedOn (s t : State) : Prop := ∀ k, (t.lock k).phase = (s.lock k).phase ∨
  ((∃ r, (s.lock k).phase = .releasing r) ∧ ∀ r, (t.lock k).phase ≠ .releasing r)

theorem handedOn_locks {s t : State} (h : t.locks = s.locks) : HandedOn s t := fun k => .inl (by rw [lock_of_locks h])

theorem HandedOn.trans {s t u : State} (h : HandedOn s t) (g : HandedOn t u) : HandedOn s u := fun k => by
  rcases h k with hsame | ⟨hwas, hpassed⟩
  · simpa only [hsame] using g k
  · rcases g k with gsame | ⟨⟨r, hr⟩, -⟩
    · exact .inr ⟨hwas, fun r => by rw [gsame]; exact hpassed r⟩
    · exact absurd hr (hpassed r)

theorem handedOn_handoff (s : State) (j : Lock) : HandedOn s (s.handoff j) := fun k => by
  by_cases hwas : ∃ r, (s.lock k).phase = .releasing r
  · by_cases e : k = j
    · subst e; exact .inr ⟨hwas, handoff_releasing s k⟩
    · exact .inl (by rw [lock_handoff_ne s j k e])
  · exact .inl (by rw [handoff_same s k j fun r hr => hwas ⟨r, hr⟩])

theorem handedOn_runTask (s : State) (p : Port) {x : Task} (h : x.fires) : HandedOn s (s.runTask p x) := by
  cases x with
  | handoff k => exact handedOn_handoff s k
  | note => exact handedOn_locks (locks_fireNextNote s p)
  | commit | revoke | release => cases h

/-- Inside an event a port holds a lock as it did before, or as it does after it. -/
theorem HandedOn.holds {s t u : State} (h : HandedOn s t) (g : HandedOn t u) (q : Port) (k : Lock) :
    t.holds q k = s.holds q k ∨ t.holds q k = u.holds q k := by
  unfold State.holds
  rcases h k with hsame | ⟨-, hpassed⟩
  · exact .inl (by rw [hsame])
  · rcases g k with gsame | ⟨⟨r, hr⟩, -⟩
    · exact .inr (by rw [gsame])
    · exact absurd hr (hpassed r)

/-! ## The session logic's tests (R98, R156, R159) -/

/-- In a fold over the ports each port meets its own turn with the record it had at the start. -/
theorem port_foldl_turn {f : State → Port → State} (hother : ∀ s p q, p ≠ q → (f s q).port p = s.port p)
    (hrest : ∀ s q, (f s q).rest = s.rest) {l : List Port} (hl : l.Nodup) {p : Port} (hp : p ∈ l) (s : State) :
    ∃ u : State, u.port p = s.port p ∧ u.rest = s.rest ∧ (l.foldl f s).port p = (f u p).port p := by
  have others : ∀ (l : List Port) (s : State), p ∉ l → (l.foldl f s).port p = s.port p := by
    intro l
    induction l with
    | nil => exact fun _ _ => rfl
    | cons q l ih =>
      intro s h
      rw [List.mem_cons, not_or] at h
      exact (ih _ h.2).trans (hother s p q h.1)
  induction l generalizing s with
  | nil => cases hp
  | cons q l ih =>
    obtain ⟨hq, hnodup⟩ := List.nodup_cons.mp hl
    by_cases hpq : p = q
    · subst hpq
      exact ⟨s, rfl, rfl, others l _ hq⟩
    · obtain ⟨u, hport, hu, hresult⟩ := ih hnodup ((List.mem_cons.mp hp).resolve_left hpq) (f s q)
      exact ⟨u, hport.trans (hother s p q hpq), hu.trans (hrest s q), hresult⟩

/-- What the tests make of a port: its own two, in a part that differs from this one only in other ports and locks. -/
theorem port_sessionTests_turn (s : State) (p : Port) : ∃ u : State, u.port p = s.port p ∧ u.rest = s.rest ∧
    s.sessionTests.port p = ((u.leaveTest p).closingTest p).port p :=
  port_foldl_turn (fun _ _ _ h => (port_closingTest_other _ h).trans (port_leaveTest_other _ h)) (fun _ _ => by simp)
    (by decide) (mem_allPorts p) s

theorem slots_of_rest {s t : State} (h : t.rest = s.rest) : t.slots = s.slots := device_slots (rest_device h)

section

variable {s t : State} {p : Port}

theorem leaveDue_congr (hport : t.port p = s.port p) (hslots : t.slots = s.slots) : t.leaveDue p = s.leaveDue p := by
  unfold State.leaveDue
  rw [hport, inFlight_slots hslots]

theorem quiet_congr (hport : t.port p = s.port p) (hslots : t.slots = s.slots) : t.quiet p = s.quiet p := by
  unfold State.quiet
  rw [hport, inFlight_slots hslots]

/-- A port with no LEAVE response due is left alone by the first test. -/
theorem leaveTest_not_due (h : s.leaveDue p = false) : s.leaveTest p = s := by
  unfold State.leaveTest
  split
  · rw [if_neg (by simp [h])]
  · rfl

theorem port_leaveTest_due {l : PendingLeave} (hl : (s.port p).pendingLeave = some l) (h : s.leaveDue p = true) :
    (s.leaveTest p).port p =
      { (s.port p).respond ((s.port p).leaveResponse l.tag) with pendingLeave := none } := by
  simp only [State.leaveTest, hl, h, if_true, State.port_onPort_same]

theorem leaveDue_pending (h : s.leaveDue p = true) : ∃ l, (s.port p).pendingLeave = some l := by
  unfold State.leaveDue at h
  split at h
  · exact ⟨_, ‹_›⟩
  · cases h

theorem leaveDue_leaving (h : s.leaveDue p = true) : (s.port p).session = .leaving := by
  unfold State.leaveDue at h
  split at h
  · simp only [Bool.and_eq_true, beq_iff_eq] at h; exact h.1.1.1.1
  · cases h

/-- Of a port that is not CLOSING the tests make what the first alone does (R156). -/
theorem port_sessionTests_open (h : (s.port p).session ≠ .closing) : s.sessionTests.port p = (s.leaveTest p).port p := by
  obtain ⟨u, hport, hrest, hresult⟩ := port_sessionTests_turn s p
  have hsession : ((u.leaveTest p).port p).session = (s.port p).session := by
    rw [kept_session (grownAt_leaveTest p u).1, hport]
  rw [hresult, closingTest_not_closing _ _ (by rwa [hsession])]
  by_cases hdue : s.leaveDue p = true
  · obtain ⟨l, hl⟩ := leaveDue_pending hdue
    rw [port_leaveTest_due hl hdue, port_leaveTest_due (by rw [hport]; exact hl)
      ((leaveDue_congr hport (slots_of_rest hrest)).trans hdue), hport]
  · have hno : s.leaveDue p = false := by simpa using hdue
    rw [leaveTest_not_due hno, leaveTest_not_due ((leaveDue_congr hport (slots_of_rest hrest)).trans hno), hport]

/-- Of a CLOSING port they make what the second alone does (R159). -/
theorem port_sessionTests_closing (h : (s.port p).session = .closing) : ∃ u : State, u.port p = s.port p ∧
    u.rest = s.rest ∧ s.sessionTests.port p = (u.closingTest p).port p := by
  obtain ⟨u, hport, hrest, hresult⟩ := port_sessionTests_turn s p
  have hno : u.leaveDue p = false := by
    rw [← Bool.not_eq_true]
    intro hdue
    have hleaving := leaveDue_leaving hdue
    rw [hport, h] at hleaving
    cases hleaving
  exact ⟨u, hport, hrest, by rw [hresult, leaveTest_not_due hno]⟩

end

/-- What the LEAVE test makes of a port: nothing but its responses, tags and pending LEAVE changes (R156). -/
theorem leaveTest_port (s : State) (p : Port) : (s.leaveTest p).port p = s.port p ∨
    ∃ l, (s.port p).pendingLeave = some l ∧ (s.leaveTest p).port p =
      { (s.port p).respond ((s.port p).leaveResponse l.tag) with pendingLeave := none } := by
  by_cases hdue : s.leaveDue p = true
  · obtain ⟨l, hl⟩ := leaveDue_pending hdue
    exact .inr ⟨l, hl, port_leaveTest_due hl hdue⟩
  · exact .inl (by rw [leaveTest_not_due (by simpa using hdue)])

/-! ## Responses of an event, none of them to a MAP_COMMIT -/

/-- The responses have only grown, by none to a MAP_COMMIT. -/
def Answered (P Q : PortState) : Prop := ∃ new, Q.respQ = P.respQ ++ new ∧ ∀ x ∈ new, x.code ≠ 0x15#8

theorem answered_same {P Q : PortState} (h : Q.respQ = P.respQ) : Answered P Q := ⟨[], by simp [h], by simp⟩

theorem answered_one {P Q : PortState} {x : Response} (h : Q.respQ = P.respQ ++ [x]) (hx : x.code ≠ 0x15#8) :
    Answered P Q := ⟨[x], h, by simpa using hx⟩

theorem Answered.trans {P Q R : PortState} (h : Answered P Q) (g : Answered Q R) : Answered P R := by
  obtain ⟨new, hnew, hcode⟩ := h
  obtain ⟨later, hlater, gcode⟩ := g
  exact ⟨new ++ later, by rw [hlater, hnew, List.append_assoc], fun x hx =>
    (List.mem_append.mp hx).elim (hcode x) (gcode x)⟩

theorem respQ_record (P : PortState) (r : FaultRecord) : (P.record r).respQ = P.respQ := by
  unfold PortState.record PortState.keepRecord
  split
  · rw [(kept_raise _ _).2.1]; split <;> rfl
  · rfl

theorem answered_helloOffline (s : State) (p : Port) (r : Request) (revision fault : Byte)
    (hr : r.op.code ≠ 0x15#8) : Answered (s.port p) ((s.helloOffline p r revision fault).port p) := by
  unfold State.helloOffline State.tagCheck
  split
  · rw [State.port_onPort_same]; exact answered_one rfl hr
  · split
    · rw [State.port_onPort_same]; exact answered_same (respQ_record _ _)
    · unfold State.helloFields
      split
      · unfold State.startSession
        rw [State.port_respond, if_pos rfl, State.port_onPort_same, State.port_onPort_same]
        exact answered_one rfl hr
      · rw [State.port_respond, if_pos rfl, State.port_onPort_same]
        exact answered_one rfl hr

theorem answered_closingTest (s : State) (p : Port) : Answered (s.port p) ((s.closingTest p).port p) := by
  unfold State.closingTest
  split
  · have hoffline : Answered (s.port p) ((s.onPort p (·.goOffline)).port p) := by
      rw [State.port_onPort_same]; exact answered_same rfl
    refine hoffline.trans ?_
    unfold State.retakeHello
    split
    · split
      next revision fault hop =>
        refine Answered.trans ?_ (answered_helloOffline _ p _ revision fault (by rw [hop]; simp [ReqOp.code]))
        rw [State.port_onPort_same (s := s.onPort p (·.goOffline)) (f := fun P => { P with hold := none })]
        exact answered_same rfl
      · exact answered_same rfl
    · exact answered_same rfl
  · exact answered_same rfl

theorem answered_leaveTest (s : State) (p : Port) : Answered (s.port p) ((s.leaveTest p).port p) := by
  rcases leaveTest_port s p with h | ⟨l, -, h⟩
  · exact answered_same (by rw [h])
  · exact answered_one (x := (s.port p).leaveResponse l.tag) (by rw [h]; rfl) (by simp [PortState.leaveResponse])

theorem answered_sessionTests (s : State) (p : Port) : Answered (s.port p) (s.sessionTests.port p) := by
  obtain ⟨u, hport, -, hresult⟩ := port_sessionTests_turn s p
  rw [hresult, ← hport]
  exact (answered_leaveTest u p).trans (answered_closingTest _ p)

/-! ## The parts of an event other than a commit's completion -/

/-- What a commit's completion and a port's own tests ask of its record. -/
def PortState.work (P : PortState) := (P.session, P.hold, P.readL, P.writeQ, P.writeSeq, P.watermark, P.subRev)

section

variable {P Q : PortState}

theorem work_session (h : Q.work = P.work) : Q.session = P.session := congrArg (·.1) h
theorem work_hold (h : Q.work = P.work) : Q.hold = P.hold := congrArg (·.2.1) h
theorem work_readL (h : Q.work = P.work) : Q.readL = P.readL := congrArg (·.2.2.1) h
theorem work_writeQ (h : Q.work = P.work) : Q.writeQ = P.writeQ := congrArg (·.2.2.2.1) h
theorem work_writeSeq (h : Q.work = P.work) : Q.writeSeq = P.writeSeq := congrArg (·.2.2.2.2.1) h
theorem work_watermark (h : Q.work = P.work) : Q.watermark = P.watermark := congrArg (·.2.2.2.2.2.1) h
theorem work_subRev (h : Q.work = P.work) : Q.subRev = P.subRev := congrArg (·.2.2.2.2.2.2) h

theorem kept_subRev (h : Q.kept = P.kept) : Q.subRev = P.subRev := congrArg (·.2.2.2.2.2.2.2.2.2.2.1) h

theorem work_of_kept (h : Q.kept = P.kept) : Q.work = P.work := by
  simp only [PortState.work, kept_session h, kept_hold h, kept_readL h, kept_writeQ h, kept_writeSeq h,
    kept_watermark h, kept_subRev h]

end

/-- What an event brings about before and after a commit's completion in it: the map and the revision stay, locks are passed
on, responses are added, none of them to a MAP_COMMIT; and a port that is not CLOSING keeps its work and its REVISION item,
and gets no new tag. -/
structure Onward (s t : State) : Prop where
  map : t.map = s.map
  revision : t.revision = s.revision
  locks : HandedOn s t
  answered : ∀ q, Answered (s.port q) (t.port q)
  work : ∀ q, (s.port q).session ≠ .closing → (t.port q).work = (s.port q).work
  tags : ∀ q, (s.port q).session ≠ .closing → (t.port q).tags ⊆ (s.port q).tags
  items : ∀ q, (s.port q).session ≠ .closing → ∀ v, .revision v ∈ (t.port q).events ↔ .revision v ∈ (s.port q).events

namespace Onward

variable {s t u : State}

theorem session (h : Onward s t) {q : Port} (hq : (s.port q).session ≠ .closing) :
    (t.port q).session = (s.port q).session := work_session (h.work q hq)

theorem stays_open (h : Onward s t) {q : Port} (hq : (s.port q).session ≠ .closing) :
    (t.port q).session ≠ .closing := by rwa [h.session hq]

theorem trans (h : Onward s t) (g : Onward t u) : Onward s u where
  map := g.map.trans h.map
  revision := g.revision.trans h.revision
  locks := h.locks.trans g.locks
  answered q := (h.answered q).trans (g.answered q)
  work q hq := (g.work q (h.stays_open hq)).trans (h.work q hq)
  tags q hq _ ht := h.tags q hq (g.tags q (h.stays_open hq) ht)
  items q hq v := (g.items q (h.stays_open hq) v).trans (h.items q hq v)

theorem of_fired (hrest : t.rest = s.rest) (hlocks : HandedOn s t) (hports : FiredPorts s t) : Onward s t where
  map := rest_map hrest
  revision := rest_revision hrest
  locks := hlocks
  answered q := (hports q).answers
  work q _ := work_of_kept (hports q).kept
  tags q _ := (hports q).tags
  items q _ := (hports q).revision

theorem refl (s : State) : Onward s s := of_fired rfl (handedOn_locks rfl) (.refl s)

theorem of_fresh (s : State) (n : Nat) : Onward s { s with fresh := n } :=
  of_fired rfl (handedOn_locks rfl) (firedPorts_ports rfl)

theorem of_tests (s : State) : Onward s s.sessionTests where
  map := rest_map (rest_sessionTests s)
  revision := rest_revision (rest_sessionTests s)
  locks := handedOn_locks (locks_sessionTests s)
  answered := answered_sessionTests s
  work q hq := work_of_kept (grownAt_sessionTests s hq).1
  tags q hq := by
    rw [port_sessionTests_open hq]
    rcases leaveTest_port s q with h | ⟨l, -, h⟩
    · rw [h]; exact List.Subset.refl _
    · rw [h]; exact List.filter_subset_self _
  items q hq v := by
    rw [port_sessionTests_open hq]
    rcases leaveTest_port s q with h | ⟨l, -, h⟩
    · rw [h]
    · rw [h]; rfl

theorem of_task (s : State) (p : Port) {x : Task} (h : x.fires) : Onward s (s.runTask p x) :=
  of_fired (rest_runTask_fires s p h) (handedOn_runTask s p h) (firedPorts_runTask s p h)

end Onward

section

variable {p : Port} {l : List Task}

theorem onward_foldl (hl : ∀ x ∈ l, Task.fires x) (s : State) : Onward s (l.foldl (fun t x => t.runTask p x) s) ∧
    (l.foldl (fun t x => t.runTask p x) s).rest = s.rest := by
  induction l generalizing s with
  | nil => exact ⟨.refl s, rfl⟩
  | cons x l ih =>
    obtain ⟨honward, hrest⟩ := ih (fun y hy => hl y (by simp [hy])) (s.runTask p x)
    exact ⟨(Onward.of_task s p (hl x (by simp))).trans honward,
      hrest.trans (rest_runTask_fires s p (hl x (by simp)))⟩

theorem arranged_tasks (s : State) (l : List Task) : (s.arranged l).1.Perm l ∧
    (s.arranged l).2 = { s with fresh := s.fresh + l.length } := ⟨arrange_perm l.length s.fresh l le_rfl, rfl⟩

theorem onward_runTasks (hl : ∀ x ∈ l, Task.fires x) (s : State) :
    Onward s (s.runTasks p l) ∧ (s.runTasks p l).rest = s.rest := by
  obtain ⟨hperm, hfresh⟩ := arranged_tasks s l
  obtain ⟨honward, hrest⟩ := onward_foldl (p := p) (fun x hx => hl x (hperm.mem_iff.mp hx)) (s.arranged l).2
  rw [hfresh] at honward hrest
  exact ⟨(Onward.of_fresh s _).trans honward, hrest⟩

/-- A commit's completion runs once among the tasks of an event, whatever their order. -/
theorem runTasks_commit (p : Port) (l : List Task) (s : State) : ∃ l₁ l₂ : List Task, (l₁ ++ l₂).Perm l ∧
    s.runTasks p (l ++ [.commit]) = l₂.foldl (fun t x => t.runTask p x)
      (l₁.foldl (fun t x => t.runTask p x) (s.arranged (l ++ [.commit])).2).completeCommit := by
  obtain ⟨hperm, -⟩ := arranged_tasks s (l ++ [.commit])
  obtain ⟨l₁, l₂, hsplit⟩ := List.append_of_mem (hperm.mem_iff.mpr (by simp : Task.commit ∈ l ++ [.commit]))
  refine ⟨l₁, l₂, ?_, ?_⟩
  · rw [hsplit] at hperm
    exact (List.perm_middle.symm.trans (hperm.trans (List.perm_append_singleton _ _))).cons_inv
  · rw [State.runTasks, hsplit, List.foldl_append, List.foldl_cons]
    rfl

/-- The part when these tasks of an event at port p have run, in a free order (log 6). -/
def State.afterTasks (s : State) (p : Port) (tasks : List Task) : State :=
  ({ s with fresh := s.fresh + 1 } : State).runTasks p tasks

theorem slots_afterTasks (s : State) (p : Port) (tasks : List Task) : (s.afterTasks p tasks).slots = s.slots :=
  device_slots (device_runTasks ..)

theorem onward_afterTasks {s : State} (hl : ∀ x ∈ l, Task.fires x) :
    Onward s (s.afterTasks p l) ∧ (s.afterTasks p l).rest = s.rest := by
  obtain ⟨honward, hrest⟩ := onward_runTasks (p := p) hl { s with fresh := s.fresh + 1 }
  exact ⟨(Onward.of_fresh s _).trans honward, hrest⟩

/-- What every task of an event keeps is so when they have run. -/
theorem afterTasks_ind {s : State} {C : PortState → Prop} {tasks : List Task} (h : C (s.port p))
    (hx : ∀ x ∈ tasks, ∀ t : State, C (t.port p) → C ((t.runTask p x).port p)) : C ((s.afterTasks p tasks).port p) := by
  have hfresh : ∀ (t : State) (n : Nat), ({ t with fresh := n } : State).port p = t.port p := fun _ _ => rfl
  exact runTasks_ind (C := fun t => C (t.port p)) p tasks (fun t n ht => by rw [hfresh]; exact ht) hx _
    (by rw [hfresh]; exact h)

/-- With no completion due the end of an event is its tasks and then the tests. -/
theorem closeEvent_not_due {s : State} (h : s.commitDue = false) :
    s.closeEvent p l = (s.afterTasks p l).sessionTests := by
  simp [State.closeEvent, State.commitLast, h, State.afterTasks]

/-- A completion that is due comes with the tasks, unless the port becomes OFFLINE in the event (log 7). -/
theorem closeEvent_due {s : State} (h : s.commitDue = true) (hlast : s.commitLast p = false) :
    s.closeEvent p l = (s.afterTasks p (l ++ [.commit])).sessionTests := by
  simp [State.closeEvent, h, hlast, State.afterTasks]

theorem closeEvent_last {s : State} (hlast : s.commitLast p = true) :
    s.closeEvent p l = (s.afterTasks p l).sessionTests.completeCommit.sessionTests := by
  simp [State.closeEvent, hlast, State.afterTasks]

/-- Unless a completion comes after the port's becoming OFFLINE, an event ends with tasks and then the tests. -/
theorem closeEvent_tasks {s : State} (hl : ∀ x ∈ l, Task.fires x) (hlast : s.commitLast p = false) :
    ∃ tasks : List Task, (∀ x ∈ tasks, x.fires ∨ x = .commit) ∧
      s.closeEvent p l = (s.afterTasks p tasks).sessionTests := by
  cases hdue : s.commitDue with
  | false => exact ⟨l, fun x hx => .inl (hl x hx), closeEvent_not_due hdue⟩
  | true =>
    refine ⟨_, fun x hx => ?_, closeEvent_due hdue hlast⟩
    exact (List.mem_append.mp hx).imp (hl x) (by simp)

theorem onward_closeEvent {s : State} (hl : ∀ x ∈ l, Task.fires x) (h : s.commitDue = false) :
    Onward s (s.closeEvent p l) ∧ (s.closeEvent p l).rest = s.rest := by
  obtain ⟨honward, hrest⟩ := onward_afterTasks (p := p) (s := s) hl
  rw [closeEvent_not_due h]
  exact ⟨honward.trans (.of_tests _), (rest_sessionTests _).trans hrest⟩

/-- A commit that is due completes once in the event, and the rest of it comes before and after (R39). -/
theorem closeEvent_completes {s : State} (hl : ∀ x ∈ l, Task.fires x) (h : s.commitDue = true) :
    ∃ a : State, Onward s a ∧ a.rest = s.rest ∧ Onward a.completeCommit (s.closeEvent p l) ∧
      (s.closeEvent p l).rest = a.completeCommit.rest := by
  cases hlast : s.commitLast p with
  | true =>
    obtain ⟨honward, hrest⟩ := onward_afterTasks (p := p) (s := s) hl
    rw [closeEvent_last hlast]
    exact ⟨_, honward.trans (.of_tests _), (rest_sessionTests _).trans hrest, .of_tests _, rest_sessionTests _⟩
  | false =>
    rw [closeEvent_due h hlast, State.afterTasks]
    obtain ⟨l₁, l₂, hperm, hrun⟩ := runTasks_commit p l { s with fresh := s.fresh + 1 }
    have hfires : ∀ x ∈ l₁ ++ l₂, x.fires := fun x hx => hl x (hperm.mem_iff.mp hx)
    obtain ⟨hbefore, hrest⟩ := onward_foldl (p := p) (fun x hx => hfires x (List.mem_append_left _ hx))
      (({ s with fresh := s.fresh + 1 } : State).arranged (l ++ [.commit])).2
    rw [hrun]
    obtain ⟨hafter, hdone⟩ := onward_foldl (p := p) (fun x hx => hfires x (List.mem_append_right _ hx)) _
    exact ⟨_, (Onward.of_fresh s _).trans hbefore, hrest, hafter.trans (.of_tests _),
      (rest_sessionTests _).trans hdone⟩

end

/-! ## A commit's completion inside an event (R36, R39 to R41) -/

/-- What no commit's completion touches of a port. -/
def PortState.steady (P : PortState) :=
  (P.session, P.sessionNo, P.pendingLeave, P.watermark, P.subRev, P.subFault, P.faults, P.lost)

section

variable {P Q : PortState}

theorem steady_session (h : Q.steady = P.steady) : Q.session = P.session := congrArg (·.1) h
theorem steady_pendingLeave (h : Q.steady = P.steady) : Q.pendingLeave = P.pendingLeave := congrArg (·.2.2.1) h
theorem steady_sessionNo (h : Q.steady = P.steady) : Q.sessionNo = P.sessionNo := congrArg (·.2.1) h
theorem steady_watermark (h : Q.steady = P.steady) : Q.watermark = P.watermark := congrArg (·.2.2.2.1) h
theorem steady_subRev (h : Q.steady = P.steady) : Q.subRev = P.subRev := congrArg (·.2.2.2.2.1) h
theorem steady_subFault (h : Q.steady = P.steady) : Q.subFault = P.subFault := congrArg (·.2.2.2.2.2.1) h
theorem steady_faults (h : Q.steady = P.steady) : Q.faults = P.faults := congrArg (·.2.2.2.2.2.2.1) h
theorem steady_lost (h : Q.steady = P.steady) : Q.lost = P.lost := congrArg (·.2.2.2.2.2.2.2) h

end

/-- All that a request taken again may change of its port's record. -/
def PortState.TakenTo (P Q : PortState) : Prop := ∃ hold tags respQ reads writes number,
  Q = { P with hold := hold, tags := tags, respQ := respQ, readL := reads, writeQ := writes, writeSeq := number }

theorem taken_accepting (s : State) (p : Port) (r : Request) : (s.port p).TakenTo ((s.accepting p r).port p) := by
  have hchange : ∀ f : PortState → PortState, (s.port p).TakenTo (f (s.port p)) →
      (s.port p).TakenTo ((s.onPort p f).port p) := fun f hf => by rw [State.port_onPort_same]; exact hf
  unfold State.accepting
  split
  · split <;> exact hchange _ ⟨_, _, _, _, _, _, rfl⟩
  · split
    · exact hchange _ ⟨_, _, _, _, _, _, rfl⟩
    · exact hchange _ ⟨_, _, _, _, _, _, rfl⟩
    · rw [port_acceptWrite]; split <;> exact ⟨_, _, _, _, _, _, rfl⟩
  · exact ⟨_, _, _, _, _, _, rfl⟩

theorem taken_retake (s : State) (p : Port) : (s.port p).TakenTo ((s.retake p).port p) := by
  have hreleased : (s.released p).port p = { s.port p with hold := none } := State.port_onPort_same ..
  have hanswered : ∀ x, (s.port p).TakenTo (((s.released p).respond p x).port p) := fun x => by
    rw [State.port_respond, if_pos rfl, hreleased]; exact ⟨_, _, _, _, _, _, rfl⟩
  unfold State.retake
  split
  next r _ =>
    split
    · dsimp only
      split
      · obtain ⟨_, _, _, _, _, _, htaken⟩ := taken_accepting (s.released p) p r
        rw [hreleased] at htaken
        exact ⟨_, _, _, _, _, _, htaken⟩
      all_goals exact hanswered _
    · exact ⟨_, _, _, _, _, _, rfl⟩
  · exact ⟨_, _, _, _, _, _, rfl⟩

theorem steady_retake (s : State) (p : Port) : ((s.retake p).port p).steady = (s.port p).steady := by
  obtain ⟨_, _, _, _, _, _, htaken⟩ := taken_retake s p
  rw [htaken]
  rfl

section

variable {s : State} {c : CommitEdit}

theorem steady_completeCommit (h : s.edit = .committing c) (q : Port) :
    (s.completeCommit.port q).steady = (s.port q).steady := by
  obtain ⟨u, hport, -, -, -, hresult⟩ := port_completeCommit h q
  rw [hresult, steady_retake, hport]
  unfold State.toldPort PortState.raise State.answeredPort
  split <;> split <;> rfl

end

theorem session_of_edit {s : State} {c : CommitEdit} (h : s.edit = .committing c) (q : Port) :
    (s.completeCommit.port q).session = (s.port q).session := steady_session (steady_completeCommit h q)

theorem reached_not_closing {P : PortState} (h : P.reached) : P.session ≠ .closing := not_closing_of h

section

variable {s a b t : State} {q : Port} {x : Response}

theorem answers_before (h : Answered (s.port q) (a.port q)) (g : answers a t q x) : answers s t q x := by
  obtain ⟨new, hnew, -⟩ := h
  obtain ⟨before, after, g⟩ := g
  exact ⟨new ++ before, after, by rw [g, hnew]; simp⟩

theorem answers_after (h : Answered (b.port q) (t.port q)) (g : answers s b q x) : answers s t q x := by
  obtain ⟨new, hnew, -⟩ := h
  obtain ⟨before, after, g⟩ := g
  exact ⟨before, after ++ new, by rw [hnew, g]; simp⟩

end

section

variable {s a b t : State}

/-- A held request taken again between other parts of an event has come to the same when it ends (R41). -/
theorem retaken_within {q : Port} {r : Request} (h : Onward s a) (g : Onward b t) (hlocks : b.locks = a.locks)
    (hq : (s.port q).session ≠ .closing) (hb : (b.port q).session ≠ .closing) (hr : retaken a b q r) :
    retaken s t q r := by
  obtain ⟨hhold, u, hmap, hedit, hholds, hread, hwrite⟩ := hr
  have hwork := h.work q hq
  have gwork := g.work q hb
  have hanswers : ∀ x, answers a b q x → answers s t q x := fun x hx =>
    answers_after (g.answered q) (answers_before (h.answered q) hx)
  have htags : ∀ {tag}, tag ∉ (b.port q).tags → tag ∉ (t.port q).tags := fun hn ht => hn (g.tags q hb ht)
  have hparts := fun x n => translate_of_map (s := b) (t := t) g.map.symm x n
  have hrow := fun x => rowAt_of_map (s := b) (t := t) g.map.symm x
  refine ⟨(work_hold gwork).trans hhold, u, hmap.trans g.map.symm, hedit, fun k => ?_,
    fun addr len hop => ⟨fun st hj => ?_, fun hj => ?_⟩, fun addr len data hop => ⟨fun st hj => ?_, fun hj => ?_⟩⟩
  · have hmid : u.holds q k = a.holds q k := (hholds k).elim id fun e => e.trans (holds_of_locks hlocks q k)
    have gmid : HandedOn a t := (handedOn_locks hlocks).trans g.locks
    rw [hmid]
    exact h.locks.holds gmid q k
  · obtain ⟨hanswer, hfree, hlist⟩ := (hread addr len hop).1 st hj
    exact ⟨hanswers _ hanswer, htags hfree, by rw [work_readL gwork, hlist, work_readL hwork]⟩
  · rw [work_readL gwork, (hread addr len hop).2 hj, work_readL hwork, work_writeSeq hwork, hparts]
  · obtain ⟨hanswer, hfree, hqueue, hseq⟩ := (hwrite addr len data hop).1 st hj
    exact ⟨hanswers _ hanswer, htags hfree, by rw [work_writeQ gwork, hqueue, work_writeQ hwork],
      by rw [work_writeSeq gwork, hseq, work_writeSeq hwork]⟩
  · obtain ⟨e, hseq, htag, haddr, hlen, hdata, heparts, hpieces, hfailed, hdone, hposted, hguards, hqueue, hnumber,
      hanswer⟩ := (hwrite addr len data hop).2 hj
    rw [hparts] at heparts hpieces
    simp only [hrow] at hposted hguards
    refine ⟨e, by rw [hseq, work_writeSeq hwork], htag, haddr, hlen, hdata, heparts, hpieces, hfailed, hdone, hposted,
      hguards, by rw [work_writeQ gwork, hqueue, work_writeQ hwork], by rw [work_writeSeq gwork, hnumber], fun hp => ?_⟩
    obtain ⟨hok, hfree⟩ := hanswer hp
    exact ⟨hanswers _ hok, htags hfree⟩

/-- The completion of a commit between other parts of an event has done the same when it ends (R39 to R41). -/
theorem committed_within {c : CommitEdit} (h : Onward s a) (g : Onward a.completeCommit t)
    (hedit : a.edit = .committing c) (hdone : t.edit = .absent) : committed s t c := by
  obtain ⟨-, hrevision, hrows, hothers, howner, hdeparted, hsubscribed, hunsubscribed, hretaken⟩ :=
    committed_completeCommit hedit
  have hsession := session_of_edit hedit
  have hopen : ∀ {q}, (s.port q).session ≠ .closing → (a.completeCommit.port q).session ≠ .closing := fun hq => by
    rw [hsession]; exact h.stays_open hq
  have hreached : ∀ {q}, (s.port q).reached → (a.port q).reached := fun {q} hq => by
    unfold PortState.reached
    rw [h.session (reached_not_closing hq)]
    exact hq
  have hrow : ∀ r, t.row r = a.completeCommit.row r := row_of_map g.map
  have hsub : ∀ {q}, (s.port q).session ≠ .closing → (a.port q).subRev = (s.port q).subRev := fun {q} hq =>
    work_subRev (h.work q hq)
  refine ⟨hdone, by rw [g.revision, hrevision, h.revision], fun hnodup x hx => by rw [hrow, hrows hnodup x hx],
    fun r hr => by rw [hrow, hothers r hr, row_of_map h.map], fun hd hq => ?_, fun hd q x hx hcode => ?_,
    fun q v hq hs => ?_, fun q v hq => ?_, fun q r hs hhold hop => ?_⟩
  · obtain ⟨hfree, hanswer⟩ := howner hd (hreached hq)
    rw [h.revision] at hanswer
    exact ⟨fun ht => hfree (g.tags _ (hopen (reached_not_closing hq)) ht),
      answers_after (g.answered _) (answers_before (h.answered _) hanswer)⟩
  · obtain ⟨new, hnew, hcodes⟩ := h.answered q
    obtain ⟨later, hlater, hlaterCodes⟩ := g.answered q
    rw [hlater, List.mem_append] at hx
    have hmid := hdeparted hd q x (hx.resolve_right fun hl => hlaterCodes x hl hcode) hcode
    rw [hnew, List.mem_append] at hmid
    exact hmid.resolve_right fun hl => hcodes x hl hcode
  · have hopenq := reached_not_closing hq
    rw [g.items q (hopen hopenq), hsubscribed q v (hreached hq) (by rw [hsub hopenq, hs]), h.revision]
  · have hopenq : (s.port q).session ≠ .closing := by
      rcases hq with hoff | ⟨hq, -⟩
      · simp [hoff]
      · exact reached_not_closing hq
    rw [g.items q (hopen hopenq), hunsubscribed q v (hq.imp (fun hoff => by rw [h.session hopenq, hoff])
      fun hr => ⟨hreached hr.1, by rw [hsub hopenq, hr.2]⟩), h.items q hopenq]
  · have hopenq : (s.port q).session ≠ .closing := by simp [hs]
    exact retaken_within h g (locks_completeCommit a) hopenq (hopen hopenq)
      (hretaken q r (by rw [h.session hopenq, hs]) (by rw [work_hold (h.work q hopenq), hhold]) hop)

end

/-! ## A request leaves the drain set (R36) -/

theorem edit_leaveDrain (s : State) (p : Port) (ref : ReqRef) {c : CommitEdit} (h : s.edit = .committing c) :
    (s.leaveDrain p ref).edit =
      .committing { c with drain := c.drain.filter (fun d => d != { port := p, ref := ref }) } := by
  simp only [State.leaveDrain, h]

theorem commitDue_not_committing {s : State} (h : ∀ c, s.edit ≠ .committing c) : s.commitDue = false := by
  unfold State.commitDue
  split
  next c hc => exact absurd hc (h c)
  · rfl

theorem edit_of_commitDue {s : State} (h : s.commitDue = true) : ∃ c, s.edit = .committing c := by
  unfold State.commitDue at h
  split at h
  · exact ⟨_, ‹_›⟩
  · cases h

theorem commitDue_committing {s : State} {c : CommitEdit} (h : s.edit = .committing c) :
    s.commitDue = c.drain.isEmpty := by simp only [State.commitDue, h]

/-- A completed request's event: its leaving the drain set, and what comes about then. s is the part with the request out of
its list, u the part when the event's tasks begin. -/
theorem drained_closeEvent {s u : State} {p q : Port} {ref : ReqRef} {l : List Task} (h : Onward s u)
    (hedit : u.edit = (s.leaveDrain q ref).edit) (hl : ∀ x ∈ l, Task.fires x) :
    drained s (u.closeEvent p l) q ref := by
  have hheld : ∀ {t}, Onward u t → ∀ q, (s.port q).reached → (t.port q).hold = (s.port q).hold := fun g q hq =>
    work_hold ((h.trans g).work q (reached_not_closing hq))
  refine ⟨fun hno => ?_, fun c left hc hleft => ?_⟩
  · rw [leaveDrain_no_commit s q ref hno] at hedit
    obtain ⟨g, hrest⟩ := onward_closeEvent (p := p) hl (commitDue_not_committing (by rw [hedit]; exact hno))
    exact ⟨(rest_edit hrest).trans hedit, g.map.trans h.map, g.revision.trans h.revision, hheld g⟩
  · rw [edit_leaveDrain s q ref hc, ← hleft] at hedit
    refine ⟨fun hne => ?_, fun hempty => ?_⟩
    · obtain ⟨g, hrest⟩ := onward_closeEvent (p := p) hl
        (by rw [commitDue_committing hedit]; simpa using hne)
      exact ⟨(rest_edit hrest).trans hedit, g.map.trans h.map, g.revision.trans h.revision, hheld g⟩
    · obtain ⟨a, hbefore, hrest, hafter, hdone⟩ := closeEvent_completes (p := p) hl
        (by rw [commitDue_committing hedit]; simpa using hempty)
      have hcommit := (rest_edit hrest).trans hedit
      have habsent := (rest_edit hdone).trans (rest_edit (rest_completeCommit a _ hcommit))
      exact committed_within (c := { c with drain := left }) (h.trans hbefore) hafter hcommit habsent

end Sys2Proof.Machine

/-! # What the end of an event makes of its own port (spec/02 R41; spec/09 R156, R159) -/

namespace Sys2Proof.Machine

open Sys2Proof

/-! ## A port in contact -/

/-- What the parts of an event, a commit's completion among them, make of a port in contact: its session, its watermark and
its reports are kept, responses are added, tags become free; and where nothing is held, or only to be refused, its accepted
work is as before. -/
structure PortState.ServedTo (P Q : PortState) : Prop where
  steady : Q.steady = P.steady
  grows : ∃ new, Q.respQ = P.respQ ++ new
  tags : Q.tags ⊆ P.tags
  hold : P.hold = none → Q.hold = none
  work : P.hold = none ∨ P.session = .leaving → Q.readL = P.readL ∧ Q.writeQ = P.writeQ ∧ Q.writeSeq = P.writeSeq
  fault : .fault ∈ P.events → .fault ∈ Q.events

theorem PortState.ServedTo.refl (P : PortState) : P.ServedTo P :=
  ⟨rfl, ⟨[], by simp⟩, List.Subset.refl _, id, fun _ => ⟨rfl, rfl, rfl⟩, id⟩

theorem PortState.ServedTo.trans {P Q R : PortState} (h : P.ServedTo Q) (g : Q.ServedTo R) : P.ServedTo R := by
  obtain ⟨new, hnew⟩ := h.grows
  obtain ⟨later, hlater⟩ := g.grows
  refine ⟨g.steady.trans h.steady, ⟨new ++ later, by rw [hlater, hnew, List.append_assoc]⟩,
    fun _ ht => h.tags (g.tags ht), fun hn => g.hold (h.hold hn), fun hw => ?_, fun hf => g.fault (h.fault hf)⟩
  obtain ⟨hread, hwrite, hseq⟩ := h.work hw
  obtain ⟨gread, gwrite, gseq⟩ := g.work (hw.imp h.hold fun hs => (steady_session h.steady).trans hs)
  exact ⟨gread.trans hread, gwrite.trans hwrite, gseq.trans hseq⟩

theorem steady_of_kept {P Q : PortState} (h : Q.kept = P.kept) (hl : Q.pendingLeave = P.pendingLeave) :
    Q.steady = P.steady := by
  have hfault : Q.subFault = P.subFault := congrArg (·.2.2.2.2.2.2.2.2.2.2.2.1) h
  simp only [PortState.steady, kept_session h, kept_sessionNo h, hl, kept_watermark h, kept_subRev h, hfault,
    kept_faults h, kept_lost h]

theorem PortState.FiredTo.served {P Q : PortState} (h : P.FiredTo Q) : P.ServedTo Q := by
  obtain ⟨new, hnew, -⟩ := h.answers
  exact ⟨steady_of_kept h.kept h.leave, ⟨new, hnew⟩, h.tags, fun hn => (kept_hold h.kept).trans hn,
    fun _ => ⟨kept_readL h.kept, kept_writeQ h.kept, kept_writeSeq h.kept⟩, h.fault⟩

section

variable {s : State} {q : Port}

/-- A port that is not ONLINE has its held request refused (R41, R155). -/
theorem work_retake_refused (h : (s.port q).session ≠ .online) : ((s.retake q).port q).readL = (s.port q).readL ∧
    ((s.retake q).port q).writeQ = (s.port q).writeQ ∧ ((s.retake q).port q).writeSeq = (s.port q).writeSeq := by
  have hreleased : (s.released q).port q = { s.port q with hold := none } := State.port_onPort_same ..
  have hanswered : ∀ x, ((s.released q).respond q x).port q = { s.port q with hold := none }.respond x := fun x => by
    rw [State.port_respond, if_pos rfl, hreleased]
  unfold State.retake
  split
  · split
    · dsimp only
      split
      next honline => exact absurd ((congrArg PortState.session hreleased).symm.trans honline) h
      all_goals
        rw [State.released] at hanswered
        rw [hanswered]
        exact ⟨rfl, rfl, rfl⟩
    · exact ⟨rfl, rfl, rfl⟩
  · exact ⟨rfl, rfl, rfl⟩

theorem served_retake (s : State) (q : Port) : (s.port q).ServedTo ((s.retake q).port q) := by
  obtain ⟨hevents, htags, new, hresp, -⟩ := retakeKeeps_retake s q
  refine ⟨steady_retake s q, ⟨new, hresp⟩, htags, fun hn => by rw [retake_none s q hn, hn], fun hw => ?_,
    fun hf => by rw [hevents]; exact hf⟩
  rcases hw with hn | hleaving
  · rw [retake_none s q hn]; exact ⟨rfl, rfl, rfl⟩
  · exact work_retake_refused (by rw [hleaving]; simp)

theorem served_told (s : State) (c : CommitEdit) (q : Port) : (s.port q).ServedTo (s.toldPort c q) := by
  obtain ⟨hkept, hresp, hleave, htags⟩ := kept_raise (s.answeredPort c q) (.revision (s.revision + 1))
  have hanswered : (s.answeredPort c q).pendingLeave = (s.port q).pendingLeave ∧
      (s.answeredPort c q).tags ⊆ (s.port q).tags ∧ (s.answeredPort c q).events = (s.port q).events := by
    unfold State.answeredPort
    split
    · exact ⟨rfl, List.filter_subset_self _, rfl⟩
    · exact ⟨rfl, List.Subset.refl _, rfl⟩
  obtain ⟨aleave, atags, aevents⟩ := hanswered
  have hall := toldPort_kept s c q
  obtain ⟨new, hnew⟩ := toldPort_respQ_grows s c q
  refine ⟨steady_of_kept hall (hleave.trans aleave), ⟨new, hnew.symm⟩, by rw [State.toldPort, htags]; exact atags,
    fun hn => (kept_hold hall).trans hn, fun _ => ⟨kept_readL hall, kept_writeQ hall, kept_writeSeq hall⟩, fun hf => ?_⟩
  rw [State.toldPort]
  exact fault_mem_raise _ (by rw [aevents]; exact hf)

theorem served_completeCommit (s : State) (q : Port) : (s.port q).ServedTo (s.completeCommit.port q) := by
  cases hedit : s.edit with
  | committing c =>
    obtain ⟨u, hport, -, -, -, hresult⟩ := port_completeCommit hedit q
    have htold := served_told s c q
    rw [← hport] at htold
    rw [hresult]
    exact htold.trans (served_retake u q)
  | absent | opened =>
    have hsame : s.completeCommit = s := by simp only [State.completeCommit, hedit]
    rw [hsame]
    exact .refl _

/-- A port that is not CLOSING at the end of an event: it is served, and then tested (R156). -/
theorem closeEvent_served {p : Port} {l : List Task} (hl : ∀ x ∈ l, Task.fires x)
    (hs : (s.port p).session ≠ .closing) : ∃ v : State, (s.port p).ServedTo (v.port p) ∧ v.slots = s.slots ∧
      (s.closeEvent p l).port p = (v.leaveTest p).port p := by
  have hlast : s.commitLast p = false := by
    rw [State.commitLast, beq_eq_false_iff_ne.mpr hs]
    simp
  obtain ⟨tasks, htasks, hrun⟩ := closeEvent_tasks hl hlast
  have hserved : (s.port p).ServedTo ((s.afterTasks p tasks).port p) := by
    refine afterTasks_ind (.refl _) fun x hx t h => ?_
    rcases htasks x hx with hfires | rfl
    · exact h.trans (firedPorts_runTask t p hfires p).served
    · exact h.trans (served_completeCommit t p)
  refine ⟨_, hserved, slots_afterTasks s p tasks, ?_⟩
  rw [hrun]
  exact port_sessionTests_open (by rw [steady_session hserved.steady]; exact hs)

end

/-! ## The record of a completed request's port as the tasks of the event begin -/

/-- What the report of a completed request makes of its port: its work is kept, responses are added and tags become free. -/
structure PortState.ReportedTo (P Q : PortState) : Prop where
  work : Q.work = P.work
  number : Q.sessionNo = P.sessionNo
  leave : Q.pendingLeave = P.pendingLeave
  tags : Q.tags ⊆ P.tags
  answers : Answered P Q
  revision : ∀ v, .revision v ∈ Q.events ↔ .revision v ∈ P.events

theorem PortState.ReportedTo.refl (P : PortState) : P.ReportedTo P :=
  ⟨rfl, rfl, rfl, List.Subset.refl _, answered_same rfl, fun _ => Iff.rfl⟩

theorem reportedTo_respond (P : PortState) {x : Response} (h : x.code ≠ 0x15#8) : P.ReportedTo (P.respond x) :=
  ⟨rfl, rfl, rfl, List.filter_subset_self _, answered_one rfl h, fun _ => Iff.rfl⟩

theorem reportedTo_record (P : PortState) (r : FaultRecord) : P.ReportedTo (P.record r) := by
  unfold PortState.record
  split
  · obtain ⟨hkept, hresp, hleave, htags⟩ := kept_raise (P.keepRecord r) .fault
    have hraised := (firedTo_raise (P.keepRecord r) (it := .fault) fun _ => rfl).revision
    have hrecord : (P.keepRecord r).work = P.work ∧ (P.keepRecord r).sessionNo = P.sessionNo ∧
        (P.keepRecord r).pendingLeave = P.pendingLeave ∧ (P.keepRecord r).tags = P.tags ∧
        (P.keepRecord r).respQ = P.respQ ∧ (P.keepRecord r).events = P.events := by
      unfold PortState.keepRecord
      split <;> exact ⟨rfl, rfl, rfl, rfl, rfl, rfl⟩
    obtain ⟨kwork, knumber, kleave, ktags, kresp, kevents⟩ := hrecord
    exact ⟨(work_of_kept hkept).trans kwork, (kept_sessionNo hkept).trans knumber, hleave.trans kleave,
      by rw [htags, ktags]; exact List.Subset.refl _, answered_same (hresp.trans kresp),
      fun v => by rw [hraised, kevents]⟩
  · exact .refl P

/-- The report of a completed request is the first part of its event: s is the part with the request out of its list, u the
part when the event's tasks begin. -/
theorem onward_reported {s u : State} {p : Port} (hmap : u.map = s.map) (hrevision : u.revision = s.revision)
    (hlocks : ∀ k, (u.lock k).phase = (s.lock k).phase) (hothers : ∀ q, q ≠ p → u.port q = s.port q)
    (hport : (s.port p).ReportedTo (u.port p)) : Onward s u := by
  have hall : ∀ q, (s.port q).ReportedTo (u.port q) := fun q => by
    by_cases hq : q = p
    · subst hq; exact hport
    · rw [hothers q hq]; exact .refl _
  exact ⟨hmap, hrevision, fun k => .inl (hlocks k), fun q => (hall q).answers, fun q _ => (hall q).work,
    fun q _ => (hall q).tags, fun q _ => (hall q).revision⟩

/-! ## The LEAVE response (R156) -/

theorem leaveDue_iff {s : State} {p : Port} {l : PendingLeave} (hl : (s.port p).pendingLeave = some l) :
    s.leaveDue p = true ↔ (s.port p).session = .leaving ∧ watermarkReaches (s.port p).watermark l.watch = true ∧
      (s.port p).readL = [] ∧ s.inFlight p = 0 ∧ ∀ x ∈ (s.port p).tags, x = l.tag := by
  simp [State.leaveDue, hl, and_assoc]

section

variable {s u : State} {p : Port} {l : List Task}

/-- What becomes of a LEAVING port at the end of the event of its completed request (R156). -/
theorem leaveSettled_closeEvent {ended : Prop} (hl : ∀ x ∈ l, Task.fires x)
    (hport : (s.port p).ReportedTo (u.port p)) (hended : ended ↔ (s.port p).readL = [] ∧ u.inFlight p = 0) :
    leaveSettled s (u.closeEvent p l) p (s.port p).watermark ended := by
  intro x hs hx
  have hsession : (u.port p).session = .leaving := (work_session hport.work).trans hs
  obtain ⟨v, hserved, hslots, hresult⟩ := closeEvent_served hl (by rw [hsession]; simp)
  obtain ⟨hread, -, hseq⟩ := hserved.work (.inr hsession)
  have hv : (v.port p).pendingLeave = some x :=
    ((steady_pendingLeave hserved.steady).trans hport.leave).trans hx
  have hdue : v.leaveDue p = true ↔ watermarkReaches (s.port p).watermark x.watch = true ∧ ended ∧
      ∀ tag ∈ (v.port p).tags, tag = x.tag := by
    rw [leaveDue_iff hv, steady_watermark hserved.steady, work_watermark hport.work, hread, work_readL hport.work,
      inFlight_slots hslots, steady_session hserved.steady, hsession, hended]
    simp [and_assoc]
  obtain ⟨new, hnew, -⟩ := hport.answers
  obtain ⟨later, hlater⟩ := hserved.grows
  by_cases htest : v.leaveDue p = true
  · rw [port_leaveTest_due hv htest] at hresult
    obtain ⟨hreached, hdone, htags⟩ := hdue.mp htest
    rw [hresult]
    refine ⟨fun _ => ⟨rfl, new ++ later, ?_⟩, fun hno => absurd ⟨hreached, hdone, fun tag ht => ?_⟩ hno⟩
    · simp only [PortState.respond, PortState.leaveResponse, hlater, hnew, hseq, work_writeSeq hport.work,
        steady_sessionNo hserved.steady, hport.number, List.append_assoc]
    · exact htags tag (List.mem_of_mem_filter ht)
  · rw [leaveTest_not_due (by simpa using htest)] at hresult
    rw [hresult]
    exact ⟨fun h => absurd (hdue.mpr h) htest, fun _ => hv⟩

end

end Sys2Proof.Machine

namespace Sys2Proof.Machine

open Sys2Proof

/-! ## A CLOSING port (R104, R142, R159) -/

/-- A port's record with other notifications only. -/
def PortState.AwayTo (P Q : PortState) : Prop := ∃ notes notices number,
  Q = { P with notes := notes, notices := notices, noticeSeq := number }

theorem PortState.AwayTo.trans {P Q R : PortState} (h : P.AwayTo Q) (g : Q.AwayTo R) : P.AwayTo R := by
  obtain ⟨_, _, _, rfl⟩ := h
  obtain ⟨notes, notices, number, rfl⟩ := g
  exact ⟨notes, notices, number, rfl⟩

/-- Nothing is held that a commit's completion would take again. -/
def PortState.holdsNoAccess (P : PortState) : Prop :=
  ∀ r, P.hold = some r → r.op.isRead = false ∧ r.op.isWrite = false

theorem holdsNoAccess_of_closing {P : PortState} (hs : P.session = .closing) (h : P.holdLegal) : P.holdsNoAccess := by
  intro r hr
  rcases h r hr with ⟨honline, -⟩ | ⟨-, hhello⟩
  · rw [hs] at honline; cases honline
  · revert hhello
    cases r.op <;> simp [ReqOp.isHello, ReqOp.isRead, ReqOp.isWrite]

section

variable {s : State} {p : Port}

/-- A commit's completion leaves a port alone that is out of contact and holds no READ and no WRITE (R40, R41). -/
theorem port_completeCommit_away (haway : (s.port p).inContact = false) (h : (s.port p).holdsNoAccess) :
    s.completeCommit.port p = s.port p := by
  cases hedit : s.edit with
  | committing c =>
    have hanswered : s.answeredPort c p = s.port p := if_neg fun hc => by rw [haway] at hc; cases hc.2.2
    rw [port_completeCommit_nothing hedit h, State.toldPort, hanswered, raise_away _ haway]
  | absent | opened =>
    have hsame : s.completeCommit = s := by simp only [State.completeCommit, hedit]
    rw [hsame]

theorem away_afterTasks {tasks : List Task} (htasks : ∀ x ∈ tasks, x.fires ∨ x = .commit)
    (haway : (s.port p).inContact = false) (h : (s.port p).holdsNoAccess) :
    (s.port p).AwayTo ((s.afterTasks p tasks).port p) := by
  refine afterTasks_ind (C := (s.port p).AwayTo) ⟨_, _, _, rfl⟩ fun x hx t ht => ?_
  have hsame : (t.port p).inContact = (s.port p).inContact ∧ (t.port p).hold = (s.port p).hold := by
    obtain ⟨_, _, _, ht⟩ := ht
    rw [ht]
    exact ⟨rfl, rfl⟩
  obtain ⟨hcontact, hhold⟩ := hsame
  rcases htasks x hx with hfires | rfl
  · exact ht.trans ((firedPorts_runTask t p hfires p).away (hcontact.trans haway))
  · have hcommit : (t.runTask p .commit).port p = t.port p :=
      port_completeCommit_away (hcontact.trans haway) fun r hr => h r (hhold ▸ hr)
    rw [hcommit]
    exact ht

/-- While the order unit has work the port goes on as it is (R159). -/
theorem closingTest_busy (h : s.quiet p = false) : s.closingTest p = s := by
  unfold State.closingTest
  rw [h]
  simp

theorem closingTest_idle (hs : (s.port p).session = .closing) (h : s.quiet p = true) :
    s.closingTest p = (s.onPort p (·.goOffline)).retakeHello p := by
  unfold State.closingTest
  rw [h, hs]
  rfl

end

/-- A record that has become OFFLINE with the hold slot empty (R150, R159). -/
def PortState.left (P : PortState) : PortState := { P.goOffline with hold := none }

/-- The answer to a held HELLO (R153, R154). -/
def helloResponse (tag : Byte) (status : Status) (body : Body) : Response :=
  { code := 0x01#8, tag := tag, status := status, body := body }

/-- How a CLOSING port's record ends when its order unit is quiet (R90, R153, R154, R159): OFFLINE, and what a held HELLO
comes to then. -/
inductive PortState.Closes (p : Port) (revision : Half) (P : PortState) : PortState → Prop
  | nothing : P.hold = none → Closes p revision P P.left
  | refused (tag rev fault : Byte) (tags : List Byte) : P.hold = some { tag := tag, op := .hello rev fault } →
      (31 < tag.toNat ∨ (tag ∉ P.tags ∧ (1 < rev.toNat ∨ 1 < fault.toNat))) →
      Closes p revision P { P.left with tags := tags, respQ := P.respQ ++ [helloResponse tag .badArg .empty] }
  | discarded (tag rev fault : Byte) (places : Nat) : P.hold = some { tag := tag, op := .hello rev fault } →
      tag.toNat ≤ 31 → tag ∈ P.tags → Closes p revision P { P.left with places := places }
  | started (tag rev fault : Byte) (tags : List Byte) : P.hold = some { tag := tag, op := .hello rev fault } →
      tag.toNat ≤ 31 → tag ∉ P.tags → rev.toNat ≤ 1 → fault.toNat ≤ 1 →
      Closes p revision P { P.left with
        session := .online, sessionNo := P.sessionNo + 1, writeSeq := 0#32, watermark := 0#32, tags := tags
        subRev := rev == 1#8, subFault := fault == 1#8
        respQ := P.respQ ++ [helloResponse tag .ok (.welcome p (P.sessionNo + 1) revision 0x54#8 0x12#8)] }

theorem flag_iff (b : Byte) : (b == 0#8 || b == 1#8) = true ↔ b.toNat ≤ 1 := by
  rw [Bool.or_eq_true, beq_iff_eq, beq_iff_eq, ← BitVec.toNat_inj, ← BitVec.toNat_inj]
  simp only [BitVec.toNat_ofNat]
  omega

section

variable {s : State} {p : Port}

/-- The part with a HELLO's tag entered, ready for its fields to be checked. -/
theorem closes_hello {P : PortState} {tag rev fault : Byte} (hport : s.port p = P.left)
    (hhold : P.hold = some { tag := tag, op := .hello rev fault }) :
    P.Closes p s.revision ((s.helloOffline p { tag := tag, op := .hello rev fault } rev fault).port p) := by
  unfold State.helloOffline State.tagCheck
  by_cases htag : 31 < tag.toNat
  · rw [if_pos htag, State.port_onPort_same, hport]
    exact .refused tag rev fault P.tags hhold (.inl htag)
  rw [if_neg htag]
  by_cases hused : tag ∈ P.tags
  · rw [if_pos (by rw [hport]; exact hused), State.port_onPort_same, hport]
    exact .discarded tag rev fault (P.places - 1) hhold (by omega) hused
  rw [if_neg (by rw [hport]; exact hused)]
  have hentered : (s.onPort p fun P => { P with tags := P.tags ++ [tag] }).port p =
      { P.left with tags := P.tags ++ [tag] } := by rw [State.port_onPort_same, hport]; rfl
  unfold State.helloFields
  dsimp only
  by_cases hfields : ((rev == 0#8 || rev == 1#8) && (fault == 0#8 || fault == 1#8)) = true
  · rw [if_pos hfields]
    obtain ⟨hrev, hfault⟩ := Bool.and_eq_true_iff.mp hfields
    unfold State.startSession State.welcome
    rw [State.port_respond, if_pos rfl, State.port_onPort_same, hentered]
    exact .started tag rev fault _ hhold (by omega) hused ((flag_iff rev).mp hrev) ((flag_iff fault).mp hfault)
  · rw [if_neg hfields, State.port_respond, if_pos rfl, hentered]
    refine .refused tag rev fault _ hhold (.inr ⟨hused, ?_⟩)
    rw [Bool.and_eq_true, flag_iff, flag_iff] at hfields
    omega

/-- What the test makes of a CLOSING port whose order unit is quiet (R159). -/
theorem closes_closingTest (hs : (s.port p).session = .closing) (hlegal : (s.port p).holdLegal)
    (hquiet : s.quiet p = true) : (s.port p).Closes p s.revision ((s.closingTest p).port p) := by
  have hoffline : (s.onPort p (·.goOffline)).port p = (s.port p).goOffline := State.port_onPort_same ..
  rw [closingTest_idle hs hquiet]
  unfold State.retakeHello
  rw [hoffline]
  cases hhold : (s.port p).hold with
  | none =>
    have hnone : (s.port p).goOffline.hold = none := hhold
    have hleft : (s.port p).goOffline = (s.port p).left := by rw [PortState.left, ← hnone]
    simp only [hnone]
    rw [hoffline, hleft]
    exact .nothing hhold
  | some r =>
    have hsome : (s.port p).goOffline.hold = some r := hhold
    simp only [hsome]
    rcases hlegal r hhold with ⟨honline, -⟩ | ⟨-, hhello⟩
    · rw [hs] at honline; cases honline
    obtain ⟨tag, op⟩ := r
    cases op with
    | hello rev fault =>
      exact closes_hello (s := (s.onPort p (·.goOffline)).onPort p fun P => { P with hold := none })
        ((State.port_onPort_same ..).trans (by rw [hoffline]; rfl)) hhold
    | _ => cases hhello

/-- Once closed, a port is OFFLINE and holds nothing, or a session has started. -/
theorem PortState.Closes.then {revision : Half} {P W : PortState} (h : P.Closes p revision W) :
    W.hold = none ∧ ((W.session = .offline ∧ W.inContact = false) ∨ W.session = .online) := by
  cases h with
  | nothing | refused | discarded => exact ⟨rfl, .inl ⟨rfl, rfl⟩⟩
  | started => exact ⟨rfl, .inr rfl⟩

/-- The tests leave a port alone that is neither LEAVING nor CLOSING. -/
theorem port_sessionTests_idle (hc : (s.port p).session ≠ .closing) (hl : (s.port p).session ≠ .leaving) :
    s.sessionTests.port p = s.port p := by
  have hno : s.leaveDue p = false := by
    rw [← Bool.not_eq_true]
    exact fun hdue => hl (leaveDue_leaving hdue)
  rw [port_sessionTests_open hc, leaveTest_not_due hno]

/-- A commit's completion that comes after a port's becoming OFFLINE in the same event, and the tests that follow (log 7). -/
theorem port_after_closing (hhold : (s.port p).hold = none)
    (h : ((s.port p).session = .offline ∧ (s.port p).inContact = false) ∨ (s.port p).session = .online) :
    ((s.port p).session = .offline → s.completeCommit.sessionTests.port p = s.port p) ∧
      (s.port p).ServedTo (s.completeCommit.sessionTests.port p) := by
  have hserved := served_completeCommit s p
  have hsession := steady_session hserved.steady
  have hidle : s.completeCommit.sessionTests.port p = s.completeCommit.port p := by
    refine port_sessionTests_idle ?_ ?_ <;> rw [hsession] <;> rcases h with ⟨h, -⟩ | h <;> simp [h]
  rw [hidle]
  refine ⟨fun hoffline => ?_, hserved⟩
  rcases h with ⟨-, haway⟩ | honline
  · exact port_completeCommit_away haway fun r hr => by rw [hhold] at hr; cases hr
  · rw [hoffline] at honline; cases honline

end

section

variable {s u : State} {p : Port} {l tasks : List Task}

/-- When the tasks of an event have run, a CLOSING port is as before but for its notifications. -/
theorem closing_afterTasks (htasks : ∀ x ∈ tasks, x.fires ∨ x = .commit) (hs : (s.port p).session = .closing)
    (hlegal : (s.port p).holdLegal) : (s.port p).AwayTo ((s.afterTasks p tasks).port p) ∧
      ((s.afterTasks p tasks).port p).session = .closing ∧ ((s.afterTasks p tasks).port p).holdLegal ∧
      (s.afterTasks p tasks).quiet p = s.quiet p := by
  have haway := away_afterTasks htasks (inContact_of_away (.inr hs)) (holdsNoAccess_of_closing hs hlegal)
  obtain ⟨_, _, _, hv⟩ := id haway
  unfold State.quiet
  rw [inFlight_slots (slots_afterTasks s p tasks), hv]
  exact ⟨⟨_, _, _, rfl⟩, hs, hlegal, rfl⟩

/-- A CLOSING port whose order unit has work keeps its record through the tests. -/
theorem port_tests_busy (hs : (s.port p).session = .closing) (h : s.quiet p = false) :
    s.sessionTests.port p = s.port p := by
  obtain ⟨u, hport, hrest, hresult⟩ := port_sessionTests_closing hs
  rw [hresult, closingTest_busy ((quiet_congr hport (slots_of_rest hrest)).trans h), hport]

/-- One whose order unit is quiet is closed by them (R159). -/
theorem closes_tests (hs : (s.port p).session = .closing) (hlegal : (s.port p).holdLegal) (h : s.quiet p = true) :
    (s.port p).Closes p s.revision (s.sessionTests.port p) := by
  obtain ⟨u, hport, hrest, hresult⟩ := port_sessionTests_closing hs
  have hcloses := closes_closingTest (by rw [hport]; exact hs) (by rw [hport]; exact hlegal)
    ((quiet_congr hport (slots_of_rest hrest)).trans h)
  rwa [hport, rest_revision hrest, ← hresult] at hcloses

/-- What the end of an event makes of a CLOSING port whose order unit has work. -/
theorem closeEvent_busy (hl : ∀ x ∈ l, Task.fires x) (hs : (s.port p).session = .closing)
    (hlegal : (s.port p).holdLegal) (hbusy : s.quiet p = false) :
    (s.port p).AwayTo ((s.closeEvent p l).port p) := by
  have hlast : s.commitLast p = false := by rw [State.commitLast, hbusy]; simp
  obtain ⟨tasks, htasks, hrun⟩ := closeEvent_tasks hl hlast
  obtain ⟨haway, hclosing, -, hquiet⟩ := closing_afterTasks htasks hs hlegal
  rw [hrun, port_tests_busy hclosing (hquiet.trans hbusy)]
  exact haway

/-- A commit's completion changes the revision (R39). -/
theorem revision_completeCommit (h : s.commitDue = true) : s.completeCommit.revision ≠ s.revision := by
  obtain ⟨c, hc⟩ := edit_of_commitDue h
  rw [rest_revision (rest_completeCommit s c hc)]
  show s.revision + 1 ≠ s.revision
  simp

/-- What the end of an event makes of one whose order unit is quiet: the record W that the tests leave, served further when a
session has started and a commit completes after it (log 7). -/
theorem closeEvent_quiet (hl : ∀ x ∈ l, Task.fires x) (hs : (s.port p).session = .closing)
    (hlegal : (s.port p).holdLegal) (hq : s.quiet p = true) : ∃ (P W : PortState) (revision : Half),
      (s.port p).AwayTo P ∧ P.Closes p revision W ∧
      (revision = s.revision ∨ revision = (s.closeEvent p l).revision) ∧
      (W.session = .offline → (s.closeEvent p l).port p = W) ∧ W.ServedTo ((s.closeEvent p l).port p) ∧
      ((s.closeEvent p l).revision = s.revision → (s.closeEvent p l).port p = W) := by
  cases hlast : s.commitLast p with
  | true =>
    obtain ⟨haway, hclosing, hheld, hquiet⟩ := closing_afterTasks (fun x hx => .inl (hl x hx)) hs hlegal
    have hcloses := closes_tests hclosing hheld (hquiet.trans hq)
    obtain ⟨-, hrest⟩ := onward_afterTasks (p := p) (s := s) hl
    have hbefore := (rest_sessionTests _).trans hrest
    have hdue : (s.afterTasks p l).sessionTests.commitDue = true := by
      have hsame : (s.afterTasks p l).sessionTests.commitDue = s.commitDue := by
        unfold State.commitDue; rw [rest_edit hbefore]
      rw [hsame]
      simp only [State.commitLast, Bool.and_eq_true] at hlast
      exact hlast.1.1
    have hrevision := revision_completeCommit hdue
    obtain ⟨hhold, hthen⟩ := hcloses.then
    obtain ⟨hoffline, hserved⟩ := port_after_closing hhold hthen
    rw [closeEvent_last hlast]
    rw [← rest_revision (rest_sessionTests _), rest_revision hbefore] at hrevision
    exact ⟨_, _, _, haway, hcloses, .inl (rest_revision hrest), hoffline, hserved, fun h => absurd h hrevision⟩
  | false =>
    obtain ⟨tasks, htasks, hrun⟩ := closeEvent_tasks hl hlast
    obtain ⟨haway, hclosing, hheld, hquiet⟩ := closing_afterTasks htasks hs hlegal
    have hcloses := closes_tests hclosing hheld (hquiet.trans hq)
    rw [← rest_revision (rest_sessionTests _), ← hrun] at hcloses
    exact ⟨_, _, _, haway, hcloses, .inr rfl, fun _ => rfl, .refl _, fun _ => rfl⟩

/-- What becomes of a CLOSING port at the end of the event of its completed request (R104, R159). -/
theorem closingSettled_closeEvent {quiet : Prop} (hl : ∀ x ∈ l, Task.fires x)
    (hport : (s.port p).session = .closing → u.port p = s.port p) (hrevision : u.revision = s.revision)
    (hquiet : quiet ↔ u.quiet p = true) : closingSettled s (u.closeEvent p l) p quiet := by
  intro hs hlegal
  have hsame := hport hs
  rw [← hsame] at hs hlegal
  refine ⟨fun hno => ?_, fun hq => ?_⟩
  · obtain ⟨_, _, _, hbusy⟩ := closeEvent_busy hl hs hlegal (by rw [← Bool.not_eq_true, ← hquiet]; exact hno)
    rw [hbusy, hsame]
    exact ⟨by rw [← hsame]; exact hs, rfl, rfl, rfl, rfl⟩
  · obtain ⟨P, W, v, ⟨_, _, _, haway⟩, hcloses, hv, hoffline, hserved, hunchanged⟩ :=
      closeEvent_quiet hl hs hlegal (hquiet.mp hq)
    rw [hsame] at haway
    rw [hrevision] at hv hunchanged
    subst haway
    cases hcloses with
    | nothing hnone =>
      rw [hoffline rfl]
      exact ⟨rfl, rfl, fun _ => ⟨rfl, rfl, rfl, rfl, rfl⟩, fun _ _ _ hhold => by cases hnone.symm.trans hhold⟩
    | refused tag rev fault tags hheld hbad =>
      rw [hoffline rfl]
      refine ⟨rfl, rfl, fun hno => absurd hheld (hno _ _ _), fun tag' rev' fault' hhold => ?_⟩
      cases hheld.symm.trans hhold
      refine ⟨rfl, fun _ => ⟨rfl, rfl, rfl⟩, fun htag hused => ?_, fun htag hnew hrev hfault => ?_⟩
      · rcases hbad with hlarge | ⟨hfree, -⟩
        · omega
        · exact absurd hused hfree
      · omega
    | discarded tag rev fault places hheld htag hused =>
      rw [hoffline rfl]
      refine ⟨rfl, rfl, fun hno => absurd hheld (hno _ _ _), fun tag' rev' fault' hhold => ?_⟩
      cases hheld.symm.trans hhold
      refine ⟨rfl, fun hbad => ?_, fun _ _ => ⟨rfl, rfl, rfl⟩, fun _ hnew => absurd hused hnew⟩
      rcases hbad with hlarge | ⟨hfree, -⟩
      · omega
      · exact absurd hused hfree
    | started tag rev fault tags hheld htag hnew hrev hfault =>
      obtain ⟨later, hlater⟩ := hserved.grows
      obtain ⟨-, -, hseq⟩ := hserved.work (.inl rfl)
      refine ⟨steady_faults hserved.steady, steady_lost hserved.steady, fun hno => absurd hheld (hno _ _ _),
        fun tag' rev' fault' hhold => ?_⟩
      cases hheld.symm.trans hhold
      refine ⟨hserved.hold rfl, fun hbad => by omega,
        fun _ hused => absurd hused hnew, fun _ _ _ _ => ⟨steady_session hserved.steady,
          steady_sessionNo hserved.steady, hseq, steady_watermark hserved.steady, steady_subRev hserved.steady,
          steady_subFault hserved.steady, fun h => by rw [hunchanged h]; rfl, v, later, hv, fun h => ?_, ?_⟩⟩
      · rw [hunchanged h] at hlater
        simpa using hlater
      · rw [hlater, List.append_assoc]
        rfl

end

end Sys2Proof.Machine

/-! # The end of the last piece of a request (spec/06 R118 to R121) -/

namespace Sys2Proof.Machine

open Sys2Proof

/-! ## The command that ends a piece (R112 to R116) -/

/-- A command that ends a piece frees its slot, and the end acts on its request in the same event. -/
theorem exec_endsPiece {c : Instr} {s : State} {n : SlotNo} {j : Job} {e : Ending} (h : endsPiece c s n j e) :
    ∃ abort, exec c s = .next ((s.freed n abort).endPiece j e) := by
  obtain ⟨hrun, hjob, slot, hslot, hend⟩ := h
  rcases hend with ⟨data, rfl, hread, hwrite, rfl⟩ | ⟨sub, hfails, rfl⟩
  · have hfits : j.fits data = true := by
      cases hdir : j.dir with
      | read => exact (fits_read hdir).mpr (hread hdir)
      | write => exact (fits_write hdir).mpr (hwrite hdir)
    rw [exec_replyDone, answered_current hrun hslot hjob rfl]
    exact ⟨s.busAbort, by dsimp only; rw [takeDone_fits hfits]; rfl⟩
  · exact ⟨_, (exec_failsBy hrun hslot hjob rfl hfails).trans (by rw [endJob_freed])⟩

theorem inFlight_zero_iff (s : State) (p : Port) :
    s.inFlight p = 0 ↔ ∀ m j, (s.slot m).job = some j → j.port ≠ p := by
  have hall : ∀ m : SlotNo, m ∈ allSlots := by decide
  unfold State.inFlight
  rw [List.length_eq_zero_iff, List.filter_eq_nil_iff]
  constructor
  · intro h m j hj
    have hm := h m (hall m)
    rw [hj] at hm
    simpa using hm
  · intro h m _
    split
    next j hj => simpa using h m j hj
    next => simp

/-- With slot n free, no piece of the port is in flight exactly when no other slot works for it. -/
theorem inFlight_freed {s u : State} {n : SlotNo} {abort : Option AbortTransfer}
    (h : u.slots = (s.freed n abort).slots) (p : Port) : u.inFlight p = 0 ↔ s.onlySlot n p := by
  rw [inFlight_slots h, inFlight_zero_iff]
  refine ⟨fun hall m j hm hj => hall m j (by rw [slot_freed, if_neg hm]; exact hj), fun honly m j hj => ?_⟩
  rw [slot_freed] at hj
  split at hj
  · cases hj
  next hm => exact honly m j hm hj

/-! ## A request whose last piece has ended (R118) -/

theorem failure_isSome (e : Ending) (old : Option Failure) (addr : Word) :
    (e.failure old addr).isSome = (old.isSome || e.fails) := by
  cases e <;> cases old <;> rfl

theorem failure_eq_firstFailure (e : Ending) (old : Option Failure) (addr : Word) :
    e.failure old addr = firstFailure old e addr := by cases e <;> rfl

theorem mark_ended (e : Ending) (b : Bool) (x : Piece) :
    (e.mark b x).cond ≠ .inFlight ∧ (e.mark b x).cond ≠ .unissued := by
  cases e <;> simp [Ending.mark]

/-- The end of its last piece leaves a request nothing to wait for. -/
theorem workDone_ended {ps : List Piece} {n : Nat} {x : Piece} {stopped : Bool} (e : Ending) (b : Bool)
    (hx : ps[n]? = some x) (h : lastPiece ps n stopped) : workDone (updatePiece ps n (e.mark b)) stopped = true := by
  obtain ⟨hpiece, hothers⟩ := updatePiece_ended (e.mark b) hx
  obtain ⟨hflight, hissue⟩ := mark_ended e b x
  have hall : ∀ (i : Nat) (y : Piece), (updatePiece ps n (e.mark b))[i]? = some y →
      y.cond ≠ .inFlight ∧ (stopped = false → y.cond ≠ .unissued) := by
    intro i y hy
    by_cases hi : i = n
    · subst hi
      rw [hpiece] at hy
      cases hy
      exact ⟨hflight, fun _ => hissue⟩
    · exact h i y hi ((hothers i hi).symm.trans hy)
  unfold workDone
  rw [Bool.and_eq_true, Bool.or_eq_true]
  refine ⟨all_of_get fun i y hy => by simpa using (hall i y hy).1, ?_⟩
  cases stopped with
  | true => exact .inl rfl
  | false => exact .inr (all_of_get fun i y hy => by simpa using (hall i y hy).2 rfl)

/-! ## What the event leaves of a port that is not CLOSING -/

/-- What the end of an event makes of its own port, when that is not CLOSING. -/
structure PortState.EndedTo (P Q : PortState) : Prop where
  watermark : Q.watermark = P.watermark
  faults : Q.faults = P.faults
  lost : Q.lost = P.lost
  grows : ∃ new, Q.respQ = P.respQ ++ new
  tags : Q.tags ⊆ P.tags
  work : P.hold = none → Q.readL = P.readL ∧ Q.writeQ = P.writeQ
  fault : .fault ∈ P.events → .fault ∈ Q.events

theorem PortState.ServedTo.ended {P Q : PortState} (h : P.ServedTo Q) : P.EndedTo Q :=
  ⟨steady_watermark h.steady, steady_faults h.steady, steady_lost h.steady, h.grows, h.tags,
    fun hn => ⟨(h.work (.inl hn)).1, (h.work (.inl hn)).2.1⟩, h.fault⟩

theorem closeEvent_ended {s : State} {p : Port} {l : List Task} (hl : ∀ x ∈ l, Task.fires x)
    (hs : (s.port p).session ≠ .closing) : (s.port p).EndedTo ((s.closeEvent p l).port p) := by
  obtain ⟨v, hserved, -, hresult⟩ := closeEvent_served hl hs
  obtain ⟨hwatermark, hfaults, hlost, ⟨new, hnew⟩, htags, hwork, hfault⟩ := hserved.ended
  rw [hresult]
  rcases leaveTest_port v p with hsame | ⟨x, -, hleft⟩
  · rw [hsame]
    exact hserved.ended
  · rw [hleft]
    exact ⟨hwatermark, hfaults, hlost, ⟨new ++ [_], by rw [← List.append_assoc, ← hnew]; rfl⟩,
      fun _ ht => htags (List.filter_subset_self _ ht), hwork, hfault⟩

/-- An event with no watch to fire leaves the locks alone. -/
theorem locks_closeEvent_nothing (s : State) (p : Port) : (s.closeEvent p []).locks = s.locks := by
  have hcommit : ∀ tasks : List Task, (∀ x ∈ tasks, x = .commit) → (s.afterTasks p tasks).locks = s.locks :=
    fun tasks htasks => runTasks_ind (C := fun t => t.locks = s.locks) p tasks (fun _ _ h => h)
      (fun x hx t ht => by rw [htasks x hx]; exact (locks_completeCommit t).trans ht) _ rfl
  cases hlast : s.commitLast p with
  | true => rw [closeEvent_last hlast, locks_sessionTests, locks_completeCommit, locks_sessionTests, hcommit [] (by simp)]
  | false =>
    cases hdue : s.commitDue with
    | true => rw [closeEvent_due hdue hlast, locks_sessionTests, hcommit _ (by simp)]
    | false => rw [closeEvent_not_due hdue, locks_sessionTests, hcommit [] (by simp)]

/-! ## What is said of the part with the request out of its list, said of the part before -/

section

variable {s s' t : State} {p : Port}

theorem leaveSettled_of_lists {w : Word} {ended : Prop} (h : ∃ reads writes mark, s'.port p =
    { s.port p with readL := reads, writeQ := writes, watermark := mark }) (g : leaveSettled s' t p w ended) :
    leaveSettled s t p w ended := by
  obtain ⟨_, _, _, h⟩ := h
  unfold leaveSettled at g ⊢
  rw [h] at g
  exact g

theorem closingSettled_of_lists {quiet : Prop} (hrevision : s'.revision = s.revision) (h : ∃ reads writes mark,
    s'.port p = { s.port p with readL := reads, writeQ := writes, watermark := mark })
    (g : closingSettled s' t p quiet) : closingSettled s t p quiet := by
  obtain ⟨_, _, _, h⟩ := h
  unfold closingSettled at g ⊢
  rw [h, hrevision] at g
  exact g

end

/-! ## A read completes (R119) -/

/-- The part with a completed read out of the read list, and nothing else changed (R95). -/
def State.readGone (s : State) (p : Port) (tag : Byte) : State :=
  s.onPort p (fun P => { P with readL := P.readL.filter (fun r => r.tag != tag) })

theorem port_readGone (s : State) (p : Port) (tag : Byte) : (s.readGone p tag).port p =
    { s.port p with readL := (s.port p).readL.filter (fun r => r.tag != tag) } := State.port_onPort_same ..

/-- Changed and then taken out, or just taken out. -/
theorem finishRead_onRead (s : State) (p : Port) {tag : Byte} {r : ReadEntry} (h : r.tag = tag) :
    (s.onPort p (·.onRead tag (fun _ => r))).finishRead p r =
      ((s.readGone p tag).respondDue p r.response).leaveDrain p (.read tag) := by
  subst h
  unfold State.finishRead
  rw [onPort_onPort]
  have hgone : (fun P : PortState => { P.onRead r.tag (fun _ => r) with
      readL := (P.onRead r.tag (fun _ => r)).readL.filter (fun x => x.tag != r.tag) }) =
      fun P => { P with readL := P.readL.filter (fun x => x.tag != r.tag) } := by
    funext P
    have hlist : (P.onRead r.tag (fun _ => r)).readL.filter (fun x => x.tag != r.tag) =
        P.readL.filter (fun x => x.tag != r.tag) := by
      unfold PortState.onRead
      induction P.readL with
      | nil => rfl
      | cons y l ih =>
        dsimp only at ih ⊢
        rw [List.map_cons, List.filter_cons, List.filter_cons, ih]
        by_cases hy : y.tag = r.tag
        · simp [hy]
        · simp [hy]
    rw [hlist]
    rfl
  rw [hgone]
  rfl

section

variable {s : State} {n : SlotNo} {abort : Option AbortTransfer} {j : Job} {end_ : Ending} {tag : Byte} {r : ReadEntry}

/-- The event in which a read completes. -/
theorem endPiece_read_done {x : Piece} (href : j.ref = .read tag)
    (hr : (s.port j.port).readL.find? (fun r => r.tag == tag) = some r) (hx : r.pieces[j.piece]? = some x)
    (hlast : lastPiece r.pieces j.piece (r.failed.isSome || r.cut || end_.fails)) :
    (s.freed n abort).endPiece j end_ = ((((s.freed n abort).readGone j.port tag).respondDue j.port
      (r.ended j.piece end_).response).leaveDrain j.port (.read tag)).closeEvent j.port [] := by
  have htag : r.tag = tag := by simpa using List.find?_some hr
  have hdone : workDone (r.ended j.piece end_).pieces
      ((r.ended j.piece end_).failed.isSome || (r.ended j.piece end_).cut) = true := by
    have hstopped : ((r.ended j.piece end_).failed.isSome || (r.ended j.piece end_).cut) =
        (r.failed.isSome || r.cut || end_.fails) := by
      simp only [ReadEntry.ended, failure_isSome]
      rw [Bool.or_right_comm]
    rw [hstopped]
    exact workDone_ended end_ _ hx hlast
  simp only [State.endPiece, href, port_freed, hr, hdone]
  rw [← finishRead_onRead _ _ (show (r.ended j.piece end_).tag = tag from htag)]
  rfl

end

/-- The response to a read is not to a MAP_COMMIT. -/
theorem code_readResponse (r : ReadEntry) : r.response.code ≠ 0x15#8 ∧ r.response.tag = r.tag := by
  unfold ReadEntry.response
  split <;> exact ⟨by simp, rfl⟩

end Sys2Proof.Machine

namespace Sys2Proof.Machine

open Sys2Proof

/-! ## The part between the report of a completed request and the tasks of its event -/

section

variable (s : State) (p : Port) (ref : ReqRef)

theorem map_leaveDrain : (s.leaveDrain p ref).map = s.map := by unfold State.leaveDrain; split <;> rfl

theorem revision_leaveDrain : (s.leaveDrain p ref).revision = s.revision := by unfold State.leaveDrain; split <;> rfl

theorem locks_leaveDrain : (s.leaveDrain p ref).locks = s.locks := by unfold State.leaveDrain; split <;> rfl

end

/-- The edit without a request of the drain set depends on nothing but the edit. -/
theorem edit_leaveDrain_congr {s t : State} (h : t.edit = s.edit) (p : Port) (ref : ReqRef) :
    (t.leaveDrain p ref).edit = (s.leaveDrain p ref).edit := by
  unfold State.leaveDrain
  rw [h]
  split
  · rfl
  · exact h

theorem quiet_iff (s : State) (p : Port) : s.quiet p = true ↔
    (s.port p).watermark = (s.port p).writeSeq ∧ (s.port p).readL = [] ∧ s.inFlight p = 0 := by
  simp [State.quiet, and_assoc]

/-- A request that completes, and its event: rest is the part with the request out of its list, u the part when it has been
reported and has left the drain set, with its slot free. -/
structure Completes (s rest u : State) (n : SlotNo) (abort : Option AbortTransfer) (p : Port) (ref : ReqRef) : Prop where
  lists : ∃ reads writes mark, rest.port p =
    { s.port p with readL := reads, writeQ := writes, watermark := mark }
  revision : rest.revision = s.revision
  device : u.device = (s.freed n abort).device
  edit : u.edit = (rest.leaveDrain p ref).edit
  onward : Onward rest u
  reported : (rest.port p).ReportedTo (u.port p)
  away : (rest.port p).inContact = false → u.port p = rest.port p

namespace Completes

variable {s rest u : State} {n : SlotNo} {abort : Option AbortTransfer} {p : Port} {ref : ReqRef} {l : List Task}

theorem slots (h : Completes s rest u n abort p ref) (l : List Task) :
    (u.closeEvent p l).slot n = { issueNo := (s.slot n).issueNo, job := none } ∧
      (∀ m, m ≠ n → (u.closeEvent p l).slot m = s.slot m) ∧ (u.closeEvent p l).config = s.config := by
  have hdevice := (device_closeEvent u p l).trans h.device
  have hslot : ∀ m, (u.closeEvent p l).slot m = (s.freed n abort).slot m := fun m => by
    unfold State.slot
    rw [device_slots hdevice]
  refine ⟨by rw [hslot, slot_freed, if_pos rfl], fun m hm => by rw [hslot, slot_freed, if_neg hm], ?_⟩
  exact (device_config hdevice).trans rfl

theorem inFlight (h : Completes s rest u n abort p ref) : u.inFlight p = 0 ↔ s.onlySlot n p :=
  inFlight_freed (device_slots h.device) p

theorem leaveSettled (h : Completes s rest u n abort p ref) (hl : ∀ x ∈ l, Task.fires x) :
    leaveSettled s (u.closeEvent p l) p (rest.port p).watermark ((rest.port p).readL = [] ∧ s.onlySlot n p) :=
  leaveSettled_of_lists h.lists (leaveSettled_closeEvent hl h.reported (by rw [h.inFlight]))

theorem closingSettled (h : Completes s rest u n abort p ref) (hl : ∀ x ∈ l, Task.fires x) :
    closingSettled s (u.closeEvent p l) p ((rest.port p).watermark = (rest.port p).writeSeq ∧
      (rest.port p).readL = [] ∧ s.onlySlot n p) := by
  refine closingSettled_of_lists h.revision h.lists (closingSettled_closeEvent hl
    (fun hs => h.away (inContact_of_away (.inr hs))) h.onward.revision ?_)
  rw [quiet_iff, h.inFlight, work_watermark h.reported.work, work_writeSeq h.reported.work,
    work_readL h.reported.work]

theorem drained (h : Completes s rest u n abort p ref) (hl : ∀ x ∈ l, Task.fires x) :
    drained rest (u.closeEvent p l) p ref := drained_closeEvent h.onward h.edit hl

end Completes

/-! ## O50 -/

section

variable (s : State) (n : SlotNo) (abort : Option AbortTransfer) (p : Port) (tag : Byte) (x : Response)

/-- The part with a completed read reported. -/
def State.readReported : State :=
  (((s.freed n abort).readGone p tag).respondDue p x).leaveDrain p (.read tag)

theorem port_readReported : (s.readReported n abort p tag x).port p =
    if (s.port p).inContact then ((s.readGone p tag).port p).respond x else (s.readGone p tag).port p := by
  have hcontact : (((s.freed n abort).readGone p tag).port p).inContact = (s.port p).inContact := by
    rw [port_readGone]; rfl
  rw [State.readReported, port_leaveDrain, State.respondDue, hcontact]
  split
  · rw [State.port_respond, if_pos rfl]; rfl
  · rfl

theorem locks_readReported : (s.readReported n abort p tag x).locks = s.locks := by
  rw [State.readReported, locks_leaveDrain, locks_respondDue]; rfl

variable {x}

theorem completes_read (h : x.code ≠ 0x15#8) :
    Completes s (s.readGone p tag) (s.readReported n abort p tag x) n abort p (.read tag) := by
  have hrest := rest_respondDue ((s.freed n abort).readGone p tag) p x
  have hport : ((s.readGone p tag).port p).ReportedTo ((s.readReported n abort p tag x).port p) := by
    rw [port_readReported]
    split
    · exact reportedTo_respond _ h
    · exact .refl _
  refine ⟨⟨_, _, _, port_readGone s p tag⟩, rfl, ?_, ?_, ?_, hport, fun haway => ?_⟩
  · rw [State.readReported, device_leaveDrain, rest_device hrest]; rfl
  · exact edit_leaveDrain_congr (s := s.readGone p tag) ((rest_edit hrest).trans rfl) p (.read tag)
  · refine onward_reported ?_ ?_ (fun k => ?_) (fun q hq => ?_) hport
    · rw [State.readReported, map_leaveDrain, rest_map hrest]; rfl
    · rw [State.readReported, revision_leaveDrain, rest_revision hrest]; rfl
    · rw [lock_of_locks (t := s.readReported n abort p tag x) (s := s.readGone p tag)
        (locks_readReported s n abort p tag x)]
    · rw [State.readReported, port_leaveDrain, port_respondDue_ne _ hq]; rfl
  · rw [port_readGone] at haway
    rw [port_readReported, if_neg (by rw [show (s.port p).inContact = false from haway]; simp)]

end

/-- The response of a read that completes: its first failure, or its bytes (R119). -/
theorem response_read_ended {r : ReadEntry} {x : Piece} {i : Nat} {e : Ending} (hx : r.pieces[i]? = some x) :
    (∀ f, firstFailure r.failed e x.addr = some f → (r.ended i e).response =
      { code := 0x03#8, tag := r.tag, status := .poolError, body := .poolError f.sub }) ∧
    (∀ data, r.failed = none → e = .well data → (r.ended i e).response =
      { code := 0x03#8, tag := r.tag, status := .ok
        body := .data ((r.pieces.take i).flatMap Piece.data ++ data ++
          (r.pieces.drop (i + 1)).flatMap Piece.data) }) := by
  have hfailed : (r.ended i e).failed = firstFailure r.failed e x.addr := by
    rw [← failure_eq_firstFailure, ← pieceAddr_get hx]; rfl
  refine ⟨fun f hf => ?_, fun data hnone he => ?_⟩
  · rw [ReadEntry.response, hfailed, hf]; rfl
  · subst he
    rw [ReadEntry.response, hfailed, hnone]
    simp [firstFailure, ReadEntry.ended, updatePiece_split _ _ _ _ hx, hnone, Ending.mark]

/-- What a port in contact has at the end of the event of its completed read (R91, R95, R119). -/
theorem reached_readCompletes {s t : State} {n : SlotNo} {abort : Option AbortTransfer} {p : Port} {tag : Byte}
    {x : Response} (ht : t = (s.readReported n abort p tag x).closeEvent p []) (hx : x.tag = tag)
    (h : (s.port p).reached) : tag ∉ (t.port p).tags ∧ (t.port p).watermark = (s.port p).watermark ∧
      ((s.port p).hold = none → (t.port p).readL = ((s.readGone p tag).port p).readL ∧
        (t.port p).writeQ = (s.port p).writeQ) ∧
      ∃ after, (t.port p).respQ = (s.port p).respQ ++ x :: after := by
  have hport := port_readReported s n abort p tag x
  have hgone := port_readGone s p tag
  rw [if_pos (inContact_of h)] at hport
  have hopen : ((s.readReported n abort p tag x).port p).session ≠ .closing := by
    rw [hport, hgone]
    exact reached_not_closing h
  have hended := closeEvent_ended (l := []) (by simp) hopen
  rw [← ht, hport, hgone] at hended
  obtain ⟨after, hafter⟩ := hended.grows
  refine ⟨fun hin => ?_, hended.watermark, fun hhold => ?_, after, hafter.trans ?_⟩
  · have hkept := hended.tags hin
    simp [PortState.respond, hx] at hkept
  · rw [hgone]
    exact hended.work hhold
  · simp [PortState.respond]

/-- Settles O50: the read's list, the answer, and then the end of an event with no watch to fire. -/
theorem readCompletes : Obligations.ReadCompletes := by
  intro c n j end_ tag e x s hend href hread hx hlast
  obtain ⟨abort, hexec⟩ := exec_endsPiece hend
  have hown : e.tag = tag := by simpa using List.find?_some hread
  obtain ⟨hcode, htag⟩ := code_readResponse (e.ended j.piece end_)
  have hcompletes := completes_read s n abort j.port tag hcode
  have hl : ∀ x ∈ ([] : List Task), x.fires := by simp
  have hgone := port_readGone s j.port tag
  obtain ⟨hslot, hslots, hconfig⟩ := hcompletes.slots []
  rw [endPiece_read_done href hread hx hlast, ← State.readReported] at hexec
  refine ⟨_, s.readGone j.port tag, hexec, hslot, hslots,
    (locks_closeEvent_nothing _ _).trans (locks_readReported ..), hconfig, rfl, hcompletes.drained hl,
    fun hreached => ?_, ?_, ?_⟩
  · obtain ⟨hfree, hmark, hlists, after, hresp⟩ :=
      reached_readCompletes (n := n) (abort := abort) rfl (htag.trans hown) hreached
    obtain ⟨hfailed, hwell⟩ := response_read_ended (e := end_) hx
    refine ⟨hfree, hmark, hlists, fun f hf => ⟨after, ?_⟩, fun data hnone he => ⟨_, after, ?_, rfl⟩⟩
    · rw [hresp, hfailed f hf, hown]
    · rw [hresp, hwell data hnone he, hown]
  · have hsettled := hcompletes.leaveSettled hl
    rw [hgone] at hsettled ⊢
    exact hsettled
  · have hsettled := hcompletes.closingSettled hl
    rw [hgone] at hsettled ⊢
    exact hsettled

end Sys2Proof.Machine

namespace Sys2Proof.Machine

open Sys2Proof

/-! ## What parts of an event that are not fired NOTIFYs keep of the notification unit (R125, R128) -/

/-- The notification unit's part of a port's record. -/
def PortState.book (P : PortState) := (P.notes, P.notices, P.noticeSeq)

/-- The notification unit has not moved. -/
def BookKept (s t : State) : Prop := ∀ q, (t.port q).book = (s.port q).book

theorem BookKept.trans {s t u : State} (h : BookKept s t) (g : BookKept t u) : BookKept s u :=
  fun q => (g q).trans (h q)

theorem book_raise (P : PortState) (it : Item) : (P.raise it).book = P.book := by
  unfold PortState.raise; split <;> rfl

theorem bookKept_respondDue (s : State) (p : Port) (x : Response) : BookKept s (s.respondDue p x) := fun q => by
  unfold State.respondDue
  split
  · rw [State.port_respond]
    split
    next hq => subst hq; rfl
    · rfl
  · rfl

theorem bookKept_handoff (s : State) (k : Lock) : BookKept s (s.handoff k) := by
  have hpass : BookKept s (s.passLock k) := fun q => by
    obtain ⟨_, hq⟩ := onlyItems_passLock s k q
    rw [hq]
    rfl
  unfold State.handoff
  split
  · split
    · exact hpass.trans (bookKept_respondDue _ _ _)
    · exact hpass
  · exact fun _ => rfl

theorem bookKept_completeCommit (s : State) : BookKept s s.completeCommit := fun q => by
  cases hedit : s.edit with
  | committing c =>
    obtain ⟨u, hport, -, -, -, hresult⟩ := port_completeCommit hedit q
    obtain ⟨_, _, _, _, _, _, htaken⟩ := taken_retake u q
    have hanswered : (s.answeredPort c q).book = (s.port q).book := by
      unfold State.answeredPort; split <;> rfl
    calc (s.completeCommit.port q).book = (u.port q).book := by rw [hresult, htaken]; rfl
      _ = (s.port q).book := by rw [hport, State.toldPort, book_raise, hanswered]
  | absent | opened =>
    have hsame : s.completeCommit = s := by simp only [State.completeCommit, hedit]
    rw [hsame]

/-! ## What the tests make of a port's work, and of the notification unit (R156, R159) -/

/-- A port that is not ONLINE in the end was not before, and its write queue and watermark are as they were. -/
structure PortState.ShutTo (P Q : PortState) : Prop where
  online : P.session = .online → Q.session = .online
  work : Q.session ≠ .online → Q.watermark = P.watermark ∧ Q.writeQ = P.writeQ

theorem PortState.ShutTo.trans {P Q R : PortState} (h : P.ShutTo Q) (g : Q.ShutTo R) : P.ShutTo R := by
  refine ⟨fun hs => g.online (h.online hs), fun hs => ?_⟩
  obtain ⟨gmark, gqueue⟩ := g.work hs
  obtain ⟨hmark, hqueue⟩ := h.work fun honline => hs (g.online honline)
  exact ⟨gmark.trans hmark, gqueue.trans hqueue⟩

theorem shutTo_same {P Q : PortState} (hs : Q.session = P.session) (hmark : Q.watermark = P.watermark)
    (hqueue : Q.writeQ = P.writeQ) : P.ShutTo Q := ⟨fun h => hs.trans h, fun _ => ⟨hmark, hqueue⟩⟩

theorem shutTo_completeCommit (s : State) (q : Port) : (s.port q).ShutTo (s.completeCommit.port q) := by
  have hserved := served_completeCommit s q
  have hsession := steady_session hserved.steady
  refine ⟨fun h => hsession.trans h, fun h => ⟨steady_watermark hserved.steady, ?_⟩⟩
  cases hedit : s.edit with
  | committing c =>
    obtain ⟨u, hport, -, -, -, hresult⟩ := port_completeCommit hedit q
    have hopen : (u.port q).session ≠ .online := by
      rw [hport, kept_session (toldPort_kept s c q), ← hsession]
      exact h
    rw [hresult, (work_retake_refused hopen).2.1, hport, kept_writeQ (toldPort_kept s c q)]
  | absent | opened =>
    have hsame : s.completeCommit = s := by simp only [State.completeCommit, hedit]
    rw [hsame]

/-- All that a HELLO taken in OFFLINE may change of its port's record (R153). -/
inductive PortState.GreetedTo (P : PortState) : PortState → Prop
  | refused (tags : List Byte) (respQ : List Response) (places : Nat) :
      GreetedTo P { P with tags := tags, respQ := respQ, places := places }
  | started (tags : List Byte) (respQ : List Response) (number : Byte) (revision fault : Bool) :
      GreetedTo P { P with
        session := .online, sessionNo := number, writeSeq := 0#32, watermark := 0#32, subRev := revision
        subFault := fault, tags := tags, respQ := respQ }

theorem greeted_helloOffline {s : State} {p : Port} (r : Request) (revision fault : Byte)
    (h : (s.port p).inContact = false) : (s.port p).GreetedTo ((s.helloOffline p r revision fault).port p) := by
  unfold State.helloOffline State.tagCheck
  split
  · rw [State.port_onPort_same]
    exact .refused _ _ _
  · split
    · rw [State.port_onPort_same]
      have haway : ({ s.port p with places := (s.port p).places - 1 } : PortState).inContact = false := h
      rw [PortState.record, if_neg (by rw [haway]; simp)]
      exact .refused _ _ _
    · unfold State.helloFields
      split
      · unfold State.startSession
        rw [State.port_respond, if_pos rfl, State.port_onPort_same, State.port_onPort_same]
        exact .started _ _ _ _ _
      · rw [State.port_respond, if_pos rfl, State.port_onPort_same]
        exact .refused _ _ _

theorem greeted_keeps {P Q : PortState} (h : P.GreetedTo Q) :
    Q.book = P.book ∧ P.ShutTo Q := by
  cases h with
  | refused => exact ⟨rfl, shutTo_same rfl rfl rfl⟩
  | started => exact ⟨rfl, ⟨fun _ => rfl, fun h => absurd rfl h⟩⟩

/-- The test of a CLOSING port moves nothing of the notification unit, and ends with the port ONLINE or its work kept. -/
theorem closingTest_keeps (s : State) (p : Port) :
    ((s.closingTest p).port p).book = (s.port p).book ∧ (s.port p).ShutTo ((s.closingTest p).port p) := by
  unfold State.closingTest
  split
  next htest =>
    have hclosing : (s.port p).session = .closing := by
      simp only [Bool.and_eq_true, beq_iff_eq] at htest
      exact htest.1
    have hoffline : (s.port p).goOffline.book = (s.port p).book ∧ (s.port p).ShutTo (s.port p).goOffline :=
      ⟨rfl, ⟨fun h => by (rw [hclosing] at h; cases h), fun _ => ⟨rfl, rfl⟩⟩⟩
    have hport : (s.onPort p (·.goOffline)).port p = (s.port p).goOffline := State.port_onPort_same ..
    unfold State.retakeHello
    split
    next r _ =>
      split
      next revision fault _ =>
        have hemptied : ((s.onPort p (·.goOffline)).onPort p fun P => { P with hold := none }).port p =
            { (s.port p).goOffline with hold := none } := (State.port_onPort_same ..).trans (by rw [hport])
        have hgreeted := greeted_helloOffline r revision fault
          (show (((s.onPort p (·.goOffline)).onPort p fun P => { P with hold := none }).port p).inContact = false by
            rw [hemptied]; rfl)
        rw [hemptied] at hgreeted
        obtain ⟨hbook, hshut⟩ := greeted_keeps hgreeted
        exact ⟨hbook.trans hoffline.1, hoffline.2.trans ⟨hshut.online, hshut.work⟩⟩
      · rw [hport]; exact hoffline
    · rw [hport]; exact hoffline
  · exact ⟨rfl, shutTo_same rfl rfl rfl⟩

theorem leaveTest_keeps (s : State) (p : Port) :
    ((s.leaveTest p).port p).book = (s.port p).book ∧ (s.port p).ShutTo ((s.leaveTest p).port p) := by
  rcases leaveTest_port s p with h | ⟨_, -, h⟩ <;> rw [h] <;> exact ⟨rfl, shutTo_same rfl rfl rfl⟩

theorem sessionTests_keeps (s : State) (q : Port) :
    (s.sessionTests.port q).book = (s.port q).book ∧ (s.port q).ShutTo (s.sessionTests.port q) := by
  obtain ⟨u, hport, -, hresult⟩ := port_sessionTests_turn s q
  obtain ⟨hleaveBook, hleaveShut⟩ := leaveTest_keeps u q
  obtain ⟨hbook, hshut⟩ := closingTest_keeps (u.leaveTest q) q
  rw [hresult, ← hport]
  exact ⟨hbook.trans hleaveBook, hleaveShut.trans hshut⟩

/-- What the tasks of an event and its tests and completions keep, the end of it keeps. -/
theorem closeEvent_ind {C : State → Prop} {s : State} {p : Port} {l : List Task} (hl : ∀ x ∈ l, Task.fires x)
    (hfresh : ∀ t n, C t → C { t with fresh := n }) (htask : ∀ x t, Task.fires x → C t → C (t.runTask p x))
    (hcommit : ∀ t, C t → C t.completeCommit) (htests : ∀ t, C t → C t.sessionTests) (h : C s) :
    C (s.closeEvent p l) := by
  have hafter : ∀ tasks : List Task, (∀ x ∈ tasks, x.fires ∨ x = .commit) → C (s.afterTasks p tasks) :=
    fun tasks htasks => runTasks_ind p tasks hfresh (fun x hx t ht => by
      rcases htasks x hx with hfires | rfl
      · exact htask x t hfires ht
      · exact hcommit t ht) _ (hfresh _ _ h)
  cases hlast : s.commitLast p with
  | true =>
    rw [closeEvent_last hlast]
    exact htests _ (hcommit _ (htests _ (hafter l fun x hx => .inl (hl x hx))))
  | false =>
    obtain ⟨tasks, htasks, hrun⟩ := closeEvent_tasks hl hlast
    rw [hrun]
    exact htests _ (hafter tasks htasks)

theorem shutTo_closeEvent {s : State} {p : Port} {l : List Task} (hl : ∀ x ∈ l, Task.fires x) (q : Port) :
    (s.port q).ShutTo ((s.closeEvent p l).port q) := by
  refine closeEvent_ind (C := fun t => (s.port q).ShutTo (t.port q)) hl (fun _ _ h => h) (fun x t hx h => ?_)
    (fun t h => h.trans (shutTo_completeCommit t q)) (fun t h => h.trans (sessionTests_keeps t q).2)
    (shutTo_same rfl rfl rfl)
  have hkept := (firedPorts_runTask t p hx q).kept
  exact h.trans (shutTo_same (kept_session hkept) (kept_watermark hkept) (kept_writeQ hkept))

end Sys2Proof.Machine

namespace Sys2Proof.Machine

open Sys2Proof

/-! ## The locks that an event hands off (R57, R98) -/

/-- The record of a lock when it has been handed off, if it was RELEASING. -/
def State.handedOver (s : State) (k : Lock) : LockRecord :=
  match (s.lock k).phase with
  | .releasing _ => s.passedOn (s.lock k)
  | _ => s.lock k

theorem handedOver_releasing {s : State} {k : Lock} {r : Releasing} (h : (s.lock k).phase = .releasing r) :
    s.handedOver k = s.passedOn (s.lock k) := by simp only [State.handedOver, h]

theorem handedOver_other {s : State} {k : Lock} (h : ∀ r, (s.lock k).phase ≠ .releasing r) :
    s.handedOver k = s.lock k := by
  unfold State.handedOver
  split
  next r hr => exact absurd hr (h r)
  · rfl

theorem lock_handoff_same (s : State) (k : Lock) : (s.handoff k).lock k = s.handedOver k := by
  by_cases h : ∃ r, (s.lock k).phase = .releasing r
  · obtain ⟨r, hr⟩ := h
    rw [lock_handoff hr, handedOver_releasing hr]
  · have hno : ∀ r, (s.lock k).phase ≠ .releasing r := fun r hr => h ⟨r, hr⟩
    rw [handoff_same s k k hno, handedOver_other hno]

theorem passedOn_congr {s t : State} (h : t.config = s.config) (l : LockRecord) : t.passedOn l = s.passedOn l := by
  unfold State.passedOn
  rw [h]

theorem handedOver_congr {s t : State} {k : Lock} (hlock : t.lock k = s.lock k) (hconfig : t.config = s.config) :
    t.handedOver k = s.handedOver k := by
  unfold State.handedOver
  rw [hlock]
  split
  · exact passedOn_congr hconfig _
  · rfl

/-- What the tasks of an event make of a lock: it is handed off once if its handoff is among them. -/
theorem lock_foldl_tasks {p : Port} {k : Lock} {tasks : List Task} (htasks : ∀ x ∈ tasks, x.fires ∨ x = .commit)
    (s : State) : (tasks.foldl (fun t x => t.runTask p x) s).lock k =
      if Task.handoff k ∈ tasks then s.handedOver k else s.lock k := by
  induction tasks generalizing s with
  | nil => rfl
  | cons x tasks ih =>
    rw [List.foldl_cons, ih fun y hy => htasks y (List.mem_cons_of_mem x hy)]
    by_cases hx : x = .handoff k
    · subst hx
      have hdone : (s.handoff k).handedOver k = s.handedOver k := by
        rw [handedOver_other (handoff_releasing s k), lock_handoff_same]
      have hlock : (s.runTask p (.handoff k)).lock k = s.handedOver k := lock_handoff_same s k
      have hover : (s.runTask p (.handoff k)).handedOver k = s.handedOver k := hdone
      rw [hlock, hover, ite_self, if_pos List.mem_cons_self]
    · have hsame : (s.runTask p x).lock k = s.lock k := by
        refine (grantedAtMostOnce_runTask p s x k).2 fun hk => hx ?_
        rcases htasks x List.mem_cons_self with hfires | rfl
        · cases x with
          | handoff j => cases hk; rfl
          | note | commit => cases hk
          | revoke | release => cases hfires
        · cases hk
      have hmem : Task.handoff k ∈ x :: tasks ↔ Task.handoff k ∈ tasks := by
        rw [List.mem_cons, or_iff_right fun h => hx h.symm]
      rw [hsame, handedOver_congr hsame (device_config (device_runTask p s x))]
      simp only [hmem]

theorem lock_afterTasks {p : Port} {tasks : List Task} (htasks : ∀ x ∈ tasks, x.fires ∨ x = .commit) (s : State)
    (k : Lock) : (s.afterTasks p tasks).lock k = if Task.handoff k ∈ tasks then s.handedOver k else s.lock k := by
  obtain ⟨hperm, hfresh⟩ := arranged_tasks { s with fresh := s.fresh + 1 } tasks
  rw [State.afterTasks, State.runTasks, lock_foldl_tasks (fun x hx => htasks x (hperm.mem_iff.mp hx)), hfresh]
  simp only [hperm.mem_iff]
  rfl

theorem lock_closeEvent {p : Port} {l : List Task} (hl : ∀ x ∈ l, Task.fires x) (s : State) (k : Lock) :
    (s.closeEvent p l).lock k = if Task.handoff k ∈ l then s.handedOver k else s.lock k := by
  have hfired := fun x hx => Or.inl (b := x = Task.commit) (hl x hx)
  cases hlast : s.commitLast p with
  | true =>
    rw [closeEvent_last hlast, lock_of_locks (locks_sessionTests _), lock_of_locks (locks_completeCommit _),
      lock_of_locks (locks_sessionTests _), lock_afterTasks hfired]
  | false =>
    cases hdue : s.commitDue with
    | true =>
      have hcommit : ∀ x ∈ l ++ [.commit], x.fires ∨ x = .commit := fun x hx =>
        (List.mem_append.mp hx).imp (hl x) (by simp)
      rw [closeEvent_due hdue hlast, lock_of_locks (locks_sessionTests _), lock_afterTasks hcommit]
      simp
    | false => rw [closeEvent_not_due hdue, lock_of_locks (locks_sessionTests _), lock_afterTasks hfired]

theorem mem_firedTasks {s : State} {p : Port} {k : Lock} : Task.handoff k ∈ s.firedTasks p ↔
    ∃ r, (s.lock k).phase = .releasing r ∧ r.prev = p ∧ watermarkReaches (s.port p).watermark r.watch = true := by
  have hfired : Task.handoff k ∈ s.firedTasks p ↔ k ∈ s.firedLocks p := by simp [State.firedTasks]
  rw [hfired, State.firedLocks, List.mem_filter, and_iff_right (mem_allLocks k)]
  split
  next r hr => simp [hr]
  next hno => exact ⟨fun h => by (cases h), fun ⟨r, hr, _⟩ => absurd hr (hno r)⟩

/-- The locks after the event in which the watermark has advanced (R57, R98). -/
theorem lock_closeEvent_fired (s : State) (p : Port) (k : Lock) :
    (s.closeEvent p (s.firedTasks p)).lock k = s.afterAdvance p (s.port p).watermark (s.lock k) := by
  rw [lock_closeEvent (firedTasks_fire s p), State.afterAdvance]
  split
  next hmem =>
    obtain ⟨r, hr, hreached⟩ := mem_firedTasks.mp hmem
    rw [handedOver_releasing hr, hr]
    exact (if_pos hreached).symm
  next hmem =>
    split
    next r hr => exact (if_neg fun hreached => hmem (mem_firedTasks.mpr ⟨r, hr, hreached⟩)).symm
    · rfl

theorem afterAdvance_congr {s t : State} (h : t.config = s.config) (p : Port) (w : Word) (l : LockRecord) :
    t.afterAdvance p w l = s.afterAdvance p w l := by
  unfold State.afterAdvance
  split
  · rw [passedOn_congr h]
  · rfl

end Sys2Proof.Machine

namespace Sys2Proof.Machine

open Sys2Proof

/-! ## The NOTIFYs that an event fires (R98, R128, R134) -/

/-- The firing of this NOTIFY appends to the queue of port q. -/
def Note.appends (n : Note) (q : Port) : Bool := !n.cancelled && n.target == q

/-- What a NOTIFY is answered when it fires in this part. -/
def State.noteResponse (s : State) (n : Note) : Response :=
  if n.cancelled then { code := 0x30#8, tag := n.tag, status := .targetAbsent, body := .target n.target }
  else { code := 0x30#8, tag := n.tag, status := .ok, body := .noticeSeq (s.port n.target).noticeSeq }

/-- The oldest entry of a list that passes a test, and the list without it. -/
theorem find_erase {α : Type} [DecidableEq α] {f : α → Bool} {l : List α} {a : α} (h : l.find? f = some a) :
    f a = true ∧ ∃ before after, l = before ++ a :: after ∧ (∀ x ∈ before, f x = false) ∧
      l.erase a = before ++ after := by
  obtain ⟨ha, before, after, hl, hbefore⟩ := List.find?_eq_some_iff_append.mp h
  have hnone : ∀ x ∈ before, f x = false := fun x hx => by simpa using hbefore x hx
  have hout : a ∉ before := fun hin => by rw [hnone a hin] at ha; cases ha
  exact ⟨ha, before, after, hl, hnone, by rw [hl, List.erase_append_right _ hout, List.erase_cons_head]⟩

section

variable {s t u : State} {p : Port} {w : Word}

/-- What a fired NOTIFY makes of the notification unit and of its sender's answers (R128, R134). -/
structure Fires (s t : State) (p : Port) (n : Note) : Prop where
  notes : (t.port p).notes = (s.port p).notes.erase n
  notices : ∀ q, (t.port q).notices = (s.port q).notices ++ if n.appends q = true then
    [{ sender := p, code := n.code, seq := (s.port q).noticeSeq, delivered := false }] else []
  number : ∀ q, (t.port q).noticeSeq = (s.port q).noticeSeq + if n.appends q = true then 1 else 0
  served : (s.port p).ServedTo (t.port p)
  answered : (s.port p).inContact = true →
    (t.port p).respQ = (s.port p).respQ ++ [s.noteResponse n] ∧ (s.noteResponse n).tag ∉ (t.port p).tags

/-- The part with a NOTIFY gone from its sender's record, not fired yet. -/
def State.noteGone (s : State) (p : Port) (n : Note) : State :=
  s.onPort p (fun P => { P with notes := P.notes.erase n })

theorem port_noteGone (n : Note) : (s.noteGone p n).port p = { s.port p with notes := (s.port p).notes.erase n } :=
  State.port_onPort_same ..

theorem noteGone_keeps (n : Note) (q : Port) : ((s.noteGone p n).port q).notices = (s.port q).notices ∧
    ((s.noteGone p n).port q).noticeSeq = (s.port q).noticeSeq := by
  rw [State.noteGone, State.port_onPort]
  split
  next hq => subst hq; exact ⟨rfl, rfl⟩
  · exact ⟨rfl, rfl⟩

theorem book_parts {P Q : PortState} (h : Q.book = P.book) :
    Q.notes = P.notes ∧ Q.notices = P.notices ∧ Q.noticeSeq = P.noticeSeq :=
  ⟨congrArg (·.1) h, congrArg (·.2.1) h, congrArg (·.2.2) h⟩

theorem bookKept_raise (s : State) (q : Port) (it : Item) : BookKept s (s.raise q it) := fun r => by
  rw [State.port_raise]
  split
  next hr => subst hr; exact book_raise _ it
  · rfl

/-- A withheld response that comes due to a port in contact is queued, and its tag is free (R91). -/
theorem answered_respondDue (h : (s.port p).inContact = true) (x : Response) :
    ((s.respondDue p x).port p).respQ = (s.port p).respQ ++ [x] ∧ x.tag ∉ ((s.respondDue p x).port p).tags := by
  rw [respondDue_reached h, State.port_respond, if_pos rfl]
  exact ⟨rfl, by simp [PortState.respond]⟩

/-- The part when a live reservation has become an entry of its target's queue. -/
def State.appended (s : State) (p : Port) (n : Note) : State := (s.noteGone p n).onPort n.target (fun T => { T with
  notices := T.notices ++ [{ sender := p, code := n.code, seq := T.noticeSeq, delivered := false }]
  noticeSeq := T.noticeSeq + 1 })

theorem port_appended (n : Note) (q : Port) : ((s.appended p n).port q).notes = ((s.noteGone p n).port q).notes ∧
    ((s.appended p n).port q).notices = (s.port q).notices ++ (if n.target = q then
      [{ sender := p, code := n.code, seq := (s.port q).noticeSeq, delivered := false }] else []) ∧
    ((s.appended p n).port q).noticeSeq = (s.port q).noticeSeq + (if n.target = q then 1 else 0) ∧
    ((s.appended p n).port q).inContact = ((s.noteGone p n).port q).inContact ∧
    ((s.appended p n).port q).respQ = ((s.noteGone p n).port q).respQ := by
  obtain ⟨hnotices, hnumber⟩ := noteGone_keeps (s := s) (p := p) n q
  rw [State.appended, State.port_onPort]
  by_cases hq : q = n.target
  · subst hq
    simp [hnotices, hnumber, PortState.inContact]
  · simp [hq, Ne.symm hq, hnotices, hnumber]

theorem fireNote_cancelled {n : Note} (h : n.cancelled = true) :
    (s.noteGone p n).fireNote p n = (s.noteGone p n).respondDue p (s.noteResponse n) := by
  simp only [State.fireNote, State.noteResponse, h, if_true]

theorem fireNote_live {n : Note} (h : n.cancelled = false) : (s.noteGone p n).fireNote p n =
    ((s.appended p n).respondDue p (s.noteResponse n)).raise n.target .notice := by
  obtain ⟨-, hnumber⟩ := noteGone_keeps (s := s) (p := p) n n.target
  simp only [State.fireNote, State.noteResponse, h, State.appendNotice, hnumber, State.appended, State.onPort]
  rfl

theorem tag_noteResponse (s : State) (n : Note) : (s.noteResponse n).tag = n.tag := by
  unfold State.noteResponse
  split <;> rfl

theorem fires_next {n : Note}
    (h : (s.port p).notes.find? (fun n => watermarkReaches (s.port p).watermark n.watched) = some n) :
    Fires s (s.fireNextNote p) p n := by
  have hserved := (firedPorts_fireNextNote s p p).served
  have hfire : s.fireNextNote p = (s.noteGone p n).fireNote p n := by
    simp only [State.fireNextNote, h]
    rfl
  have hcontact : ((s.noteGone p n).port p).inContact = (s.port p).inContact := by rw [port_noteGone]; rfl
  have hresp : ((s.noteGone p n).port p).respQ = (s.port p).respQ := by rw [port_noteGone]
  have hnotes : ((s.noteGone p n).port p).notes = (s.port p).notes.erase n := by rw [port_noteGone]
  cases hcancelled : n.cancelled with
  | true =>
    rw [fireNote_cancelled hcancelled] at hfire
    rw [hfire] at hserved ⊢
    have hbook := bookKept_respondDue (s.noteGone p n) p (s.noteResponse n)
    have hno : ∀ q, n.appends q = false := fun q => by simp [Note.appends, hcancelled]
    refine ⟨(book_parts (hbook p)).1.trans hnotes, fun q => ?_, fun q => ?_, hserved, fun hin => ?_⟩
    · rw [(book_parts (hbook q)).2.1, (noteGone_keeps n q).1, hno]; simp
    · rw [(book_parts (hbook q)).2.2, (noteGone_keeps n q).2, hno]; simp
    · rw [← hresp]
      exact answered_respondDue (hcontact.trans hin) _
  | false =>
    rw [fireNote_live hcancelled] at hfire
    rw [hfire] at hserved ⊢
    have hbook := (bookKept_respondDue (s.appended p n) p (s.noteResponse n)).trans (bookKept_raise _ n.target .notice)
    have hyes : ∀ q, n.appends q = true ↔ n.target = q := fun q => by simp [Note.appends, hcancelled]
    obtain ⟨anotes, -, -, acontact, aresp⟩ := port_appended (s := s) (p := p) n p
    refine ⟨(book_parts (hbook p)).1.trans (anotes.trans hnotes), fun q => ?_, fun q => ?_, hserved, fun hin => ?_⟩
    · rw [(book_parts (hbook q)).2.1, (port_appended n q).2.1]
      simp only [hyes]
    · rw [(book_parts (hbook q)).2.2, (port_appended n q).2.2.1]
      simp only [hyes]
    · have hraised : ∀ (t : State) (q : Port) (it : Item),
          ((t.raise q it).port p).respQ = (t.port p).respQ ∧ ((t.raise q it).port p).tags = (t.port p).tags :=
        fun t q it => by
          obtain ⟨-, hq, -, htags⟩ := kept_raise (t.port q) it
          rw [State.port_raise]
          split
          next e => subst e; exact ⟨hq, htags⟩
          · exact ⟨rfl, rfl⟩
      obtain ⟨rresp, rtags⟩ := hraised ((s.appended p n).respondDue p (s.noteResponse n)) n.target .notice
      rw [rresp, rtags, ← hresp, ← aresp]
      exact answered_respondDue (acontact.trans (hcontact.trans hin)) _

end

section

variable {s t u : State} {p : Port} {w : Word} {n : Note}

theorem answers_of_grows {q : Port} {x : Response} (h : ∃ new, (u.port q).respQ = (s.port q).respQ ++ new)
    (g : answers u t q x) : answers s t q x := by
  obtain ⟨new, hnew⟩ := h
  obtain ⟨before, after, g⟩ := g
  exact ⟨new ++ before, after, by rw [g, hnew]; simp⟩

theorem answers_that_grow {q : Port} {x : Response} (h : ∃ new, (u.port q).respQ = (t.port q).respQ ++ new)
    (g : answers s t q x) : answers s u q x := by
  obtain ⟨new, hnew⟩ := h
  obtain ⟨before, after, g⟩ := g
  exact ⟨before, after ++ new, by rw [hnew, g]; simp⟩

theorem firing_of_notes {P Q : PortState} (h : Q.notes = P.notes) (w : Word) (q : Port) :
    Q.firing w q = P.firing w q := by
  unfold PortState.firing
  rw [h]

/-- With no watch reached nothing fires. -/
theorem notified_nothing (h : ∀ n ∈ (s.port p).notes, watermarkReaches w n.watched = false) : notified s s p w := by
  have hnone : ∀ q, (s.port p).firing w q = [] := fun q => by
    rw [PortState.firing, List.filter_eq_nil_iff]
    intro n hn
    simp [h n hn]
  have hall : (s.port p).notes.filter (fun n => !watermarkReaches w n.watched) = (s.port p).notes :=
    List.filter_eq_self.mpr fun n hn => by simp [h n hn]
  refine ⟨hall.symm, fun q => by simp [hnone], fun q => by simp [hnone], fun _ => ⟨fun q i n hi => ?_,
    fun n hn hreached => ?_⟩⟩
  · rw [hnone] at hi; cases hi
  · rw [h n hn] at hreached; cases hreached

/-- A part of the event that leaves the notification unit alone may come before the firing. -/
theorem notified_before (hbook : BookKept s u) (hsession : (u.port p).session = (s.port p).session)
    (hgrows : ∃ new, (u.port p).respQ = (s.port p).respQ ++ new) (h : notified u t p w) : notified s t p w := by
  obtain ⟨hnotes, hnotices, hnumber, hanswers⟩ := h
  obtain ⟨bnotes, -, -⟩ := book_parts (hbook p)
  have hfiring := fun q => firing_of_notes bnotes w q
  refine ⟨by rw [hnotes, bnotes], fun q => ?_, fun q => ?_, fun hreached => ?_⟩
  · rw [hnotices, (book_parts (hbook q)).2.1, (book_parts (hbook q)).2.2, hfiring]
  · rw [hnumber, (book_parts (hbook q)).2.2, hfiring]
  · obtain ⟨hfired, hcancelled⟩ := hanswers (by rwa [PortState.reached, hsession])
    refine ⟨fun q i n hi => ?_, fun n hn hw hc => ?_⟩
    · obtain ⟨htag, hanswer⟩ := hfired q i n (by rw [hfiring]; exact hi)
      rw [(book_parts (hbook q)).2.2] at hanswer
      exact ⟨htag, answers_of_grows hgrows hanswer⟩
    · obtain ⟨htag, hanswer⟩ := hcancelled n (by rw [bnotes]; exact hn) hw hc
      exact ⟨htag, answers_of_grows hgrows hanswer⟩

/-- One may come after it too. -/
theorem notified_after (hbook : BookKept t u) (hgrows : (s.port p).reached →
    (∃ new, (u.port p).respQ = (t.port p).respQ ++ new) ∧ (u.port p).tags ⊆ (t.port p).tags)
    (h : notified s t p w) : notified s u p w := by
  obtain ⟨hnotes, hnotices, hnumber, hanswers⟩ := h
  refine ⟨by rw [(book_parts (hbook p)).1, hnotes], fun q => by rw [(book_parts (hbook q)).2.1, hnotices],
    fun q => by rw [(book_parts (hbook q)).2.2, hnumber], fun hreached => ?_⟩
  obtain ⟨hfired, hcancelled⟩ := hanswers hreached
  obtain ⟨hgrows, htags⟩ := hgrows hreached
  refine ⟨fun q i n hi => ?_, fun n hn hw hc => ?_⟩
  · obtain ⟨htag, hanswer⟩ := hfired q i n hi
    exact ⟨fun hin => htag (htags hin), answers_that_grow hgrows hanswer⟩
  · obtain ⟨htag, hanswer⟩ := hcancelled n hn hw hc
    exact ⟨fun hin => htag (htags hin), answers_that_grow hgrows hanswer⟩

/-- The oldest of the reached NOTIFYs is the first of those that fire. -/
theorem firing_cons (hfires : Fires s u p n)
    (hfind : (s.port p).notes.find? (fun n => watermarkReaches w n.watched) = some n) (q : Port) :
    (s.port p).firing w q = if n.appends q = true then n :: (u.port p).firing w q else (u.port p).firing w q := by
  obtain ⟨hreached, before, after, hl, hnone, herase⟩ := find_erase hfind
  have hgone : before.filter (fun n => watermarkReaches w n.watched && !n.cancelled && n.target == q) = [] :=
    List.filter_eq_nil_iff.mpr fun n hn => by simp [hnone n hn]
  have hn : (watermarkReaches w n.watched && !n.cancelled && n.target == q) = n.appends q := by
    rw [hreached, Bool.true_and, Note.appends]
  unfold PortState.firing
  rw [hfires.notes, herase, hl, List.filter_append, List.filter_append, hgone, List.nil_append, List.nil_append,
    List.filter_cons, hn]

/-- The oldest reached NOTIFY fires, and then the others. -/
theorem notified_next (hfires : Fires s u p n)
    (hfind : (s.port p).notes.find? (fun n => watermarkReaches w n.watched) = some n)
    (hserved : (u.port p).ServedTo (t.port p)) (h : notified u t p w) : notified s t p w := by
  obtain ⟨hnotes, hnotices, hnumber, hanswers⟩ := h
  obtain ⟨hwatch, before, after, hl, hnone, herase⟩ := find_erase hfind
  have hfiring := firing_cons hfires hfind
  have hshift : ∀ (b : Byte) (i : Nat), b + BitVec.ofNat 8 (i + 1) = b + 1 + BitVec.ofNat 8 i := fun b i => by
    rw [BitVec.ofNat_add, BitVec.add_comm (BitVec.ofNat 8 i), ← BitVec.add_assoc]
    rfl
  have hnumbered : ∀ {q}, n.appends q = true → (u.port q).noticeSeq = (s.port q).noticeSeq + 1 := fun {q} hq => by
    rw [hfires.number, if_pos hq]
  have hsame : ∀ {q}, ¬ n.appends q = true → (u.port q).noticeSeq = (s.port q).noticeSeq := fun {q} hq => by
    rw [hfires.number, if_neg hq]; simp
  refine ⟨?_, fun q => ?_, fun q => ?_, fun hreached => ?_⟩
  · rw [hnotes, hfires.notes, herase, hl]
    simp [hwatch]
  · rw [hnotices, hfires.notices, hfiring]
    by_cases hq : n.appends q = true
    · rw [if_pos hq, if_pos hq, List.mapIdx_cons, List.append_assoc, hnumbered hq]
      simp only [← hshift]
      simp
    · rw [if_neg hq, if_neg hq, hsame hq, List.append_nil]
  · rw [hnumber, hfiring]
    by_cases hq : n.appends q = true
    · rw [if_pos hq, hnumbered hq, List.length_cons, hshift]
    · rw [if_neg hq, hsame hq]
  · obtain ⟨hfired, hcancelled⟩ := hanswers (by rwa [PortState.reached, steady_session hfires.served.steady])
    obtain ⟨hresp, htag⟩ := hfires.answered (inContact_of hreached)
    obtain ⟨later, hlater⟩ := hserved.grows
    have hown : n.tag ∉ (t.port p).tags ∧ answers s t p (s.noteResponse n) :=
      ⟨fun hin => htag (by rw [tag_noteResponse]; exact hserved.tags hin),
        ⟨[], later, by rw [hlater, hresp]; simp⟩⟩
    refine ⟨fun q i m hi => ?_, fun m hm hw hc => ?_⟩
    · rw [hfiring] at hi
      by_cases hq : n.appends q = true
      · rw [if_pos hq] at hi
        cases i with
        | zero =>
          cases hi
          obtain ⟨hlive, htarget⟩ : n.cancelled = false ∧ n.target = q := by simpa [Note.appends] using hq
          rw [State.noteResponse, hlive, htarget] at hown
          simpa using hown
        | succ i =>
          obtain ⟨mtag, manswer⟩ := hfired q i m (by simpa using hi)
          rw [hnumbered hq, ← hshift] at manswer
          exact ⟨mtag, answers_of_grows hfires.served.grows manswer⟩
      · rw [if_neg hq] at hi
        obtain ⟨mtag, manswer⟩ := hfired q i m hi
        rw [hsame hq] at manswer
        exact ⟨mtag, answers_of_grows hfires.served.grows manswer⟩
    · rw [hl, List.mem_append, List.mem_cons] at hm
      rcases hm with hbefore | rfl | hafter
      · rw [hnone m hbefore] at hw; cases hw
      · rw [State.noteResponse, hc] at hown
        exact hown
      · obtain ⟨mtag, manswer⟩ := hcancelled m (by rw [hfires.notes, herase]; exact List.mem_append_right _ hafter) hw hc
        exact ⟨mtag, answers_of_grows hfires.served.grows manswer⟩

end

/-! ## The NOTIFYs of a whole event -/

section

variable {s u : State} {p : Port} {w : Word}

theorem firedNotes_zero (h : s.firedNotes p = 0) :
    ∀ n ∈ (s.port p).notes, watermarkReaches (s.port p).watermark n.watched = false := by
  rw [State.firedNotes, List.length_eq_zero_iff, List.filter_eq_nil_iff] at h
  intro n hn
  simpa using h n hn

theorem find_of_firedNotes (h : s.firedNotes p ≠ 0) : ∃ n,
    (s.port p).notes.find? (fun n => watermarkReaches (s.port p).watermark n.watched) = some n := by
  rw [← Option.ne_none_iff_exists', ne_eq, List.find?_eq_none]
  intro hnone
  refine h ?_
  rw [State.firedNotes, List.length_eq_zero_iff, List.filter_eq_nil_iff]
  exact hnone

theorem firedNotes_same (hbook : BookKept s u) (hserved : (s.port p).ServedTo (u.port p)) :
    u.firedNotes p = s.firedNotes p := by
  unfold State.firedNotes
  rw [(book_parts (hbook p)).1, steady_watermark hserved.steady]

theorem firedNotes_next {n : Note} (hfires : Fires s u p n)
    (hfind : (s.port p).notes.find? (fun n => watermarkReaches (s.port p).watermark n.watched) = some n) :
    s.firedNotes p = u.firedNotes p + 1 := by
  obtain ⟨hreached, before, after, hl, -, herase⟩ := find_erase hfind
  unfold State.firedNotes
  rw [hfires.notes, herase, steady_watermark hfires.served.steady, hl, List.filter_append, List.filter_append,
    List.filter_cons, if_pos hreached]
  simp only [List.length_append, List.length_cons]
  omega

theorem served_task (t : State) {x : Task} (hx : x.fires ∨ x = .commit) :
    (t.port p).ServedTo ((t.runTask p x).port p) := by
  rcases hx with hfires | rfl
  · exact (firedPorts_runTask t p hfires p).served
  · exact served_completeCommit t p

theorem bookKept_task (t : State) {x : Task} (hx : x.fires ∨ x = .commit) (hno : x ≠ .note) :
    BookKept t (t.runTask p x) := by
  cases x with
  | handoff k => exact bookKept_handoff t k
  | note => exact absurd rfl hno
  | commit => exact bookKept_completeCommit t
  | revoke k | release k => rcases hx with h | h <;> cases h

theorem served_foldl {tasks : List Task} (htasks : ∀ x ∈ tasks, x.fires ∨ x = .commit) (s : State) :
    (s.port p).ServedTo ((tasks.foldl (fun t x => t.runTask p x) s).port p) := by
  induction tasks generalizing s with
  | nil => exact .refl _
  | cons x tasks ih =>
    exact (served_task s (htasks x (by simp))).trans (ih (fun y hy => htasks y (by simp [hy])) _)

/-- With one note task for each reached NOTIFY, all of them fire, whatever comes between. -/
theorem notified_foldl {tasks : List Task} (htasks : ∀ x ∈ tasks, x.fires ∨ x = .commit) (s : State)
    (hcount : tasks.count .note = s.firedNotes p) :
    notified s (tasks.foldl (fun t x => t.runTask p x) s) p (s.port p).watermark := by
  induction tasks generalizing s with
  | nil => exact notified_nothing (firedNotes_zero hcount.symm)
  | cons x tasks ih =>
    have htail : ∀ y ∈ tasks, y.fires ∨ y = .commit := fun y hy => htasks y (by simp [hy])
    have hserved := served_task (p := p) s (htasks x (by simp))
    have hmark := steady_watermark hserved.steady
    rw [List.foldl_cons, ← hmark]
    by_cases hx : x = .note
    · subst hx
      rw [List.count_cons_self] at hcount
      obtain ⟨n, hfind⟩ := find_of_firedNotes (s := s) (p := p) (by omega)
      have hfires : Fires s (s.runTask p .note) p n := fires_next hfind
      have hnext := firedNotes_next hfires hfind
      exact notified_next hfires (by rw [hmark]; exact hfind) (served_foldl htail _) (ih htail _ (by omega))
    · rw [List.count_cons_of_ne hx] at hcount
      have hbook := bookKept_task (p := p) s (htasks x (by simp)) hx
      exact notified_before hbook (steady_session hserved.steady) hserved.grows
        (ih htail _ (by rw [firedNotes_same hbook hserved]; exact hcount))

theorem notified_afterTasks {tasks : List Task} (htasks : ∀ x ∈ tasks, x.fires ∨ x = .commit) (s : State)
    (hcount : tasks.count .note = s.firedNotes p) :
    notified s (s.afterTasks p tasks) p (s.port p).watermark := by
  obtain ⟨hperm, hfresh⟩ := arranged_tasks { s with fresh := s.fresh + 1 } tasks
  have hports : ∀ n, BookKept s { s with fresh := n } := fun _ _ => rfl
  rw [State.afterTasks, State.runTasks, hfresh]
  refine notified_before (u := { s with fresh := s.fresh + 1 + tasks.length }) (hports _) rfl ⟨[], by simp; rfl⟩ ?_
  exact notified_foldl (fun x hx => htasks x (hperm.mem_iff.mp hx)) _ (by rw [hperm.count_eq]; exact hcount)

theorem count_firedTasks (s : State) (p : Port) : (s.firedTasks p).count .note = s.firedNotes p := by
  have hnone : ∀ l : List Lock, (l.map Task.handoff).count .note = 0 := fun l => by
    rw [List.count_eq_zero]
    simp
  rw [State.firedTasks, List.count_append, hnone, List.count_replicate_self, Nat.zero_add]

/-- In the event in which the watermark has advanced, the NOTIFYs that it reaches fire (R98, R128, R134). -/
theorem notified_closeEvent (s : State) (p : Port) :
    notified s (s.closeEvent p (s.firedTasks p)) p (s.port p).watermark := by
  have hfired : ∀ x ∈ s.firedTasks p, x.fires ∨ x = .commit := fun x hx => .inl (firedTasks_fire s p x hx)
  have htests : ∀ t : State, BookKept t t.sessionTests := fun t q => (sessionTests_keeps t q).1
  have hafter : ∀ tasks : List Task, (∀ x ∈ tasks, x.fires ∨ x = .commit) → tasks.count .note = s.firedNotes p →
      notified s (s.afterTasks p tasks).sessionTests p (s.port p).watermark := fun tasks htasks hcount => by
    refine notified_after (htests _) (fun hreached => ?_) (notified_afterTasks htasks s hcount)
    have hopen : ((s.afterTasks p tasks).port p).session ≠ .closing := by
      have hserved : (s.port p).ServedTo ((s.afterTasks p tasks).port p) :=
        afterTasks_ind (.refl _) fun x hx t h => h.trans (served_task t (htasks x hx))
      rw [steady_session hserved.steady]
      exact reached_not_closing hreached
    obtain ⟨new, hnew, -⟩ := answered_sessionTests (s.afterTasks p tasks) p
    exact ⟨⟨new, hnew⟩, (Onward.of_tests _).tags p hopen⟩
  cases hlast : s.commitLast p with
  | true =>
    have hclosing : (s.port p).session = .closing := by
      simp only [State.commitLast, Bool.and_eq_true, beq_iff_eq] at hlast
      exact hlast.1.2.1
    rw [closeEvent_last hlast]
    exact notified_after ((bookKept_completeCommit _).trans (htests _))
      (fun hreached => absurd hclosing (reached_not_closing hreached)) (hafter _ hfired (count_firedTasks s p))
  | false =>
    cases hdue : s.commitDue with
    | true =>
      rw [closeEvent_due hdue hlast]
      refine hafter _ (fun x hx => ?_) (by rw [List.count_append, count_firedTasks]; rfl)
      exact (List.mem_append.mp hx).elim (hfired x) fun h => .inr (by simpa using h)
    | false =>
      rw [closeEvent_not_due hdue]
      exact hafter _ hfired (count_firedTasks s p)

end

end Sys2Proof.Machine

namespace Sys2Proof.Machine

open Sys2Proof

/-! ## The report of a completed write (R64, R120, R121) -/

/-- What a completed write owes its own port: a fault record for a failed posted one, a response for another. -/
def PortState.reportWrite (w : WriteEntry) (P : PortState) : PortState :=
  if w.posted then
    match w.failed with
    | none => P
    | some f => P.record (.postedWriteFailed w.seq f.addr f.sub)
  else if P.inContact then P.respond w.response else P

section

variable {P : PortState} {w : WriteEntry}

theorem reportWrite_posted (h : w.posted = true) {f : Failure} (hf : w.failed = some f) :
    P.reportWrite w = P.record (.postedWriteFailed w.seq f.addr f.sub) := by
  simp only [PortState.reportWrite, h, hf, if_true]

theorem reportWrite_posted_well (h : w.posted = true) (hf : w.failed = none) : P.reportWrite w = P := by
  simp only [PortState.reportWrite, h, hf, if_true]

theorem reportWrite_answered (h : w.posted = false) (hin : P.inContact = true) :
    P.reportWrite w = P.respond w.response := by simp [PortState.reportWrite, h, hin]

theorem reportWrite_away (h : P.inContact = false) : P.reportWrite w = P := by
  unfold PortState.reportWrite PortState.record
  rw [h]
  split
  · split <;> rfl
  · rfl

theorem book_reportWrite (P : PortState) (w : WriteEntry) : (P.reportWrite w).book = P.book := by
  have hrecord : ∀ r, (P.record r).book = P.book := fun r => by
    unfold PortState.record PortState.keepRecord
    split
    · rw [book_raise]; split <;> rfl
    · rfl
  unfold PortState.reportWrite
  split
  · split
    · rfl
    · exact hrecord _
  · split <;> rfl

theorem code_writeResponse (w : WriteEntry) : w.response.code ≠ 0x15#8 ∧ w.response.tag = w.tag := by
  unfold WriteEntry.response
  split <;> exact ⟨by simp, rfl⟩

theorem reportedTo_reportWrite (P : PortState) (w : WriteEntry) : P.ReportedTo (P.reportWrite w) := by
  unfold PortState.reportWrite
  split
  · split
    · exact .refl P
    · exact reportedTo_record P _
  · split
    · exact reportedTo_respond P (code_writeResponse w).1
    · exact .refl P

/-- The report comes before the watermark moves, and keeps what moves it (R99). -/
theorem PortState.ReportedTo.advance {P Q : PortState} (h : P.ReportedTo Q) : P.advance.ReportedTo Q.advance := by
  refine ⟨?_, h.number, h.leave, h.tags, h.answers, h.revision⟩
  simp only [PortState.work, PortState.advance, work_session h.work, work_hold h.work, work_readL h.work,
    work_writeQ h.work, work_writeSeq h.work, work_watermark h.work, work_subRev h.work]

end

section

variable (s : State) (p : Port) (w : WriteEntry)

theorem port_noticeFailures (q : Port) : (s.noticeFailures w).port q = s.port q := by
  have hports : (s.noticeFailures w).ports = s.ports :=
    foldl_keeps State.ports (fun t (g : GuardMark) => t.noticeFailure g.lock) (fun _ _ => rfl) _ _
  unfold State.port
  rw [hports]

theorem port_respondDue (x : Response) (q : Port) : (s.respondDue p x).port q =
    if q = p then if (s.port p).inContact then (s.port p).respond x else s.port p else s.port q := by
  unfold State.respondDue
  split
  · rw [State.port_respond]
  · split
    next hq => rw [hq]
    · rfl

/-- The report of a write reaches its own port alone (R120, R121). -/
theorem port_writeReport (q : Port) :
    (s.writeReport p w).port q = if q = p then (s.port p).reportWrite w else s.port q := by
  unfold State.writeReport PortState.reportWrite
  cases hposted : w.posted with
  | true =>
    cases hfailed : w.failed with
    | none =>
      simp only [if_true]
      split
      next hq => rw [hq]
      · rfl
    | some f => simp only [if_true, State.port_onPort, port_noticeFailures]
  | false =>
    cases hfailed : w.failed with
    | none => simp only [Bool.false_eq_true, if_false, port_respondDue]
    | some f => simp only [Bool.false_eq_true, if_false, port_noticeFailures, port_respondDue]

/-- It marks the guard locks of a failed write (R64). -/
theorem lock_writeReport (k : Lock) : (s.writeReport p w).lock k = { s.lock k with
    faultSeen := (s.lock k).faultSeen || (w.failed.isSome && decide (k ∈ w.guards.map GuardMark.lock)) } := by
  unfold State.writeReport
  cases hposted : w.posted with
  | true =>
    cases hfailed : w.failed with
    | none => simp
    | some f => simp only [if_true, State.lock_onPort, lock_noticeFailures, Option.isSome_some, Bool.true_and]
  | false =>
    cases hfailed : w.failed with
    | none => simp [lock_of_locks (locks_respondDue ..)]
    | some f => simp only [Bool.false_eq_true, if_false, lock_noticeFailures, lock_of_locks (locks_respondDue ..),
        Option.isSome_some, Bool.true_and]

end

/-! ## A write completes (R96, R99, R118) -/

/-- A write with its last piece ended, completed. -/
def WriteEntry.finished (w : WriteEntry) (n : Nat) (e : Ending) : WriteEntry := { w.ended n e with completed := true }

/-- The part in which the entry of a completed write says so, and nothing has come of it yet. -/
def State.writeDone (s : State) (p : Port) (w : WriteEntry) : State := s.onPort p (·.onWrite w.seq (fun _ => w))

section

variable {s : State} {p : Port} {w : WriteEntry}

/-- The watermark passes the completed writes at the head of the queue (R93, R96). -/
theorem advanceQueue_passes (l : List WriteEntry) (mark : Word) : ∃ passed, l = passed ++ (advanceQueue l mark).1 ∧
    (∀ e ∈ passed, e.completed = true) ∧ (∀ e, (advanceQueue l mark).1.head? = some e → e.completed = false) ∧
    (advanceQueue l mark).2 = ((passed.getLast?).map WriteEntry.seq).getD mark := by
  induction l generalizing mark with
  | nil => exact ⟨[], rfl, by simp, by simp [advanceQueue], rfl⟩
  | cons e l ih =>
    cases hdone : e.completed with
    | true =>
      obtain ⟨passed, hsplit, hpassed, hkept, hmark⟩ := ih e.seq
      have hadvance : advanceQueue (e :: l) mark = advanceQueue l e.seq := by simp [advanceQueue, hdone]
      rw [hadvance]
      refine ⟨e :: passed, by rw [List.cons_append, ← hsplit], by simpa [hdone] using hpassed, hkept, ?_⟩
      rw [hmark, List.getLast?_cons]
      cases passed.getLast? <;> rfl
    | false =>
      have hadvance : advanceQueue (e :: l) mark = (e :: l, mark) := by simp [advanceQueue, hdone]
      rw [hadvance]
      exact ⟨[], rfl, by simp, by simpa using hdone, rfl⟩

/-- An entry with a number of its own is the only one that a change by number reaches. -/
theorem writeQ_onWrite {P : PortState} {w w' : WriteEntry} {before after : List WriteEntry}
    (h : P.writeQ = before ++ w :: after) (hother : ∀ e ∈ before ++ after, e.seq ≠ w.seq) :
    (P.onWrite w.seq (fun _ => w')).writeQ = before ++ w' :: after := by
  have hsame : ∀ l : List WriteEntry, (∀ e ∈ l, e.seq ≠ w.seq) →
      l.map (fun e => if e.seq = w.seq then w' else e) = l := fun l hl =>
    (List.map_congr_left fun e he => if_neg (hl e he)).trans (List.map_id' l)
  rw [PortState.onWrite, h, List.map_append, List.map_cons, if_pos rfl,
    hsame before fun e he => hother e (List.mem_append_left _ he),
    hsame after fun e he => hother e (List.mem_append_right _ he)]

/-- Ended and then completed, or both at once. -/
theorem finishWrite_onWrite (s : State) (p : Port) (w : WriteEntry) (n : Nat) (e : Ending) :
    (s.onPort p (·.onWrite w.seq (fun _ => w.ended n e))).finishWrite p (w.ended n e) =
      (((s.writeDone p (w.finished n e)).writeReport p (w.finished n e)).onPort p (·.advance)).leaveDrain p
        (.write w.seq) := by
  have hmerge : (fun P : PortState => (P.onWrite w.seq (fun _ => w.ended n e)).onWrite w.seq
      (fun x => { x with completed := true })) = fun P => P.onWrite w.seq (fun _ => w.finished n e) := by
    funext P
    have hseq : (w.ended n e).seq = w.seq := rfl
    simp only [PortState.onWrite, List.map_map]
    congr 1
    refine List.map_congr_left fun x _ => ?_
    by_cases hx : x.seq = w.seq
    · simp [hx, hseq, WriteEntry.finished]
    · simp [hx]
  have hreport : ∀ t : State, t.writeReport p (w.ended n e) = t.writeReport p (w.finished n e) := fun _ => rfl
  unfold State.finishWrite
  rw [onPort_onPort]
  exact congrArg (fun f => (((s.onPort p f).writeReport p (w.finished n e)).onPort p (·.advance)).leaveDrain p
    (.write w.seq)) hmerge

end

end Sys2Proof.Machine

namespace Sys2Proof.Machine

open Sys2Proof

/-! ## The event in which a write completes -/

/-- A port's record with the entry of a completed write, and the watermark past what it now can pass (R96). -/
def PortState.passed (P : PortState) (w : WriteEntry) : PortState := (P.onWrite w.seq (fun _ => w)).advance

/-- The part with the watermark of a port moved and its queue cut, and nothing else changed. -/
def State.advanced (s : State) (p : Port) (kept : List WriteEntry) (mark : Word) : State :=
  s.onPort p (fun P => { P with writeQ := kept, watermark := mark })

section

variable (s : State) (n : SlotNo) (abort : Option AbortTransfer) (p : Port) (w : WriteEntry)

/-- The part with a completed write reported and the watermark moved. -/
def State.writeReported : State :=
  ((((s.freed n abort).writeDone p w).writeReport p w).onPort p (·.advance)).leaveDrain p (.write w.seq)

/-- The part with the writes that the watermark passes out of the queue. -/
def State.writeGone : State := s.advanced p ((s.port p).passed w).writeQ ((s.port p).passed w).watermark

theorem port_writeGone : (s.writeGone p w).port p = (s.port p).passed w := by
  rw [State.writeGone, State.advanced, State.port_onPort_same]; rfl

theorem port_writeReported : (s.writeReported n abort p w).port p =
    (((s.port p).onWrite w.seq (fun _ => w)).reportWrite w).advance := by
  rw [State.writeReported, port_leaveDrain, State.port_onPort_same, port_writeReport, if_pos rfl, State.writeDone,
    State.port_onPort_same, port_freed]

theorem port_writeReported_ne {q : Port} (h : q ≠ p) : (s.writeReported n abort p w).port q = s.port q := by
  rw [State.writeReported, port_leaveDrain, State.port_onPort_ne _ _ h, port_writeReport, if_neg h, State.writeDone,
    State.port_onPort_ne _ _ h, port_freed]

theorem lock_writeReported (k : Lock) : (s.writeReported n abort p w).lock k = { s.lock k with
    faultSeen := (s.lock k).faultSeen || (w.failed.isSome && decide (k ∈ w.guards.map GuardMark.lock)) } := by
  rw [State.writeReported, lock_leaveDrain, State.lock_onPort, lock_writeReport, State.writeDone, State.lock_onPort,
    lock_freed]

theorem completes_write : Completes s (s.writeGone p w) (s.writeReported n abort p w) n abort p (.write w.seq) := by
  have hrest : (((s.freed n abort).writeDone p w).writeReport p w).rest = (s.freed n abort).rest :=
    (rest_writeReport ..).trans rfl
  have hport : ((s.writeGone p w).port p).ReportedTo ((s.writeReported n abort p w).port p) := by
    rw [port_writeGone, port_writeReported]
    exact (reportedTo_reportWrite _ w).advance
  refine ⟨⟨(s.port p).readL, _, _, State.port_onPort_same ..⟩, rfl, ?_, ?_, ?_, hport, fun haway => ?_⟩
  · rw [State.writeReported, device_leaveDrain, device_onPort, rest_device hrest]
  · exact edit_leaveDrain_congr (s := s.writeGone p w)
      (t := (((s.freed n abort).writeDone p w).writeReport p w).onPort p (·.advance))
      ((rest_edit hrest).trans rfl) p (.write w.seq)
  · refine onward_reported ?_ ?_ (fun k => ?_) (fun q hq => ?_) hport
    · exact (map_leaveDrain ..).trans ((rest_map hrest).trans rfl)
    · exact (revision_leaveDrain ..).trans ((rest_revision hrest).trans rfl)
    · rw [lock_writeReported]; rfl
    · rw [port_writeReported_ne _ _ _ _ _ hq, State.writeGone, State.advanced, State.port_onPort_ne _ _ hq]
  · rw [port_writeGone] at haway
    have hdone : ((s.port p).onWrite w.seq (fun _ => w)).inContact = false := haway
    rw [port_writeReported, port_writeGone, reportWrite_away hdone, PortState.passed]

theorem bookKept_writeReported : BookKept s (s.writeReported n abort p w) := fun q => by
  by_cases hq : q = p
  · rw [hq, port_writeReported]
    exact book_reportWrite ((s.port p).onWrite w.seq (fun _ => w)) w
  · rw [port_writeReported_ne _ _ _ _ _ hq]

end

section

variable {s : State} {n : SlotNo} {abort : Option AbortTransfer} {j : Job} {end_ : Ending} {w : WriteEntry}

theorem endPiece_write_done {x : Piece} (href : j.ref = .write w.seq)
    (hw : (s.port j.port).writeQ.find? (fun e => e.seq == w.seq) = some w) (hx : w.pieces[j.piece]? = some x)
    (hlast : lastPiece w.pieces j.piece (w.failed.isSome || end_.fails)) :
    (s.freed n abort).endPiece j end_ = (s.writeReported n abort j.port (w.finished j.piece end_)).closeEvent j.port
      ((s.writeReported n abort j.port (w.finished j.piece end_)).firedTasks j.port) := by
  have hdone : workDone (w.ended j.piece end_).pieces (w.ended j.piece end_).failed.isSome = true := by
    rw [show (w.ended j.piece end_).failed.isSome = (w.failed.isSome || end_.fails) from failure_isSome ..]
    exact workDone_ended end_ _ hx hlast
  simp only [State.endPiece, href, port_freed, hw, hdone, if_true, finishWrite_onWrite]
  rfl

/-- What the event of a completed write makes of the locks: the guards of a failed write are marked, and the locks whose
watch the watermark reaches are handed off (R57, R64, R98). -/
theorem lock_writeCompletes (s : State) (n : SlotNo) (abort : Option AbortTransfer) (p : Port) (w : WriteEntry)
    (k : Lock) : ((s.writeReported n abort p w).closeEvent p ((s.writeReported n abort p w).firedTasks p)).lock k =
      s.afterAdvance p ((s.port p).passed w).watermark { s.lock k with
        faultSeen := (s.lock k).faultSeen || (w.failed.isSome && decide (k ∈ w.guards.map GuardMark.lock)) } := by
  have hcompletes := completes_write s n abort p w
  have hmark := work_watermark hcompletes.reported.work
  rw [port_writeGone] at hmark
  rw [lock_closeEvent_fired, hmark, lock_writeReported]
  exact afterAdvance_congr ((device_config hcompletes.device).trans rfl) ..

/-- A record enters the fault list, or is counted as lost (R146), and the port is told if it subscribes (R147). -/
theorem record_reached {P : PortState} (h : P.inContact = true) (r : FaultRecord) :
    (P.faults.length < 8 → (P.record r).faults = P.faults ++ [r] ∧ (P.record r).lost = P.lost) ∧
      (8 ≤ P.faults.length → P.lost ≤ 255 →
        (P.record r).faults = P.faults ∧ (P.record r).lost = min 255 (P.lost + 1)) ∧
      (P.subFault = true → .fault ∈ (P.record r).events) := by
  obtain ⟨hkept, -⟩ := kept_raise (P.keepRecord r) .fault
  rw [PortState.record, if_pos h]
  refine ⟨fun hroom => ?_, fun hfull hlost => ?_, fun hsub => ?_⟩
  · have hkeep : P.keepRecord r = { P with faults := P.faults ++ [r] } := if_pos hroom
    rw [kept_faults hkept, kept_lost hkept, hkeep]
    exact ⟨rfl, rfl⟩
  · have hkeep : P.keepRecord r = { P with lost := if P.lost < 255 then P.lost + 1 else P.lost } :=
      if_neg (Nat.not_lt.mpr hfull)
    rw [kept_faults hkept, kept_lost hkept, hkeep]
    refine ⟨rfl, ?_⟩
    dsimp only
    split <;> omega
  · have hin : (P.keepRecord r).inContact = true ∧ (P.keepRecord r).subFault = true := by
      unfold PortState.keepRecord
      split <;> exact ⟨h, hsub⟩
    rw [PortState.raise, hin.1, if_pos (by simpa [Item.wanted] using hin.2)]
    exact self_mem_raiseInto _ _

theorem failed_finished {x : Piece} (hx : w.pieces[j.piece]? = some x) :
    (w.finished j.piece end_).failed = firstFailure w.failed end_ x.addr := by
  rw [← failure_eq_firstFailure, ← pieceAddr_get hx]; rfl

end

/-! ## O52 -/

/-- Settles O52: the record is kept from the report to the end of the event, and the marked locks are handed off after it. -/
theorem postedWriteFailureIsReported : Obligations.PostedWriteFailureIsReported := by
  intro c n j end_ w x f s hend href hw hposted hx hlast hfirst hreached
  obtain ⟨abort, hexec⟩ := exec_endsPiece hend
  have hstopped : (w.failed.isSome || end_.fails) = true := by
    rw [← failure_isSome end_ w.failed x.addr, failure_eq_firstFailure, hfirst]; rfl
  rw [endPiece_write_done href hw hx (by rw [hstopped]; exact hlast)] at hexec
  have hfailed : (w.finished j.piece end_).failed = some f := (failed_finished hx).trans hfirst
  have hcompletes := completes_write s n abort j.port (w.finished j.piece end_)
  have hfires := firedTasks_fire (s.writeReported n abort j.port (w.finished j.piece end_)) j.port
  have hport := port_writeReported s n abort j.port (w.finished j.piece end_)
  rw [reportWrite_posted (w := w.finished j.piece end_) hposted hfailed] at hport
  have hopen : ((s.writeReported n abort j.port (w.finished j.piece end_)).port j.port).session ≠ .closing := by
    rw [work_session hcompletes.reported.work, port_writeGone]
    exact reached_not_closing hreached
  have hended := closeEvent_ended hfires hopen
  obtain ⟨hroom, hfull, hfault⟩ := record_reached
    (P := (s.port j.port).onWrite (w.finished j.piece end_).seq (fun _ => w.finished j.piece end_))
    (inContact_of hreached) (.postedWriteFailed w.seq f.addr f.sub)
  refine ⟨_, hexec, (hcompletes.slots _).1, fun h => ?_, fun h hlost => ?_, fun h => hended.fault ?_, fun k => ?_⟩
  · rw [hended.faults, hended.lost, hport]
    exact hroom h
  · rw [hended.faults, hended.lost, hport]
    exact hfull h hlost
  · rw [hport]
    exact hfault h
  · rw [lock_writeCompletes, hended.watermark, work_watermark hcompletes.reported.work, port_writeGone, hfailed]
    rfl

end Sys2Proof.Machine

namespace Sys2Proof.Machine

open Sys2Proof

/-! ## O53 -/

section

variable (s : State) (n : SlotNo) (abort : Option AbortTransfer) (p : Port) (w : WriteEntry)

/-- The NOTIFYs that the event of a completed write fires (R98, R128). -/
theorem notified_writeCompletes :
    notified s ((s.writeReported n abort p w).closeEvent p ((s.writeReported n abort p w).firedTasks p)) p
      ((s.port p).passed w).watermark := by
  have hcompletes := completes_write s n abort p w
  have hreported := hcompletes.reported
  rw [port_writeGone] at hreported
  obtain ⟨new, hnew, -⟩ := hreported.answers
  rw [← work_watermark hreported.work]
  exact notified_before (bookKept_writeReported s n abort p w) ((work_session hreported.work).trans rfl) ⟨new, hnew⟩
    (notified_closeEvent _ p)

end

/-- A write that is not posted, or does not fail, leaves its port no fault record. -/
theorem faults_reportWrite {P : PortState} {w : WriteEntry} (h : w.posted = false ∨ w.failed = none) :
    (P.reportWrite w).faults = P.faults ∧ (P.reportWrite w).lost = P.lost := by
  cases hposted : w.posted with
  | true =>
    rw [reportWrite_posted_well hposted (h.resolve_left (by simp [hposted]))]
    exact ⟨rfl, rfl⟩
  | false =>
    cases hin : P.inContact with
    | true => rw [reportWrite_answered hposted hin]; exact ⟨rfl, rfl⟩
    | false => rw [reportWrite_away hin]; exact ⟨rfl, rfl⟩

/-- What a port in contact has at the end of the event of its completed write (R96, R120, R121). -/
theorem reached_writeCompletes {s t : State} {n : SlotNo} {abort : Option AbortTransfer} {p : Port} {w : WriteEntry}
    (ht : t = (s.writeReported n abort p w).closeEvent p ((s.writeReported n abort p w).firedTasks p))
    (h : (s.port p).reached) : (t.port p).watermark = ((s.port p).passed w).watermark ∧
      ((s.port p).hold = none → (t.port p).writeQ = ((s.port p).passed w).writeQ ∧
        (t.port p).readL = (s.port p).readL) ∧
      ((w.posted = false ∨ w.failed = none) → (t.port p).faults = (s.port p).faults ∧
        (t.port p).lost = (s.port p).lost) ∧
      (w.posted = false → w.tag ∉ (t.port p).tags ∧
        ∃ others, (t.port p).respQ = (s.port p).respQ ++ w.response :: others) := by
  have hwork := (completes_write s n abort p w).reported.work
  rw [port_writeGone] at hwork
  have hopen : ((s.writeReported n abort p w).port p).session ≠ .closing := by
    rw [work_session hwork]
    exact reached_not_closing h
  have hended := closeEvent_ended (firedTasks_fire (s.writeReported n abort p w) p) hopen
  rw [← ht] at hended
  have hport := port_writeReported s n abort p w
  refine ⟨hended.watermark.trans (work_watermark hwork), fun hhold => ?_, fun hgood => ?_, fun hposted => ?_⟩
  · obtain ⟨hread, hwrite⟩ := hended.work ((work_hold hwork).trans hhold)
    exact ⟨hwrite.trans (work_writeQ hwork), hread.trans ((work_readL hwork).trans rfl)⟩
  · obtain ⟨hfaults, hlost⟩ := faults_reportWrite (P := (s.port p).onWrite w.seq (fun _ => w)) hgood
    rw [hended.faults, hended.lost, hport]
    exact ⟨hfaults, hlost⟩
  · rw [reportWrite_answered (P := (s.port p).onWrite w.seq (fun _ => w)) hposted (inContact_of h)] at hport
    obtain ⟨others, hothers⟩ := hended.grows
    rw [hport] at hended hothers
    refine ⟨fun hin => ?_, others, hothers.trans ?_⟩
    · have htag := hended.tags hin
      simp [PortState.respond, PortState.advance, (code_writeResponse w).2] at htag
    · simp [PortState.respond, PortState.advance, PortState.onWrite]

/-- Settles O53: the report, the watermark, and then the end of the event with the watches that it reaches. -/
theorem writeCompletes : Obligations.WriteCompletes := by
  intro c n j end_ w before after x s hend href hqueue hother hx hlast
  obtain ⟨abort, hexec⟩ := exec_endsPiece hend
  have hw : (s.port j.port).writeQ.find? (fun e => e.seq == w.seq) = some w :=
    find_split _ hqueue (fun y hy => by simpa using hother y (List.mem_append_left _ hy)) (by simp)
  rw [endPiece_write_done href hw hx hlast] at hexec
  have hfailed : (w.finished j.piece end_).failed = firstFailure w.failed end_ x.addr := failed_finished hx
  generalize hdone : w.finished j.piece end_ = w' at hexec hfailed
  have hentry : w' = { w with
      pieces := w'.pieces, failed := firstFailure w.failed end_ x.addr, completed := true } := by
    rw [← hfailed, ← hdone]; rfl
  have hlist : ((s.port j.port).onWrite w.seq (fun _ => w')).writeQ = before ++ w' :: after :=
    writeQ_onWrite hqueue hother
  obtain ⟨passed, hsplit, hpassed, hkept, hmark⟩ := advanceQueue_passes (before ++ w' :: after) (s.port j.port).watermark
  obtain ⟨hseq, htag, hposted, hguards⟩ : w'.seq = w.seq ∧ w'.tag = w.tag ∧ w'.posted = w.posted ∧
      w'.guards = w.guards := by rw [hentry]; exact ⟨rfl, rfl, rfl, rfl⟩
  have hcompletes := completes_write s n abort j.port w'
  have hfires := firedTasks_fire (s.writeReported n abort j.port w') j.port
  have hgone := port_writeGone s j.port w'
  have hreported := hcompletes.reported
  obtain ⟨hslot, hslots, hconfig⟩ := hcompletes.slots ((s.writeReported n abort j.port w').firedTasks j.port)
  have hqueued : ((s.port j.port).passed w').writeQ =
      (advanceQueue (before ++ w' :: after) (s.port j.port).watermark).1 := by
    rw [PortState.passed, hseq, PortState.advance, hlist]; rfl
  have hadvanced : ((s.port j.port).passed w').watermark =
      (advanceQueue (before ++ w' :: after) (s.port j.port).watermark).2 := by
    rw [PortState.passed, hseq, PortState.advance, hlist]; rfl
  rw [← hqueued] at hsplit hkept
  rw [← hadvanced] at hmark
  refine ⟨_, s.writeGone j.port w', w', passed, _, _, hexec, hslot, hslots, hconfig, hentry, hsplit, hpassed, hkept,
    hmark, rfl, fun k => ?_, notified_writeCompletes s n abort j.port w', ?_, fun hreached => ?_, ?_, ?_, ?_⟩
  · rw [lock_writeCompletes, hguards]
  · have hdrained := hcompletes.drained hfires
    rw [hseq] at hdrained
    exact hdrained
  · obtain ⟨hwatermark, hlists, hfaults, hanswer⟩ :=
      reached_writeCompletes (n := n) (abort := abort) (w := w') rfl hreached
    refine ⟨hwatermark, hlists, fun hgood => hfaults (hgood.imp hposted.trans id), fun hw => ?_⟩
    obtain ⟨hfree, others, hresp⟩ := hanswer (hposted.trans hw)
    refine ⟨htag ▸ hfree, fun hnone => ⟨others, ?_⟩, fun f hf => ⟨others, ?_⟩⟩
    · rw [hresp, WriteEntry.response, hnone, htag, hseq]
    · rw [hresp, WriteEntry.response, hf, htag, hseq]
  · have hsettled := hcompletes.leaveSettled hfires
    rw [hgone] at hsettled
    exact hsettled
  · have hsettled := hcompletes.closingSettled hfires
    rw [hgone] at hsettled
    exact hsettled
  · intro hclosing hno
    obtain ⟨hwatermark, hwriteQ⟩ := (shutTo_closeEvent hfires j.port).work hno
    rw [hwatermark, hwriteQ, work_watermark hreported.work, work_writeQ hreported.work, hgone]
    exact ⟨rfl, rfl⟩

end Sys2Proof.Machine

/-! # NOTIFY and NOTICE_ACK (spec/07 R126 to R128, R131) -/

namespace Sys2Proof.Machine

open Sys2Proof

/-! ## NOTIFY (R126 to R128) -/

section

variable {s : State} {p q : Port} {r : Request} {tag target : Byte} {code : Word}

/-- A target that is no port, or is the sender's own (R126, check 3). -/
theorem notify_badTarget (h : 4 ≤ target.toNat ∨ target.toNat = p.val) :
    s.notify p r target code = s.respond p (r.response .badArg .empty) := by
  unfold State.notify
  split
  next hlt => exact if_pos (Fin.ext (h.resolve_left (Nat.not_le.mpr hlt)))
  · rfl

/-- A NOTIFY to another port goes on to checks 4 and 5 (R126). -/
theorem notify_other (hq : q.val = target.toNat) (hne : q ≠ p) : s.notify p r target code =
    if (s.port q).session ≠ .online then s.respond p (r.response .targetAbsent .empty)
    else if 8 ≤ s.noticePlaces q then s.respond p (r.response .targetFull .empty)
    else s.reserve p r.tag q code := by
  have hlt : target.toNat < 4 := hq ▸ q.isLt
  have hport : (⟨target.toNat, hlt⟩ : Port) = q := Fin.ext hq.symm
  simp only [State.notify, dif_pos hlt, hport, if_neg hne]
  rfl

theorem notify_absent (hq : q.val = target.toNat) (hne : q ≠ p) (hsession : (s.port q).session ≠ .online) :
    s.notify p r target code = s.respond p (r.response .targetAbsent .empty) := by
  rw [notify_other hq hne, if_pos hsession]

theorem notify_full (hq : q.val = target.toNat) (hne : q ≠ p) (hsession : (s.port q).session = .online)
    (hfull : 8 ≤ s.noticePlaces q) : s.notify p r target code = s.respond p (r.response .targetFull .empty) := by
  rw [notify_other hq hne, if_neg (not_not.mpr hsession), if_pos hfull]

theorem notify_reserves (hq : q.val = target.toNat) (hne : q ≠ p) (hsession : (s.port q).session = .online)
    (hroom : s.noticePlaces q < 8) : s.notify p r target code = s.reserve p r.tag q code := by
  rw [notify_other hq hne, if_neg (not_not.mpr hsession), if_neg (Nat.not_le.mpr hroom)]

/-- Behind uncompleted writes the reservation waits (R127). -/
theorem reserve_waits (h : watermarkReaches (s.port p).watermark (s.port p).writeSeq = false) :
    s.reserve p tag q code = s.onPort p (fun P => { P with notes := P.notes ++
      [{ target := q, tag := tag, code := code, watched := (s.port p).writeSeq, cancelled := false }] }) := by
  simp [State.reserve, h]

/-- A target's record with one more entry and its NOTICE item raised (R128). -/
def PortState.noticed (sender : Port) (code : Word) (T : PortState) : PortState :=
  PortState.raise .notice { T with
    notices := T.notices ++ [{ sender := sender, code := code, seq := T.noticeSeq, delivered := false }]
    noticeSeq := T.noticeSeq + 1 }

/-- With no write uncompleted the sender, a port in contact, is answered and the entry appended in the same event
(R127, R128). -/
theorem reserve_appends (hne : q ≠ p) (hin : (s.port p).inContact = true)
    (h : watermarkReaches (s.port p).watermark (s.port p).writeSeq = true) :
    s.reserve p tag q code = (s.respond p
      { code := 0x30#8, tag := tag, status := .ok, body := .noticeSeq (s.port q).noticeSeq }).onPort q
        (PortState.noticed p code) := by
  have hfire : s.reserve p tag q code = s.appendNotice p
      { target := q, tag := tag, code := code, watched := (s.port p).writeSeq, cancelled := false } := by
    simp [State.reserve, State.fireNote, h]
  have hcontact (f : PortState → PortState) : ((s.onPort q f).port p).inContact = true := by
    rw [State.port_onPort_ne s f hne.symm]; exact hin
  rw [hfire, State.appendNotice, respondDue_reached (hcontact _), State.respond, onPort_comm s _ _ hne, State.raise,
    onPort_onPort, ← State.respond]
  unfold State.onPort PortState.noticed
  rw [State.port_respond, if_neg hne]

end

theorem exec_notify (p : Port) (tag target : Byte) (code : Word) (s : State) :
    exec (.notify p tag target code) s = .next (s.request p { tag := tag, op := .notify target code } fun t =>
      t.notify p { tag := tag, op := .notify target code } target code) := rfl

/-- Settles O34: by the checks in their order, and then by whether the sender's watermark has reached its write
sequence. -/
theorem notifyAnswers : Obligations.NotifyAnswers := by
  intro p tag target code s h
  rw [exec_notify, request_ready _ h]
  have hanswered : ∀ x : Response, x.tag = tag → (s.takenOpen p tag).respond p x = s.answeredNow p x :=
    fun x hx => takenOpen_respond x h hx
  refine ⟨fun hbad => ?_, fun q hq hne => ⟨fun hsession => ?_, fun hsession hfull => ?_, fun hsession hroom hw => ?_,
    fun hsession hroom hw => ?_⟩⟩
  · rw [notify_badTarget hbad, hanswered _ rfl]
    rfl
  · rw [notify_absent hq hne (by rwa [takenOpen_session]), hanswered _ rfl]
    rfl
  · rw [notify_full hq hne (by rwa [takenOpen_session]) (by rwa [takenOpen_noticePlaces]), hanswered _ rfl]
    rfl
  · rw [notify_reserves hq hne (by rwa [takenOpen_session]) (by rwa [takenOpen_noticePlaces]),
      reserve_waits (by rwa [takenOpen_watermark, takenOpen_writeSeq]), takenOpen_writeSeq]
  · have hin : ((s.takenOpen p tag).port p).inContact = true :=
      inContact_of (.inl (by rw [takenOpen_session]; exact ready_session h))
    rw [notify_reserves hq hne (by rwa [takenOpen_session]) (by rwa [takenOpen_noticePlaces]),
      reserve_appends hne hin (by rwa [takenOpen_watermark, takenOpen_writeSeq]), takenOpen_port_ne s tag hne,
      hanswered _ rfl]
    rfl

/-! ## NOTICE_ACK (R131) -/

section

variable {s : State} {p : Port} {r : Request} {seq : Half} {P : PortState} {n : Notice} {before after : List Notice}

/-- An 8-bit number is the requested one (R129, R131). -/
theorem setWidth_eq_iff {m : Byte} : m.setWidth 16 = seq ↔ m.toNat = seq.toNat := by
  rw [← BitVec.toNat_inj, BitVec.toNat_setWidth_of_le (by decide)]

/-- The test of NOTICE_ACK's check 4 (R131). -/
theorem delivered_with_iff {m : Notice} :
    (m.delivered && m.seq.setWidth 16 == seq) = true ↔ m.delivered = true ∧ m.seq.toNat = seq.toNat := by
  rw [Bool.and_eq_true, beq_iff_eq, setWidth_eq_iff]

theorem delivered_with_false {m : Notice} (h : m.delivered = true → m.seq.toNat ≠ seq.toNat) :
    (m.delivered && m.seq.setWidth 16 == seq) = false := by
  rw [← Bool.not_eq_true, delivered_with_iff]
  exact fun ⟨hd, he⟩ => h hd he

theorem deliveredWith_none (h : ∀ m ∈ P.notices, m.delivered = true → m.seq.toNat ≠ seq.toNat) :
    P.deliveredWith seq = none :=
  List.find?_eq_none.mpr fun m hm => by rw [delivered_with_false (h m hm)]; exact Bool.false_ne_true

theorem delivered_of_deliveredWith (h : P.deliveredWith seq = some n) : n.delivered = true :=
  (delivered_with_iff.mp (List.find?_some (p := fun m : Notice => m.delivered && m.seq.setWidth 16 == seq) h)).1

/-- The oldest delivered entry with the number, where the queue is split at it. -/
theorem deliveredWith_split (hqueue : P.notices = before ++ n :: after) (hn : n.delivered = true)
    (hseq : n.seq.toNat = seq.toNat) (hbefore : ∀ m ∈ before, m.delivered = true → m.seq.toNat ≠ seq.toNat) :
    P.deliveredWith seq = some n :=
  find_split _ hqueue (fun m hm => delivered_with_false (hbefore m hm)) (delivered_with_iff.mpr ⟨hn, hseq⟩)

theorem acknowledge_above (h : 255 < seq.toNat) :
    s.acknowledge p r seq = s.respond p (r.response .badArg .empty) := if_pos h

theorem acknowledge_stale (hle : seq.toNat ≤ 255) (h : (s.port p).deliveredWith seq = none) :
    s.acknowledge p r seq = s.respond p (r.response .stale .empty) := by
  simp [State.acknowledge, Nat.not_lt.mpr hle, h]

/-- The oldest delivered entry with the number is taken out where it stands: no entry before it equals it. -/
theorem acknowledge_entry (hqueue : (s.port p).notices = before ++ n :: after) (hn : n.delivered = true)
    (hseq : n.seq.toNat = seq.toNat) (hbefore : ∀ m ∈ before, m.delivered = true → m.seq.toNat ≠ seq.toNat) :
    s.acknowledge p r seq = (s.respond p (r.response .ok (.acknowledged n.sender n.code))).onPort p
      (fun P => { P with notices := before ++ after }) := by
  have hle : seq.toNat ≤ 255 := hseq ▸ Nat.le_of_lt_succ n.seq.isLt
  have hout : n ∉ before := fun hin => hbefore n hin hn hseq
  have herase : (s.port p).notices.erase n = before ++ after := by
    rw [hqueue, List.erase_append_right _ hout, List.erase_cons_head]
  rw [← onPort_respond_comm s p (fun P => { P with notices := before ++ after }) _ rfl]
  simp [State.acknowledge, Nat.not_lt.mpr hle, deliveredWith_split hqueue hn hseq hbefore, State.onPort, herase]

end

theorem exec_noticeAck (p : Port) (tag : Byte) (seq : Half) (s : State) :
    exec (.noticeAck p tag seq) s = .next (s.request p { tag := tag, op := .noticeAck seq } fun t =>
      t.acknowledge p { tag := tag, op := .noticeAck seq } seq) := rfl

/-- Settles O35: by the range check and the search for the oldest delivered entry, which no entry before it equals. -/
theorem noticeAckRemovesTheEntry : Obligations.NoticeAckRemovesTheEntry := by
  intro p tag seq
  refine ⟨checkedFirst_of_request (exec_noticeAck p tag seq), fun s h => ?_⟩
  rw [exec_noticeAck, request_ready _ h]
  have hanswered : ∀ x : Response, x.tag = tag → (s.takenOpen p tag).respond p x = s.answeredNow p x :=
    fun x hx => takenOpen_respond x h hx
  have hnotices : ((s.takenOpen p tag).port p).notices = (s.port p).notices := takenOpen_notices s p p tag
  refine ⟨fun habove => ?_, fun hle hnone => ?_, fun before n after hqueue hn hseq hbefore => ?_⟩
  · rw [acknowledge_above habove, hanswered _ rfl]
    rfl
  · rw [acknowledge_stale hle (deliveredWith_none (by rwa [hnotices])), hanswered _ rfl]
    rfl
  · rw [acknowledge_entry (hnotices.trans hqueue) hn hseq hbefore, hanswered _ rfl]
    rfl

end Sys2Proof.Machine

/-! # Every step keeps the notification queues legal (spec/07 R125, R128, R130, R133) -/

namespace Sys2Proof.Machine

open Sys2Proof

/-! ## What the outbound link does to a port's notices (R130, R141, R157) -/

section

variable {P : PortState}

/-- A NOTICE item is pending exactly while an entry is undelivered (R130). -/
def PortState.NoticeDue (P : PortState) : Prop := (∃ n ∈ P.notices, n.delivered = false) ↔ .notice ∈ P.events

theorem notice_mem_raise (hin : P.inContact = true) : .notice ∈ (P.raise .notice).events := by
  simp [PortState.raise, hin, Item.wanted, self_mem_raiseInto]

/-- With its own NOTICE item out of the event set, the sending raises a new one exactly when an undelivered entry is
left (R130). -/
theorem noticeDue_sendNotice (hin : P.inContact = true) (hno : .notice ∉ P.events) : P.sendNotice.NoticeDue := by
  unfold PortState.sendNotice
  split
  · dsimp only
    split
    next hleft =>
      refine ⟨fun _ => notice_mem_raise hin, fun _ => ?_⟩
      rw [(book_parts (book_raise _ _)).2.1]
      simpa using hleft
    next hnone => exact ⟨fun hleft => absurd (by simpa using hleft) hnone, fun hmem => absurd hmem hno⟩
  next hnone =>
    refine ⟨fun ⟨n, hn, hun⟩ => ?_, fun hmem => absurd hmem hno⟩
    simpa [hun] using List.find?_eq_none.mp hnone n hn

theorem sendNotice_keeps (P : PortState) :
    P.sendNotice.notes = P.notes ∧ P.sendNotice.notices.length = P.notices.length := by
  unfold PortState.sendNotice
  split
  · dsimp only
    split
    · obtain ⟨hnotes, hnotices, -⟩ := book_parts (book_raise
        { P with tx := _, notices := deliverFirst P.notices } .notice)
      rw [hnotes, hnotices]
      exact ⟨rfl, deliver_len _⟩
    · exact ⟨rfl, deliver_len _⟩
  · exact ⟨rfl, rfl⟩

/-- No second NOTICE item stands behind the first one: items have different keys (R137). -/
theorem notice_not_behind {rest : List Item}
    (hkeys : (Item.notice :: rest).Pairwise (fun a b => a.sameKey b = false)) : .notice ∉ rest := fun hmem => by
  have hkey := (List.pairwise_cons.mp hkeys).1 _ hmem
  simp [Item.sameKey] at hkey

theorem noticeDue_sendItem (hin : P.inContact = true) (hlegal : P.legal) (h : P.NoticeDue) : P.sendItem.NoticeDue := by
  obtain ⟨⟨hkeys, -, -⟩, -⟩ := hlegal
  unfold PortState.sendItem
  split
  next rest hevents =>
    rw [hevents] at hkeys
    exact noticeDue_sendNotice (P := { P with events := rest }) hin (notice_not_behind hkeys)
  next it rest hother hevents =>
    have hit : Item.notice ≠ it := fun e => hother e.symm
    unfold PortState.NoticeDue at h ⊢
    rw [hevents] at h
    exact h.trans (by simp [hit])
  · exact h

theorem sendItem_keeps (P : PortState) :
    P.sendItem.notes = P.notes ∧ P.sendItem.notices.length = P.notices.length := by
  unfold PortState.sendItem
  split
  · exact sendNotice_keeps _
  · exact ⟨rfl, rfl⟩
  · exact ⟨rfl, rfl⟩

/-- The sending of a response leaves a port's notices and items alone, but for the OK to LEAVE, which makes it OFFLINE
(R157). -/
theorem sendResponse_cases (P : PortState) : P.sendResponse.notes = P.notes ∧ P.sendResponse.notices = P.notices ∧
    ((P.sendResponse.events = P.events ∧ P.sendResponse.session = P.session) ∨
      (P.sendResponse.events = [] ∧ P.session = .leaving)) := by
  unfold PortState.sendResponse
  split
  · split
    next hleave => exact ⟨rfl, rfl, .inr ⟨rfl, eq_of_beq (Bool.and_eq_true_iff.mp hleave).2⟩⟩
    · exact ⟨rfl, rfl, .inl ⟨rfl, rfl⟩⟩
  · exact ⟨rfl, rfl, .inl ⟨rfl, rfl⟩⟩

theorem portSameNotices_receive (f : Frame) (P : PortState) : PortState.SameNotices P (P.receive f) := by
  unfold PortState.receive
  split
  · exact portSameNotices_record
  · exact ⟨rfl, rfl, Iff.rfl⟩
  · have hrefused : PortState.SameNotices P (P.refuseFrame f .badArg) := ⟨rfl, rfl, Iff.rfl⟩
    exact hrefused.trans portSameNotices_record
  · exact ⟨rfl, rfl, Iff.rfl⟩

theorem portSameNotices_takeFault (P : PortState) : PortState.SameNotices P P.takeFault := by
  unfold PortState.takeFault
  dsimp only
  split
  · have hrest : PortState.SameNotices P { P with faults := P.faults.tail, lost := 0 } := ⟨rfl, rfl, Iff.rfl⟩
    exact hrest.trans (portSameNotices_withdraw (by simp))
  · exact ⟨rfl, rfl, Iff.rfl⟩

theorem portSameNotices_onPiece (P : PortState) (ref : ReqRef) (k : Nat) (f : Piece → Piece) :
    PortState.SameNotices P (P.onPiece ref k f) := by
  cases ref <;> exact ⟨rfl, rfl, Iff.rfl⟩

end

/-! ## Requests -/

section

variable {s : State} {p : Port} {r : Request}

theorem noticesLegal_edit (g : NoticesLegal s) (e : Edit) : NoticesLegal { s with edit := e } :=
  noticesLegal_ports g rfl

/-- A change of one port's record that leaves its notices and its session alone. -/
theorem noticesLegal_onPort_same {f : PortState → PortState} (g : NoticesLegal s)
    (h : PortState.SameNotices (s.port p) (f (s.port p))) (hsession : (f (s.port p)).session = (s.port p).session) :
    NoticesLegal (s.onPort p f) :=
  noticesLegal_same g (sameNotices_onPort h) (keepsOnline_onPort fun e => hsession.trans e)

theorem noticesLegal_takeHello (g : NoticesLegal s) (revision fault : Byte) :
    NoticesLegal (s.takeHello p r revision fault) := by
  unfold State.takeHello
  split
  · exact noticesLegal_same g (sameNotices_helloOffline s p r _ _) (keepsOnline_helloOffline s p r _ _)
  · exact noticesLegal_tagCheck g fun _ gu _ _ => noticesLegal_respond gu
  · exact noticesLegal_keep g rfl rfl rfl rfl
  · exact noticesLegal_keep g rfl rfl rfl rfl

theorem noticesLegal_accepting (g : NoticesLegal s) : NoticesLegal (s.accepting p r) :=
  noticesLegal_same g (sameNotices_accepting s p r) (keepsOnline_accepting s p r)

theorem noticesLegal_mapRead (g : NoticesLegal s) (row : Half) (view : Byte) :
    NoticesLegal (s.mapRead p r row view) := by
  unfold State.mapRead
  repeat' split
  all_goals exact noticesLegal_respond g

theorem noticesLegal_mapOpen (g : NoticesLegal s) (expected : Option Half) : NoticesLegal (s.mapOpen p r expected) := by
  unfold State.mapOpen
  split
  · split
    · exact noticesLegal_respond g
    · have hopens : NoticesLegal (s.openEdit p) :=
        noticesLegal_onPort_same (noticesLegal_edit g _) (portSameNotices_withdraw (by simp)) rfl
      exact noticesLegal_respond hopens
  · split
    · exact noticesLegal_respond (noticesLegal_edit g _)
    · exact noticesLegal_respond g
  · split <;> exact noticesLegal_respond g

theorem noticesLegal_stageRow (g : NoticesLegal s) (raw : RawRow) (o : OpenEdit) :
    NoticesLegal (s.stageRow p r raw o) := by
  unfold State.stageRow
  repeat' split
  all_goals exact noticesLegal_respond (noticesLegal_edit g _)

theorem noticesLegal_unstageRow (g : NoticesLegal s) (row : Half) (o : OpenEdit) :
    NoticesLegal (s.unstageRow p r row o) := by
  unfold State.unstageRow
  split <;> exact noticesLegal_respond (noticesLegal_edit g _)

theorem noticesLegal_completeCommit (g : NoticesLegal s) : NoticesLegal s.completeCommit :=
  noticesLegal_same g (sameNotices_completeCommit s) (keepsOnline_completeCommit s)

theorem noticesLegal_commitEdit (g : NoticesLegal s) (o : OpenEdit) : NoticesLegal (s.commitEdit p r o) := by
  unfold State.commitEdit State.startCommit
  dsimp only
  split
  · exact noticesLegal_respond (noticesLegal_edit g _)
  · split
    · exact noticesLegal_completeCommit (noticesLegal_edit g _)
    · exact noticesLegal_edit g _

theorem noticesLegal_faultTake (g : NoticesLegal s) : NoticesLegal (s.faultTake p r) := by
  have htaken : NoticesLegal (s.onPort p (·.takeFault)) :=
    noticesLegal_onPort_same g (portSameNotices_takeFault _) (session_takeFault _)
  unfold State.faultTake
  split <;> exact noticesLegal_respond htaken

theorem noticesLegal_configRead (g : NoticesLegal s) (item index : Byte) :
    NoticesLegal (s.configRead p r item index) := by
  unfold State.configRead
  split <;> exact noticesLegal_respond g

/-! ### NOTIFY and NOTICE_ACK (R126, R131) -/

/-- A NOTIFY makes a reservation only toward an ONLINE port with a free place (R126). -/
theorem noticesLegal_notify (g : NoticesLegal s) (target : Byte) (code : Word) :
    NoticesLegal (s.notify p r target code) := by
  by_cases hbad : 4 ≤ target.toNat ∨ target.toNat = p.val
  · rw [notify_badTarget hbad]
    exact noticesLegal_respond g
  · obtain ⟨hlt, hne⟩ := not_or.mp hbad
    rw [notify_other (q := ⟨target.toNat, Nat.not_le.mp hlt⟩) rfl fun e => hne (congrArg Fin.val e)]
    split
    · exact noticesLegal_respond g
    next honline =>
      split
      · exact noticesLegal_respond g
      next hroom => exact noticesLegal_reserve g (not_not.mp honline) (Nat.not_le.mp hroom)

/-- An acknowledged entry is a delivered one, so no undelivered entry leaves the queue (R131). -/
theorem noticesLegal_acknowledge (g : NoticesLegal s) (seq : Half) : NoticesLegal (s.acknowledge p r seq) := by
  unfold State.acknowledge
  split
  · exact noticesLegal_respond g
  · split
    · exact noticesLegal_respond g
    next n hfound =>
      exact noticesLegal_respond (noticesLegal_ack g (delivered_of_deliveredWith hfound))

/-! ### Lock requests -/

variable {k : Lock}

theorem noticesLegal_endGrant (g : NoticesLegal s) (tag : Option Byte) : NoticesLegal (s.endGrant k p tag) :=
  noticesLegal_same g (sameNotices_endGrant s k p tag) (keepsOnline_endGrant s k p tag)

theorem noticesLegal_revoke (g : NoticesLegal s) (reason : BreakCause) : NoticesLegal (s.revoke k reason) :=
  noticesLegal_same g (sameNotices_revoke s k reason) (keepsOnline_revoke s k reason)

theorem noticesLegal_askYield (g : NoticesLegal s) : NoticesLegal (s.askYield k) :=
  noticesLegal_same g (sameNotices_askYield s k) (keepsOnline_askYield s k)

theorem noticesLegal_acquire (g : NoticesLegal s) (wait yield : Bool) (owner : Half) (lease : Option Half) :
    NoticesLegal (s.acquire p r wait yield owner lease k) := by
  rcases acquire_cases s p r wait yield owner lease k with ⟨x, e⟩ | ⟨-, e⟩ | ⟨-, -, -, e⟩
  · rw [e]; exact noticesLegal_respond g
  · rw [e]; exact noticesLegal_respond (noticesLegal_setLock g)
  · rw [e, enqueue_eq]; exact noticesLegal_respond (noticesLegal_askYield (noticesLegal_setLock g))

theorem noticesLegal_renew (g : NoticesLegal s) (lease : Option Half) (h : Holder) :
    NoticesLegal (s.renew p r lease k h) := by
  unfold State.renew
  split
  · exact noticesLegal_respond (noticesLegal_setLock g)
  · exact noticesLegal_respond g

theorem noticesLegal_cancel (g : NoticesLegal s) : NoticesLegal (s.cancel p r k) := by
  unfold State.cancel
  split
  · exact noticesLegal_respond (noticesLegal_setLock g)
  · exact noticesLegal_respond g

theorem noticesLegal_query (g : NoticesLegal s) : NoticesLegal (s.query p r k) :=
  noticesLegal_respond (noticesLegal_ports g rfl)

end

/-! ## Links and the pool bus -/

section

variable {s : State} {p : Port} {n : SlotNo} {j : Job} {data : List Byte}

theorem noticesLegal_endFrame (g : NoticesLegal s) (f : Frame) : NoticesLegal (s.onPort p (·.endFrame f)) :=
  noticesLegal_onPort_same g (portSameNotices_receive f _) (session_receive f _)

theorem noticesLegal_linkFalls (g : NoticesLegal s) : NoticesLegal (s.linkFalls p) := by
  unfold State.linkFalls
  split
  · exact g
  · split
    · exact noticesLegal_keep g rfl rfl rfl rfl
    · split
      · exact noticesLegal_linkLossEvent g
      · exact noticesLegal_keep g rfl rfl rfl rfl

/-- A port that becomes OFFLINE by the sending of its LEAVE response has an empty queue, being LEAVING (R133, R157). -/
theorem noticesLegal_sendResponse (g : NoticesLegal s) : NoticesLegal (s.onPort p (·.sendResponse)) := by
  obtain ⟨hnotes, hnotices, ⟨hevents, hsession⟩ | ⟨hevents, hleaving⟩⟩ := sendResponse_cases (s.port p)
  · exact noticesLegal_keep g hnotes hnotices hevents hsession
  · have haway : ¬ online s p := by simp [online, hleaving]
    refine noticesLegal_onPort g hnotes (.inr haway) (le_of_eq (congrArg _ hnotices)) ?_
    rw [hnotices, hevents, g.c p haway]
    simp

theorem noticesLegal_sendItem (g : NoticesLegal s) (hlegal : (s.port p).legal) (hin : (s.port p).inContact = true) :
    NoticesLegal (s.onPort p (·.sendItem)) := by
  obtain ⟨hnotes, hlength⟩ := sendItem_keeps (s.port p)
  exact noticesLegal_onPort g hnotes (.inl (session_sendItem _)) (le_of_eq hlength)
    (noticeDue_sendItem hin hlegal (g.d p))

theorem noticesLegal_arbiterRun (g : NoticesLegal s) : NoticesLegal s.arbiterRun := by
  unfold State.arbiterRun
  split
  · split
    · split
      next n p _ _ _ ref k _ _ x _ =>
        have hissued : NoticesLegal (s.issue n (s.firstJob p ref k x)) := noticesLegal_ports g rfl
        have hflies : NoticesLegal ((s.issue n (s.firstJob p ref k x)).onPort p fun P =>
            P.onPiece ref k fun y => { y with cond := .inFlight }) :=
          noticesLegal_onPort_same hissued (portSameNotices_onPiece ..) (session_onPiece ..)
        exact noticesLegal_ports hflies rfl
      · exact g
    · exact g
  · exact g

theorem noticesLegal_takeDone (g : NoticesLegal s) : NoticesLegal (s.takeDone n j data) := by
  unfold State.takeDone
  split <;> exact noticesLegal_endJob g

theorem noticesLegal_takeRetry (g : NoticesLegal s) : NoticesLegal (s.takeRetry n j data) := by
  unfold State.takeRetry
  split
  · exact noticesLegal_endJob g
  · split
    · exact noticesLegal_ports g rfl
    · exact noticesLegal_endJob g

theorem noticesLegal_takeTimeout (g : NoticesLegal s) : NoticesLegal (s.takeTimeout n) := by
  unfold State.takeTimeout
  split
  · exact noticesLegal_endJob (noticesLegal_ports g rfl)
  · exact g

end

/-! ## Every command -/

/-- Every command keeps the notification queues legal. Only the sending of an item needs that the ports are legal: with
two NOTICE items in one set, sending one would leave the other without an entry. -/
theorem exec_keeps_noticesLegal {c : Instr} {s t : State} (hports : ∀ p, (s.port p).legal) (g : NoticesLegal s)
    (h : exec c s = .next t) : NoticesLegal t := by
  cases c with
  | hello p tag revision fault =>
    cases h
    split
    · exact noticesLegal_takeHello (s := s.taken p) (noticesLegal_keep g rfl rfl rfl rfl) revision fault
    · exact g
  | leave p tag => cases h; exact noticesLegal_request g fun _ gu _ => noticesLegal_leaveEvent gu
  | read p tag addr len => cases h; exact noticesLegal_request g fun _ gu _ => noticesLegal_accepting gu
  | write p tag addr len data => cases h; exact noticesLegal_request g fun _ gu _ => noticesLegal_accepting gu
  | mapRead p tag row view => cases h; exact noticesLegal_request g fun _ gu _ => noticesLegal_mapRead gu row view
  | mapOpen p tag expected => cases h; exact noticesLegal_request g fun _ gu _ => noticesLegal_mapOpen gu expected
  | mapStage p tag raw =>
    cases h
    exact noticesLegal_request g fun _ gu _ => noticesLegal_asOwner gu fun o => noticesLegal_stageRow gu raw o
  | mapUnstage p tag row =>
    cases h
    exact noticesLegal_request g fun _ gu _ => noticesLegal_asOwner gu fun o => noticesLegal_unstageRow gu row o
  | mapAbort p tag =>
    cases h
    exact noticesLegal_request g fun _ gu _ => noticesLegal_asOwner gu fun _ =>
      noticesLegal_respond (noticesLegal_edit gu _)
  | mapCommit p tag =>
    cases h
    exact noticesLegal_request g fun _ gu _ => noticesLegal_asOwner gu fun o => noticesLegal_commitEdit gu o
  | lockAcquire p tag lock wait yield owner lease =>
    cases h
    exact noticesLegal_request g fun _ gu _ => noticesLegal_withLock gu fun _ =>
      noticesLegal_acquire gu wait yield owner lease
  | lockRelease p tag lock gen =>
    cases h
    exact noticesLegal_request g fun _ gu _ => noticesLegal_withLock gu fun _ => noticesLegal_asHolder gu fun _ _ =>
      noticesLegal_endGrant gu (some tag)
  | lockRenew p tag lock gen lease =>
    cases h
    exact noticesLegal_request g fun _ gu _ => noticesLegal_withLock gu fun _ => noticesLegal_asHolder gu fun o _ =>
      noticesLegal_renew gu lease o
  | lockCancel p tag lock =>
    cases h
    exact noticesLegal_request g fun _ gu _ => noticesLegal_withLock gu fun _ => noticesLegal_cancel gu
  | lockQuery p tag lock =>
    cases h
    exact noticesLegal_request g fun _ gu _ => noticesLegal_withLock gu fun _ => noticesLegal_query gu
  | notify p tag target code => cases h; exact noticesLegal_request g fun _ gu _ => noticesLegal_notify gu target code
  | noticeAck p tag seq => cases h; exact noticesLegal_request g fun _ gu _ => noticesLegal_acknowledge gu seq
  | faultTake p tag => cases h; exact noticesLegal_request g fun _ gu _ => noticesLegal_faultTake gu
  | configRead p tag item index =>
    cases h; exact noticesLegal_request g fun _ gu _ => noticesLegal_configRead gu item index
  | configWrite p tag item index v =>
    cases h; exact noticesLegal_request g fun _ gu _ => noticesLegal_configWrite gu p _ item index v
  | configWriteSubscribe p tag index v =>
    cases h; exact noticesLegal_request g fun _ gu _ => noticesLegal_sub gu p _ index v
  | configWriteSlotQuota p tag index v =>
    cases h; exact noticesLegal_request g fun _ gu _ => noticesLegal_glob gu p _ 7#8 index v
  | frameReceipt p bytes =>
    cases h
    split
    · split
      · exact noticesLegal_endFrame g _
      · exact g
    · exact g
  | linkUp p => cases h; exact noticesLegal_keep g rfl rfl rfl rfl
  | linkDown p => cases h; exact noticesLegal_linkFalls g
  | deviceReset => cases h; exact noticesLegal_reset (s := s) _ rfl
  | supplyOrRefclkLoss => cases h; exact noticesLegal_reset (s := s) _ rfl
  | resetRelease => cases h; exact noticesLegal_ports g rfl
  | editIdleExpiry =>
    cases h
    split
    · exact noticesLegal_raise (noticesLegal_edit g _) (by simp)
    · exact g
  | leaseExpiry k =>
    cases h
    split
    · exact noticesLegal_revoke g _
    · exact g
  | yieldDeadlineExpiry k =>
    cases h
    split
    · exact noticesLegal_revoke g _
    · exact g
  | accessTimerExpiry n => cases h; exact noticesLegal_takeTimeout g
  | replyDone slot issue data =>
    cases h
    split
    · exact noticesLegal_takeDone g
    · exact g
  | replyError slot issue data =>
    cases h
    split
    · exact noticesLegal_endJob g
    · exact g
  | replyRetry slot issue data =>
    cases h
    split
    · exact noticesLegal_takeRetry g
    · exact g
  | slotArbiterRun =>
    cases h
    split
    · exact noticesLegal_arbiterRun g
    · exact g
  | sendResponse p =>
    cases h
    split
    · exact noticesLegal_sendResponse g
    · exact g
  | sendEvent p =>
    cases h
    split
    next hsends =>
      have hin : (s.port p).inContact = true := (Bool.and_eq_true_iff.mp hsends).2
      exact noticesLegal_sendItem g (hports p) hin
    · exact g

/-- Settles O59: by what each command does to the queues, their reservations and the NOTICE items. -/
theorem stepKeepsNoticesLegal : Obligations.StepKeepsNoticesLegal := by
  intro s t hports hnotices h
  have g : NoticesLegal s := (noticesLegal_iff s).mp hnotices
  refine (noticesLegal_iff t).mpr ?_
  unfold step at h
  split at h
  · cases h; exact g
  next c rest _ =>
    have gtaken : NoticesLegal { s with pending := rest } := noticesLegal_ports g rfl
    exact exec_keeps_noticesLegal (s := { s with pending := rest }) hports gtaken h

end Sys2Proof.Machine

/-! # Every step keeps every port's record legal (spec/05 R87 to R95; spec/08 R137, R144 to R150) -/

namespace Sys2Proof.Machine

open Sys2Proof

/-! ## A legal port has at most 100 items (R137) -/

/-- The keys an event set can hold: three for each lock, and four more. -/
def allKeys : List ItemKey :=
  allLocks.map .grant ++ allLocks.map .yield ++ allLocks.map .revoked ++ [.notice, .revision, .editExpired, .fault]

theorem mem_allKeys (key : ItemKey) : key ∈ allKeys := by
  cases key <;> simp [allKeys, mem_allLocks]

theorem length_allKeys : allKeys.length = 100 := rfl

theorem events_length_le {P : PortState} (h : P.eventsLegal) : P.events.length ≤ 100 := by
  obtain ⟨hkeys, -, -⟩ := h
  have hnodup : (P.events.map Item.key).Nodup :=
    List.pairwise_map.mpr (hkeys.imp fun hab => (sameKey_false _ _).mp hab)
  calc P.events.length = (P.events.map Item.key).length := (List.length_map _).symm
    _ ≤ allKeys.length := (hnodup.subperm fun key _ => mem_allKeys key).length_le
    _ = 100 := length_allKeys

/-! ## What a change of one record does to its hold slot (R89) -/

/-- What decides whether a hold slot is legal: the session state, and what is held. -/
def PortState.holding (P : PortState) : Session × Option Request := (P.session, P.hold)

section

variable {P Q : PortState}

theorem holdLegal_of_holding (h : Q.holding = P.holding) (g : P.holdLegal) : Q.holdLegal := by
  obtain ⟨hsession, hhold⟩ := Prod.mk.inj h
  intro r hr
  rw [hsession]
  exact g r (hhold ▸ hr)

theorem holdLegal_of_empty (h : P.hold = none) : P.holdLegal := fun r hr => by rw [h] at hr; cases hr

theorem holding_raise (P : PortState) (it : Item) : (P.raise it).holding = P.holding := by
  unfold PortState.raise
  split <;> rfl

theorem holding_record (P : PortState) (r : FaultRecord) : (P.record r).holding = P.holding := by
  have hkept : (P.keepRecord r).holding = P.holding := by
    unfold PortState.keepRecord
    split <;> rfl
  unfold PortState.record
  split
  · exact (holding_raise _ _).trans hkept
  · rfl

theorem holding_takeFault (P : PortState) : P.takeFault.holding = P.holding := by
  unfold PortState.takeFault
  dsimp only
  split <;> rfl

theorem holding_subscribe (v : Word) (P : PortState) : (P.subscribe v).holding = P.holding := by
  have hrev (b : Bool) : (P.setSubRev b).holding = P.holding := by
    unfold PortState.setSubRev
    split <;> rfl
  have hfault (Q : PortState) (b : Bool) : (Q.setSubFault b).holding = Q.holding := by
    unfold PortState.setSubFault
    dsimp only
    split
    · exact holding_raise _ _
    · split <;> rfl
  exact (hfault _ _).trans (hrev _)

theorem holding_endFrame (f : Frame) (P : PortState) : (P.endFrame f).holding = P.holding := by
  have hreceive : (P.receive f).holding = P.holding := by
    unfold PortState.receive
    split
    · exact holding_record ..
    · rfl
    · exact holding_record ..
    · rfl
  exact hreceive

theorem holding_onPiece (P : PortState) (ref : ReqRef) (n : Nat) (f : Piece → Piece) :
    (P.onPiece ref n f).holding = P.holding := by
  cases ref <;> rfl

theorem holding_sendItem (P : PortState) : P.sendItem.holding = P.holding := by
  have hnotice (Q : PortState) : Q.sendNotice.holding = Q.holding := by
    unfold PortState.sendNotice
    split
    · dsimp only
      split
      · exact holding_raise _ _
      · rfl
    · rfl
  unfold PortState.sendItem
  split
  · exact hnotice _
  · rfl
  · rfl

/-- A LEAVING port holds nothing, so it may become OFFLINE by the sending of its LEAVE response (R89, R157). -/
theorem holdLegal_sendResponse (g : P.holdLegal) : P.sendResponse.holdLegal := by
  unfold PortState.sendResponse
  split
  next r rest _ =>
    split
    next hleave =>
      have hleaving : P.session = .leaving := eq_of_beq (Bool.and_eq_true_iff.mp hleave).2
      intro x hx
      rcases g x hx with ⟨honline, -⟩ | ⟨hclosing, -⟩
      · rw [hleaving] at honline; cases honline
      · rw [hleaving] at hclosing; cases hclosing
    · exact holdLegal_of_holding rfl g
  · exact g

end

/-! ## The shared operations keep every hold slot legal -/

/-- Every port holds only what it may. -/
def HoldsLegal (s : State) : Prop := ∀ p, (s.port p).holdLegal

section

variable {s t : State} {p : Port} {r : Request}

theorem holdsLegal_ports (g : HoldsLegal s) (h : t.ports = s.ports) : HoldsLegal t := fun p => by
  have hp : t.port p = s.port p := by unfold State.port; rw [h]
  exact hp ▸ g p

theorem holdsLegal_onPort {f : PortState → PortState} (g : HoldsLegal s) (h : (f (s.port p)).holdLegal) :
    HoldsLegal (s.onPort p f) := fun q => by
  rw [State.port_onPort]
  split
  · exact h
  · exact g q

theorem holdsLegal_keep {f : PortState → PortState} (g : HoldsLegal s)
    (h : (f (s.port p)).holding = (s.port p).holding) : HoldsLegal (s.onPort p f) :=
  holdsLegal_onPort g (holdLegal_of_holding h (g p))

/-- Handoffs, fired NOTIFYs, revocations and responses touch neither sessions nor hold slots. -/
theorem holdsLegal_stays (h : ∀ p, StaysAt p s t) (g : HoldsLegal s) : HoldsLegal t := fun p =>
  have hkept := (h p).1.1
  holdLegal_of_holding (Prod.ext (kept_session hkept) (kept_hold hkept)) (g p)

theorem holdsLegal_foldl {α : Type} {f : State → α → State} (hf : ∀ s x, HoldsLegal s → HoldsLegal (f s x))
    (l : List α) (s : State) (g : HoldsLegal s) : HoldsLegal (l.foldl f s) :=
  List.foldlRecOn l f g fun u gu x _ => hf u x gu

theorem holdsLegal_respond (g : HoldsLegal s) (x : Response) : HoldsLegal (s.respond p x) := holdsLegal_keep g rfl

theorem holdsLegal_respondDue (g : HoldsLegal s) (x : Response) : HoldsLegal (s.respondDue p x) :=
  holdsLegal_stays (fun q => staysAt_respondDue q s p x) g

theorem holdsLegal_placeHold (g : HoldsLegal s) (h : ((s.port p).session = .online ∧
    (r.op.isRead = true ∨ r.op.isWrite = true)) ∨ ((s.port p).session = .closing ∧ r.op.isHello = true)) :
    HoldsLegal (s.placeHold p r) :=
  holdsLegal_onPort g fun x hx => by
    cases hx
    exact h

/-- Acceptance places a request in the hold slot of an ONLINE port only, and only a READ or WRITE (R11, R89). -/
theorem holdsLegal_accepting (g : HoldsLegal s) (hon : (s.port p).session = .online) :
    HoldsLegal (s.accepting p r) := by
  unfold State.accepting
  split
  next hop =>
    split
    · exact holdsLegal_respond g _
    · exact holdsLegal_placeHold g (.inl ⟨hon, .inl (by rw [hop]; rfl)⟩)
    · exact holdsLegal_keep g rfl
  next hop =>
    split
    · exact holdsLegal_respond g _
    · exact holdsLegal_placeHold g (.inl ⟨hon, .inr (by rw [hop]; rfl)⟩)
    · unfold State.acceptWrite
      dsimp only
      split
      · exact holdsLegal_respond (holdsLegal_keep g rfl) _
      · exact holdsLegal_keep g rfl
  · exact g

theorem holdsLegal_clearHold (g : HoldsLegal s) : HoldsLegal (s.onPort p fun P => { P with hold := none }) :=
  holdsLegal_onPort g (holdLegal_of_empty rfl)

theorem holdsLegal_retake (g : HoldsLegal s) : HoldsLegal (s.retake p) := by
  unfold State.retake
  split
  · split
    · dsimp only
      split
      next hon => exact holdsLegal_accepting (holdsLegal_clearHold g) hon
      · exact holdsLegal_respond (holdsLegal_clearHold g) _
      · exact holdsLegal_respond (holdsLegal_clearHold g) _
      · exact holdsLegal_respond (holdsLegal_clearHold g) _
    · exact g
  · exact g

theorem holdsLegal_completeCommit (g : HoldsLegal s) : HoldsLegal s.completeCommit := by
  unfold State.completeCommit
  split
  next c _ =>
    dsimp only
    refine holdsLegal_foldl (fun _ _ gu => holdsLegal_retake gu) _ _
      (holdsLegal_foldl (fun _ _ gu => holdsLegal_keep gu (holding_raise _ _)) _ _ ?_)
    have greplaced : HoldsLegal { s.replaceRows c.change with revision := s.revision + 1, edit := .absent } :=
      holdsLegal_ports g (ports_replaceRows s c.change)
    unfold State.answerCommit
    split
    · exact greplaced
    · exact holdsLegal_respondDue greplaced _
  · exact g

theorem holdsLegal_tagCheck {go : State → State} (g : HoldsLegal s)
    (hgo : ∀ u : State, HoldsLegal u → u = s.onPort p (fun P => { P with tags := P.tags ++ [r.tag] }) →
      HoldsLegal (go u)) :
    HoldsLegal (s.tagCheck p r go) := by
  unfold State.tagCheck
  split
  · exact holdsLegal_keep g rfl
  · split
    · exact holdsLegal_keep g (holding_record ..)
    · exact hgo _ (holdsLegal_keep g rfl) rfl

/-- A HELLO taken in OFFLINE may start a session, the hold slot being empty. -/
theorem holdsLegal_helloOffline (g : HoldsLegal s) (hempty : (s.port p).hold = none) (a b : Byte) :
    HoldsLegal (s.helloOffline p r a b) := by
  refine holdsLegal_tagCheck g ?_
  rintro u gu rfl
  unfold State.helloFields
  split
  · exact holdsLegal_respond (holdsLegal_onPort gu (holdLegal_of_empty (by simpa using hempty))) _
  · exact holdsLegal_respond gu _

/-- A CLOSING port that becomes OFFLINE holds nothing or a HELLO, which is taken out of the slot (R89, R159). -/
theorem holdsLegal_closingTest (g : HoldsLegal s) : HoldsLegal (s.closingTest p) := by
  unfold State.closingTest
  split
  next hquiet =>
    have hclosing : (s.port p).session = .closing := eq_of_beq (Bool.and_eq_true_iff.mp hquiet).1
    have hhello (r : Request) (hr : (s.port p).hold = some r) : r.op.isHello = true := by
      rcases g p r hr with ⟨honline, -⟩ | ⟨-, h⟩
      · rw [hclosing] at honline; cases honline
      · exact h
    unfold State.retakeHello
    rw [State.port_onPort_same]
    split
    next r hr =>
      have hop := hhello r hr
      split
      · rw [onPort_onPort]
        exact holdsLegal_helloOffline (holdsLegal_onPort g (holdLegal_of_empty rfl)) (by simp) _ _
      next hother =>
        cases hrop : r.op with
        | hello a b => exact absurd hrop (hother a b)
        | _ => rw [hrop] at hop; cases hop
    next hnone => exact holdsLegal_onPort g (holdLegal_of_empty hnone)
  · exact g

theorem holdsLegal_leaveTest (g : HoldsLegal s) : HoldsLegal (s.leaveTest p) := by
  unfold State.leaveTest
  split
  · split
    · exact holdsLegal_keep g rfl
    · exact g
  · exact g

theorem holdsLegal_sessionTests (g : HoldsLegal s) : HoldsLegal s.sessionTests :=
  holdsLegal_foldl (fun _ _ gu => holdsLegal_closingTest (holdsLegal_leaveTest gu)) _ _ g

theorem holdsLegal_runTasks (g : HoldsLegal s) (l : List Task) : HoldsLegal (s.runTasks p l) :=
  runTasks_ind (C := HoldsLegal) p l (fun _ _ gu => gu) (fun x _ u gu => by
    by_cases hx : x = .commit
    · subst hx
      exact holdsLegal_completeCommit gu
    · exact holdsLegal_stays (fun q => staysAt_runTask q u p x hx) gu) s g

theorem holdsLegal_closeEvent (g : HoldsLegal s) (l : List Task) : HoldsLegal (s.closeEvent p l) := by
  unfold State.closeEvent
  dsimp only
  have gfresh : HoldsLegal { s with fresh := s.fresh + 1 } := g
  split
  · exact holdsLegal_sessionTests
      (holdsLegal_completeCommit (holdsLegal_sessionTests (holdsLegal_runTasks gfresh _)))
  · exact holdsLegal_sessionTests (holdsLegal_runTasks gfresh _)

/-! ### The pool bus -/

theorem holdsLegal_leaveDrain (g : HoldsLegal s) (ref : ReqRef) : HoldsLegal (s.leaveDrain p ref) := by
  unfold State.leaveDrain
  split <;> exact g

theorem holdsLegal_writeReport (g : HoldsLegal s) (e : WriteEntry) : HoldsLegal (s.writeReport p e) := by
  have gnotices {u : State} (gu : HoldsLegal u) : HoldsLegal (u.noticeFailures e) :=
    holdsLegal_stays (fun q => staysAt_noticeFailures q u e) gu
  have ganswered : HoldsLegal (if e.posted then s else s.respondDue p e.response) := by
    split
    · exact g
    · exact holdsLegal_respondDue g _
  unfold State.writeReport
  dsimp only
  split
  · exact ganswered
  · split
    next hposted => exact holdsLegal_keep (gnotices (by rwa [if_pos hposted] at ganswered)) (holding_record ..)
    next hposted => exact gnotices (by rwa [if_neg hposted] at ganswered)

theorem holdsLegal_endPiece (g : HoldsLegal s) (j : Job) (e : Ending) : HoldsLegal (s.endPiece j e) := by
  unfold State.endPiece
  split
  · split
    next seq _ _ w _ =>
      dsimp only
      have gmarked : HoldsLegal (s.onPort j.port (·.onWrite seq fun _ => w.ended j.piece e)) := holdsLegal_keep g rfl
      split
      · exact holdsLegal_closeEvent (holdsLegal_leaveDrain (holdsLegal_keep
          (holdsLegal_writeReport (holdsLegal_keep gmarked rfl) _) rfl) _) _
      · exact gmarked
    · exact g
  · split
    next tag _ _ r _ =>
      dsimp only
      have gmarked : HoldsLegal (s.onPort j.port (·.onRead tag fun _ => r.ended j.piece e)) := holdsLegal_keep g rfl
      split
      · exact holdsLegal_closeEvent (holdsLegal_leaveDrain (holdsLegal_respondDue
          (holdsLegal_keep gmarked rfl) _) _) _
      · exact gmarked
    · exact g

theorem holdsLegal_arbiterRun (g : HoldsLegal s) : HoldsLegal s.arbiterRun := by
  unfold State.arbiterRun
  split
  · split
    · split
      next n p _ _ _ ref k _ _ x _ =>
        have gissued : HoldsLegal (s.issue n (s.firstJob p ref k x)) := holdsLegal_ports g rfl
        have gflies : HoldsLegal ((s.issue n (s.firstJob p ref k x)).onPort p fun P =>
            P.onPiece ref k fun y => { y with cond := .inFlight }) := holdsLegal_keep gissued (holding_onPiece ..)
        exact holdsLegal_ports gflies rfl
      · exact g
    · exact g
  · exact g

/-! ### Departures -/

theorem holdsLegal_departTarget (g : HoldsLegal s) : HoldsLegal (s.departTarget p) :=
  holdsLegal_stays (fun q => staysAt_departTarget q s p) g

theorem holdsLegal_removeWaits (g : HoldsLegal s) : HoldsLegal (s.removeWaits p) :=
  holdsLegal_stays (fun q => staysAt_removeWaits q s p) g

theorem holdsLegal_edit (g : HoldsLegal s) (e : Edit) : HoldsLegal { s with edit := e } := g

/-- A port that leaves holds nothing, since its intake has just taken a request (R88). -/
theorem holdsLegal_leaveEvent (g : HoldsLegal s) (hempty : (s.port p).hold = none) (tag : Byte) :
    HoldsLegal (s.leaveEvent p tag) := by
  unfold State.leaveEvent
  dsimp only
  exact holdsLegal_sessionTests (holdsLegal_departTarget (holdsLegal_edit (holdsLegal_removeWaits
    (holdsLegal_runTasks (holdsLegal_onPort g (holdLegal_of_empty hempty)) _)) _))

theorem holdsLegal_dropReads (g : HoldsLegal s) (gone : List ReadEntry) : HoldsLegal (s.dropReads p gone) :=
  holdsLegal_foldl (fun _ _ gu => holdsLegal_leaveDrain gu _) _ _ g

theorem holdsLegal_dropNotes (g : HoldsLegal s) : HoldsLegal (s.dropNotes p) := holdsLegal_keep g rfl

theorem holdsLegal_linkLossEvent (g : HoldsLegal s) : HoldsLegal (s.linkLossEvent p) := by
  have glost : HoldsLegal (s.onPort p (·.loseLink)) := holdsLegal_onPort g (holdLegal_of_empty rfl)
  unfold State.linkLossEvent
  dsimp only
  exact holdsLegal_sessionTests (holdsLegal_dropNotes (holdsLegal_departTarget (holdsLegal_edit
    (holdsLegal_removeWaits (holdsLegal_runTasks (holdsLegal_dropReads glost _) _)) _)))

end

/-! ## Changes of one record that the shared operations do not make -/

section

variable {P : PortState}

/-- The event set of a legal record may lose items. -/
theorem legal_events_sublist {l : List Item} (hl : l.Sublist P.events) (h : P.legal) :
    ({ P with events := l } : PortState).legal := by
  obtain ⟨⟨hkeys, hrev, hfault⟩, ⟨hroom, hlost, hfull, hnone⟩, hcaps, hoff⟩ := h
  refine ⟨⟨hkeys.sublist hl, fun hs it hit => hrev hs it (hl.subset hit), fun hs it hit => hfault hs it (hl.subset hit)⟩,
    ⟨hroom, hlost, hfull, fun hf hz it hit => hnone hf hz it (hl.subset hit)⟩, hcaps, fun hs => ?_⟩
  obtain ⟨hevents, hrest⟩ := hoff hs
  exact ⟨List.sublist_nil.mp (hevents ▸ hl), hrest⟩

theorem legal_sendFirst (r : Response) (h : P.legal) : (P.sendFirst r).legal := by
  refine legal_keep P _ h rfl rfl rfl rfl rfl rfl ?_
  obtain ⟨-, -, ⟨hnodup, htags, hintake, hplaces, hrest⟩, -⟩ := h
  exact ⟨hnodup, htags, hintake, (Nat.sub_le _ _).trans hplaces, hrest⟩

theorem legal_sendResponse (h : P.legal) : P.sendResponse.legal := by
  unfold PortState.sendResponse
  split
  · split
    · exact legal_goOffline _ (legal_sendFirst _ h)
    · exact legal_sendFirst _ h
  · exact h

theorem legal_sendNotice (h : P.legal) : P.sendNotice.legal := by
  unfold PortState.sendNotice
  split
  · dsimp only
    split
    · exact legal_raise _ _ h (by simp)
    · exact h
  · exact h

theorem legal_sendItem (h : P.legal) : P.sendItem.legal := by
  have hrest {it : Item} {rest : List Item} (hevents : P.events = it :: rest) :
      ({ P with events := rest } : PortState).legal :=
    legal_events_sublist (hevents ▸ List.sublist_cons_self it rest) h
  unfold PortState.sendItem
  split
  next hevents => exact legal_sendNotice (hrest hevents)
  next hevents => exact hrest hevents
  · exact h

/-- A held HELLO needs no room in the write queue or the read list (R89). -/
theorem legal_holdHello {r : Request} (hhello : r.op.isHello = true) (h : P.legal) :
    ({ P with hold := some r } : PortState).legal := by
  have haccess : r.op.isWrite = false ∧ r.op.isRead = false := by
    revert hhello
    cases r.op <;> simp [ReqOp.isHello, ReqOp.isWrite, ReqOp.isRead]
  refine legal_keep P _ h rfl rfl rfl rfl rfl rfl ?_
  obtain ⟨-, -, ⟨hnodup, htags, hintake, hplaces, hbegun, hwrites, hreads, -⟩, -⟩ := h
  refine ⟨hnodup, htags, hintake, hplaces, hbegun, hwrites, hreads, fun x hx => ?_⟩
  cases hx
  simp [haccess]

end

/-! ## Both port invariants at once -/

/-- The two invariants of the ports' records hold in `t` when they hold in `s`, each by itself. -/
structure KeepsPorts (s t : State) : Prop where
  legal : PortsLegal s → PortsLegal t
  hold : HoldsLegal s → HoldsLegal t

section

variable {s t u : State} {p : Port} {r : Request}

theorem KeepsPorts.refl (s : State) : KeepsPorts s s := ⟨id, id⟩

theorem KeepsPorts.trans (a : KeepsPorts s t) (b : KeepsPorts t u) : KeepsPorts s u :=
  ⟨fun g => b.legal (a.legal g), fun g => b.hold (a.hold g)⟩

theorem keepsPorts_ports (h : t.ports = s.ports) : KeepsPorts s t :=
  ⟨fun g => portsLegal_of_ports h g, fun g => holdsLegal_ports g h⟩

theorem keepsPorts_onPort {f : PortState → PortState} (hlegal : (s.port p).legal → (f (s.port p)).legal)
    (hhold : (s.port p).holdLegal → (f (s.port p)).holdLegal) : KeepsPorts s (s.onPort p f) :=
  ⟨fun g => portsLegal_onPort g (hlegal (g p)), fun g => holdsLegal_onPort g (hhold (g p))⟩

theorem keepsPorts_same {f : PortState → PortState} (hlegal : (s.port p).legal → (f (s.port p)).legal)
    (hhold : (f (s.port p)).holding = (s.port p).holding) : KeepsPorts s (s.onPort p f) :=
  keepsPorts_onPort hlegal (holdLegal_of_holding hhold)

theorem keepsPorts_respond (s : State) (p : Port) (x : Response) : KeepsPorts s (s.respond p x) :=
  ⟨fun g => portsLegal_respond g, fun g => holdsLegal_respond g x⟩

theorem KeepsPorts.respond (h : KeepsPorts s t) (p : Port) (x : Response) : KeepsPorts s (t.respond p x) :=
  h.trans (keepsPorts_respond t p x)

theorem keepsPorts_edit (s : State) (e : Edit) : KeepsPorts s { s with edit := e } := keepsPorts_ports rfl

theorem keepsPorts_setLock (s : State) (k : Lock) (l : LockRecord) : KeepsPorts s (s.setLock k l) :=
  keepsPorts_ports rfl

theorem keepsPorts_raise {it : Item} (hit : it ≠ .fault) : KeepsPorts s (s.raise p it) :=
  keepsPorts_same (fun g => legal_raise _ _ g fun e => absurd e hit) (holding_raise _ _)

theorem keepsPorts_askYield (s : State) (k : Lock) : KeepsPorts s (s.askYield k) :=
  ⟨fun g => portsLegal_askYield g, holdsLegal_stays fun q => staysAt_askYield q s k⟩

theorem keepsPorts_endGrant (s : State) (k : Lock) (p : Port) (tag : Option Byte) :
    KeepsPorts s (s.endGrant k p tag) :=
  ⟨fun g => portsLegal_endGrant g, holdsLegal_stays fun q => staysAt_endGrant q s k p tag⟩

theorem keepsPorts_revoke (s : State) (k : Lock) (reason : BreakCause) : KeepsPorts s (s.revoke k reason) :=
  ⟨fun g => portsLegal_revoke g, holdsLegal_stays fun q => staysAt_revoke q s k reason⟩

theorem keepsPorts_fireNote (s : State) (p : Port) (n : Note) : KeepsPorts s (s.fireNote p n) :=
  ⟨fun g => portsLegal_fireNote g, holdsLegal_stays fun q => staysAt_fireNote q s p n⟩

theorem keepsPorts_completeCommit (s : State) : KeepsPorts s s.completeCommit :=
  ⟨fun g => portsLegal_completeCommit g, holdsLegal_completeCommit⟩

theorem keepsPorts_endJob (s : State) (n : SlotNo) (j : Job) (e : Ending) : KeepsPorts s (s.endJob n j e) := by
  have hfreed : KeepsPorts s (s.releaseSlot n) := keepsPorts_ports rfl
  exact hfreed.trans ⟨fun g => portsLegal_endPiece g, fun g => holdsLegal_endPiece g j e⟩

/-! ## Requests -/

theorem keepsPorts_taken (h : s.takes p r = true) : KeepsPorts s (s.taken p) :=
  ⟨fun g => portsLegal_taken g h, fun g => holdsLegal_keep g rfl⟩

theorem keepsPorts_tagCheck {go : State → State}
    (hgo : KeepsPorts (s.onPort p fun P => { P with tags := P.tags ++ [r.tag] })
      (go (s.onPort p fun P => { P with tags := P.tags ++ [r.tag] }))) : KeepsPorts s (s.tagCheck p r go) :=
  ⟨fun g => portsLegal_tagCheck g fun _ gu hu => hu ▸ hgo.legal (hu ▸ gu),
    fun g => holdsLegal_tagCheck g fun _ gu hu => hu ▸ hgo.hold (hu ▸ gu)⟩

/-- After the session check and the tag check a request goes on in ONLINE, with room to be accepted and nothing held
(R86, R88). -/
theorem keepsPorts_request {go : State → State}
    (hgo : ∀ u : State, (u.port p).session = .online → HasRoom u p r → KeepsPorts u (go u)) :
    KeepsPorts s (s.request p r go) := by
  unfold State.request
  split
  next htakes =>
    refine (keepsPorts_taken htakes).trans ?_
    obtain ⟨hroom, -⟩ := takes_hasRoom htakes
    unfold State.sessionCheck
    split
    · exact keepsPorts_onPort id id
    · exact keepsPorts_onPort id id
    · exact keepsPorts_onPort id id
    next hon =>
      refine keepsPorts_tagCheck (hgo _ (by simpa using hon) ?_)
      simpa [HasRoom, State.taken, PortState.takeHead] using hroom
  · exact .refl s

theorem keepsPorts_withLock {lock : Byte} {go : State → Lock → State} (h : ∀ k, KeepsPorts s (go s k)) :
    KeepsPorts s (s.withLock p r lock go) := by
  unfold State.withLock
  split
  · exact h _
  · exact keepsPorts_respond ..

theorem keepsPorts_asOwner {go : State → OpenEdit → State} (h : ∀ o, KeepsPorts s (go s o)) :
    KeepsPorts s (s.asOwner p r go) := by
  unfold State.asOwner
  split
  · split
    · exact h _
    · exact keepsPorts_respond ..
  · exact keepsPorts_respond ..

theorem keepsPorts_asHolder {gen : Half} {k : Lock} {go : State → Holder → State} (h : ∀ o, KeepsPorts s (go s o)) :
    KeepsPorts s (s.asHolder p r gen k go) := by
  unfold State.asHolder
  split
  · split
    · split
      · exact h _
      · exact keepsPorts_respond ..
    · exact keepsPorts_respond ..
  · exact keepsPorts_respond ..

theorem keepsPorts_takeHello (hempty : (s.port p).hold = none) (hhello : r.op.isHello = true) (a b : Byte) :
    KeepsPorts s (s.takeHello p r a b) := by
  unfold State.takeHello
  split
  next hoff => exact ⟨fun g => portsLegal_helloOffline g hoff, fun g => holdsLegal_helloOffline g hempty a b⟩
  · exact ⟨fun g => portsLegal_tagCheck g fun _ gu _ => portsLegal_respond gu,
      fun g => holdsLegal_tagCheck g fun _ gu _ => holdsLegal_respond gu _⟩
  · exact keepsPorts_onPort id id
  next hclosing =>
    exact ⟨fun g => portsLegal_onPort g (legal_holdHello hhello (g p)),
      fun g => holdsLegal_placeHold g (.inr ⟨hclosing, hhello⟩)⟩

theorem keepsPorts_leaveEvent (hempty : (s.port p).hold = none) (tag : Byte) : KeepsPorts s (s.leaveEvent p tag) :=
  ⟨fun g => portsLegal_leaveEvent g, fun g => holdsLegal_leaveEvent g hempty tag⟩

theorem keepsPorts_accepting (hon : (s.port p).session = .online) (hroom : HasRoom s p r) :
    KeepsPorts s (s.accepting p r) :=
  ⟨fun g => portsLegal_accepting g hroom, fun g => holdsLegal_accepting g hon⟩

/-! ### The map and its edits -/

theorem keepsPorts_mapRead (s : State) (p : Port) (r : Request) (row : Half) (view : Byte) :
    KeepsPorts s (s.mapRead p r row view) := by
  unfold State.mapRead
  repeat' split
  all_goals exact keepsPorts_respond ..

theorem keepsPorts_mapOpen (s : State) (p : Port) (r : Request) (expected : Option Half) :
    KeepsPorts s (s.mapOpen p r expected) := by
  unfold State.mapOpen
  split
  · split
    · exact keepsPorts_respond ..
    · have hopens : KeepsPorts s (s.openEdit p) := (keepsPorts_edit s _).trans (keepsPorts_same (legal_withdraw _ _) rfl)
      exact hopens.respond p _
  · split
    · exact (keepsPorts_edit s _).respond p _
    · exact keepsPorts_respond ..
  · split <;> exact keepsPorts_respond ..

theorem keepsPorts_stageRow (s : State) (p : Port) (r : Request) (raw : RawRow) (o : OpenEdit) :
    KeepsPorts s (s.stageRow p r raw o) := by
  unfold State.stageRow
  repeat' split
  all_goals exact (keepsPorts_edit s _).respond p _

theorem keepsPorts_unstageRow (s : State) (p : Port) (r : Request) (row : Half) (o : OpenEdit) :
    KeepsPorts s (s.unstageRow p r row o) := by
  unfold State.unstageRow
  split <;> exact (keepsPorts_edit s _).respond p _

theorem keepsPorts_commitEdit (s : State) (p : Port) (r : Request) (o : OpenEdit) :
    KeepsPorts s (s.commitEdit p r o) := by
  unfold State.commitEdit State.startCommit
  dsimp only
  split
  · exact (keepsPorts_edit s _).respond p _
  · split
    · exact (keepsPorts_edit s _).trans (keepsPorts_completeCommit _)
    · exact keepsPorts_edit s _

/-! ### Lock requests -/

theorem keepsPorts_acquire (s : State) (p : Port) (r : Request) (wait yield : Bool) (owner : Half)
    (lease : Option Half) (k : Lock) : KeepsPorts s (s.acquire p r wait yield owner lease k) := by
  rcases acquire_cases s p r wait yield owner lease k with ⟨x, e⟩ | ⟨-, e⟩ | ⟨-, -, -, e⟩
  · rw [e]; exact keepsPorts_respond ..
  · rw [e]; exact (keepsPorts_setLock ..).respond p _
  · rw [e, enqueue_eq]; exact ((keepsPorts_setLock ..).trans (keepsPorts_askYield ..)).respond p _

theorem keepsPorts_renew (s : State) (p : Port) (r : Request) (lease : Option Half) (k : Lock) (h : Holder) :
    KeepsPorts s (s.renew p r lease k h) := by
  unfold State.renew
  split
  · exact (keepsPorts_setLock ..).respond p _
  · exact keepsPorts_respond ..

theorem keepsPorts_cancel (s : State) (p : Port) (r : Request) (k : Lock) : KeepsPorts s (s.cancel p r k) := by
  unfold State.cancel
  split
  · exact (keepsPorts_setLock ..).respond p _
  · exact keepsPorts_respond ..

theorem keepsPorts_query (s : State) (p : Port) (r : Request) (k : Lock) : KeepsPorts s (s.query p r k) := by
  have hread : KeepsPorts s { s.setLock k ((s.lock k).fall s.fresh) with fresh := s.fresh + 1 } := keepsPorts_ports rfl
  exact hread.respond p _

/-! ### Notifications, faults and the configuration -/

theorem keepsPorts_notify (s : State) (p : Port) (r : Request) (target : Byte) (code : Word) :
    KeepsPorts s (s.notify p r target code) := by
  unfold State.notify
  dsimp only
  repeat' split
  · exact keepsPorts_respond ..
  · exact keepsPorts_respond ..
  · exact keepsPorts_respond ..
  · unfold State.reserve
    dsimp only
    split
    · exact keepsPorts_fireNote ..
    · exact keepsPorts_onPort id id
  · exact keepsPorts_respond ..

theorem keepsPorts_acknowledge (s : State) (p : Port) (r : Request) (seq : Half) :
    KeepsPorts s (s.acknowledge p r seq) := by
  unfold State.acknowledge
  split
  · exact keepsPorts_respond ..
  · split
    · exact keepsPorts_respond ..
    · exact KeepsPorts.respond (keepsPorts_onPort id id) p _

theorem keepsPorts_faultTake (s : State) (p : Port) (r : Request) : KeepsPorts s (s.faultTake p r) := by
  unfold State.faultTake
  split <;> exact KeepsPorts.respond (keepsPorts_same (legal_takeFault _) (holding_takeFault _)) p _

theorem keepsPorts_configRead (s : State) (p : Port) (r : Request) (item index : Byte) :
    KeepsPorts s (s.configRead p r item index) := by
  unfold State.configRead
  split <;> exact keepsPorts_respond ..

theorem keepsPorts_writeSubscribe (hon : (s.port p).session = .online) (index : Byte) (v : Word) :
    KeepsPorts s (s.writeSubscribe p r index v) := by
  unfold State.writeSubscribe
  split
  · exact keepsPorts_respond ..
  · split
    · exact KeepsPorts.respond
        (keepsPorts_same (fun g => legal_subscribe _ v g hon) (holding_subscribe v _)) p _
    · exact keepsPorts_respond ..

theorem keepsPorts_writeGlobal (s : State) (p : Port) (r : Request) (item index : Byte) (v : Word) :
    KeepsPorts s (s.writeGlobal p r item index v) := by
  unfold State.writeGlobal
  split
  · exact keepsPorts_respond ..
  · split
    next c _ =>
      have hconfig : KeepsPorts s { s with config := c } := keepsPorts_ports rfl
      exact hconfig.respond p _
    · exact keepsPorts_respond ..

theorem keepsPorts_configWrite (hon : (s.port p).session = .online) (item index : Byte) (v : Word) :
    KeepsPorts s (s.configWrite p r item index v) := by
  unfold State.configWrite
  split
  · exact keepsPorts_writeSubscribe hon index v
  · split
    · exact keepsPorts_writeGlobal ..
    · exact keepsPorts_respond ..

/-! ## Links, the pool bus and device reset -/

theorem keepsPorts_endFrame {f : Frame} (hreceives : s.receives p = true) (hwaits : (s.port p).endWaits f = false) :
    KeepsPorts s (s.onPort p (·.endFrame f)) :=
  ⟨fun g => portsLegal_endFrame g hreceives hwaits, fun g => holdsLegal_keep g (holding_endFrame f _)⟩

theorem keepsPorts_linkFalls (s : State) (p : Port) : KeepsPorts s (s.linkFalls p) := by
  unfold State.linkFalls
  split
  · exact .refl s
  · split
    · exact keepsPorts_onPort id id
    · split
      · exact ⟨fun g => portsLegal_linkLossEvent g, holdsLegal_linkLossEvent⟩
      · exact ⟨fun g => portsLegal_discard g .down, fun g => holdsLegal_onPort g (holdLegal_of_empty rfl)⟩

theorem keepsPorts_takeDone (s : State) (n : SlotNo) (j : Job) (data : List Byte) :
    KeepsPorts s (s.takeDone n j data) := by
  unfold State.takeDone
  split <;> exact keepsPorts_endJob ..

theorem keepsPorts_takeRetry (s : State) (n : SlotNo) (j : Job) (data : List Byte) :
    KeepsPorts s (s.takeRetry n j data) := by
  unfold State.takeRetry
  split
  · exact keepsPorts_endJob ..
  · split
    · exact keepsPorts_ports rfl
    · exact keepsPorts_endJob ..

theorem keepsPorts_takeTimeout (s : State) (n : SlotNo) : KeepsPorts s (s.takeTimeout n) := by
  unfold State.takeTimeout
  split
  · have haborts : KeepsPorts s { s with busAbort := some { slot := n, issueNo := (s.slot n).issueNo } } :=
      keepsPorts_ports rfl
    exact haborts.trans (keepsPorts_endJob ..)
  · exact .refl s

theorem keepsPorts_toReset (s : State) : KeepsPorts s s.toReset :=
  ⟨fun _ => portsLegal_toReset, fun _ p => holdLegal_of_empty (by fin_cases p <;> rfl)⟩

end

/-! ## Every command -/

theorem exec_keepsPorts {c : Instr} {s t : State} (h : exec c s = .next t) : KeepsPorts s t := by
  cases c with
  | hello p tag a b =>
    cases h
    split
    next htakes =>
      obtain ⟨⟨hempty, -⟩, -⟩ := takes_hasRoom htakes
      have hstill : ((s.taken p).port p).hold = none := by simpa [State.taken, PortState.takeHead] using hempty
      exact (keepsPorts_taken htakes).trans (keepsPorts_takeHello hstill rfl a b)
    · exact .refl s
  | leave p tag => cases h; exact keepsPorts_request fun _ _ ⟨hempty, _⟩ => keepsPorts_leaveEvent hempty tag
  | read p tag addr len => cases h; exact keepsPorts_request fun _ hon hroom => keepsPorts_accepting hon hroom
  | write p tag addr len data => cases h; exact keepsPorts_request fun _ hon hroom => keepsPorts_accepting hon hroom
  | mapRead p tag row view => cases h; exact keepsPorts_request fun _ _ _ => keepsPorts_mapRead ..
  | mapOpen p tag expected => cases h; exact keepsPorts_request fun _ _ _ => keepsPorts_mapOpen ..
  | mapStage p tag raw =>
    cases h; exact keepsPorts_request fun _ _ _ => keepsPorts_asOwner fun _ => keepsPorts_stageRow ..
  | mapUnstage p tag row =>
    cases h; exact keepsPorts_request fun _ _ _ => keepsPorts_asOwner fun _ => keepsPorts_unstageRow ..
  | mapAbort p tag =>
    cases h; exact keepsPorts_request fun u _ _ => keepsPorts_asOwner fun _ => (keepsPorts_edit u _).respond p _
  | mapCommit p tag =>
    cases h; exact keepsPorts_request fun _ _ _ => keepsPorts_asOwner fun _ => keepsPorts_commitEdit ..
  | lockAcquire p tag lock wait yield owner lease =>
    cases h; exact keepsPorts_request fun _ _ _ => keepsPorts_withLock fun _ => keepsPorts_acquire ..
  | lockRelease p tag lock gen =>
    cases h
    exact keepsPorts_request fun _ _ _ => keepsPorts_withLock fun _ => keepsPorts_asHolder fun _ =>
      keepsPorts_endGrant ..
  | lockRenew p tag lock gen lease =>
    cases h
    exact keepsPorts_request fun _ _ _ => keepsPorts_withLock fun _ => keepsPorts_asHolder fun _ => keepsPorts_renew ..
  | lockCancel p tag lock =>
    cases h; exact keepsPorts_request fun _ _ _ => keepsPorts_withLock fun _ => keepsPorts_cancel ..
  | lockQuery p tag lock =>
    cases h; exact keepsPorts_request fun _ _ _ => keepsPorts_withLock fun _ => keepsPorts_query ..
  | notify p tag target code => cases h; exact keepsPorts_request fun _ _ _ => keepsPorts_notify ..
  | noticeAck p tag seq => cases h; exact keepsPorts_request fun _ _ _ => keepsPorts_acknowledge ..
  | faultTake p tag => cases h; exact keepsPorts_request fun _ _ _ => keepsPorts_faultTake ..
  | configRead p tag item index => cases h; exact keepsPorts_request fun _ _ _ => keepsPorts_configRead ..
  | configWrite p tag item index v =>
    cases h; exact keepsPorts_request fun _ hon _ => keepsPorts_configWrite hon item index v
  | configWriteSubscribe p tag index v =>
    cases h; exact keepsPorts_request fun _ hon _ => keepsPorts_writeSubscribe hon index v
  | configWriteSlotQuota p tag index v => cases h; exact keepsPorts_request fun _ _ _ => keepsPorts_writeGlobal ..
  | frameReceipt p bytes =>
    cases h
    split
    · split
      next hends =>
        obtain ⟨hreceives, hwaits⟩ := Bool.and_eq_true_iff.mp hends
        exact keepsPorts_endFrame hreceives (by simpa using hwaits)
      · exact .refl s
    · exact .refl s
  | linkUp p => cases h; exact keepsPorts_onPort id id
  | linkDown p => cases h; exact keepsPorts_linkFalls s p
  | deviceReset => cases h; exact (keepsPorts_toReset s).trans (keepsPorts_ports rfl)
  | supplyOrRefclkLoss => cases h; exact (keepsPorts_toReset s).trans (keepsPorts_ports rfl)
  | resetRelease => cases h; exact keepsPorts_ports rfl
  | editIdleExpiry =>
    cases h
    split
    · exact (keepsPorts_edit s _).trans (keepsPorts_raise (by simp))
    · exact .refl s
  | leaseExpiry k =>
    cases h
    split
    · exact keepsPorts_revoke ..
    · exact .refl s
  | yieldDeadlineExpiry k =>
    cases h
    split
    · exact keepsPorts_revoke ..
    · exact .refl s
  | accessTimerExpiry n => cases h; exact keepsPorts_takeTimeout s n
  | replyDone slot issue data =>
    cases h
    split
    · exact keepsPorts_takeDone ..
    · exact .refl s
  | replyError slot issue data =>
    cases h
    split
    · exact keepsPorts_endJob ..
    · exact .refl s
  | replyRetry slot issue data =>
    cases h
    split
    · exact keepsPorts_takeRetry ..
    · exact .refl s
  | slotArbiterRun =>
    cases h
    split
    · exact ⟨fun g => portsLegal_arbiterRun g, holdsLegal_arbiterRun⟩
    · exact .refl s
  | sendResponse p =>
    cases h
    split
    · exact keepsPorts_onPort legal_sendResponse holdLegal_sendResponse
    · exact .refl s
  | sendEvent p =>
    cases h
    split
    · exact keepsPorts_same legal_sendItem (holding_sendItem _)
    · exact .refl s

theorem step_keepsPorts {s t : State} (h : step s = .next t) : KeepsPorts s t := by
  unfold step at h
  split at h
  · cases h; exact .refl s
  next c rest _ =>
    have hwaits : KeepsPorts s { s with pending := rest } := keepsPorts_ports rfl
    exact hwaits.trans (exec_keepsPorts h)

/-- Settles O57: by what each command does to the ports' records, and by counting the keys an event set can hold. -/
theorem stepKeepsPortsLegal : Obligations.StepKeepsPortsLegal := by
  refine ⟨fun s t g h => (step_keepsPorts h).legal g, fun P hlegal => ?_, fun s t g h => (step_keepsPorts h).hold g⟩
  obtain ⟨hevents, -⟩ := hlegal
  exact events_length_le hevents

end Sys2Proof.Machine

/-! # Events, faults and what the outbound link sends (spec/08 R137 to R148; spec/10 R163 to R165, R169, Tables 10-1 to
10-6) -/

namespace Sys2Proof.Machine

open Sys2Proof

/-! ## A raise (R137, R139) -/

section

variable {P : PortState} {it old : Item} {before after l : List Item}

/-- The item with the same key is replaced where it stands (R139, step 3). -/
theorem raiseInto_split (hold : it.sameKey old = true) (hbefore : ∀ e ∈ before, it.sameKey e = false)
    (hafter : ∀ e ∈ after, it.sameKey e = false) : raiseInto it (before ++ old :: after) = before ++ it :: after := by
  have hother {side : List Item} (h : ∀ e ∈ side, it.sameKey e = false) :
      side.map (fun e => if it.sameKey e then it else e) = side :=
    (List.map_congr_left fun e he => by simp [h e he]).trans (List.map_id side)
  have hany : (before ++ old :: after).any it.sameKey = true := by simp [hold]
  rw [raiseInto, if_pos hany, List.map_append, List.map_cons, hother hbefore, hother hafter, if_pos hold]

/-- Without an item of the key the item goes to the end (R139, step 4). -/
theorem raiseInto_new (h : ∀ e ∈ l, it.sameKey e = false) : raiseInto it l = l ++ [it] := by
  have hany : l.any it.sameKey = false := List.any_eq_false.mpr fun e he => by simp [h e he]
  simp [raiseInto, hany]

/-- A raise of an item the port does not subscribe to has no effect (R139, step 2). -/
theorem raise_unwanted (h : it.wanted P = false) : P.raise it = P := by simp [PortState.raise, h]

theorem raise_wanted (hin : P.inContact = true) (h : it.wanted P = true) :
    P.raise it = { P with events := raiseInto it P.events } := by simp [PortState.raise, hin, h]

theorem raise_new (hin : P.inContact = true) (h : it.wanted P = true) (hnew : ∀ e ∈ P.events, it.sameKey e = false) :
    P.raise it = { P with events := P.events ++ [it] } := by rw [raise_wanted hin h, raiseInto_new hnew]

theorem wanted_of_subscribed (hrev : ∀ v, it = .revision v → P.subRev = true) (hfault : it = .fault → P.subFault = true) :
    it.wanted P = true := by
  cases it with
  | revision v => exact hrev v rfl
  | fault => exact hfault rfl
  | grant | yield | revoked | notice | editExpired => rfl

end

/-- Settles O37: by contact and subscription, and then by whether an item of the key is in the set. -/
theorem raiseKeepsOneItemPerKey : Obligations.RaiseKeepsOneItemPerKey := by
  intro P it
  refine ⟨fun haway => raise_away it (inContact_of_away haway), ?_, ?_, fun hin hrev hfault => ?_⟩
  · rintro v rfl hsub
    exact raise_unwanted hsub
  · rintro rfl hsub
    exact raise_unwanted hsub
  · have hwanted := wanted_of_subscribed hrev hfault
    refine ⟨fun before old after hevents hold hbefore hafter => ?_, raise_new (inContact_of hin) hwanted⟩
    rw [raise_wanted (inContact_of hin) hwanted, hevents, raiseInto_split hold hbefore hafter]

/-! ## A fault record (R146, R147) -/

section

variable {P : PortState} {r : FaultRecord}

theorem keepRecord_room (h : P.faults.length < 8) : P.keepRecord r = { P with faults := P.faults ++ [r] } := if_pos h

theorem keepRecord_lost (h : 8 ≤ P.faults.length) (hlost : P.lost < 255) :
    P.keepRecord r = { P with lost := P.lost + 1 } := by
  have hfull : ¬ P.faults.length < Config.faultRoom := Nat.not_lt.mpr h
  rw [PortState.keepRecord, if_neg hfull, if_pos hlost]

/-- The lost count stays at 255 (R146, step 3). -/
theorem keepRecord_saturated (h : 8 ≤ P.faults.length) (hlost : P.lost = 255) : P.keepRecord r = P := by
  have hfull : ¬ P.faults.length < Config.faultRoom := Nat.not_lt.mpr h
  rw [PortState.keepRecord, if_neg hfull, if_neg (by omega)]

theorem record_eq_raise (h : P.inContact = true) : P.record r = (P.keepRecord r).raise .fault := if_pos h

theorem record_away (h : P.inContact = false) : P.record r = P := by simp [PortState.record, h]

end

/-- Settles O38: by contact, the room of the list and the room of the lost count. -/
theorem faultRecordIsKeptOrCounted : Obligations.FaultRecordIsKeptOrCounted := by
  intro P r
  refine ⟨fun haway => record_away (inContact_of_away haway), fun hin => ?_⟩
  rw [record_eq_raise (inContact_of hin)]
  exact ⟨fun hroom => by rw [keepRecord_room hroom], fun hfull hlost => by rw [keepRecord_lost hfull hlost],
    fun hfull hlost => by rw [keepRecord_saturated hfull hlost]⟩

/-! ## FAULT_TAKE (R148) -/

section

variable {P : PortState} {x : FaultRecord} {rest : List FaultRecord}

theorem takeFault_cons (h : P.faults = x :: rest) : P.takeFault = { P with
    faults := rest, lost := 0
    events := if rest = [] then P.events.filter (fun e => !(Item.fault).sameKey e) else P.events } := by
  unfold PortState.takeFault PortState.withdraw
  cases rest with
  | nil => simp [h]
  | cons y rest => simp [h]

theorem takeFault_nil (h : P.faults = []) : P.takeFault = { P with
    lost := 0, events := P.events.filter (fun e => !(Item.fault).sameKey e) } := by
  simp [PortState.takeFault, PortState.withdraw, h]

/-- The taking of a record and the response touch different parts of the port's record. -/
theorem takeFault_respond (P : PortState) (y : Response) : P.takeFault.respond y = (P.respond y).takeFault := by
  unfold PortState.takeFault
  dsimp only [PortState.respond]
  split <;> rfl

theorem onPort_takeFault_respond (s : State) (p : Port) (y : Response) :
    (s.onPort p (·.takeFault)).respond p y = (s.respond p y).onPort p (·.takeFault) := by
  simp only [State.respond, onPort_onPort, takeFault_respond]

end

section

variable {s : State} {p : Port} {r : Request}

theorem faultTake_record {x : FaultRecord} {rest : List FaultRecord} (h : (s.port p).faults = x :: rest) :
    s.faultTake p r = (s.respond p (r.response .ok (.faultTaken x (s.port p).lost))).onPort p (·.takeFault) := by
  rw [State.faultTake, h]
  exact onPort_takeFault_respond ..

theorem faultTake_empty (h : (s.port p).faults = []) :
    s.faultTake p r = (s.respond p (r.response .empty (.noFault (s.port p).lost))).onPort p (·.takeFault) := by
  rw [State.faultTake, h]
  exact onPort_takeFault_respond ..

end

theorem exec_faultTake (p : Port) (tag : Byte) (s : State) : exec (.faultTake p tag) s =
    .next (s.request p { tag := tag, op := .faultTake } fun t => t.faultTake p { tag := tag, op := .faultTake }) := rfl

/-- An answer leaves a port's fault list and lost count alone. -/
theorem answeredNow_faults (s : State) (p : Port) (x : Response) :
    ((s.answeredNow p x).port p).faults = (s.port p).faults := by simp [State.answeredNow]

/-- Settles O36: by whether the list holds a record. -/
theorem faultTakeAnswers : Obligations.FaultTakeAnswers := by
  intro p tag
  refine ⟨sessionAndTagChecksComeFirst _ _ _ rfl rfl, fun s h => ?_⟩
  rw [exec_faultTake, request_ready _ h]
  have hanswered : ∀ x : Response, x.tag = tag → (s.takenOpen p tag).respond p x = s.answeredNow p x :=
    fun x hx => takenOpen_respond x h hx
  have hfaults : ((s.takenOpen p tag).port p).faults = (s.port p).faults := by rw [takenOpen_port_same]
  have hlost : ((s.takenOpen p tag).port p).lost = (s.port p).lost := by rw [takenOpen_port_same]
  refine ⟨fun x rest hlist => ?_, fun hlist => ?_⟩
  · rw [faultTake_record (hfaults.trans hlist), hanswered _ rfl, hlost, State.onPort,
      takeFault_cons ((answeredNow_faults ..).trans hlist)]
    rfl
  · rw [faultTake_empty (hfaults.trans hlist), hanswered _ rfl, hlost, State.onPort,
      takeFault_nil ((answeredNow_faults ..).trans hlist)]
    rfl

/-! ## SUBSCRIBE (R143, R144, R169) -/

/-! ### The bytes of its value -/

/-- A value's four bytes are sent in their order (Table 10-7). -/
theorem be32_valueOf (b0 b1 b2 b3 : Byte) : be32 (valueOf b0 b1 b2 b3) = [b0, b1, b2, b3] := by
  have hbyte {x : Word} {n : Nat} {b : Byte} (h : ∀ i, i < 8 → x.getLsbD (n + i) = b.getLsbD i) :
      x.extractLsb' n 8 = b := BitVec.eq_of_getLsbD_eq fun i hi => by simp [hi, h i hi]
  simp only [be32, valueOf, List.cons.injEq, and_true]
  refine ⟨hbyte fun i hi => ?_, hbyte fun i hi => ?_, hbyte fun i hi => ?_, hbyte fun i hi => ?_⟩
  all_goals
    simp only [BitVec.getLsbD_append]
    repeat' split
    all_goals congr 1 <;> omega

theorem flagByteOk_iff (b : Byte) : flagByteOk b = true ↔ b.toNat ≤ 1 := by
  simp only [flagByteOk, Bool.or_eq_true, beq_iff_eq, ← BitVec.toNat_inj, BitVec.toNat_ofNat]
  omega

theorem subscribeOk_iff (v : Word) : subscribeOk v = true ↔ ∀ b ∈ be32 v, b.toNat ≤ 1 := by
  simp [subscribeOk, be32, flagByteOk_iff, and_assoc]

theorem flagByte_le (b : Bool) : (flagByte b).toNat ≤ 1 := by cases b <;> decide

theorem flagByte_eq_one (b : Bool) : (flagByte b == 1#8) = b := by cases b <;> rfl

theorem portByte_toNat (p : Port) : (portByte p).toNat = p.val :=
  (BitVec.toNat_ofNat ..).trans (Nat.mod_eq_of_lt (p.isLt.trans (by decide)))

theorem eq_portByte_iff {index : Byte} {p : Port} : index = portByte p ↔ index.toNat = p.val := by
  rw [← BitVec.toNat_inj, portByte_toNat]

/-! ### A flag takes a value (R144) -/

/-- The event set when the REVISION flag takes a value: its item goes when the flag goes from yes to no. -/
def PortState.eventsRev (rev : Bool) (P : PortState) : List Item :=
  if P.subRev = true ∧ rev = false then P.events.filter (fun it => !it.sameKey (.revision 0#16)) else P.events

/-- An event set when the FAULT flag takes a value: its item is raised when the flag goes from no to yes and there is
something to report, and goes when the flag goes from yes to no. -/
def PortState.eventsFault (fault : Bool) (l : List Item) (P : PortState) : List Item :=
  if fault = P.subFault then l
  else if fault = true then
    if P.inContact = true ∧ (P.faults ≠ [] ∨ 0 < P.lost) then raiseInto .fault l else l
  else l.filter (fun it => !it.sameKey .fault)

/-- The event set after both flags have taken their values. -/
def PortState.eventsWith (rev fault : Bool) (P : PortState) : List Item := P.eventsFault fault (P.eventsRev rev)

section

variable {P : PortState} {it : Item} {l : List Item} {rev fault : Bool}

theorem setSubRev_eq (rev : Bool) (P : PortState) :
    P.setSubRev rev = { P with subRev := rev, events := P.eventsRev rev } := by
  unfold PortState.setSubRev PortState.eventsRev
  cases P.subRev <;> cases rev <;> simp [PortState.withdraw, sameKey_comm]

theorem setSubFault_eq (fault : Bool) (P : PortState) :
    P.setSubFault fault = { P with subFault := fault, events := P.eventsFault fault P.events } := by
  unfold PortState.setSubFault PortState.eventsFault
  cases hflag : P.subFault <;> cases fault
  · simp
  · by_cases hreport : P.faults ≠ [] ∨ 0 < P.lost
    · have hcontact : ({ P with subFault := true } : PortState).inContact = P.inContact := rfl
      by_cases hin : P.inContact = true <;> simp [PortState.raise, Item.wanted, hreport, hcontact, hin]
    · simp [hreport]
  · simp [PortState.withdraw, sameKey_comm]
  · simp

/-- The flags and the event set are all that changes. -/
theorem subscribe_eq {value : Word} {x y : Byte} (h : be32 value = [flagByte rev, flagByte fault, x, y])
    (P : PortState) : P.subscribe value =
      { P with subRev := rev, subFault := fault, events := P.eventsWith rev fault } := by
  simp only [be32, List.cons.injEq] at h
  obtain ⟨hrev, hfault, -⟩ := h
  rw [PortState.subscribe, hrev, hfault, flagByte_eq_one, flagByte_eq_one, setSubFault_eq, setSubRev_eq]
  rfl

theorem mem_eventsRev_other (h : it.sameKey (.revision 0#16) = false) : it ∈ P.eventsRev rev ↔ it ∈ P.events := by
  unfold PortState.eventsRev
  split
  · simp [h]
  · rfl

theorem mem_eventsFault_other (h : it.sameKey .fault = false) : it ∈ P.eventsFault fault l ↔ it ∈ l := by
  unfold PortState.eventsFault
  split
  · rfl
  · split
    · split
      · exact mem_raiseInto_other (sameKey_comm it .fault ▸ h) l
      · rfl
    · simp [h]

theorem eventsWith_fault_same (h : fault = P.subFault) : P.eventsWith rev fault = P.eventsRev rev := if_pos h

theorem eventsRev_same (h : ¬ (P.subRev = true ∧ rev = false)) : P.eventsRev rev = P.events := if_neg h

theorem mem_eventsWith_other (hrev : it.sameKey (.revision 0#16) = false) (hfault : it.sameKey .fault = false) :
    it ∈ P.eventsWith rev fault ↔ it ∈ P.events :=
  (mem_eventsFault_other hfault).trans (mem_eventsRev_other hrev)

/-- REVISION items stay while the flag does not go from yes to no. -/
theorem revision_mem_eventsWith (h : ¬ (P.subRev = true ∧ rev = false)) (v : Half) :
    .revision v ∈ P.eventsWith rev fault ↔ .revision v ∈ P.events := by
  rw [PortState.eventsWith, mem_eventsFault_other (by rfl), eventsRev_same h]

theorem eventsWith_no_revision (h : P.subRev = true) (hit : it ∈ P.eventsWith false fault) :
    it.sameKey (.revision 0#16) = false := by
  by_contra hkey
  have hrevision : it.key = .revision := (sameKey_iff _ _).mp (by simpa using hkey)
  have hfault : it.sameKey .fault = false := (sameKey_false _ _).mpr (by rw [hrevision]; simp [Item.key])
  rw [PortState.eventsWith, mem_eventsFault_other hfault, PortState.eventsRev, if_pos ⟨h, rfl⟩] at hit
  exact hkey (by simpa using (List.mem_filter.mp hit).2)

theorem fault_not_mem_eventsWith (h : P.subFault = true) : .fault ∉ P.eventsWith rev false := by
  simp [PortState.eventsWith, PortState.eventsFault, h, Item.sameKey]

theorem fault_mem_eventsWith (hin : P.inContact = true) (h : P.subFault = false)
    (hreport : P.faults ≠ [] ∨ 0 < P.lost) : .fault ∈ P.eventsWith rev true := by
  have hraised : P.eventsWith rev true = raiseInto .fault (P.eventsRev rev) := by
    simp [PortState.eventsWith, PortState.eventsFault, h, hin, hreport]
  exact hraised ▸ self_mem_raiseInto _ _

theorem fault_mem_eventsWith_quiet (h : P.subFault = false) (hfaults : P.faults = []) (hlost : P.lost = 0) :
    .fault ∈ P.eventsWith rev true ↔ .fault ∈ P.events := by
  have hquiet : P.eventsWith rev true = P.eventsRev rev := by
    simp [PortState.eventsWith, PortState.eventsFault, h, hfaults, hlost]
  exact hquiet ▸ mem_eventsRev_other (by rfl)

end

/-! ### CONFIG_WRITE of the item (R169) -/

section

variable {s : State} {p : Port} {r : Request} {index : Byte} {value : Word}

theorem writeSubscribe_foreign (h : index.toNat ≠ p.val) :
    s.writeSubscribe p r index value = s.respond p (r.response .badArg .empty) :=
  if_pos (mt eq_portByte_iff.mp h)

theorem writeSubscribe_illFormed (h : index.toNat = p.val) (hv : ∃ b ∈ be32 value, 1 < b.toNat) :
    s.writeSubscribe p r index value = s.respond p (r.response .badArg .empty) := by
  have hbad : ¬ subscribeOk value = true := fun hok => by
    obtain ⟨b, hb, hlt⟩ := hv
    exact absurd ((subscribeOk_iff value).mp hok b hb) (Nat.not_le.mpr hlt)
  rw [State.writeSubscribe, if_neg (not_not.mpr (eq_portByte_iff.mpr h)), if_neg hbad]

theorem writeSubscribe_sets (h : index.toNat = p.val) (hv : ∀ b ∈ be32 value, b.toNat ≤ 1) :
    s.writeSubscribe p r index value = (s.onPort p (·.subscribe value)).respond p
      (r.response .ok (.config 8#8 index ((s.port p).subscribe value).subscribeValue)) := by
  rw [State.writeSubscribe, if_neg (not_not.mpr (eq_portByte_iff.mpr h)), if_pos ((subscribeOk_iff value).mpr hv)]

/-- The port's record when a ready request that sets the flags has been answered. -/
def PortState.subscribed (rev fault : Bool) (x : Response) (P : PortState) : PortState :=
  { P with
    intake := P.intake.tail, places := P.places + 1, begun := P.arriving, respQ := P.respQ ++ [x]
    subRev := rev, subFault := fault, events := P.eventsWith rev fault }

/-- A ready request that sets the flags changes only its port's record. -/
theorem takenOpen_subscribed {rev fault : Bool} {b2 b3 : Byte} {x : Response} (h : s.ready p r = true)
    (hvalue : be32 value = [flagByte rev, flagByte fault, b2, b3]) (hx : x.tag = r.tag) :
    ((s.takenOpen p r.tag).onPort p (·.subscribe value)).respond p x =
      s.setPort p ((s.port p).subscribed rev fault x) := by
  simp only [State.respond, State.takenOpen, onPort_setPort, subscribe_eq hvalue, PortState.respond, hx,
    tags_entered_freed _ _ (ready_tag_new h)]
  rfl

end

theorem exec_configWriteSubscribe (p : Port) (tag index : Byte) (value : Word) (s : State) :
    exec (.configWriteSubscribe p tag index value) s =
      .next (s.request p { tag := tag, op := .configWrite 8#8 index value } fun t =>
        t.writeSubscribe p { tag := tag, op := .configWrite 8#8 index value } index value) := rfl

/-- Settles O42: by the checks, and then by which of the two flags change and which way. -/
theorem subscribeWriteAnswers : Obligations.SubscribeWriteAnswers := by
  intro p tag index value s h
  rw [exec_configWriteSubscribe, request_ready _ h]
  dsimp only
  have hanswered : ∀ x : Response, x.tag = tag → (s.takenOpen p tag).respond p x = s.answeredNow p x :=
    fun x hx => takenOpen_respond x h hx
  refine ⟨fun hforeign => ?_, fun hown hbad => ?_, fun rev fault x y hown hvalue hx hy => ?_⟩
  · rw [writeSubscribe_foreign hforeign, hanswered _ rfl]
    rfl
  · rw [writeSubscribe_illFormed hown hbad, hanswered _ rfl]
    rfl
  · have hok : ∀ b ∈ be32 value, b.toNat ≤ 1 := by simp [hvalue, flagByte_le, hx, hy]
    have hin : (s.port p).inContact = true := inContact_of (.inl (ready_session h))
    have hheld : (((s.takenOpen p tag).port p).subscribe value).subscribeValue =
        valueOf (flagByte rev) (flagByte fault) 0#8 0#8 := by rw [subscribe_eq hvalue]; rfl
    rw [writeSubscribe_sets hown hok, hheld, takenOpen_subscribed h hvalue rfl]
    refine ⟨_, valueOf (flagByte rev) (flagByte fault) 0#8 0#8, rfl, be32_valueOf .., fun q hq =>
      State.port_setPort_ne s _ hq, ?_⟩
    rw [State.port_setPort_same]
    refine ⟨rfl, rfl, fun hrev hfault => ?_, eventsWith_fault_same, fun hrev => revision_mem_eventsWith (by simp [hrev]),
      fun it => mem_eventsWith_other, ?_, ?_, ?_, ?_, ?_⟩
    · exact (eventsWith_fault_same hfault).trans (eventsRev_same (by simp [hrev]))
    · rintro hsub rfl it hit
      exact eventsWith_no_revision hsub hit
    · rintro rfl
      exact revision_mem_eventsWith (by simp)
    · rintro hsub rfl
      exact fault_not_mem_eventsWith hsub
    · rintro hsub rfl hreport
      exact fault_mem_eventsWith hin hsub hreport
    · rintro hsub rfl hfaults hlost
      exact fault_mem_eventsWith_quiet hsub hfaults hlost

end Sys2Proof.Machine

/-! # What the outbound link sends (spec/08 R138, R141, R142; spec/07 R130; spec/09 R157; spec/10 R163 to R165, Tables
10-1 to 10-6) -/

namespace Sys2Proof.Machine

open Sys2Proof

section

variable {s : State} {p : Port} {P : PortState}

theorem sends_of (hrun : s.running = true) (hup : (s.port p).link = .up) : s.sends p = true := by
  simp [State.sends, hrun, hup]

/-! ## SEND_EVENT (R130, R138, R141) -/

theorem exec_sendEvent (hsends : s.sends p = true) (hempty : (s.port p).respQ = [])
    (hin : (s.port p).inContact = true) : exec (.sendEvent p) s = .next (s.setPort p (s.port p).sendItem) := by
  have hgoes : (s.sends p && (s.port p).respQ.isEmpty && (s.port p).inContact) = true := by simp [hsends, hempty, hin]
  exact congrArg _ (if_pos hgoes)

/-- An item whose payload was fixed when it was raised. -/
theorem sendItem_fixed {it : Item} {rest : List Item} (hevents : P.events = it :: rest) (hnotice : it ≠ .notice)
    (hfault : it ≠ .fault) :
    P.sendItem = { P with events := rest, tx := some (eventFrame it.code it.bytes).wire } := by
  unfold PortState.sendItem
  rw [hevents]
  cases it with
  | notice => exact absurd rfl hnotice
  | fault => exact absurd rfl hfault
  | grant | yield | revoked | revision | editExpired => rfl

/-- A FAULT event carries the counts as they stand at its sending (R138, R147). -/
theorem sendItem_fault {rest : List Item} (hevents : P.events = .fault :: rest) : P.sendItem = { P with
    events := rest, tx := some (eventFrame 0xC6#8 (faultCounts P.faults.length P.lost)).wire } := by
  unfold PortState.sendItem
  rw [hevents]
  rfl

theorem sendItem_notice {rest : List Item} (hevents : P.events = .notice :: rest) :
    P.sendItem = ({ P with events := rest } : PortState).sendNotice := by
  unfold PortState.sendItem
  rw [hevents]

/-- A NOTICE event carries the oldest undelivered entry and marks it; with another one left the item is raised again
(R130). -/
theorem sendNotice_split {before after : List Notice} {n : Notice} (hin : P.inContact = true)
    (hnotices : P.notices = before ++ n :: after) (hbefore : ∀ m ∈ before, m.delivered = true)
    (hn : n.delivered = false) (hno : .notice ∉ P.events) : P.sendNotice = { P with
      events := if ∃ m ∈ after, m.delivered = false then P.events ++ [.notice] else P.events
      notices := before ++ { n with delivered := true } :: after
      tx := some (eventFrame 0xC3#8 n.bytes).wire } := by
  have hfound : P.notices.find? (fun n => !n.delivered) = some n :=
    find_split _ hnotices (fun m hm => by simp [hbefore m hm]) (by simp [hn])
  have hleft : (before ++ { n with delivered := true } :: after).any (fun m => !m.delivered) = true ↔
      ∃ m ∈ after, m.delivered = false := by
    have hnone : before.any (fun m => !m.delivered) = false :=
      List.any_eq_false.mpr fun m hm => by simp [hbefore m hm]
    simp [hnone]
  have hnew : ∀ e ∈ P.events, Item.sameKey .notice e = false := fun e he => by
    cases e with
    | notice => exact absurd he hno
    | _ => rfl
  unfold PortState.sendNotice
  rw [hfound]
  dsimp only
  rw [hnotices, deliverFirst_split _ _ _ hbefore hn]
  by_cases hmore : ∃ m ∈ after, m.delivered = false
  · rw [if_pos (hleft.mpr hmore), if_pos hmore]
    exact raise_new hin rfl hnew
  · rw [if_neg (mt hleft.mp hmore), if_neg hmore]

end

/-- Settles O11: by the kind of the oldest item; the bytes are those of the item's own definition. -/
theorem eventIsSent : Obligations.EventIsSent := by
  refine ⟨fun p s it rest hrun hup hempty hin hevents => ?_, fun _ _ => ⟨rfl, rfl, rfl, rfl, rfl, rfl, rfl⟩,
    fun _ _ _ _ _ _ _ _ => ⟨rfl, rfl, rfl, rfl, rfl, rfl, rfl, rfl, rfl, rfl, rfl, rfl, rfl, rfl⟩, rfl, fun _ => rfl,
    fun _ => rfl⟩
  have hcontact := inContact_of hin
  rw [exec_sendEvent (sends_of hrun hup) hempty hcontact]
  refine ⟨fun hnotice hfault => by rw [sendItem_fixed hevents hnotice hfault], ?_, ?_⟩
  · rintro rfl
    rw [sendItem_fault hevents]
  · rintro before after n rfl hnotices hbefore hn hno
    rw [sendItem_notice hevents,
      sendNotice_split (P := { s.port p with events := rest }) hcontact hnotices hbefore hn hno]

/-! ## SEND_RESPONSE (R92, R141, R157) -/

section

variable {s : State} {p : Port} {P : PortState} {r : Response} {rest : List Response}

theorem exec_sendResponse (hsends : s.sends p = true) :
    exec (.sendResponse p) s = .next (s.setPort p (s.port p).sendResponse) := congrArg _ (if_pos hsends)

theorem sendResponse_first (hqueue : P.respQ = r :: rest) (h : r.isLeaveOk = false ∨ P.session ≠ .leaving) :
    P.sendResponse = P.sendFirst r := by
  have hstays : (r.isLeaveOk && P.session == .leaving) = false := by
    rcases h with h | h <;> simp [h]
  unfold PortState.sendResponse
  rw [hqueue]
  dsimp only
  rw [hstays]
  rfl

theorem sendResponse_leaves (hqueue : P.respQ = r :: rest) (hok : r.isLeaveOk = true) (hs : P.session = .leaving) :
    P.sendResponse = (P.sendFirst r).goOffline := by
  unfold PortState.sendResponse
  rw [hqueue]
  dsimp only
  rw [hok, hs]
  rfl

theorem sendFirst_eq (hqueue : P.respQ = r :: rest) :
    P.sendFirst r = { P with respQ := rest, places := P.places - 1, tx := some r.frame.wire } := by
  rw [PortState.sendFirst, hqueue]
  rfl

end

/-! ## The header of a response's frame (R164, R165) -/

/-- Bit 7 set on a kind below 0x80 adds 0x80 to it. -/
theorem toNat_or_bit7 {b : Byte} (h : b.toNat < 128) : (b ||| 0x80#8).toNat = b.toNat + 128 := by
  have hadd := Nat.two_pow_add_eq_or_of_lt (i := 7) h 1
  rw [BitVec.toNat_or, Nat.or_comm]
  exact (hadd.symm.trans (Nat.add_comm _ _))

/-- Bit 7 stands already in a kind of 0x80 or above. -/
theorem or_bit7_same {b : Byte} (h : 128 ≤ b.toNat) : b ||| 0x80#8 = b := by
  have hlow : b.toNat - 128 < 2 ^ 7 := by have := b.isLt; omega
  have hsplit : b.toNat = 128 ||| (b.toNat - 128) := by
    have hadd : 128 + (b.toNat - 128) = 128 ||| (b.toNat - 128) := Nat.two_pow_add_eq_or_of_lt hlow 1
    omega
  refine BitVec.eq_of_toNat_eq ?_
  calc (b ||| 0x80#8).toNat = b.toNat ||| 128 := BitVec.toNat_or ..
    _ = 128 ||| (128 ||| (b.toNat - 128)) := by rw [Nat.or_comm, ← hsplit]
    _ = b.toNat := by rw [← Nat.or_assoc, Nat.or_self, ← hsplit]

theorem flagByte_cases (b : Bool) : flagByte b = 0#8 ∨ flagByte b = 1#8 := by cases b <;> simp [flagByte]

theorem flagByte_one_iff (b : Bool) : flagByte b = 1#8 ↔ b = true := by cases b <;> simp [flagByte]

/-- The two optional fields of R164. -/
theorem optionalPresent_iff (b : Body) : b.optionalPresent = true ↔ (∃ gen d, b = .renewed gen (some d)) ∨
    ∃ i d, b = .lockInfo i ∧ i.remaining = some d := by
  cases b with
  | renewed gen lease => simp [Body.optionalPresent, Option.isSome_iff_exists]
  | lockInfo i => simp [Body.optionalPresent, Option.isSome_iff_exists]
  | _ => simp [Body.optionalPresent]

/-! ## The bytes of a row record and of a lock record (Tables 10-3 and 10-4) -/

theorem toNat_append2 {w : Nat} (x : BitVec w) (y : BitVec 2) : (x ++ y).toNat = 4 * x.toNat + y.toNat := by
  rw [BitVec.toNat_append, ← Nat.shiftLeft_add_eq_or_of_lt y.isLt, Nat.shiftLeft_eq, Nat.mul_comm]

/-- The two bits of each port in the rights byte. -/
theorem rightsByte_bits (v : Vector Right 4) (q : Port) :
    (rightsByte v).toNat / 4 ^ q.val % 4 = (v.get q).code.toNat := by
  have hbits : (rightsByte v).toNat = 4 * (4 * (4 * (v.get 3).code.toNat + (v.get 2).code.toNat) +
      (v.get 1).code.toNat) + (v.get 0).code.toNat :=
    (toNat_append2 ((v.get 3).code ++ (v.get 2).code ++ (v.get 1).code) (v.get 0).code).trans
      (by rw [toNat_append2, toNat_append2])
  have hlt (x : Right) : x.code.toNat < 4 := x.code.isLt
  have h0 := hlt (v.get 0)
  have h1 := hlt (v.get 1)
  have h2 := hlt (v.get 2)
  have h3 := hlt (v.get 3)
  rw [hbits]
  fin_cases q
  · show _ / 1 % 4 = (v.get 0).code.toNat; omega
  · show _ / 4 % 4 = (v.get 1).code.toNat; omega
  · show _ / 16 % 4 = (v.get 2).code.toNat; omega
  · show _ / 64 % 4 = (v.get 3).code.toNat; omega

theorem rightCode_iff (x : Right) : (x = .none ↔ x.code.toNat = 0) ∧ (x = .read ↔ x.code.toNat = 1) ∧
    (x = .readWrite ↔ x.code.toNat = 2) := by cases x <;> simp [Right.code]

theorem rowBytes_eq (n : Row) (c : RowRecord) : rowBytes n c = be16 (BitVec.ofNat 16 n.val) ++
    [if c.valid then 1#8 else 0#8, if c.cls = .device then 1#8 else 0#8] ++ be32 (BitVec.ofNat 32 c.frame.toNat) ++
    [rightsByte c.rights, if c.posting then 1#8 else 0#8, (c.guard.map (fun k => BitVec.ofNat 8 k.val)).getD 0xFF#8,
      0#8] := by
  have hcls : c.cls.code = if c.cls = .device then 1#8 else 0#8 := by cases c.cls <;> rfl
  have hframe : c.frame.setWidth 32 = BitVec.ofNat 32 c.frame.toNat := (BitVec.ofNat_toNat 32 c.frame).symm
  have hguard : guardByte c.guard = (c.guard.map (fun k => BitVec.ofNat 8 k.val)).getD 0xFF#8 := by
    cases c.guard <;> rfl
  rw [rowBytes, hcls, hframe, hguard]
  rfl

/-- Four queue places are always sent (log 12). -/
theorem queuePlaces (l : List Port) : [portByteOr l[0]?, portByteOr l[1]?, portByteOr l[2]?, portByteOr l[3]?] =
    (l.map (fun p => BitVec.ofNat 8 p.val) ++ List.replicate 4 0xFF#8).take 4 := by
  rcases l with _ | ⟨a, _ | ⟨b, _ | ⟨c, _ | ⟨d, l⟩⟩⟩⟩ <;> rfl

theorem lockInfo_bytes (i : LockInfo) : (Body.lockInfo i).bytes =
    [i.state.code, (i.holder.map (fun p => BitVec.ofNat 8 p.val)).getD 0xFF#8] ++
      (i.owner.map be16).getD [0xFF#8, 0xFF#8] ++ [(i.prev.map (fun p => BitVec.ofNat 8 p.val)).getD 0xFF#8] ++
      be16 i.gen ++ [BitVec.ofNat 8 i.queue.length] ++
      (i.queue.map (fun p => BitVec.ofNat 8 p.val) ++ List.replicate 4 0xFF#8).take 4 ++
      [if i.faultSeen then 1#8 else 0#8, i.cause.code] ++
      (i.remaining.map (fun d => be16 (BitVec.ofNat 16 d))).getD [0xFF#8, 0xFF#8] := by
  rw [← queuePlaces]
  simp only [Body.bytes, LockInfo.bytes, List.append_assoc, List.cons_append, List.nil_append]
  rfl

/-- Settles O10: by whether the response is the OK to LEAVE of a LEAVING port; the bytes are those of the body's own
definition, but for a row's rights and a lock's queue, which the model spells otherwise. -/
theorem responseIsSent : Obligations.ResponseIsSent := by
  refine ⟨fun p s r rest hrun hup hqueue => ?_, fun r => ?_, rfl, rfl, rfl, rfl, rfl, fun _ => rfl, fun _ => rfl, rfl,
    fun p n x y tag item index rev gen seq value data sub st lk cause a b lost => ?_, fun n c rev staged => ?_,
    lockInfo_bytes⟩
  · rw [exec_sendResponse (sends_of hrun hup)]
    refine ⟨fun hstays => ?_, fun hok hleaving => ?_⟩
    · rw [sendResponse_first hqueue hstays, sendFirst_eq hqueue]
    · rw [sendResponse_leaves hqueue hok hleaving, sendFirst_eq hqueue]
      rfl
  · exact ⟨toNat_or_bit7, or_bit7_same, rfl, rfl, flagByte_cases _, (flagByte_one_iff _).trans (optionalPresent_iff _),
      rfl, rfl, rfl⟩
  · exact ⟨rfl, rfl, rfl, rfl, rfl, rfl, rfl, rfl, rfl, rfl, rfl, rfl, rfl, rfl, rfl, rfl, rfl, rfl, rfl, rfl, rfl, rfl,
      rfl, rfl, rfl, rfl, rfl, rfl⟩
  · refine ⟨rightsByte c.rights, by rw [Body.bytes, rowBytes_eq]; rfl, fun q => ?_⟩
    rw [rightsByte_bits]
    exact rightCode_iff _

end Sys2Proof.Machine

/-! # Sessions without a departure, and device reset (spec/09 R152 to R154, R161) -/

namespace Sys2Proof.Machine

open Sys2Proof

/-! ## The commands of the pins and the links -/

section

variable (s : State) (p : Port)

theorem exec_linkUp : exec (.linkUp p) s = .next (s.setPort p { s.port p with link := .up }) := rfl

theorem exec_linkDown : exec (.linkDown p) s = .next (s.linkFalls p) := rfl

theorem exec_deviceReset : exec .deviceReset s = .next { s.toReset with resetN := false } := rfl

theorem exec_supplyOrRefclkLoss : exec .supplyOrRefclkLoss s = .next { s.toReset with powerGood := false } := rfl

theorem exec_resetRelease : exec .resetRelease s = .next { s with resetN := true, powerGood := true } := rfl

theorem exec_hello (tag revision fault : Byte) : exec (.hello p tag revision fault) s =
    .next (if s.takes p { tag := tag, op := .hello revision fault } then
      (s.taken p).takeHello p { tag := tag, op := .hello revision fault } revision fault else s) := rfl

end

/-! ## A link-state signal that falls (R152) -/

section

variable {s : State} {p : Port}

theorem linkFalls_down (h : (s.port p).link = .down) : s.linkFalls p = s := by
  unfold State.linkFalls
  rw [h]

/-- In device reset only the level changes (log 27). -/
theorem linkFalls_in_reset (h : s.running = false) :
    s.linkFalls p = s.setPort p { s.port p with link := .down } := by
  cases hlink : (s.port p).link with
  | down => rw [linkFalls_down hlink, ← hlink, setPort_port]
  | up => simp only [State.linkFalls, hlink, h]; rfl

theorem linkFalls_away (hup : (s.port p).link = .up) (hrun : s.running = true)
    (haway : (s.port p).inContact = false) :
    s.linkFalls p = s.setPort p { (s.port p).discardQueues with link := .down } := by
  simp only [State.linkFalls, hup, hrun, haway]
  rfl

theorem linkFalls_reached (hup : (s.port p).link = .up) (hrun : s.running = true)
    (hcontact : (s.port p).inContact = true) : s.linkFalls p = s.linkLossEvent p := by
  simp only [State.linkFalls, hup, hrun, hcontact]
  rfl

end

/-- Settles O8: by the link's state and the session, each case an equation of linkFalls. -/
theorem linkChangesWithoutSession : Obligations.LinkChangesWithoutSession := by
  intro p s
  refine ⟨exec_linkUp s p, fun hup hrun hs => ?_, fun hdown => ?_⟩
  · rw [exec_linkDown, linkFalls_away hup hrun (inContact_of_away hs)]
    rfl
  · rw [exec_linkDown, linkFalls_down hdown]

/-! ## The reset values (R161) -/

theorem port_toReset (s : State) (p : Port) : s.toReset.port p = PortState.reset (s.port p).link := by
  fin_cases p <;> rfl

theorem slot_toReset (s : State) (n : SlotNo) : s.toReset.slot n = { issueNo := 0#8, job := none } := by
  simp [State.toReset, State.reset, State.slot, Vector.get_eq_getElem]

/-- The reset values do not depend on the pins. -/
theorem resetValues_toReset (s : State) (resetN powerGood : Bool) :
    resetValues s { s.toReset with resetN := resetN, powerGood := powerGood } := by
  refine ⟨port_toReset s, fun r => ?_, rfl, rfl, lock_toReset s, slot_toReset s, rfl, rfl, rfl⟩
  have hrow : State.row { s.toReset with resetN := resetN, powerGood := powerGood } r = .reset := row_toReset s r
  rw [hrow]
  exact ⟨rfl, rfl, rfl, fun p => by simp [RowRecord.reset, Vector.get_eq_getElem], rfl, rfl⟩

/-- Settles O60: State.reset is a device reset of itself, and a reset part has the invariants. -/
theorem resetStateIsLegal : Obligations.ResetStateIsLegal := by
  have hvalues : resetValues State.reset State.reset := resetValues_toReset State.reset true true
  refine ⟨hvalues, rfl, fun p => by fin_cases p <;> rfl, rfl, ?_, mapLegal_toReset State.reset,
    fun p => ⟨portsLegal_toReset (s := State.reset) p, holdLegal_of_empty ?_⟩, fun k => ?_,
    (noticesLegal_iff _).mpr (noticesLegal_reset (s := State.reset) State.reset rfl)⟩
  · simp [ConfigTable.inRange, State.reset, ConfigTable.reset]
  · rw [hvalues.1 p]
  · exact locksLegal_reset (s := State.reset) State.reset rfl k

/-! ## The quiet while the part is in device reset, and its end (R161, R172) -/

section

variable {s : State}

theorem takes_in_reset (h : s.running = false) (p : Port) (r : Request) : s.takes p r = false := by
  simp [State.takes, h]

theorem receives_in_reset (h : s.running = false) (p : Port) : s.receives p = false := by simp [State.receives, h]

theorem sends_in_reset (h : s.running = false) (p : Port) : s.sends p = false := by simp [State.sends, h]

theorem exec_frameReceipt_in_reset (h : s.running = false) (p : Port) (bytes : List Byte) :
    exec (.frameReceipt p bytes) s = .next s := by
  simp only [exec, execFrameReceipt, receives_in_reset h]
  split <;> rfl

theorem exec_sendResponse_in_reset (h : s.running = false) (p : Port) : exec (.sendResponse p) s = .next s := by
  simp [exec, execSendResponse, sends_in_reset h]

theorem exec_sendEvent_in_reset (h : s.running = false) (p : Port) : exec (.sendEvent p) s = .next s := by
  simp [exec, execSendEvent, sends_in_reset h]

theorem exec_slotArbiterRun_in_reset (h : s.running = false) : exec .slotArbiterRun s = .next s := by
  rw [exec_slotArbiterRun, if_neg (by simp [h])]

/-- After the end of a reset nothing stands in the way of a frame but a link that is DOWN (R165, R172). -/
theorem receives_resetValues {s t : State} (h : resetValues s t) {p : Port} (hup : (s.port p).link = .up) :
    State.receives { t with resetN := true, powerGood := true } p = true := by
  have hport : State.port { t with resetN := true, powerGood := true } p = t.port p := rfl
  simp [State.receives, State.running, PortState.hasRoom, hport, h.1 p, hup, Config.intakeRoom, Config.responsePlaces]

end

/-- Settles O3: the reset values, each kind of command that has no effect in reset, and what stands at its end. -/
theorem deviceReset : Obligations.DeviceReset := by
  refine ⟨fun s => ⟨_, exec_deviceReset s, resetValues_toReset s false s.powerGood, rfl, rfl⟩,
    fun s => ⟨_, exec_supplyOrRefclkLoss s, resetValues_toReset s s.resetN false, rfl, rfl⟩,
    fun s p f slot issue data h => ?_, fun s c p r h hc => exec_not_taken hc (takes_in_reset h p r),
    fun s p h => ⟨exec_linkUp s p, by rw [exec_linkDown, linkFalls_in_reset h]⟩, exec_resetRelease,
    fun s t u p hvalues hu => ?_⟩
  · obtain ⟨hdone, herror, hretry⟩ := exec_reply_ignored data (answered_off h slot issue)
    exact ⟨exec_frameReceipt_in_reset h p f, exec_sendResponse_in_reset h p, exec_sendEvent_in_reset h p,
      exec_slotArbiterRun_in_reset h, hdone, herror, hretry⟩
  · cases hu
    have hlink : (t.port p).link = (s.port p).link := by rw [hvalues.1 p]
    exact ⟨rfl, hlink, fun hup => receives_resetValues hvalues (hlink.symm.trans hup)⟩

/-! ## HELLO in each session state (R90, R153, R154) -/

section

variable {s : State} {p : Port} {tag revision fault : Byte}

/-- The HELLO a command names. -/
def helloRequest (tag revision fault : Byte) : Request := { tag := tag, op := .hello revision fault }

/-- A HELLO that its intake takes goes on by the session state. -/
theorem exec_hello_taken (h : s.takes p (helloRequest tag revision fault) = true) :
    exec (.hello p tag revision fault) s =
      .next ((s.taken p).takeHello p (helloRequest tag revision fault) revision fault) := by
  rw [exec_hello, ← helloRequest, if_pos h]

theorem taken_port (s : State) (p : Port) : (s.taken p).port p = (s.port p).takeHead := State.port_onPort_same ..

theorem taken_answer (s : State) (p : Port) (x : Response) :
    (s.taken p).onPort p (·.answer x) = s.answeredNow p x := by
  rw [State.taken, onPort_onPort]
  rfl

/-- The tag check of a request that was just taken: above the range (R90). -/
theorem tagCheck_above {r : Request} (go : State → State) (h : 31 < r.tag.toNat) :
    (s.taken p).tagCheck p r go = s.answeredNow p (r.response .badArg .empty) := by
  rw [State.tagCheck, if_pos h, taken_answer]

/-- Outstanding already (R90). -/
theorem tagCheck_used {r : Request} (go : State → State) (hle : r.tag.toNat ≤ 31) (h : r.tag ∈ (s.port p).tags) :
    (s.taken p).tagCheck p r go = s.onPort p (fun P =>
      ({ P with intake := P.intake.tail, begun := P.arriving }).record (.duplicateTag r.tag)) := by
  rw [State.tagCheck, if_neg (by omega), if_pos (by rw [taken_port]; exact h), State.taken, onPort_onPort]
  rfl

/-- Entered in the tag table (R90). -/
theorem tagCheck_new {r : Request} (go : State → State) (hle : r.tag.toNat ≤ 31) (h : r.tag ∉ (s.port p).tags) :
    (s.taken p).tagCheck p r go = go (s.takenOpen p r.tag) := by
  rw [State.tagCheck, if_neg (by omega), if_neg (by rw [taken_port]; exact h), State.taken, onPort_onPort]
  rfl

theorem response_tag (r : Request) (status : Status) (body : Body) : (r.response status body).tag = r.tag := rfl

/-- Answered at once, the tag just entered leaves the table again (R91). -/
theorem takenOpen_answered {r : Request} (h : r.tag ∉ (s.port p).tags) (status : Status) (body : Body) :
    (s.takenOpen p r.tag).respond p (r.response status body) = s.answeredNow p (r.response status body) := by
  rw [State.respond, State.takenOpen, onPort_setPort, State.answeredNow, PortState.respond,
    response_tag, tags_entered_freed _ _ h]

theorem takeHello_offline (h : (s.port p).session = .offline) (r : Request) (revision fault : Byte) :
    (s.taken p).takeHello p r revision fault = (s.taken p).helloOffline p r revision fault := by
  have hsession : ((s.taken p).port p).session = .offline := by rw [taken_port]; exact h
  simp only [State.takeHello, hsession]

theorem takeHello_online (h : (s.port p).session = .online) (r : Request) (revision fault : Byte) :
    (s.taken p).takeHello p r revision fault = (s.taken p).tagCheck p r
      (fun t => t.respond p (r.response .already (.session p (t.port p).sessionNo))) := by
  have hsession : ((s.taken p).port p).session = .online := by rw [taken_port]; exact h
  simp only [State.takeHello, hsession]

theorem takeHello_leaving (h : (s.port p).session = .leaving) (r : Request) (revision fault : Byte) :
    (s.taken p).takeHello p r revision fault = s.answeredNow p (r.response .departing .empty) := by
  have hsession : ((s.taken p).port p).session = .leaving := by rw [taken_port]; exact h
  simp only [State.takeHello, hsession, taken_answer]

theorem takeHello_closing (h : (s.port p).session = .closing) (r : Request) (revision fault : Byte) :
    (s.taken p).takeHello p r revision fault = (s.taken p).placeHold p r := by
  have hsession : ((s.taken p).port p).session = .closing := by rw [taken_port]; exact h
  simp only [State.takeHello, hsession]

/-- OFFLINE and ONLINE have the tag check first (R90, R153, R154). -/
theorem takeHello_checked (h : (s.port p).session = .offline ∨ (s.port p).session = .online) (r : Request)
    (revision fault : Byte) : ∃ go : State → State,
      (s.taken p).takeHello p r revision fault = (s.taken p).tagCheck p r go := by
  rcases h with h | h
  · exact ⟨_, takeHello_offline h r revision fault⟩
  · exact ⟨_, takeHello_online h r revision fault⟩

/-- A subscription field that is neither yes nor no (R153). -/
theorem helloFields_bad (t : State) (r : Request) (h : 1 < revision.toNat ∨ 1 < fault.toNat) :
    t.helloFields p r revision fault = t.respond p (r.response .badArg .empty) := by
  refine if_neg ?_
  rw [Bool.and_eq_true, flag_iff, flag_iff]
  omega

theorem helloFields_good (t : State) (r : Request) (hrevision : revision.toNat ≤ 1) (hfault : fault.toNat ≤ 1) :
    t.helloFields p r revision fault = t.startSession p r revision fault :=
  if_pos (by rw [Bool.and_eq_true, flag_iff, flag_iff]; exact ⟨hrevision, hfault⟩)

/-- The start of a session by a HELLO that was just taken (R153). -/
theorem startSession_takenOpen {r : Request} (h : r.tag ∉ (s.port p).tags) (revision fault : Byte) :
    (s.takenOpen p r.tag).startSession p r revision fault = s.setPort p { s.port p with
      intake := (s.port p).intake.tail
      places := (s.port p).places + 1
      begun := (s.port p).arriving
      session := .online
      sessionNo := (s.port p).sessionNo + 1
      writeSeq := 0#32
      watermark := 0#32
      subRev := revision == 1#8
      subFault := fault == 1#8
      respQ := (s.port p).respQ ++
        [r.response .ok (.welcome p ((s.port p).sessionNo + 1) s.revision 0x54#8 0x12#8)] } := by
  simp only [State.startSession, State.welcome, State.respond, State.takenOpen, onPort_setPort, PortState.respond,
    State.port_setPort_same, State.revision_setPort, response_tag, tags_entered_freed _ _ h]
  rfl

end

/-- Settles O6: by the session state and the tag check, each way through an equation of its own. -/
theorem helloAnswers : Obligations.HelloAnswers := by
  intro p tag revision fault s htakes
  rw [← helloRequest] at htakes
  rw [exec_hello_taken htakes]
  refine ⟨fun hs htag => ?_, fun hs htag hused => ?_, fun hs htag hnew hbad => ?_,
    fun hs htag hnew hrevision hfault => ?_, fun hs htag hnew => ?_, fun hs => ?_, fun hs => ?_⟩
  · obtain ⟨go, hgo⟩ := takeHello_checked hs (helloRequest tag revision fault) revision fault
    rw [hgo, tagCheck_above go htag]
    rfl
  · obtain ⟨go, hgo⟩ := takeHello_checked hs (helloRequest tag revision fault) revision fault
    rw [hgo, tagCheck_used go htag hused]
    rfl
  · rw [takeHello_offline hs, State.helloOffline, tagCheck_new _ htag hnew, helloFields_bad _ _ hbad,
      takenOpen_answered hnew]
    rfl
  · rw [takeHello_offline hs, State.helloOffline, tagCheck_new _ htag hnew, helloFields_good _ _ hrevision hfault,
      startSession_takenOpen hnew]
    rfl
  · rw [takeHello_online hs, tagCheck_new _ htag hnew, takenOpen_port_same, takenOpen_answered hnew]
    rfl
  · rw [takeHello_leaving hs]
    rfl
  · rw [takeHello_closing hs, State.placeHold, State.taken, onPort_onPort]
    rfl

end Sys2Proof.Machine

/-! # What a departure does to the locks (spec/03 R53, R57, R66, R67; spec/04 R77, R79) -/

namespace Sys2Proof.Machine

open Sys2Proof

/-! ## The tasks of a departure at a port's record -/

section

variable {s : State} {p : Port}

theorem firedPorts_endGrant (s : State) (k : Lock) (p : Port) (tag : Option Byte) :
    FiredPorts s (s.endGrant k p tag) := by
  unfold State.endGrant
  dsimp only
  split
  · exact FiredPorts.trans (t := s.setLock k _) (firedPorts_ports rfl) (firedPorts_handoff _ k)
  · exact firedPorts_ports rfl

theorem firedPorts_releaseByLeave (s : State) (k : Lock) : FiredPorts s (s.releaseByLeave k) := by
  unfold State.releaseByLeave
  split
  · exact firedPorts_endGrant _ _ _ _
  · exact .refl s

theorem firedPorts_revoke (s : State) (k : Lock) (reason : BreakCause) : FiredPorts s (s.revoke k reason) := by
  unfold State.revoke
  split
  · refine FiredPorts.trans ?_ (firedPorts_endGrant _ _ _ _)
    have hlock : FiredPorts s (s.setLock k { s.lock k with cause := (s.lock k).revokedCause reason }) :=
      firedPorts_ports rfl
    split
    · exact hlock
    · exact hlock.trans (firedPorts_raise _ _ fun _ => rfl)
  · exact .refl s

/-- Every part of an event but a commit's completion makes of a port what fired watches do. -/
theorem firedPorts_task (s : State) (p : Port) {x : Task} (h : x ≠ .commit) : FiredPorts s (s.runTask p x) := by
  cases x with
  | handoff k => exact firedPorts_handoff s k
  | note => exact firedPorts_fireNextNote s p
  | commit => exact absurd rfl h
  | revoke k => exact firedPorts_revoke s k .departed
  | release k => exact firedPorts_releaseByLeave s k

theorem served_anyTask (s : State) (p q : Port) (x : Task) : (s.port q).ServedTo ((s.runTask p x).port q) := by
  by_cases h : x = .commit
  · subst h
    exact served_completeCommit s q
  · exact (firedPorts_task s p h q).served

end

/-! ## The record of a lock whose grant ends -/

/-- The record of a lock when the grant of port p ends unasked, being l before: handed off when no write of the port is
uncompleted, and RELEASING with a watch on its last write otherwise (R56, R57, R79, R98). -/
def State.grantEnded (s : State) (p : Port) (l : LockRecord) : LockRecord :=
  if watermarkReaches (s.port p).watermark (s.port p).writeSeq = true then s.passedOn l
  else { l with phase := .releasing { prev := p, watch := (s.port p).writeSeq, tag := none } }

section

variable {s u : State} {p : Port} {k : Lock} {l : LockRecord}

theorem grantEnded_reached (h : watermarkReaches (s.port p).watermark (s.port p).writeSeq = true) :
    s.grantEnded p l = s.passedOn l := if_pos h

theorem grantEnded_waits (h : watermarkReaches (s.port p).watermark (s.port p).writeSeq = false) :
    s.grantEnded p l = { l with phase := .releasing { prev := p, watch := (s.port p).writeSeq, tag := none } } :=
  if_neg (by simp [h])

/-- The phase of a lock that is passed on does not matter. -/
theorem passedOn_phase (s : State) (l : LockRecord) (phase : LockPhase) :
    s.passedOn { l with phase := phase } = s.passedOn l := rfl

theorem lock_endGrant (s : State) (k : Lock) (p : Port) :
    (s.endGrant k p none).lock k = s.grantEnded p (s.lock k) := by
  cases h : watermarkReaches (s.port p).watermark (s.port p).writeSeq with
  | false => rw [endGrant_waits s k p none h, grantEnded_waits h]
  | true =>
    have hphase : ((s.setLock k { s.lock k with
        phase := .releasing { prev := p, watch := (s.port p).writeSeq, tag := none } }).lock k).phase =
        .releasing { prev := p, watch := (s.port p).writeSeq, tag := none } := by rw [State.lock_setLock_same]
    rw [grantEnded_reached h, State.endGrant, if_pos h, lock_handoff hphase, State.lock_setLock_same, passedOn_phase]
    exact passedOn_congr rfl _

theorem lock_releaseByLeave (h : s.holds p k = true) :
    (s.releaseByLeave k).lock k = s.grantEnded p (s.lock k) := by
  obtain ⟨holder, hk, rfl⟩ := holds_iff.mp h
  simp only [State.releaseByLeave, hk]
  exact lock_endGrant s k holder.port

theorem lock_revoke_departed (h : s.holds p k = true) : (s.revoke k .departed).lock k =
    s.grantEnded p { s.lock k with cause := (s.lock k).revokedCause .departed } := by
  obtain ⟨holder, hk, rfl⟩ := holds_iff.mp h
  simp only [State.revoke, hk, if_true]
  rw [lock_endGrant, State.lock_setLock_same]
  rfl

theorem queue_passedOn (s : State) (l : LockRecord) : (s.passedOn l).queue = l.queue.tail := by
  unfold State.passedOn
  split
  next hq => rw [hq]; rfl
  next e rest hq => rw [hq]; rfl

theorem mem_queue_grantEnded {e : WaitEntry} (h : e ∈ (s.grantEnded p l).queue) : e ∈ l.queue := by
  unfold State.grantEnded at h
  split at h
  · rw [queue_passedOn] at h
    exact List.mem_of_mem_tail h
  · exact h

/-- What the port's own numbers and the configuration settle. -/
theorem grantEnded_congr (hmark : (u.port p).watermark = (s.port p).watermark)
    (hseq : (u.port p).writeSeq = (s.port p).writeSeq) (hconfig : u.config = s.config) :
    u.grantEnded p l = s.grantEnded p l := by
  rw [State.grantEnded, State.grantEnded, hmark, hseq, passedOn_congr hconfig]

end

/-! ## The locks after a departure -/

/-- The part after the tasks of a departure, one for each lock held, and the removal of the port's wait entries. -/
def State.locksLeft (s : State) (p : Port) (mk : Lock → Task) (extra : List Task) : State :=
  (s.runTasks p ((s.heldLocks p).map mk ++ extra)).removeWaits p

/-- A departing port has left every lock: its grants have ended, f telling what the end of one does to the record first,
and its wait entries are gone (R53, R66, R67). -/
structure LocksLeft (p : Port) (f : LockRecord → LockRecord) (s t : State) : Prop where
  nobody : ∀ k, t.holds p k = false ∧ ∀ e ∈ (t.lock k).queue, e.port ≠ p
  held : ∀ k, s.holds p k = true → t.lock k = s.grantEnded p (f (s.lock k))
  other : ∀ k, s.holds p k = false → t.lock k = (s.lock k).withoutWait p

section

variable {s : State} {p : Port} {mk : Lock → Task} {extra : List Task} {on : Port → Prop}

theorem mem_departure_tasks (d : EndsGrants p mk) (he : extra = [] ∨ extra = [.commit]) {k : Lock} :
    mk k ∈ (s.heldLocks p).map mk ++ extra ↔ s.holds p k = true :=
  ((grantsLeft_init (p := p) d s extra he).2.2 k).symm

/-- A lock the port does not hold is left alone by the tasks. -/
theorem lock_runTasks_other (d : EndsGrants p mk) (he : extra = [] ∨ extra = [.commit]) {k : Lock}
    (hk : s.holds p k = false) : (s.runTasks p ((s.heldLocks p).map mk ++ extra)).lock k = s.lock k := by
  obtain ⟨hperm, hfresh⟩ := arranged_tasks s ((s.heldLocks p).map mk ++ extra)
  obtain ⟨-, hkinds, -⟩ := grantsLeft_init (p := p) d s extra he
  rw [State.runTasks, lock_foldl_other d _ (fun x hx => hkinds x (hperm.mem_iff.mp hx)), hfresh]
  · rfl
  · rw [hperm.mem_iff, mem_departure_tasks d he, hk]
    simp

/-- The task of a lock the port holds ends its grant, whatever the order. -/
theorem lock_runTasks_held (d : EndsGrants p mk) (he : extra = [] ∨ extra = [.commit]) {f : LockRecord → LockRecord}
    (hf : ∀ (u : State) (k : Lock), u.holds p k = true → (u.runTask p (mk k)).lock k = u.grantEnded p (f (u.lock k)))
    (hw : (s.port p).hold = none ∨ (s.port p).session = .leaving) {k : Lock} (hk : s.holds p k = true) :
    (s.runTasks p ((s.heldLocks p).map mk ++ extra)).lock k = s.grantEnded p (f (s.lock k)) := by
  obtain ⟨hperm, hfresh⟩ := arranged_tasks s ((s.heldLocks p).map mk ++ extra)
  obtain ⟨hnodup, hkinds, -⟩ := grantsLeft_init (p := p) d s extra he
  obtain ⟨u, ⟨hserved, hconfig⟩, hsame, hresult⟩ := lock_foldl_once d
    (fun u => (s.port p).ServedTo (u.port p) ∧ u.config = s.config) _
    (fun x _ u hu => ⟨hu.1.trans (served_anyTask u p p x), (device_config (device_runTask p u x)).trans hu.2⟩)
    (hperm.nodup_iff.mpr hnodup) (fun x hx => hkinds x (hperm.mem_iff.mp hx)) (s.arranged _).2
    ⟨.refl _, rfl⟩ k (hperm.mem_iff.mpr ((mem_departure_tasks d he).mpr hk))
  obtain ⟨-, -, hseq⟩ := hserved.work hw
  have hlock : u.lock k = s.lock k := hsame
  have hheld : u.holds p k = true := by unfold State.holds at hk ⊢; rw [hlock]; exact hk
  rw [State.runTasks, hresult, hf u k hheld, hlock, grantEnded_congr (steady_watermark hserved.steady) hseq hconfig]

/-- The holder of a legal lock: it may hold it, does not wait for it, and no break cause stands (R48, R63). -/
theorem legalFor_held {l : LockRecord} {h : Holder} (g : LockRecord.legalFor on l) (hphase : l.phase = .held h) :
    on h.port ∧ (∀ e ∈ l.queue, e.port ≠ h.port) ∧ l.cause = .none := by
  obtain ⟨-, -, hlegal⟩ := g
  rw [hphase] at hlegal
  exact ⟨hlegal.1, hlegal.2.1, hlegal.2.2.1⟩

/-- No queue of a legal lock names its holder. -/
theorem holder_not_waiting (g : LocksLegalFor on s) {k : Lock} (hk : s.holds p k = true) :
    ∀ e ∈ (s.lock k).queue, e.port ≠ p := by
  obtain ⟨h, hphase, rfl⟩ := holds_iff.mp hk
  exact (legalFor_held (g k) hphase).2.1

theorem cause_of_held (g : LocksLegalFor on s) {k : Lock} (hk : s.holds p k = true) : (s.lock k).cause = .none := by
  obtain ⟨h, hphase, rfl⟩ := holds_iff.mp hk
  exact (legalFor_held (g k) hphase).2.2

theorem locksLeft (d : EndsGrants p mk) (he : extra = [] ∨ extra = [.commit]) {f : LockRecord → LockRecord}
    (hf : ∀ (u : State) (k : Lock), u.holds p k = true → (u.runTask p (mk k)).lock k = u.grantEnded p (f (u.lock k)))
    (hqueue : ∀ l, (f l).queue = l.queue) (hw : (s.port p).hold = none ∨ (s.port p).session = .leaving)
    (g : LocksLegalFor on s) : LocksLeft p f s (s.locksLeft p mk extra) := by
  have gleft := locksLegalFor_departed d s extra he g
  have grun := locksLegalFor_runTasks (p := p) (l := (s.heldLocks p).map mk ++ extra) g
  refine ⟨fun k => ⟨?_, fun e hin => ?_⟩, fun k hk => ?_, fun k hk => ?_⟩
  · rw [← Bool.not_eq_true, holds_iff]
    rintro ⟨h, hphase, hport⟩
    obtain ⟨⟨-, hne⟩, -⟩ := legalFor_held (gleft k) hphase
    exact hne hport
  · exact ((gleft k).2.1 e hin).2
  · have hlock := lock_runTasks_held d he hf hw hk
    rw [State.locksLeft, lock_removeWaits, removeWaiter_none _ p (grun k), hlock]
    intro e hin
    rw [hlock] at hin
    have hmem := mem_queue_grantEnded hin
    rw [hqueue] at hmem
    exact holder_not_waiting g hk e hmem
  · rw [State.locksLeft, lock_removeWaits, lock_runTasks_other d he hk, removeWaiter_eq_withoutWait]

/-- A lock the port neither holds nor waits for is as it was. -/
theorem LocksLeft.untouched {f : LockRecord → LockRecord} {t : State} (h : LocksLeft p f s t)
    (g : LocksLegalFor on s) {k : Lock} (hk : s.holds p k = false) (hwait : ∀ e ∈ (s.lock k).queue, e.port ≠ p) :
    t.lock k = s.lock k := by
  rw [h.other k hk, ← removeWaiter_eq_withoutWait, removeWaiter_none _ p (g k) hwait]

/-- What is said of the locks before and after depends on nothing but the records named. -/
theorem LocksLeft.congr {f : LockRecord → LockRecord} {s' t t' : State} (h : LocksLeft p f s t)
    (hs : s'.locks = s.locks) (ht : t'.locks = t.locks) (hmark : (s'.port p).watermark = (s.port p).watermark)
    (hseq : (s'.port p).writeSeq = (s.port p).writeSeq) (hconfig : s'.config = s.config) : LocksLeft p f s' t' := by
  refine ⟨fun k => ?_, fun k hk => ?_, fun k hk => ?_⟩
  · rw [holds_of_locks ht, lock_of_locks ht]
    exact h.nobody k
  · rw [lock_of_locks ht, lock_of_locks hs, grantEnded_congr hmark hseq hconfig]
    exact h.held k (by rwa [← holds_of_locks hs])
  · rw [lock_of_locks ht, lock_of_locks hs]
    exact h.other k (by rwa [← holds_of_locks hs])

end

end Sys2Proof.Machine

/-! # A target's departure at the other ports and at its own (spec/07 R133, R134) -/

namespace Sys2Proof.Machine

open Sys2Proof

/-! ## The part when a target has departed, before a watch reached already fires -/

/-- A departing target's queue is emptied, its NOTICE item withdrawn, and every reservation toward it cancelled
(R133, R134). -/
def State.targetGone (s : State) (p : Port) : State :=
  State.cancelNotes (s.onPort p (fun P => ({ P with notices := [] }).withdraw .notice)) p

/-- The same in the target's own record. -/
def PortState.targetGone (p : Port) (P : PortState) : PortState :=
  PortState.cancelNotes p (({ P with notices := [] }).withdraw .notice)

section

variable {s : State} {p q : Port}

theorem departTarget_eq (s : State) (p : Port) :
    s.departTarget p = allPorts.foldl (fun t q => t.fireNotes q) (s.targetGone p) := rfl

theorem port_targetGone_same (s : State) (p : Port) :
    (s.targetGone p).port p = PortState.targetGone p (s.port p) := by
  rw [State.targetGone, port_cancelNotes, State.port_onPort_same]
  rfl

theorem port_targetGone_ne (h : q ≠ p) : (s.targetGone p).port q = PortState.cancelNotes p (s.port q) := by
  rw [State.targetGone, port_cancelNotes, State.port_onPort_ne _ _ h]

/-- What every firing of a NOTIFY keeps is so when those of every port have fired. -/
theorem departTarget_ind {C : State → Prop} (h : C (s.targetGone p))
    (hfire : ∀ (t : State) (q : Port), C t → C (t.fireNextNote q)) : C (s.departTarget p) := by
  have hone : ∀ (l : List Nat) (t : State) (q : Port), C t → C (l.foldl (fun t _ => t.fireNextNote q) t) := by
    intro l
    induction l with
    | nil => exact fun _ _ ht => ht
    | cons _ l ih => exact fun t q ht => ih _ q (hfire t q ht)
  have hall : ∀ (l : List Port) (t : State), C t → C (l.foldl (fun t q => t.fireNotes q) t) := by
    intro l
    induction l with
    | nil => exact fun _ ht => ht
    | cons q l ih => exact fun t ht => ih _ (hone _ t q ht)
  rw [departTarget_eq]
  exact hall _ _ h

theorem firedPorts_departTarget (s : State) (p : Port) : FiredPorts (s.targetGone p) (s.departTarget p) :=
  departTarget_ind (.refl _) fun t q ht => ht.trans (firedPorts_fireNextNote t q)

/-- Another port meets a target's departure as it meets fired watches. -/
theorem firedTo_departTarget (h : q ≠ p) : (s.port q).FiredTo ((s.departTarget p).port q) := by
  have hcancel : (s.port q).FiredTo (PortState.cancelNotes p (s.port q)) :=
    ⟨rfl, rfl, List.Subset.refl _, answered_same rfl, fun _ => Iff.rfl, id, fun _ => ⟨_, _, _, rfl⟩⟩
  have hfired := firedPorts_departTarget s p q
  rw [port_targetGone_ne h] at hfired
  exact hcancel.trans hfired

end

/-! ## A tag that no fired NOTIFY gives back (R91, R128) -/

section

variable {s t : State} {p q : Port} {tag : Byte} {w : Word}

theorem mem_tags_respondDue {x : Response} (h : tag ∈ (s.port p).tags) (hx : q = p → x.tag ≠ tag) :
    tag ∈ ((s.respondDue q x).port p).tags := by
  unfold State.respondDue
  split
  · rw [State.port_respond]
    split
    next hp => subst hp; exact List.mem_filter.mpr ⟨h, by simpa using (hx rfl).symm⟩
    · exact h
  · exact h

theorem tags_raise (s : State) (p q : Port) (it : Item) : ((s.raise q it).port p).tags = (s.port p).tags := by
  rw [State.port_raise]
  split
  next hp => subst hp; exact (kept_raise _ it).2.2.2
  · rfl

theorem tags_noteGone (s : State) (p q : Port) (n : Note) : ((s.noteGone q n).port p).tags = (s.port p).tags := by
  rw [State.noteGone, State.port_onPort]
  split
  next hp => subst hp; rfl
  · rfl

theorem tags_appended (s : State) (p q : Port) (n : Note) : ((s.appended q n).port p).tags = (s.port p).tags := by
  rw [State.appended, State.port_onPort]
  split
  next hp => rw [← hp]; exact tags_noteGone ..
  · exact tags_noteGone ..

theorem mem_tags_fireNote {n : Note} (h : tag ∈ (s.port p).tags) (hn : q = p → n.tag ≠ tag) :
    tag ∈ (((s.noteGone q n).fireNote q n).port p).tags := by
  have hx : q = p → (s.noteResponse n).tag ≠ tag := by rw [tag_noteResponse]; exact hn
  cases hcancelled : n.cancelled with
  | true =>
    rw [fireNote_cancelled hcancelled]
    exact mem_tags_respondDue (by rw [tags_noteGone]; exact h) hx
  | false =>
    rw [fireNote_live hcancelled, tags_raise]
    exact mem_tags_respondDue (by rw [tags_appended]; exact h) hx

/-- The tag of port p stays outstanding while its reached NOTIFYs fire: it is none of theirs. -/
structure TagStays (p : Port) (tag : Byte) (w : Word) (s : State) : Prop where
  outstanding : tag ∈ (s.port p).tags
  mark : (s.port p).watermark = w
  others : ∀ n ∈ (s.port p).notes, watermarkReaches w n.watched = true → n.tag ≠ tag

theorem notes_noteGone_subset (s : State) (p q : Port) (n : Note) :
    ((s.noteGone q n).port p).notes ⊆ (s.port p).notes := by
  rw [State.noteGone, State.port_onPort]
  split
  next hp => subst hp; exact fun _ hm => List.mem_of_mem_erase hm
  · exact List.Subset.refl _

/-- The firing of a NOTIFY that is out of its sender's record touches no other (R128, R134). -/
theorem notes_fireNote (s : State) (p q : Port) (n : Note) :
    (((s.noteGone q n).fireNote q n).port p).notes = ((s.noteGone q n).port p).notes := by
  cases hcancelled : n.cancelled with
  | true =>
    rw [fireNote_cancelled hcancelled]
    exact (book_parts (bookKept_respondDue _ q _ p)).1
  | false =>
    rw [fireNote_live hcancelled]
    have hbook := (bookKept_respondDue (s.appended q n) q (s.noteResponse n)).trans (bookKept_raise _ n.target .notice)
    exact (book_parts (hbook p)).1.trans (port_appended n p).1

theorem notes_fireNextNote_subset (s : State) (p q : Port) :
    ((s.fireNextNote q).port p).notes ⊆ (s.port p).notes := by
  unfold State.fireNextNote
  split
  next n _ =>
    have hnotes := notes_fireNote s p q n
    have hgone := notes_noteGone_subset s p q n
    rw [← hnotes] at hgone
    exact hgone
  · exact List.Subset.refl _

theorem TagStays.fireNextNote (h : TagStays p tag w s) (q : Port) : TagStays p tag w (s.fireNextNote q) := by
  refine ⟨?_, (kept_watermark (firedPorts_fireNextNote s q p).kept).trans h.mark,
    fun n hn => h.others n (notes_fireNextNote_subset s p q hn)⟩
  unfold State.fireNextNote
  split
  next n hfind =>
    refine mem_tags_fireNote h.outstanding fun hq => ?_
    subst hq
    obtain ⟨hreached, -⟩ := find_erase hfind
    exact h.others n (List.mem_of_find?_eq_some hfind) (by rw [← h.mark]; exact hreached)
  · exact h.outstanding

theorem TagStays.departTarget (h : TagStays p tag w s) : TagStays p tag w (s.departTarget p) := by
  refine departTarget_ind ⟨?_, ?_, fun n hn => ?_⟩ fun t q ht => ht.fireNextNote q
  · rw [port_targetGone_same]; exact h.outstanding
  · rw [port_targetGone_same]; exact h.mark
  · rw [port_targetGone_same] at hn
    obtain ⟨m, hm, rfl⟩ := List.mem_map.mp hn
    split <;> exact h.others m hm

end

end Sys2Proof.Machine

/-! # LEAVE (spec/09 R155, R156) -/

namespace Sys2Proof.Machine

open Sys2Proof

section

variable {s t : State} {p : Port} {tag : Byte}

/-- The part after its edit has met the departure of a port (R43, R44). -/
def State.editDeparts (s : State) (p : Port) (linkLoss : Bool) : State :=
  { s with edit := s.edit.departs p linkLoss }

theorem ports_editDeparts (s : State) (p : Port) (b : Bool) : (s.editDeparts p b).ports = s.ports := rfl
theorem locks_editDeparts (s : State) (p : Port) (b : Bool) : (s.editDeparts p b).locks = s.locks := rfl
theorem map_editDeparts (s : State) (p : Port) (b : Bool) : (s.editDeparts p b).map = s.map := rfl
theorem revision_editDeparts (s : State) (p : Port) (b : Bool) : (s.editDeparts p b).revision = s.revision := rfl
theorem device_editDeparts (s : State) (p : Port) (b : Bool) : (s.editDeparts p b).device = s.device := rfl
theorem edit_editDeparts (s : State) (p : Port) (b : Bool) : (s.editDeparts p b).edit = s.edit.departs p b := rfl

/-- The part as a ready LEAVE finds it, the session LEAVING now (R155). -/
def State.leaving (s : State) (p : Port) (tag : Byte) : State := (s.takenOpen p tag).onPort p (·.startLeave tag)

/-- The part when a LEAVE has released the port's locks. -/
def State.leftByLeave (s : State) (p : Port) (tag : Byte) : State := (s.leaving p tag).locksLeft p .release []

/-- The part when a LEAVE has discarded the port's OPEN edit and departed as a target too, before the session logic's tests
(R43, R133). -/
def State.departed (s : State) (p : Port) (tag : Byte) : State :=
  ((s.leftByLeave p tag).editDeparts p false).departTarget p

theorem exec_leave_ready (h : s.ready p { tag := tag, op := .leave } = true) :
    exec (.leave p tag) s = .next (s.departed p tag).sessionTests := by
  have hexec : exec (.leave p tag) s = .next (s.request p { tag := tag, op := .leave } (·.leaveEvent p tag)) := rfl
  rw [hexec, request_ready _ h]
  simp only [State.departed, State.leftByLeave, State.locksLeft, State.leaving, State.editDeparts,
    State.leaveEvent, List.append_nil]

/-! ## What a LEAVE leaves of the rest of the part -/

theorem port_leaving (s : State) (p : Port) (tag : Byte) : (s.leaving p tag).port p = { s.port p with
    intake := (s.port p).intake.tail, places := (s.port p).places + 1, begun := (s.port p).arriving
    tags := (s.port p).tags ++ [tag], session := .leaving
    pendingLeave := some { tag := tag, watch := (s.port p).writeSeq } } := by
  rw [State.leaving, State.port_onPort_same, takenOpen_port_same]
  rfl

theorem rest_leaving (s : State) (p : Port) (tag : Byte) : (s.leaving p tag).rest = s.rest := rfl

theorem rest_leftByLeave (s : State) (p : Port) (tag : Byte) : (s.leftByLeave p tag).rest = s.rest := by
  rw [State.leftByLeave, State.locksLeft, List.append_nil, rest_removeWaits, rest_runTasks_release, rest_leaving]

/-- The OPEN edit of the port is discarded; map, revision, pins, slots, pointer, bus and configuration stay (R43). -/
theorem rest_departed (s : State) (p : Port) (tag : Byte) :
    (s.departed p tag).edit = s.edit.departs p false ∧ (s.departed p tag).map = s.map ∧
      (s.departed p tag).revision = s.revision ∧ (s.departed p tag).device = s.device := by
  have htarget := rest_departTarget ((s.leftByLeave p tag).editDeparts p false) p
  have hrest := rest_leftByLeave s p tag
  rw [State.departed, rest_edit htarget, rest_map htarget, rest_revision htarget, rest_device htarget,
    edit_editDeparts, map_editDeparts, revision_editDeparts, device_editDeparts, rest_edit hrest]
  exact ⟨rfl, rest_map hrest, rest_revision hrest, rest_device hrest⟩

theorem locks_departed (s : State) (p : Port) (tag : Byte) :
    (s.departed p tag).locks = (s.leftByLeave p tag).locks := by
  rw [State.departed, locks_departTarget, locks_editDeparts]

/-- The locks after a LEAVE (R57, R66). -/
theorem locksLeft_leave (g : ∀ k, s.lockLegal k) (h : t.locks = (s.departed p tag).locks) : LocksLeft p id s t := by
  have glegal : LocksLegalFor (fun q => (s.port q).session = .online) (s.leaving p tag) :=
    locksLegalFor_of_locks (s := s) rfl ((locksLegal_iff s).mp g)
  have hleft := locksLeft (s := s.leaving p tag) (f := id) (endsGrants_release p) (.inl rfl)
    (fun u k => lock_releaseByLeave) (fun _ => rfl) (.inr (by rw [port_leaving])) glegal
  refine hleft.congr rfl (h.trans (locks_departed s p tag)) ?_ ?_ rfl <;> rw [port_leaving]

/-! ## What it leaves of the port's own record -/

theorem staysAt_locksLeft (s : State) {p : Port} {mk : Lock → Task} (hmk : ∀ k, mk k ≠ .commit) :
    StaysAt p s (s.locksLeft p mk []) := by
  refine (staysAt_runTasks p s p _ ?_).trans (staysAt_removeWaits p _ p)
  simp [hmk]

theorem staysAt_departed (s : State) (p : Port) (tag : Byte) : StaysAt p (s.leaving p tag) (s.departed p tag) :=
  ((staysAt_locksLeft _ (by simp)).trans (staysAt_ports (ports_editDeparts _ p false))).trans
    (staysAt_departTarget p _ p)

theorem inFlight_departed (s : State) (p : Port) (tag : Byte) : (s.departed p tag).inFlight p = s.inFlight p :=
  inFlight_slots (device_slots (rest_departed s p tag).2.2.2) p

/-- When the LEAVE response is due at the end of the LEAVE event (R156). -/
theorem leaveDue_departed (s : State) (p : Port) (tag : Byte) : (s.departed p tag).leaveDue p = true ↔
    watermarkReaches (s.port p).watermark (s.port p).writeSeq = true ∧ (s.port p).readL = [] ∧ s.inFlight p = 0 ∧
      ∀ x ∈ ((s.departed p tag).port p).tags, x = tag := by
  obtain ⟨⟨hkept, -⟩, hleave, -⟩ := staysAt_departed s p tag
  rw [port_leaving] at hkept hleave
  rw [leaveDue_iff hleave, kept_session hkept, kept_watermark hkept, kept_readL hkept, inFlight_departed]
  simp

/-! ## A tag that stays outstanding over a LEAVE (R91, R156) -/

theorem tags_releaseByLeave (s : State) (k : Lock) (q : Port) :
    ((s.releaseByLeave k).port q).tags = (s.port q).tags := by
  unfold State.releaseByLeave State.endGrant
  split
  next h _ =>
    have hphase : ∀ r : Releasing, ((s.setLock k { s.lock k with phase := .releasing r }).lock k).phase =
        .releasing r := fun r => by rw [State.lock_setLock_same]
    dsimp only
    split
    · exact (handoff_unanswered (hphase _) (.inr (.inl rfl))).2
    · rfl
  · rfl

theorem ports_removeWaits (s : State) (p : Port) : (s.removeWaits p).ports = s.ports :=
  foldl_keeps State.ports (fun t k => t.setLock k ((t.lock k).removeWaiter p)) (fun _ _ => rfl) _ _

theorem port_of_ports {s t : State} (h : t.ports = s.ports) (q : Port) : t.port q = s.port q := by
  rw [State.port, State.port, h]

section

variable {x : Byte} {w : Word}

theorem TagStays.of_ports (h : TagStays p x w s) (hports : t.ports = s.ports) : TagStays p x w t := by
  obtain ⟨hin, hmark, hothers⟩ := h
  rw [← port_of_ports hports p] at hin hmark hothers
  exact ⟨hin, hmark, hothers⟩

theorem TagStays.release (h : TagStays p x w s) (k : Lock) : TagStays p x w (s.releaseByLeave k) :=
  ⟨by rw [tags_releaseByLeave]; exact h.outstanding,
    (kept_watermark (firedPorts_releaseByLeave s k p).kept).trans h.mark,
    fun n hn => h.others n (by rwa [(sameNotices_releaseByLeave s k p).1] at hn)⟩

theorem TagStays.leftByLeave (h : TagStays p x w (s.leaving p tag)) : TagStays p x w (s.leftByLeave p tag) := by
  rw [State.leftByLeave, State.locksLeft, List.append_nil]
  refine TagStays.of_ports ?_ (ports_removeWaits _ p)
  refine runTasks_ind (C := TagStays p x w) p _ (fun u n hu => hu.of_ports rfl) (fun y hy u hu => ?_) _ h
  obtain ⟨k, -, rfl⟩ := List.mem_map.mp hy
  exact hu.release k

/-- A tag outstanding before the LEAVE that no reached NOTIFY has is outstanding after it. -/
theorem tag_departed (hx : x ∈ (s.port p).tags)
    (hothers : ∀ n ∈ (s.port p).notes, watermarkReaches (s.port p).watermark n.watched = true → n.tag ≠ x) :
    x ∈ ((s.departed p tag).port p).tags := by
  have hleaving : TagStays p x (s.port p).watermark (s.leaving p tag) := by
    refine ⟨?_, ?_, ?_⟩ <;> rw [port_leaving]
    · exact List.mem_append_left _ hx
    · exact hothers
  exact (hleaving.leftByLeave.of_ports (ports_editDeparts _ p false)).departTarget.outstanding

end

/-! ## The LEAVE response (R156) -/

theorem not_closing_departed (s : State) (p : Port) (tag : Byte) :
    ((s.departed p tag).port p).session ≠ .closing := by
  obtain ⟨⟨hkept, -⟩, -⟩ := staysAt_departed s p tag
  rw [kept_session hkept, port_leaving]
  simp

/-- The parts of the port's record that the whole event keeps. -/
theorem kept_leave (s : State) (p : Port) (tag : Byte) :
    ((s.departed p tag).sessionTests.port p).kept = ((s.leaving p tag).port p).kept :=
  (grownAt_sessionTests _ (not_closing_departed s p tag)).1.trans (staysAt_departed s p tag).1.1

/-- While the response is not due the LEAVE stays pending, and the tags are as before the tests. -/
theorem leave_pends (h : (s.departed p tag).leaveDue p = false) :
    ((s.departed p tag).sessionTests.port p).pendingLeave = some { tag := tag, watch := (s.port p).writeSeq } ∧
      ((s.departed p tag).sessionTests.port p).tags = ((s.departed p tag).port p).tags := by
  have hleave := (staysAt_departed s p tag).2.1
  rw [port_leaving] at hleave
  rw [port_sessionTests_open (not_closing_departed s p tag), leaveTest_not_due h]
  exact ⟨hleave, rfl⟩

/-- When it is due it is queued behind every other response of the event. -/
theorem leave_answers (h : (s.departed p tag).leaveDue p = true) :
    ((s.departed p tag).sessionTests.port p).pendingLeave = none ∧
      ∃ l, ((s.departed p tag).sessionTests.port p).respQ = (s.port p).respQ ++ l ++
        [{ code := 0x02#8, tag := tag, status := .ok, body := .left (s.port p).sessionNo (s.port p).writeSeq }] := by
  obtain ⟨⟨hkept, l, hgrown⟩, hleave, -⟩ := staysAt_departed s p tag
  rw [port_leaving] at hkept hgrown hleave
  rw [port_sessionTests_open (not_closing_departed s p tag), port_leaveTest_due hleave h]
  refine ⟨rfl, l, ?_⟩
  simp only [PortState.respond, PortState.leaveResponse, ← hgrown, kept_sessionNo hkept, kept_writeSeq hkept]

/-- Reads, pieces in flight or earlier writes keep the LEAVE pending. -/
theorem leave_pends_of_work (h : (s.port p).readL ≠ [] ∨ s.inFlight p ≠ 0 ∨
    watermarkReaches (s.port p).watermark (s.port p).writeSeq = false) :
    ((s.departed p tag).sessionTests.port p).pendingLeave = some { tag := tag, watch := (s.port p).writeSeq } := by
  refine (leave_pends ?_).1
  rw [← Bool.not_eq_true, leaveDue_departed]
  rintro ⟨hreached, hreads, hflight, -⟩
  rcases h with h | h | h
  · exact h hreads
  · exact h hflight
  · rw [hreached] at h; cases h

/-- So does another outstanding tag. -/
theorem leave_pends_of_tag {x : Byte} (hx : x ∈ (s.port p).tags) (hne : x ≠ tag)
    (hothers : ∀ n ∈ (s.port p).notes, watermarkReaches (s.port p).watermark n.watched = true → n.tag ≠ x) :
    x ∈ ((s.departed p tag).sessionTests.port p).tags ∧ ((s.departed p tag).sessionTests.port p).pendingLeave =
      some { tag := tag, watch := (s.port p).writeSeq } := by
  have hin := tag_departed (tag := tag) hx hothers
  have hno : (s.departed p tag).leaveDue p = false := by
    rw [← Bool.not_eq_true, leaveDue_departed]
    rintro ⟨-, -, -, hall⟩
    exact hne (hall x hin)
  obtain ⟨hpending, htags⟩ := leave_pends hno
  exact ⟨by rw [htags]; exact hin, hpending⟩

/-- With no work left and no tag outstanding the response is due at once. -/
theorem leaveDue_of_nothing (htags : (s.port p).tags = []) (hreads : (s.port p).readL = []) (hflight : s.inFlight p = 0)
    (hreached : watermarkReaches (s.port p).watermark (s.port p).writeSeq = true) :
    (s.departed p tag).leaveDue p = true := by
  have hsub := (staysAt_departed s p tag).2.2
  rw [port_leaving, htags] at hsub
  rw [leaveDue_departed]
  exact ⟨hreached, hreads, hflight, fun x hx => by simpa using hsub hx⟩

end

/-- Settles O7: the event up to the session logic's tests, its locks, its target's part and its LEAVE response each by the
lemmas above; the tests change nothing else of the port. -/
theorem leaveDeparts : Obligations.LeaveDeparts := by
  intro p tag s hready hlegal
  have glegal := (locksLegal_iff s).mp hlegal
  have hlocks : LocksLeft p id s (s.departed p tag).sessionTests := locksLeft_leave hlegal (locks_sessionTests _)
  have hkept := kept_leave s p tag
  rw [port_leaving] at hkept
  have hrest := rest_sessionTests (s.departed p tag)
  obtain ⟨hedit, hmap, hrevision, hdevice⟩ := rest_departed s p tag
  have hdevice' := (rest_device hrest).trans hdevice
  obtain ⟨hnotices, hitems, hnotes⟩ :=
    departedTarget_sessionTests _ (departedTarget_departTarget ((s.leftByLeave p tag).editDeparts p false) p)
  refine ⟨_, exec_leave_ready hready, kept_session hkept, kept_intake hkept, kept_places hkept, (kept_writeQ hkept :),
    (kept_readL hkept :), (kept_writeSeq hkept :), (kept_watermark hkept :), hlocks.nobody,
    fun k => hlocks.untouched glegal, hlocks.other, fun k hk hw => ?_, fun k hk hw => ?_, ?_, hnotices, fun it hit hnotice => hitems (hnotice ▸ hit),
    hnotes, leave_pends_of_work, fun x hx => ?_, fun htags hreads hflight hreached => ?_,
    (rest_map hrest).trans hmap, (rest_revision hrest).trans hrevision, device_slots hdevice', device_rr hdevice',
    device_config hdevice'⟩
  · rw [hlocks.held k hk, grantEnded_waits hw, id]
  · rw [hlocks.held k hk, grantEnded_reached hw, id]
  · rw [rest_edit hrest, hedit]
    cases s.edit <;> simp [Edit.departs]
  · refine leave_pends_of_tag hx ?_
    rintro rfl
    exact ready_tag_new hready hx
  · exact leave_answers (leaveDue_of_nothing htags hreads hflight hreached)

end Sys2Proof.Machine

/-! # Link loss: the port's record, the locks and the edit (spec/09 R158; spec/05 R104; spec/03 R67; spec/02 R36, R44) -/

namespace Sys2Proof.Machine

open Sys2Proof

/-! ## The steps of the link-loss event -/

/-- The part when the port's own record has met the loss of its link and the discarded reads have left the drain set
(R36, R104). -/
def State.linkLost (s : State) (p : Port) : State :=
  (s.onPort p (·.loseLink)).dropReads p ((s.port p).readL.filter (fun e => !e.survives))

/-- The completion of a commit whose drain set is empty, as a part of an event. -/
def State.dueCommit (s : State) : List Task := if s.commitDue then [.commit] else []

/-- The part when the port's grants are revoked and its wait entries gone. -/
def State.leftByLoss (s : State) (p : Port) : State := (s.linkLost p).locksLeft p .revoke (s.linkLost p).dueCommit

/-- The part when the port has departed as a target and a sender too, before the session logic's tests (R133, R135). -/
def State.cutOff (s : State) (p : Port) : State := (((s.leftByLoss p).editDeparts p true).departTarget p).dropNotes p

section

variable {s t : State} {p : Port}

theorem linkLossEvent_eq (s : State) (p : Port) : s.linkLossEvent p = (s.cutOff p).sessionTests := by
  unfold State.linkLossEvent State.cutOff State.leftByLoss State.locksLeft State.linkLost State.dueCommit
    State.editDeparts
  rfl

theorem dueCommit_cases (s : State) : s.dueCommit = [] ∨ s.dueCommit = [.commit] := by
  unfold State.dueCommit
  split <;> simp

/-! ## The reads and the drain set (R36, R104; log 25) -/

theorem survives_false_iff (e : ReadEntry) : e.survives = false ↔ ∀ x ∈ e.pieces, x.cond ≠ .inFlight := by
  simp [ReadEntry.survives]

theorem no_read_left_iff (P : PortState) : P.loseLink.readL = [] ↔
    ∀ e ∈ P.readL, ∀ x ∈ e.pieces, x.cond ≠ .inFlight := by
  simp only [PortState.loseLink, List.map_eq_nil_iff, List.filter_eq_nil_iff, Bool.not_eq_true, survives_false_iff]

theorem map_dropReads (s : State) (p : Port) (l : List ReadEntry) : (s.dropReads p l).map = s.map :=
  foldl_keeps State.map (fun t (e : ReadEntry) => t.leaveDrain p (.read e.tag)) (fun t _ => map_leaveDrain t ..) _ _

theorem revision_dropReads (s : State) (p : Port) (l : List ReadEntry) : (s.dropReads p l).revision = s.revision :=
  foldl_keeps State.revision (fun t (e : ReadEntry) => t.leaveDrain p (.read e.tag))
    (fun t _ => revision_leaveDrain t ..) _ _

theorem edit_dropReads_no_commit (h : ∀ c, s.edit ≠ .committing c) (p : Port) (l : List ReadEntry) :
    (s.dropReads p l).edit = s.edit := by
  unfold State.dropReads
  induction l with
  | nil => rfl
  | cons e l ih => rw [List.foldl_cons, leaveDrain_no_commit s p _ h, ih]

theorem edit_dropReads {c : CommitEdit} (h : s.edit = .committing c) (p : Port) (l : List ReadEntry) :
    (s.dropReads p l).edit = .committing { c with
      drain := c.drain.filter (fun d => decide (∀ e ∈ l, d ≠ { port := p, ref := .read e.tag })) } := by
  unfold State.dropReads
  induction l generalizing s c with
  | nil => simp [h]
  | cons e l ih =>
    rw [List.foldl_cons, ih (edit_leaveDrain s p _ h), List.filter_filter]
    congr 2
    refine List.filter_congr fun d _ => ?_
    rw [Bool.eq_iff_iff]
    simp [and_comm]

theorem port_linkLost_same (s : State) (p : Port) : (s.linkLost p).port p = (s.port p).loseLink := by
  rw [State.linkLost, port_of_ports (ports_dropReads ..), State.port_onPort_same]

theorem port_linkLost_ne {q : Port} (h : q ≠ p) : (s.linkLost p).port q = s.port q := by
  rw [State.linkLost, port_of_ports (ports_dropReads ..), State.port_onPort_ne _ _ h]

theorem locks_linkLost (s : State) (p : Port) : (s.linkLost p).locks = s.locks := by
  rw [State.linkLost, locks_dropReads, State.locks_onPort]

theorem device_linkLost (s : State) (p : Port) : (s.linkLost p).device = s.device := by
  rw [State.linkLost, device_dropReads, device_onPort]

theorem map_linkLost (s : State) (p : Port) : (s.linkLost p).map = s.map := by
  rw [State.linkLost, map_dropReads, State.map_onPort]

theorem revision_linkLost (s : State) (p : Port) : (s.linkLost p).revision = s.revision := by
  rw [State.linkLost, revision_dropReads, State.revision_onPort]

theorem edit_linkLost_no_commit (h : ∀ c, s.edit ≠ .committing c) (p : Port) : (s.linkLost p).edit = s.edit :=
  edit_dropReads_no_commit (s := s.onPort p (·.loseLink)) h p _

/-- The members of a drain set that the loss of a port's link leaves: all but its reads with no piece in flight. -/
def State.drainLeft (s : State) (p : Port) (c : CommitEdit) : List DrainRef :=
  c.drain.filter (fun d => decide (¬ (d.port = p ∧
    ∃ e ∈ (s.port p).readL, d.ref = .read e.tag ∧ ∀ x ∈ e.pieces, x.cond ≠ .inFlight)))

theorem edit_linkLost {c : CommitEdit} (h : s.edit = .committing c) (p : Port) :
    (s.linkLost p).edit = .committing { c with drain := s.drainLeft p c } := by
  rw [State.linkLost, edit_dropReads (s := s.onPort p (·.loseLink)) h, State.drainLeft]
  congr 2
  refine List.filter_congr fun d _ => decide_eq_decide.mpr ?_
  obtain ⟨q, ref⟩ := d
  simp only [List.mem_filter, Bool.not_eq_true', survives_false_iff, ne_eq, DrainRef.mk.injEq, not_and, not_exists]
  grind

/-! ## The port's own record (R104, R158) -/

/-- The tasks of a departure leave a CLOSING port that holds nothing as it is. -/
theorem port_locksLeft_revoke {extra : List Task} (he : extra = [] ∨ extra = [.commit])
    (hs : (s.port p).session = .closing) (hhold : (s.port p).hold = none) :
    (s.locksLeft p .revoke extra).port p = s.port p := by
  rw [State.locksLeft, port_of_ports (ports_removeWaits ..)]
  refine runTasks_ind (C := fun u => u.port p = s.port p) p _ (fun _ _ hu => hu) (fun x hx u hu => ?_) s rfl
  have haway : Away p u := by rw [Away, hu]; exact inContact_of_away (.inr hs)
  rcases List.mem_append.mp hx with hx | hx
  · obtain ⟨k, -, rfl⟩ := List.mem_map.mp hx
    exact Eq.trans (sameAt_revoke u k .departed haway) hu
  · obtain rfl : x = .commit := by
      rcases he with rfl | rfl
      · cases hx
      · exact List.mem_singleton.mp hx
    exact Eq.trans (sameAt_completeCommit u (by rw [hu, hs]) (by rw [hu, hhold])) hu

theorem port_leftByLoss (s : State) (p : Port) : (s.leftByLoss p).port p = (s.port p).loseLink := by
  have hport := port_linkLost_same s p
  rw [State.leftByLoss, port_locksLeft_revoke (dueCommit_cases _) (by rw [hport]; rfl) (by rw [hport]; rfl), hport]

/-- Before the session logic's tests the port's record is that of a lost link, its notifications gone. -/
theorem port_cutOff (s : State) (p : Port) : ∃ events number, (s.cutOff p).port p = { (s.port p).loseLink with
    events := events, notes := [], notices := [], noticeSeq := number } := by
  have hleft := (port_of_ports (ports_editDeparts (s.leftByLoss p) p true) p).trans (port_leftByLoss s p)
  obtain ⟨hnotices, -⟩ := departedTarget_departTarget ((s.leftByLoss p).editDeparts p true) p
  have hfired := firedPorts_departTarget ((s.leftByLoss p).editDeparts p true) p p
  rw [port_targetGone_same, hleft] at hfired
  obtain ⟨notes, notices, number, hport⟩ := hfired.away (inContact_of_away (.inr rfl))
  rw [hport] at hnotices
  have hempty : notices = [] := hnotices
  refine ⟨(PortState.targetGone p (s.port p).loseLink).events, number, ?_⟩
  rw [State.cutOff, State.dropNotes, State.port_onPort_same, hport, hempty]
  rfl

/-! ## What the tests make of the port (R158, R159) -/

theorem device_cutOff (s : State) (p : Port) : (s.cutOff p).device = s.device := by
  rw [State.cutOff, rest_device (rest_dropNotes ..), rest_device (rest_departTarget ..), device_editDeparts,
    State.leftByLoss, State.locksLeft, rest_device (rest_removeWaits ..), device_runTasks, device_linkLost]

/-- The order unit of a lost port is quiet when its writes have completed and none of its pieces is in flight (R103). -/
theorem quiet_cutOff (s : State) (p : Port) : (s.cutOff p).quiet p = true ↔
    (s.port p).watermark = (s.port p).writeSeq ∧ s.inFlight p = 0 ∧
      ∀ e ∈ (s.port p).readL, ∀ x ∈ e.pieces, x.cond ≠ .inFlight := by
  obtain ⟨_, _, hport⟩ := port_cutOff s p
  rw [quiet_iff, hport, inFlight_slots (device_slots (device_cutOff s p)), ← no_read_left_iff,
    and_comm (a := s.inFlight p = 0)]
  rfl

/-- What link loss makes of a port's record: CLOSING with its queues discarded, or OFFLINE in the same event. -/
inductive PortState.LostTo (quiet : Prop) (P : PortState) : PortState → Prop
  | closing (events : List Item) (number : Byte) : ¬ quiet → LostTo quiet P { P.loseLink with
      events := events, notes := [], notices := [], noticeSeq := number }
  | offline (events : List Item) (number : Byte) : quiet → LostTo quiet P (PortState.left { P.loseLink with
      events := events, notes := [], notices := [], noticeSeq := number })

/-- A port that holds nothing is just OFFLINE when it has closed. -/
theorem PortState.Closes.empty {revision : Half} {P Q : PortState} (h : P.Closes p revision Q) (hhold : P.hold = none) :
    Q = P.left := by
  cases h with
  | nothing => rfl
  | refused tag rev fault tags h => rw [hhold] at h; cases h
  | discarded tag rev fault places h => rw [hhold] at h; cases h
  | started tag rev fault tags h => rw [hhold] at h; cases h

/-- Both ways the queues, tags, places and notifications are gone, the writes kept and the reads cut. -/
theorem PortState.LostTo.record {quiet : Prop} {P Q : PortState} (h : P.LostTo quiet Q) :
    Q.link = .down ∧ Q.begun = false ∧ Q.pendingLeave = none ∧ Q.intake = [] ∧ Q.hold = none ∧ Q.respQ = [] ∧
      Q.tags = [] ∧ Q.places = 0 ∧ Q.writeQ = P.writeQ ∧ Q.readL = P.loseLink.readL ∧ Q.notices = [] ∧ Q.notes = [] := by
  cases h <;> exact ⟨rfl, rfl, rfl, rfl, rfl, rfl, rfl, rfl, rfl, rfl, rfl, rfl⟩

theorem PortState.LostTo.session {quiet : Prop} {P Q : PortState} (h : P.LostTo quiet Q) :
    (Q.session = .closing ∨ Q.session = .offline) ∧ (Q.session = .offline ↔ quiet) := by
  cases h with
  | closing events number hno => exact ⟨.inl rfl, fun h => by (cases h), fun h => absurd h hno⟩
  | offline events number hq => exact ⟨.inr rfl, fun _ => hq, fun _ => rfl⟩

theorem port_linkLossEvent (s : State) (p : Port) : (s.port p).LostTo ((s.port p).watermark = (s.port p).writeSeq ∧
    s.inFlight p = 0 ∧ ∀ e ∈ (s.port p).readL, ∀ x ∈ e.pieces, x.cond ≠ .inFlight)
      ((s.linkLossEvent p).port p) := by
  obtain ⟨events, number, hport⟩ := port_cutOff s p
  have hs : ((s.cutOff p).port p).session = .closing := by rw [hport]; rfl
  have hhold : ((s.cutOff p).port p).hold = none := by rw [hport]; rfl
  rw [linkLossEvent_eq]
  by_cases hquiet : (s.cutOff p).quiet p = true
  · rw [(closes_tests hs (holdLegal_of_empty hhold) hquiet).empty hhold, hport]
    exact .offline events number ((quiet_cutOff s p).mp hquiet)
  · rw [port_tests_busy hs (by simpa using hquiet), hport]
    exact .closing events number fun h => hquiet ((quiet_cutOff s p).mpr h)

theorem departedTarget_dropNotes (g : DepartedTarget p s) : DepartedTarget p (s.dropNotes p) := by
  obtain ⟨hnotices, hitems, hnotes⟩ := g
  refine ⟨?_, ?_, fun q n hn => ?_⟩
  · rw [State.dropNotes, State.port_onPort_same]; exact hnotices
  · rw [State.dropNotes, State.port_onPort_same]; exact hitems
  · rw [State.dropNotes, State.port_onPort] at hn
    split at hn
    · cases hn
    · exact hnotes q n hn

/-- No reservation toward the port stands after the event (R133, R134). -/
theorem departedTarget_linkLossEvent (s : State) (p : Port) : DepartedTarget p (s.linkLossEvent p) := by
  rw [linkLossEvent_eq]
  exact departedTarget_sessionTests _ (departedTarget_dropNotes (departedTarget_departTarget _ p))

/-! ## The locks (R53, R57, R67, R79) -/

/-- A lock record with the cause a link loss gives its revocation (R79). -/
def LockRecord.lost (l : LockRecord) : LockRecord := { l with cause := l.revokedCause .departed }

theorem lost_of_no_cause {l : LockRecord} (h : l.cause = .none) : l.lost = { l with cause := .departed } := by
  rw [LockRecord.lost, LockRecord.revokedCause, if_pos h]

theorem locks_dropNotes (s : State) (p : Port) : (s.dropNotes p).locks = s.locks := rfl

theorem locks_linkLossEvent (s : State) (p : Port) : (s.linkLossEvent p).locks = (s.leftByLoss p).locks := by
  rw [linkLossEvent_eq, locks_sessionTests, State.cutOff, locks_dropNotes, locks_departTarget, locks_editDeparts]

theorem locksLeft_linkLossEvent (g : LocksLegalFor (fun q => (s.port q).session = .online) s) :
    LocksLeft p LockRecord.lost s (s.linkLossEvent p) := by
  have hport := port_linkLost_same s p
  have hleft := locksLeft (s := s.linkLost p) (extra := (s.linkLost p).dueCommit) (f := LockRecord.lost)
    (endsGrants_revoke p) (dueCommit_cases _)
    (fun u k => lock_revoke_departed) (fun _ => rfl) (.inl (by rw [hport]; rfl))
    (locksLegalFor_of_locks (locks_linkLost s p) g)
  refine hleft.congr (locks_linkLost s p).symm (locks_linkLossEvent s p) ?_ ?_
    (device_config (device_linkLost s p)).symm <;> rw [hport] <;> rfl

/-- A RELEASING lock goes on waiting for its watch. -/
theorem LocksLeft.releasing {f : LockRecord → LockRecord} (h : LocksLeft p f s t) {k : Lock} {r : Releasing}
    (hk : (s.lock k).phase = .releasing r) : (t.lock k).phase = .releasing r := by
  have hholds : s.holds p k = false := by simp only [State.holds, hk]
  rw [h.other k hholds]
  simp only [LockRecord.withoutWait, hk]

/-! ## The edit, when no commit completes (R36, R43, R44) -/

theorem rest_foldl_revoke (p : Port) {l : List Task} (hl : ∀ x ∈ l, ∃ k, x = .revoke k) (s : State) :
    (l.foldl (fun t x => t.runTask p x) s).rest = s.rest := by
  induction l generalizing s with
  | nil => rfl
  | cons x l ih =>
    obtain ⟨k, rfl⟩ := hl x (by simp)
    rw [List.foldl_cons, ih fun y hy => hl y (by simp [hy])]
    exact rest_revoke s k .departed

theorem rest_leftByLoss (h : (s.linkLost p).commitDue = false) : (s.leftByLoss p).rest = (s.linkLost p).rest := by
  have hno : (s.linkLost p).dueCommit = [] := by rw [State.dueCommit, if_neg (by simp [h])]
  rw [State.leftByLoss, hno, State.locksLeft, rest_removeWaits, List.append_nil]
  refine runTasks_ind (C := fun u => u.rest = (s.linkLost p).rest) p _ (fun _ _ hu => hu) (fun x hx u hu => ?_) _ rfl
  obtain ⟨k, -, rfl⟩ := List.mem_map.mp hx
  exact (rest_revoke u k .departed).trans hu

/-- From the revocations on, only the mark on the edit is left to change. -/
theorem rest_cutOff (s : State) (p : Port) : (s.cutOff p).edit = (s.leftByLoss p).edit.departs p true ∧
    (s.cutOff p).map = (s.leftByLoss p).map ∧ (s.cutOff p).revision = (s.leftByLoss p).revision := by
  have hrest : (s.cutOff p).rest = ((s.leftByLoss p).editDeparts p true).rest := by
    rw [State.cutOff, rest_dropNotes, rest_departTarget]
  rw [rest_edit hrest, rest_map hrest, rest_revision hrest, edit_editDeparts, map_editDeparts, revision_editDeparts]
  exact ⟨rfl, rfl, rfl⟩

theorem rest_linkLossEvent (s : State) (p : Port) : (s.linkLossEvent p).rest = (s.cutOff p).rest := by
  rw [linkLossEvent_eq, rest_sessionTests]

theorem edit_linkLossEvent (h : (s.linkLost p).commitDue = false) :
    (s.linkLossEvent p).edit = (s.linkLost p).edit.departs p true ∧ (s.linkLossEvent p).map = s.map ∧
      (s.linkLossEvent p).revision = s.revision := by
  obtain ⟨hedit, hmap, hrevision⟩ := rest_cutOff s p
  have hevent := rest_linkLossEvent s p
  have hrest := rest_leftByLoss h
  rw [rest_edit hevent, rest_map hevent, rest_revision hevent, hedit, hmap, hrevision, rest_edit hrest, rest_map hrest,
    rest_revision hrest, map_linkLost, revision_linkLost]
  exact ⟨rfl, rfl, rfl⟩

/-- The edit of a commit when a port's link is lost: marked when it is the owner's (R44). -/
def CommitEdit.without (c : CommitEdit) (p : Port) : CommitEdit :=
  { c with departed := c.departed || c.owner == p }

theorem departs_committing (c : CommitEdit) (p : Port) :
    (Edit.committing c).departs p true = .committing (c.without p) := by
  unfold Edit.departs CommitEdit.without
  by_cases h : c.owner = p
  · simp [h]
  · have hno : (c.owner == p) = false := by simpa using h
    simp [h, hno]

end

end Sys2Proof.Machine

/-! # A commit that completes in the link-loss event (spec/02 R36, R39 to R41, R44; spec/09 R158) -/

namespace Sys2Proof.Machine

open Sys2Proof

/-! ## Parts of an event that also revoke grants -/

section

variable {s t a x : State} {p : Port} {c : CommitEdit}

/-- What an event brings about says nothing of the locks once both ends are given the same. -/
theorem Onward.relock (h : Onward s t) (l : Vector LockRecord 32) :
    Onward { s with locks := l } { t with locks := l } :=
  ⟨h.map, h.revision, handedOn_locks rfl, h.answered, h.work, h.tags, h.items⟩

/-- Parts of an event that leave a CLOSING port's responses alone, and make of every other port what fired watches do. -/
theorem onward_beside (hmap : t.map = s.map) (hrevision : t.revision = s.revision)
    (hclosing : (s.port p).session = .closing) (hresp : (t.port p).respQ = (s.port p).respQ)
    (hothers : ∀ q, q ≠ p → (s.port q).FiredTo (t.port q)) : Onward { s with locks := t.locks } t := by
  have hopen : ∀ {q}, (s.port q).session ≠ .closing → (s.port q).FiredTo (t.port q) := fun {q} hq =>
    hothers q fun e => hq (e ▸ hclosing)
  refine ⟨hmap, hrevision, handedOn_locks rfl, fun q => ?_, fun q hq => work_of_kept (hopen hq).kept,
    fun q hq => (hopen hq).tags, fun q hq => (hopen hq).revision⟩
  by_cases hq : q = p
  · subst hq
    exact answered_same hresp
  · exact (hothers q hq).answers

/-- A request taken again asks of the locks only who holds them. -/
theorem retaken_relock {l : Vector LockRecord 32} {q : Port} {r : Request}
    (h : retaken { s with locks := l } { t with locks := l } q r)
    (hholds : ∀ k, State.holds { s with locks := l } q k = s.holds q k ∨
      State.holds { s with locks := l } q k = t.holds q k) : retaken s t q r := by
  obtain ⟨hhold, u, hmap, hedit, hsame, hread, hwrite⟩ := h
  refine ⟨hhold, u, hmap, hedit, fun k => ?_, hread, hwrite⟩
  rw [show u.holds q k = State.holds { s with locks := l } q k from (hsame k).elim id id]
  exact hholds k

/-- So does a commit's completion. -/
theorem committed_relock {l : Vector LockRecord 32} (h : committed { s with locks := l } { t with locks := l } c)
    (hholds : ∀ q k, State.holds { s with locks := l } q k = s.holds q k ∨
      State.holds { s with locks := l } q k = t.holds q k) : committed s t c := by
  obtain ⟨hdone, hrevision, hrows, hothers, howner, hdeparted, hsubscribed, hunsubscribed, hretaken⟩ := h
  exact ⟨hdone, hrevision, hrows, hothers, howner, hdeparted, hsubscribed, hunsubscribed,
    fun q r hs hhold hop => retaken_relock (hretaken q r hs hhold hop) (hholds q)⟩

/-- The same when only the start is given other locks. -/
theorem Onward.relocked {l : Vector LockRecord 32} (h : Onward { s with locks := l } t) :
    Onward s { t with locks := s.locks } := h.relock s.locks

/-- A commit's completion between parts of an event that also end grants, each lock's at most once (R39 to R41). -/
theorem committed_between {l : Vector LockRecord 32} (hbefore : Onward { s with locks := a.locks } a)
    (hafter : Onward { a.completeCommit with locks := l } t) (hedit : a.edit = .committing c)
    (hdone : t.edit = .absent) (hholds : ∀ q k, a.holds q k = s.holds q k ∨ a.holds q k = t.holds q k) :
    committed s t c := by
  have hrelocked := hafter.relocked
  rw [locks_completeCommit] at hrelocked
  exact committed_relock (l := a.locks) (committed_within hbefore hrelocked hedit hdone) hholds

/-! ## A commit whose owner's link is lost (R44) -/

/-- A port out of contact gets no answer, marked departed or not. -/
theorem answerCommit_without (haway : (s.port p).inContact = false) (c : CommitEdit) :
    s.answerCommit (c.without p) = s.answerCommit c := by
  unfold State.answerCommit CommitEdit.without
  by_cases howner : c.owner = p
  · subst howner
    simp [respondDue_away haway]
  · have hno : (c.owner == p) = false := by simpa using howner
    simp [hno]

theorem replaceRows_edit (s : State) (e : Edit) (l : List Staged) :
    State.replaceRows { s with edit := e } l = { s.replaceRows l with edit := e } := by
  unfold State.replaceRows
  induction l generalizing s with
  | nil => rfl
  | cons x l ih => exact ih (s.setRow x.row x.content)

/-- The part with a commit's rows and revision in place, no one told yet (R39). -/
def State.replaced (s : State) (c : CommitEdit) : State :=
  { s.replaceRows c.change with revision := s.revision + 1, edit := .absent }

theorem port_replaced (s : State) (c : CommitEdit) (q : Port) : (s.replaced c).port q = s.port q :=
  port_replaceRows s c.change q

theorem replaced_edit (s : State) (e : Edit) (c : CommitEdit) :
    State.replaced { s with edit := e } c = s.replaced c := by
  rw [State.replaced, replaceRows_edit]
  rfl

theorem told_eq (s : State) (c : CommitEdit) :
    s.told c = allPorts.foldl (fun t q => t.raiseRevision q) ((s.replaced c).answerCommit c) := rfl

theorem completeCommit_marked (hedit : s.edit = .committing c) (haway : (s.port p).inContact = false) :
    State.completeCommit { s with edit := .committing (c.without p) } = s.completeCommit := by
  have hmarked : State.replaced { s with edit := .committing (c.without p) } (c.without p) = s.replaced c :=
    replaced_edit s _ c
  have hunreached : ((s.replaced c).port p).inContact = false := by rw [port_replaced]; exact haway
  rw [completeCommit_eq hedit, completeCommit_eq (c := c.without p) rfl, told_eq, told_eq, hmarked,
    answerCommit_without hunreached]

/-- What an event brings about says nothing of the edit it leads to. -/
theorem Onward.withEdit (h : Onward s t) (e : Edit) : Onward s { t with edit := e } :=
  ⟨h.map, h.revision, h.locks, h.answered, h.work, h.tags, h.items⟩

/-- A commit's completion may be told as the marked commit's. -/
theorem committed_between_without {l : Vector LockRecord 32} (hbefore : Onward { s with locks := a.locks } a)
    (hafter : Onward { a.completeCommit with locks := l } t) (hedit : a.edit = .committing c)
    (haway : (a.port p).inContact = false) (hdone : t.edit = .absent)
    (hholds : ∀ q k, a.holds q k = s.holds q k ∨ a.holds q k = t.holds q k) : committed s t (c.without p) := by
  rw [← completeCommit_marked hedit haway] at hafter
  exact committed_between (hbefore.withEdit (.committing (c.without p))) hafter rfl hdone hholds

/-- The drain set of a commit that completes is of no account. -/
theorem committed_drain {drain : List DrainRef} (h : committed s t (CommitEdit.without { c with drain := drain } p)) :
    committed s t (c.without p) := h

/-! ## The port that is lost, before and after its record has met the loss -/

/-- A request taken again asks nothing of the ports before the event but its own. -/
theorem retaken_from {s' : State} {q : Port} {r : Request} (hport : s'.port q = s.port q) (hlocks : s'.locks = s.locks)
    (h : retaken s t q r) : retaken s' t q r := by
  have hholds : ∀ k, s'.holds q k = s.holds q k := fun k => holds_of_locks hlocks q k
  unfold retaken answers at h ⊢
  simpa only [hport, hholds] using h

/-- A commit's completion asks nothing of a CLOSING port without responses. -/
theorem committed_from {s' : State} (hports : ∀ q, q ≠ p → s'.port q = s.port q) (hlocks : s'.locks = s.locks)
    (hmap : s'.map = s.map) (hrevision : s'.revision = s.revision) (hclosing : (s.port p).session = .closing)
    (hclosing' : (s'.port p).session = .closing) (hresp : (t.port p).respQ = []) (h : committed s t c) :
    committed s' t c := by
  obtain ⟨hdone, hnumber, hrows, hothers, howner, hdeparted, hsubscribed, hunsubscribed, hretaken⟩ := h
  have hne : ∀ {q}, (s'.port q).session ≠ .closing → s'.port q = s.port q := fun {q} hq =>
    hports q fun e => hq (e ▸ hclosing')
  refine ⟨hdone, by rw [hnumber, hrevision], hrows, fun r hr => by rw [hothers r hr, row_of_map hmap],
    fun hd hq => ?_, fun hd q x hx hcode => ?_, fun q v hq hs => ?_, fun q v hq => ?_, fun q r hs hhold hop => ?_⟩
  · have hport := hne (reached_not_closing hq)
    rw [hport] at hq
    obtain ⟨hfree, before, after, hanswer⟩ := howner hd hq
    exact ⟨hfree, before, after, by rw [hport, hrevision, hanswer]⟩
  · by_cases hqp : q = p
    · subst hqp
      rw [hresp] at hx
      cases hx
    · rw [hports q hqp]
      exact hdeparted hd q x hx hcode
  · have hport := hne (reached_not_closing hq)
    rw [hport] at hq hs
    rw [hsubscribed q v hq hs, hrevision]
  · have hopen : (s'.port q).session ≠ .closing := by
      rcases hq with hoffline | ⟨hq, -⟩
      · simp [hoffline]
      · exact reached_not_closing hq
    rw [hne hopen] at hq ⊢
    exact hunsubscribed q v hq
  · have hport := hne (q := q) (by simp [hs])
    rw [hport] at hs hhold
    exact retaken_from hport hlocks (hretaken q r hs hhold hop)

end

/-! ## The completion among the revocations (log 6) -/

section

variable {s : State} {p : Port} {c : CommitEdit}

theorem firedPorts_foldl_revoke (p : Port) {l : List Task} (hl : ∀ x ∈ l, ∃ k, x = .revoke k) (s : State) :
    FiredPorts s (l.foldl (fun t x => t.runTask p x) s) := by
  induction l generalizing s with
  | nil => exact .refl s
  | cons x l ih =>
    obtain ⟨k, rfl⟩ := hl x (by simp)
    exact (firedPorts_revoke s k .departed).trans (ih (fun y hy => hl y (by simp [hy])) _)

/-- A commit's completion among revocations: a is the part as it comes, t the part when all have run. -/
structure CommitsAmong (s a t : State) : Prop where
  before : FiredPorts s a
  restBefore : a.rest = s.rest
  after : FiredPorts a.completeCommit t
  restAfter : t.rest = a.completeCommit.rest
  once : ∀ k, a.lock k = s.lock k ∨ a.lock k = t.lock k

theorem commitsAmong_revocations (s : State) (p : Port) :
    ∃ a, CommitsAmong s a (s.runTasks p ((s.heldLocks p).map .revoke ++ [.commit])) := by
  obtain ⟨l₁, l₂, hperm, hrun⟩ := runTasks_commit p ((s.heldLocks p).map .revoke) s
  obtain ⟨-, hfresh⟩ := arranged_tasks s ((s.heldLocks p).map .revoke ++ [.commit])
  have hnodup : (l₁ ++ l₂).Nodup := by
    obtain ⟨hn, -⟩ := grantsLeft_init (p := p) (endsGrants_revoke p) s [] (.inl rfl)
    rw [List.append_nil] at hn
    exact hperm.nodup_iff.mpr hn
  have hrevoke : ∀ x ∈ l₁ ++ l₂, ∃ k, x = Task.revoke k := fun x hx => by
    obtain ⟨k, -, rfl⟩ := List.mem_map.mp (hperm.mem_iff.mp hx)
    exact ⟨k, rfl⟩
  have hfirst : ∀ x ∈ l₁, ∃ k, x = Task.revoke k := fun x hx => hrevoke x (List.mem_append_left _ hx)
  have hsecond : ∀ x ∈ l₂, ∃ k, x = Task.revoke k := fun x hx => hrevoke x (List.mem_append_right _ hx)
  rw [hrun, hfresh]
  generalize s.fresh + _ = n
  have hbefore := firedPorts_foldl_revoke p hfirst { s with fresh := n }
  refine ⟨l₁.foldl (fun t x => t.runTask p x) { s with fresh := n }, (firedPorts_ports rfl).trans hbefore,
    rest_foldl_revoke p hfirst _, firedPorts_foldl_revoke p hsecond _, rest_foldl_revoke p hsecond _, fun k => ?_⟩
  by_cases hk : Task.revoke k ∈ l₁
  · refine .inr ?_
    rw [lock_foldl_other (endsGrants_revoke p) l₂ (fun x hx => .inl (hsecond x hx)) _ k
      fun hin => List.disjoint_of_nodup_append hnodup hk hin, lock_of_locks (locks_completeCommit _)]
  · refine .inl ?_
    rw [lock_foldl_other (endsGrants_revoke p) l₁ (fun x hx => .inl (hfirst x hx)) _ k hk]
    rfl

/-- Who holds a lock does not change with the wait entries. -/
theorem holds_removeWaits (s : State) (p q : Port) (k : Lock) : (s.removeWaits p).holds q k = s.holds q k := by
  unfold State.holds
  rw [lock_removeWaits, removeWaiter_eq_withoutWait]
  unfold LockRecord.withoutWait
  cases (s.lock k).phase with
  | held h => dsimp only; split <;> rfl
  | free | releasing => rfl

/-- What the event makes of another port, up to the session logic's tests and after the tasks. -/
theorem firedTo_cutOff {q : Port} (h : q ≠ p) : ((s.leftByLoss p).port q).FiredTo ((s.cutOff p).port q) := by
  have hfired := firedTo_departTarget (s := (s.leftByLoss p).editDeparts p true) h
  rw [port_of_ports (ports_editDeparts ..)] at hfired
  rw [State.cutOff, State.dropNotes, State.port_onPort_ne _ _ h]
  exact hfired

/-- The record of a CLOSING port goes through what fired watches do with its session, its responses and its hold as they
were. -/
theorem closing_through {P Q : PortState} (h : P.FiredTo Q) (hs : P.session = .closing) :
    Q.session = .closing ∧ Q.respQ = P.respQ ∧ Q.hold = P.hold := by
  obtain ⟨_, _, _, hQ⟩ := h.away (inContact_of_away (.inr hs))
  rw [hQ]
  exact ⟨hs, rfl, rfl⟩

/-- The event up to a commit's completion, from the part in which only the port's own record has met the loss. -/
theorem onward_from_loss {a : State} (hfired : FiredPorts (s.linkLost p) a) (hmap : a.map = s.map)
    (hrevision : a.revision = s.revision) : Onward { s.onPort p (·.loseLink) with locks := a.locks } a := by
  have hown := port_linkLost_same s p
  have hport : (s.onPort p (·.loseLink)).port p = (s.port p).loseLink := State.port_onPort_same ..
  obtain ⟨-, hresp, -⟩ := closing_through (hfired p) (by rw [hown]; rfl)
  refine onward_beside (s := s.onPort p (·.loseLink)) (p := p) hmap hrevision (by rw [hport]; rfl) ?_ fun q hq => ?_
  · rw [hport, hresp, hown]
  · have hother := hfired q
    rw [port_linkLost_ne hq] at hother
    rw [State.port_onPort_ne _ _ hq]
    exact hother

/-- The event from a commit's completion on. -/
theorem onward_to_cutOff {b : State} (hfired : FiredPorts b (s.leftByLoss p)) (hmap : (s.leftByLoss p).map = b.map)
    (hrevision : (s.leftByLoss p).revision = b.revision) (hclosing : (b.port p).session = .closing)
    (hresp : (b.port p).respQ = []) : Onward { b with locks := (s.cutOff p).locks } (s.cutOff p) := by
  obtain ⟨-, hmapCut, hrevisionCut⟩ := rest_cutOff s p
  obtain ⟨_, _, hport⟩ := port_cutOff s p
  refine onward_beside (p := p) (hmapCut.trans hmap) (hrevisionCut.trans hrevision) hclosing ?_
    fun q hq => (hfired q).trans (firedTo_cutOff hq)
  rw [hport, hresp]
  rfl

/-- When the completion comes, and at the end of the event, each lock is held as before the event or as after it. -/
theorem holds_among {a u : State} (honce : ∀ k, a.lock k = (s.linkLost p).lock k ∨ a.lock k = u.lock k)
    (hrun : s.leftByLoss p = u.removeWaits p) (q : Port) (k : Lock) :
    a.holds q k = s.holds q k ∨ a.holds q k = (s.linkLossEvent p).holds q k := by
  have hend : (s.linkLossEvent p).holds q k = u.holds q k := by
    rw [holds_of_locks (locks_linkLossEvent s p), hrun, holds_removeWaits]
  rw [hend, ← holds_of_locks (locks_linkLost s p) q k]
  unfold State.holds
  exact (honce k).imp (fun h => by rw [h]) fun h => by rw [h]

/-- The completion in the event, the port's record having met the loss already. -/
theorem committed_linkLost (hedit : s.edit = .committing c) (hleft : s.drainLeft p c = []) :
    committed (s.onPort p (·.loseLink)) (s.linkLossEvent p) (c.without p) := by
  have hlost := edit_linkLost hedit p
  have hdue : (s.linkLost p).dueCommit = [.commit] := by
    rw [State.dueCommit, if_pos (by rw [commitDue_committing hlost, hleft]; rfl)]
  obtain ⟨a, hbefore, hrest, hafter, hrestAfter, honce⟩ := commitsAmong_revocations (s.linkLost p) p
  have hrun : s.leftByLoss p = ((s.linkLost p).runTasks p (((s.linkLost p).heldLocks p).map .revoke ++
      [.commit])).removeWaits p := by rw [State.leftByLoss, hdue]; rfl
  generalize (s.linkLost p).runTasks p (((s.linkLost p).heldLocks p).map .revoke ++ [.commit]) = u at *
  have hown := port_linkLost_same s p
  obtain ⟨hclosing, hresp, hhold⟩ := closing_through (hbefore p) (by rw [hown]; rfl)
  rw [hown] at hresp hhold
  have hcommit : a.edit = .committing { c with drain := s.drainLeft p c } := (rest_edit hrest).trans hlost
  have hsame : a.completeCommit.port p = a.port p := sameAt_completeCommit a hclosing hhold
  have hleftRest : (s.leftByLoss p).rest = a.completeCommit.rest := by rw [hrun, rest_removeWaits, hrestAfter]
  have hleftPorts : FiredPorts a.completeCommit (s.leftByLoss p) := by
    rw [hrun]
    exact hafter.trans (firedPorts_ports (ports_removeWaits u p))
  have hdone : (s.linkLossEvent p).edit = .absent := by
    rw [rest_edit (rest_linkLossEvent s p), (rest_cutOff s p).1, rest_edit hleftRest,
      rest_edit (rest_completeCommit a _ hcommit)]
    rfl
  have hend : Onward { a.completeCommit with locks := (s.cutOff p).locks } (s.linkLossEvent p) := by
    rw [linkLossEvent_eq]
    exact (onward_to_cutOff hleftPorts (rest_map hleftRest) (rest_revision hleftRest) (by rw [hsame, hclosing])
      (by rw [hsame, hresp]; rfl)).trans (.of_tests _)
  have hstart : Onward { s.onPort p (·.loseLink) with locks := a.locks } a :=
    onward_from_loss hbefore ((rest_map hrest).trans (map_linkLost s p))
      ((rest_revision hrest).trans (revision_linkLost s p))
  exact committed_drain (committed_between_without hstart hend hcommit (inContact_of_away (.inr hclosing)) hdone
    fun q k => by
      rw [holds_of_locks (State.locks_onPort s p (·.loseLink)) q k]
      exact holds_among honce hrun q k)

/-- A lost port's commit, and every other, completes in the event when the reads that are gone were all it waited for. -/
theorem committed_linkLossEvent (hedit : s.edit = .committing c) (hleft : s.drainLeft p c = []) :
    committed (s.onPort p (fun P => { P with session := .closing })) (s.linkLossEvent p) (c.without p) := by
  refine committed_from (s := s.onPort p (·.loseLink)) (p := p) (fun q hq => ?_) rfl rfl rfl ?_ ?_ ?_
    (committed_linkLost hedit hleft)
  · rw [State.port_onPort_ne _ _ hq, State.port_onPort_ne _ _ hq]
  · rw [State.port_onPort_same]; rfl
  · rw [State.port_onPort_same]
  · obtain ⟨-, -, -, -, -, hresp, -⟩ := (port_linkLossEvent s p).record
    exact hresp

end

end Sys2Proof.Machine


/-! # The link-loss event as a whole (O9) -/

namespace Sys2Proof.Machine

open Sys2Proof

section

variable {s : State} {p : Port}

/-- An edit that is not in commit: the owner's is discarded, every other stays (R43). -/
theorem edit_linkLossEvent_no_commit (h : ∀ c, s.edit ≠ .committing c) :
    (s.linkLossEvent p).edit = s.edit.departs p true ∧ (s.linkLossEvent p).map = s.map ∧
      (s.linkLossEvent p).revision = s.revision := by
  have hlost := edit_linkLost_no_commit h p
  have hevent := edit_linkLossEvent (commitDue_not_committing (s := s.linkLost p) (by rw [hlost]; exact h))
  rwa [hlost] at hevent

/-- A commit that still waits for a member of its drain set goes on (R36). -/
theorem edit_linkLossEvent_waits {c : CommitEdit} (h : s.edit = .committing c) (hleft : s.drainLeft p c ≠ []) :
    (s.linkLossEvent p).edit = .committing (CommitEdit.without { c with drain := s.drainLeft p c } p) ∧
      (s.linkLossEvent p).map = s.map ∧ (s.linkLossEvent p).revision = s.revision := by
  have hlost := edit_linkLost h p
  have hevent := edit_linkLossEvent (s := s) (p := p) (by rw [commitDue_committing hlost]; simpa using hleft)
  rwa [hlost, departs_committing] at hevent

end

/-- Settles O9: the port's own record, the locks, the target's part and the edit each by the lemmas above; a commit whose
drain set the loss empties completes among the revocations. -/
theorem linkLossDeparts : Obligations.LinkLossDeparts := by
  intro p s hrun hup hs hlegal
  have glegal := (locksLegal_iff s).mp hlegal
  have hlocks : LocksLeft p LockRecord.lost s (s.linkLossEvent p) := locksLeft_linkLossEvent glegal
  have hport := port_linkLossEvent s p
  obtain ⟨hlink, hbegun, hleave, hintake, hhold, hresp, htags, hplaces, hwriteQ, hreadL, hnotices, hnotes⟩ :=
    hport.record
  obtain ⟨hsession, hoffline⟩ := hport.session
  obtain ⟨-, -, hcancelled⟩ := departedTarget_linkLossEvent s p
  have hdevice := device_linkLossEvent s p
  refine ⟨s.linkLossEvent p, ?_, hlink, hbegun, hsession, hoffline, hleave, hintake, hhold, hresp, htags, hplaces,
    hwriteQ, hreadL, hnotices, hnotes, hcancelled, hlocks.nobody, fun k => hlocks.untouched glegal, hlocks.other,
    fun k hk hwaits => ?_, fun k hk hreached => ?_, fun k r => hlocks.releasing, fun o ho => ?_, fun ha => ?_,
    fun c left hc hleft => ⟨fun hne => ?_, fun hempty => ?_⟩, fun hno => (edit_linkLossEvent_no_commit hno).2,
    device_slots hdevice, device_config hdevice⟩
  · rw [exec_linkDown, linkFalls_reached hup hrun (inContact_of hs)]
  · rw [hlocks.held k hk, lost_of_no_cause (cause_of_held glegal hk), grantEnded_waits hwaits]
  · rw [hlocks.held k hk, lost_of_no_cause (cause_of_held glegal hk), grantEnded_reached hreached]
  · rw [(edit_linkLossEvent_no_commit (by simp [ho])).1, ho]
    rfl
  · rw [(edit_linkLossEvent_no_commit (by simp [ha])).1, ha]
    rfl
  · subst hleft
    exact edit_linkLossEvent_waits hc hne
  · subst hleft
    exact committed_linkLossEvent hc hempty

end Sys2Proof.Machine

/-! # The frames of the host links (spec/10 R163 to R166, Tables 10-1 to 10-4; spec/05 R87, R92; spec/09 R152) -/

namespace Sys2Proof.Machine

open Sys2Proof

/-! ## The bytes of a frame (R163, Table 10-1) -/

/-- The two bytes of a body length, most significant byte first. -/
theorem be16_length {n : Nat} {hi lo : Byte} (h : n = hi.toNat * 256 + lo.toNat) :
    be16 (BitVec.ofNat 16 n) = [hi, lo] := by
  have hhi := hi.isLt
  have hlo := lo.isLt
  have hfirst : (BitVec.ofNat 16 n).extractLsb' 8 8 = hi := BitVec.eq_of_toNat_eq (by
    simp only [BitVec.extractLsb'_toNat, BitVec.toNat_ofNat, Nat.shiftRight_eq_div_pow]
    omega)
  have hsecond : (BitVec.ofNat 16 n).extractLsb' 0 8 = lo := BitVec.eq_of_toNat_eq (by
    simp only [BitVec.extractLsb'_toNat, BitVec.toNat_ofNat, Nat.shiftRight_eq_div_pow]
    omega)
  rw [be16, hfirst, hsecond]

/-- The bytes under the check value of a formed frame: its eight header bytes and its body. -/
theorem covered_make {hi lo : Byte} {body : List Byte} (kind tag status flags : Byte)
    (h : body.length = hi.toNat * 256 + lo.toNat) :
    (Frame.make kind tag status flags body).covered = [kind, tag, status, flags, hi, lo, 0#8, 0#8] ++ body := by
  simp only [Frame.make, Frame.covered, be16_length h]
  rfl

/-- A formed frame carries the check value over its header and body. -/
theorem check_make (kind tag status flags : Byte) (body : List Byte) :
    (Frame.make kind tag status flags body).check = checkValue (Frame.make kind tag status flags body).covered := rfl

/-- Settles O43: the check value of the nine digits by computation; the bytes of a formed frame by its covered bytes. -/
theorem checkValueOfNineDigits : Obligations.CheckValueOfNineDigits := by
  refine ⟨⟨by decide +kernel, by decide⟩, fun kind tag status flags hi lo body h => ?_⟩
  refine ⟨_, be32 (checkValue ([kind, tag, status, flags, hi, lo, 0#8, 0#8] ++ body)), rfl, rfl, ?_, rfl⟩
  rw [Frame.wire, check_make, covered_make kind tag status flags h]

/-! ## The body of a request (R164, R165, Table 10-4) -/

theorem flagByte_bit (b : Bool) : (flagByte b).getLsbD 0 = b := by cases b <;> rfl

theorem optionalField_present (h : Option Half) : optionalField (flagByte h.isSome) (h.getD 0#16) = h := by
  rw [optionalField, flagByte_bit]
  cases h <;> rfl

/-- An optional field is read where its bytes stand, and is absent where the flag says so (R164). -/
theorem optionalField_bytes (h : Option Half) (rest : List Byte) :
    optionalField (flagByte h.isSome) (halfAt (optionalBytes h ++ rest) 0) = h :=
  (congrArg (optionalField _) (half_bytes _)).trans (optionalField_present h)

/-- LOCK_ACQUIRE's two flags share a byte. -/
theorem sharedFlags_bits (wait yield : Bool) :
    (flagByte wait ||| (flagByte yield <<< 1)).getLsbD 0 = wait ∧
      (flagByte wait ||| (flagByte yield <<< 1)).getLsbD 1 = yield := by
  cases wait <;> cases yield <;> decide

theorem rowFields_bodyBytes (r : RawRow) : rowFields (ReqOp.mapStage r).bodyBytes = r :=
  (RawRow.mk.injEq ..).mpr
    ⟨half_bytes r.row, flagByte_bit r.valid, rfl, word_bytes r.frame, rfl, flagByte_bit r.posting, rfl⟩

/-- Every field of a request is read from the body that carries it, at the place where it was put (log 13). -/
theorem requestFields_bodyBytes (op : ReqOp) :
    requestFields op.code (flagByte op.optionalPresent) op.bodyBytes = op := by
  cases op with
  | hello | leave | mapAbort | mapCommit | lockCancel | lockQuery | faultTake | configRead => rfl
  | read a l => exact congrArg₂ ReqOp.read (word_bytes a) (half_bytes l)
  | write a l d => exact congrArg₂ (ReqOp.write · · d) (word_bytes a) (half_bytes l)
  | mapRead row view => exact congrArg (ReqOp.mapRead · view) (half_bytes row)
  | mapOpen e => exact congrArg ReqOp.mapOpen (optionalField_bytes e _)
  | mapStage r => exact congrArg ReqOp.mapStage (rowFields_bodyBytes r)
  | mapUnstage row => exact congrArg ReqOp.mapUnstage (half_bytes row)
  | lockAcquire k wait yield owner lease =>
    obtain ⟨hwait, hyield⟩ := sharedFlags_bits wait yield
    exact (ReqOp.lockAcquire.injEq ..).mpr ⟨rfl, hwait, hyield, half_bytes owner,
      optionalField_bytes lease [0#8, 0#8]⟩
  | lockRelease k gen => exact congrArg (ReqOp.lockRelease k) (half_bytes gen)
  | lockRenew k gen lease =>
    exact congrArg₂ (ReqOp.lockRenew k) (half_bytes gen) (optionalField_bytes lease [0#8, 0#8, 0#8])
  | notify target code => exact congrArg (ReqOp.notify target) (word_bytes code)
  | noticeAck seq => exact congrArg ReqOp.noticeAck (half_bytes seq)
  | configWrite item index v => exact congrArg (ReqOp.configWrite item index) (word_bytes v)

theorem carriable_write {tag : Byte} {a : Word} {l : Half} {d : List Byte}
    (h : Request.carriable { tag := tag, op := .write a l d } = true) : d.length = l.toNat ∧ l.toNat ≤ 256 := by
  show d.length = l.toNat ∧ l.toNat ≤ Config.maxLength
  simpa only [Request.carriable, Bool.and_eq_true, beq_iff_eq, decide_eq_true_eq] using h

/-- The length field of a WRITE is the half word at byte 4 of its body. -/
theorem requiredLength_write (a : Word) (l : Half) (d : List Byte) :
    requiredLength 0x04#8 (ReqOp.write a l d).bodyBytes = some (8 + l.toNat) := by
  have hroom : ¬ (ReqOp.write a l d).bodyBytes.length < 8 := by simp [ReqOp.bodyBytes, be32, be16]
  have hlength : halfAt (ReqOp.write a l d).bodyBytes 4 = l := half_bytes l
  rw [requiredLength, if_pos rfl, if_neg hroom, hlength]

/-- The body of a request that a frame can carry has the length of its kind, and the port interface has room for it. -/
theorem requiredLength_bodyBytes {r : Request} (h : r.carriable = true) :
    requiredLength r.op.code r.op.bodyBytes = some r.op.bodyBytes.length ∧ r.op.bodyBytes.length ≤ 264 := by
  obtain ⟨tag, op⟩ := r
  cases op with
  | write a l d =>
    obtain ⟨hdata, hmax⟩ := carriable_write h
    have hlength : (ReqOp.write a l d).bodyBytes.length = 8 + l.toNat := by
      simp [ReqOp.bodyBytes, be32, be16, hdata]
      omega
    rw [hlength]
    exact ⟨requiredLength_write a l d, by omega⟩
  | _ => exact ⟨rfl, by simp [ReqOp.bodyBytes, be32, be16, optionalBytes]⟩

/-! ## What the receipt checks answer (R165) -/

section

variable {f : Frame}

theorem checkOk_iff : f.checkOk = true ↔ checkValue f.covered = f.check := by simp [Frame.checkOk]

theorem receipt_badCheck (h : checkValue f.covered ≠ f.check) : f.receipt = .badCheck := by
  have hbad : (!f.checkOk) = true := by simpa [Frame.checkOk] using h
  rw [Frame.receipt, if_pos hbad]

theorem receipt_unknownKind (h : checkValue f.covered = f.check) (hkind : requiredLength f.kind f.body = none) :
    f.receipt = .unknownKind := by
  simp [Frame.receipt, checkOk_iff.mpr h, hkind]

theorem receipt_badLength {n : Nat} (h : checkValue f.covered = f.check)
    (hkind : requiredLength f.kind f.body = some n) (hlength : f.body.length ≠ n ∨ 264 < f.body.length) :
    f.receipt = .badLength := by
  have hbad : ¬ (f.body.length = n ∧ f.body.length ≤ Config.bodyRoom) := by
    rw [Config.bodyRoom]
    omega
  simp [Frame.receipt, checkOk_iff.mpr h, hkind, hbad]

theorem receipt_request (h : checkValue f.covered = f.check)
    (hkind : requiredLength f.kind f.body = some f.body.length) (hroom : f.body.length ≤ 264) :
    f.receipt = .request { tag := f.tag, op := requestFields f.kind f.flags f.body } := by
  simp [Frame.receipt, checkOk_iff.mpr h, hkind, Config.bodyRoom, hroom]

end

/-- Settles O45: the wire spells the frame, whose check value is right, whose length is its kind's, and whose fields are
read where they were put. -/
theorem requestFrameRoundTrip : Obligations.RequestFrameRoundTrip := by
  intro r h
  obtain ⟨hlength, hroom⟩ := requiredLength_bodyBytes h
  have hbody : r.frame.body.length < 65536 := Nat.lt_of_le_of_lt hroom (by decide)
  refine ⟨ofWire_wire _ hbody, ?_⟩
  have hreceipt : r.frame.receipt = .request
      { tag := r.tag, op := requestFields r.op.code (flagByte r.op.optionalPresent) r.op.bodyBytes } :=
    receipt_request (check_make ..).symm hlength hroom
  rw [hreceipt, requestFields_bodyBytes]

/-! ## FRAME_RECEIPT (R87, R92, R152, R165, R166; log 3) -/

section

variable {p : Port} {bytes : List Byte} {f : Frame} {s : State}

theorem exec_frameReceipt_no_frame (h : Frame.ofWire bytes = none) : exec (.frameReceipt p bytes) s = .next s := by
  simp only [exec, execFrameReceipt, h]

theorem exec_frameReceipt (h : Frame.ofWire bytes = some f) : exec (.frameReceipt p bytes) s =
    .next (if s.receives p && !(s.port p).endWaits f then s.onPort p (·.endFrame f) else s) := by
  simp only [exec, execFrameReceipt, h]

theorem receives_iff : s.receives p = true ↔ s.running = true ∧ (s.port p).link = .up ∧
    (((s.port p).intake.length < 8 ∧ (s.port p).places < 32) ∨ (s.port p).begun = true) := by
  simp only [State.receives, PortState.hasRoom, Bool.and_eq_true, Bool.or_eq_true, decide_eq_true_eq, beq_iff_eq,
    and_assoc]
  rfl

theorem exec_frameReceipt_not_received (h : Frame.ofWire bytes = some f) (hnot : ¬ s.receives p = true) :
    exec (.frameReceipt p bytes) s = .next s := by
  rw [exec_frameReceipt h, if_neg (by simp [hnot])]

theorem exec_frameReceipt_waits (h : Frame.ofWire bytes = some f) (hwaits : (s.port p).endWaits f = true) :
    exec (.frameReceipt p bytes) s = .next s := by
  rw [exec_frameReceipt h, if_neg (by simp [hwaits])]

theorem exec_frameReceipt_received (h : Frame.ofWire bytes = some f) (hreceives : s.receives p = true)
    (hends : (s.port p).endWaits f = false) :
    exec (.frameReceipt p bytes) s = .next (s.onPort p (·.endFrame f)) := by
  rw [exec_frameReceipt h, if_pos (by simp [hreceives, hends])]

variable {P : PortState}

/-- Only a refusal waits, and only for a response place (R92; log 3). -/
theorem endWaits_iff : P.endWaits f = true ↔ (f.receipt = .unknownKind ∨ f.receipt = .badLength) ∧ 32 ≤ P.places := by
  simp only [PortState.endWaits, Frame.refused, Bool.and_eq_true, Bool.or_eq_true, decide_eq_true_eq, beq_iff_eq]
  rfl

theorem endWaits_place_free (h : P.places < 32) : P.endWaits f = false := by
  rw [← Bool.not_eq_true, endWaits_iff]
  exact fun hwaits => absurd hwaits.2 (Nat.not_le.mpr h)

theorem endWaits_not_refused (hkind : f.receipt ≠ .unknownKind) (hlength : f.receipt ≠ .badLength) :
    P.endWaits f = false := by
  rw [← Bool.not_eq_true, endWaits_iff]
  exact fun hwaits => hwaits.1.elim hkind hlength

/-- The reception of a frame is over: the mark of one that may be arriving is cleared (R165; log 3). -/
def PortState.receptionOver (P : PortState) : PortState := { P with begun := false }

theorem endFrame_eq (P : PortState) (f : Frame) : P.endFrame f = (P.receive f).receptionOver := rfl

/-- A fault record neither reads nor sets the mark of a frame that may be arriving. -/
theorem record_receptionOver (P : PortState) (r : FaultRecord) :
    P.receptionOver.record r = (P.record r).receptionOver := by
  have hkept : P.receptionOver.keepRecord r = (P.keepRecord r).receptionOver :=
    (apply_ite PortState.receptionOver (P.faults.length < Config.faultRoom) { P with faults := P.faults ++ [r] }
      { P with lost := if P.lost < 255 then P.lost + 1 else P.lost }).symm
  have hraised (Q : PortState) : Q.receptionOver.raise .fault = (Q.raise .fault).receptionOver :=
    (apply_ite PortState.receptionOver ((Q.inContact && Item.fault.wanted Q) = true)
      { Q with events := raiseInto .fault Q.events } Q).symm
  cases hin : P.inContact with
  | false => rw [record_away hin, record_away (P := P.receptionOver) hin]
  | true => rw [record_eq_raise hin, record_eq_raise (P := P.receptionOver) hin, hkept, hraised]

theorem receive_badCheck (h : f.receipt = .badCheck) : P.receive f = P.record .badCheck := by
  simp only [PortState.receive, h]

theorem receive_unknownKind (h : f.receipt = .unknownKind) : P.receive f = P.refuseFrame f .unknown := by
  simp only [PortState.receive, h]

theorem receive_badLength (h : f.receipt = .badLength) :
    P.receive f = (P.refuseFrame f .badArg).record (.lengthMismatch f.tag) := by
  simp only [PortState.receive, h]

theorem receive_request {r : Request} (h : f.receipt = .request r) :
    P.receive f = { P with intake := P.intake ++ [r] } := by
  simp only [PortState.receive, h]

end

/-- Settles O44: a frame that is received and does not wait is taken by what its receipt checks answer; the others have no
effect. -/
theorem frameReceiptChecks : Obligations.FrameReceiptChecks := by
  refine ⟨fun p bytes s h => exec_frameReceipt_no_frame h, fun p bytes f s h hrun => ⟨fun hdown => ?_,
    fun hfull hbegun => ?_, fun hup hroom => ?_⟩⟩
  · exact exec_frameReceipt_not_received h fun hreceives => by
      obtain ⟨-, hup, -⟩ := receives_iff.mp hreceives
      exact absurd (hdown.symm.trans hup) (by decide)
  · exact exec_frameReceipt_not_received h fun hreceives => by
      obtain ⟨-, -, hroom | hbegan⟩ := receives_iff.mp hreceives
      · omega
      · exact absurd (hbegun.symm.trans hbegan) (by decide)
  · have hreceives : s.receives p = true := receives_iff.mpr ⟨hrun, hup, hroom⟩
    refine ⟨fun hcheck => ?_, fun hplaces hcheck hlength => ?_, fun hplaces hcheck hkind => ?_,
      fun n hplaces hcheck hkind hlength => ?_, fun hcheck hkind hlength => ?_⟩
    · have hbad := receipt_badCheck hcheck
      rw [exec_frameReceipt_received h hreceives (endWaits_not_refused (by simp [hbad]) (by simp [hbad]))]
      simp only [endFrame_eq, receive_badCheck hbad]
      rfl
    · refine exec_frameReceipt_waits h (endWaits_iff.mpr ⟨?_, hplaces⟩)
      cases hkind : requiredLength f.kind f.body with
      | none => exact .inl (receipt_unknownKind hcheck hkind)
      | some n => exact .inr (receipt_badLength hcheck hkind (hlength n hkind))
    · rw [exec_frameReceipt_received h hreceives (endWaits_place_free hplaces), State.onPort, PortState.endFrame,
        receive_unknownKind (receipt_unknownKind hcheck hkind)]
      rfl
    · rw [exec_frameReceipt_received h hreceives (endWaits_place_free hplaces), onPort_setPort,
        State.onPort, endFrame_eq, receive_badLength (receipt_badLength hcheck hkind hlength),
        ← record_receptionOver]
      rfl
    · have hrequest := receipt_request hcheck hkind hlength
      rw [exec_frameReceipt_received h hreceives (endWaits_not_refused (by simp [hrequest]) (by simp [hrequest])),
        State.onPort, endFrame_eq, receive_request hrequest]
      rfl

end Sys2Proof.Machine

/-! # The configuration table (spec/10 R167 to R169, Table 10-7; spec/03 R65) -/

namespace Sys2Proof.Machine

open Sys2Proof

/-! ## CONFIG_READ (R168, Table 10-7) -/

section

variable {s : State} {p : Port} {r : Request} {item index : Byte} {value v w : Word}

theorem configRead_value (h : s.itemValue p item index = some value) :
    s.configRead p r item index = s.respond p (r.response .ok (.config item index value)) := by
  simp only [State.configRead, h]

theorem configRead_refused (h : s.itemValue p item index = none) :
    s.configRead p r item index = s.respond p (r.response .badArg .empty) := by
  simp only [State.configRead, h]

/-- A four-byte value is known by its bytes. -/
theorem be32_injective (h : be32 v = be32 w) : v = w := by
  simp only [be32, List.cons.injEq, and_true] at h
  obtain ⟨h0, h1, h2, h3⟩ := h
  rw [← word_bytes v, ← word_bytes w, h0, h1, h2, h3]

/-- The value of a numeric item is sent as the number itself. -/
theorem ofNat_of_toNat {n : Nat} (h : value.toNat = n) : BitVec.ofNat 32 n = value := by
  rw [← h, BitVec.ofNat_toNat, BitVec.setWidth_eq]

theorem itemValue_subscribe (h : index.toNat = p.val)
    (hvalue : be32 value = [flagByte (s.port p).subRev, flagByte (s.port p).subFault, 0#8, 0#8]) :
    s.itemValue p 8#8 index = some value := by
  have hread : s.itemValue p 8#8 index = some (s.port p).subscribeValue := if_pos (eq_portByte_iff.mpr h)
  exact hread.trans (congrArg some (be32_injective ((be32_valueOf ..).trans hvalue.symm)))

theorem itemValue_portState {q : Port} (h : q.val = index.toNat)
    (hvalue : be32 value = [(s.port q).session.code, (s.port q).link.code, (s.port q).sessionNo, 0#8]) :
    s.itemValue p 11#8 index = some value := by
  have hlt : index.toNat < 4 := h ▸ q.isLt
  have hq : q = ⟨index.toNat, hlt⟩ := Fin.ext h
  have hread : s.itemValue p 11#8 index = some (s.port q).stateValue := by
    rw [hq]
    exact dif_pos hlt
  exact hread.trans (congrArg some (be32_injective ((be32_valueOf ..).trans hvalue.symm)))

theorem itemValue_leaseRequired (h : value.toNat = if s.config.leaseRequired then 1 else 0) :
    s.itemValue p 1#8 index = some value := by
  have hread : s.itemValue p 1#8 index = some (if s.config.leaseRequired then 1#32 else 0#32) := rfl
  refine hread.trans (congrArg some (BitVec.eq_of_toNat_eq ?_))
  rw [h]
  split <;> rfl

/-- The value of every item of the table, each as it stands (Table 10-7). -/
theorem itemValue_some
    (h : (item = 1#8 ∧ value.toNat = (if s.config.leaseRequired then 1 else 0)) ∨
      (item = 2#8 ∧ s.config.leaseMax ≤ 65535 ∧ value.toNat = s.config.leaseMax) ∨
      (item = 3#8 ∧ s.config.yieldGrace ≤ 65535 ∧ value.toNat = s.config.yieldGrace) ∨
      (item = 4#8 ∧ s.config.editIdle ≤ 2000 ∧ value.toNat = s.config.editIdle) ∨
      (item = 5#8 ∧ s.config.poolTime ≤ 255 ∧ value.toNat = s.config.poolTime) ∨
      (item = 6#8 ∧ s.config.poolRetries ≤ 15 ∧ value.toNat = s.config.poolRetries) ∨
      (item = 7#8 ∧ s.config.slotQuota ≤ 8 ∧ value.toNat = s.config.slotQuota) ∨
      (item = 8#8 ∧ index.toNat = p.val ∧
        be32 value = [flagByte (s.port p).subRev, flagByte (s.port p).subFault, 0#8, 0#8]) ∨
      (item = 9#8 ∧ value.toNat = 0x54) ∨ (item = 10#8 ∧ value.toNat = 0x12) ∨
      (item = 11#8 ∧ ∃ q : Port, q.val = index.toNat ∧
        be32 value = [(s.port q).session.code, (s.port q).link.code, (s.port q).sessionNo, 0#8])) :
    s.itemValue p item index = some value := by
  rcases h with ⟨rfl, h⟩ | ⟨rfl, -, h⟩ | ⟨rfl, -, h⟩ | ⟨rfl, -, h⟩ | ⟨rfl, -, h⟩ | ⟨rfl, -, h⟩ | ⟨rfl, -, h⟩ |
    ⟨rfl, hown, h⟩ | ⟨rfl, h⟩ | ⟨rfl, h⟩ | ⟨rfl, q, hq, h⟩
  · exact itemValue_leaseRequired h
  · exact congrArg some (ofNat_of_toNat h)
  · exact congrArg some (ofNat_of_toNat h)
  · exact congrArg some (ofNat_of_toNat h)
  · exact congrArg some (ofNat_of_toNat h)
  · exact congrArg some (ofNat_of_toNat h)
  · exact congrArg some (ofNat_of_toNat h)
  · exact itemValue_subscribe hown h
  · exact congrArg some (ofNat_of_toNat h)
  · exact congrArg some (ofNat_of_toNat h)
  · exact itemValue_portState hq h

/-- An item that does not stand in the table for this port is refused (R168). -/
theorem itemValue_none (h : item.toNat = 0 ∨ 11 < item.toNat ∨ (item = 8#8 ∧ index.toNat ≠ p.val) ∨
    (item = 11#8 ∧ 4 ≤ index.toNat)) : s.itemValue p item index = none := by
  rcases h with h | h | ⟨rfl, h⟩ | ⟨rfl, h⟩
  · obtain rfl : item = 0#8 := BitVec.eq_of_toNat_eq h
    rfl
  · have hother (n : Nat) (hn : n ≤ 11) : item ≠ BitVec.ofNat 8 n := by
      rintro rfl
      rw [BitVec.toNat_ofNat] at h
      omega
    simp [State.itemValue, ConfigTable.value, hother]
  · exact if_neg (mt eq_portByte_iff.mp h)
  · exact dif_neg (Nat.not_lt.mpr h)

/-- A request that is taken changes no item. -/
theorem itemValue_takenOpen (tag : Byte) :
    (s.takenOpen p tag).itemValue p item index = s.itemValue p item index := by
  have hsubscribe : ((s.takenOpen p tag).port p).subscribeValue = (s.port p).subscribeValue := by
    rw [takenOpen_port_same]
    rfl
  have hstate (q : Port) : ((s.takenOpen p tag).port q).stateValue = (s.port q).stateValue := by
    by_cases hq : q = p
    · subst hq
      rw [takenOpen_port_same]
      rfl
    · rw [takenOpen_port_ne s tag hq]
  simp only [State.itemValue, hsubscribe, hstate, takenOpen_config]

end

theorem exec_configRead (p : Port) (tag item index : Byte) (s : State) : exec (.configRead p tag item index) s =
    .next (s.request p { tag := tag, op := .configRead item index } fun t =>
      t.configRead p { tag := tag, op := .configRead item index } item index) := rfl

/-- Settles O39: a ready request is answered by the value of its item, which Table 10-7 gives item by item. -/
theorem configReadAnswers : Obligations.ConfigReadAnswers := by
  intro p tag item index
  refine ⟨checkedFirst_of_request (exec_configRead p tag item index), fun s h => ?_⟩
  have hanswered : ∀ st body, (s.takenOpen p tag).respond p
      (Request.response { tag := tag, op := .configRead item index } st body) = s.answeredNow p
      { code := 0x3C#8, tag := tag, status := st, body := body } := fun _ _ => takenOpen_respond _ h rfl
  rw [exec_configRead, request_ready _ h]
  dsimp only
  refine ⟨fun hnone => ?_, fun value hvalue => ?_⟩
  · rw [configRead_refused ((itemValue_takenOpen tag).trans (itemValue_none hnone)), hanswered]
  · rw [configRead_value ((itemValue_takenOpen tag).trans (itemValue_some hvalue)), hanswered]

/-! ## CONFIG_WRITE of a global item (R65, R169) -/

section

variable {s : State} {p : Port} {r : Request} {item index : Byte} {value : Word}

/-- Read-only items, and numbers that no item has, are refused (R169). -/
theorem configWrite_no_item (h : item.toNat = 0 ∨ 9 ≤ item.toNat) :
    s.configWrite p r item index value = s.respond p (r.response .badArg .empty) := by
  have hsubscribe : item ≠ 8#8 := by
    rintro rfl
    rw [BitVec.toNat_ofNat] at h
    omega
  rw [State.configWrite, if_neg hsubscribe, if_neg (by omega)]

theorem configWrite_global (hlo : 1 ≤ item.toNat) (hhi : item.toNat ≤ 7) :
    s.configWrite p r item index value = s.writeGlobal p r item index value := by
  have hsubscribe : item ≠ 8#8 := by
    rintro rfl
    rw [BitVec.toNat_ofNat] at hhi
    omega
  rw [State.configWrite, if_neg hsubscribe, if_pos ⟨hlo, hhi⟩]

end

section

variable (c : ConfigTable) (v : Nat)

theorem write_leaseRequired :
    c.write 1#8 v = if v ≤ 1 then some { c with leaseRequired := v == 1 } else none := rfl

theorem write_leaseMax :
    c.write 2#8 v = if 1 ≤ v ∧ v ≤ 65535 then some { c with leaseMax := v } else none := rfl

theorem write_yieldGrace : c.write 3#8 v = if v ≤ 65535 then some { c with yieldGrace := v } else none := rfl

theorem write_editIdle :
    c.write 4#8 v = if 10 ≤ v ∧ v ≤ 2000 then some { c with editIdle := v } else none := rfl

theorem write_poolTime : c.write 5#8 v = if 1 ≤ v ∧ v ≤ 255 then some { c with poolTime := v } else none := rfl

theorem write_poolRetries : c.write 6#8 v = if v ≤ 15 then some { c with poolRetries := v } else none := rfl

end

section

variable {c config : ConfigTable} {item : Byte} {value : Word}

/-- A value out of its item's range is not written (R169, check 7). -/
theorem write_none {v : Nat}
    (h : (item = 1#8 ∧ 1 < v) ∨ (item = 2#8 ∧ (v = 0 ∨ 65535 < v)) ∨ (item = 3#8 ∧ 65535 < v) ∨
      (item = 4#8 ∧ (v < 10 ∨ 2000 < v)) ∨ (item = 5#8 ∧ (v = 0 ∨ 255 < v)) ∨ (item = 6#8 ∧ 15 < v)) :
    c.write item v = none := by
  rcases h with ⟨rfl, h⟩ | ⟨rfl, h⟩ | ⟨rfl, h⟩ | ⟨rfl, h⟩ | ⟨rfl, h⟩ | ⟨rfl, h⟩
  · rw [write_leaseRequired, if_neg (by omega)]
  · rw [write_leaseMax, if_neg (by omega)]
  · rw [write_yieldGrace, if_neg (by omega)]
  · rw [write_editIdle, if_neg (by omega)]
  · rw [write_poolTime, if_neg (by omega)]
  · rw [write_poolRetries, if_neg (by omega)]

/-- LEASE_REQUIRED is yes exactly for the value 1. -/
theorem toNat_beq_one (value : Word) : (value.toNat == 1) = (value == 1#32) := by
  rw [Bool.eq_iff_iff, beq_iff_eq, beq_iff_eq, ← BitVec.toNat_inj]
  rfl

/-- A value in its item's range is the item's from then on (R169). -/
theorem write_some
    (h : (item = 1#8 ∧ value.toNat ≤ 1 ∧ config = { c with leaseRequired := value == 1#32 }) ∨
      (item = 2#8 ∧ 1 ≤ value.toNat ∧ value.toNat ≤ 65535 ∧ config = { c with leaseMax := value.toNat }) ∨
      (item = 3#8 ∧ value.toNat ≤ 65535 ∧ config = { c with yieldGrace := value.toNat }) ∨
      (item = 4#8 ∧ 10 ≤ value.toNat ∧ value.toNat ≤ 2000 ∧ config = { c with editIdle := value.toNat }) ∨
      (item = 5#8 ∧ 1 ≤ value.toNat ∧ value.toNat ≤ 255 ∧ config = { c with poolTime := value.toNat }) ∨
      (item = 6#8 ∧ value.toNat ≤ 15 ∧ config = { c with poolRetries := value.toNat })) :
    c.write item value.toNat = some config := by
  rcases h with ⟨rfl, h, rfl⟩ | ⟨rfl, hlo, hhi, rfl⟩ | ⟨rfl, h, rfl⟩ | ⟨rfl, hlo, hhi, rfl⟩ | ⟨rfl, hlo, hhi, rfl⟩ |
    ⟨rfl, h, rfl⟩
  · rw [write_leaseRequired, if_pos h, toNat_beq_one]
  · rw [write_leaseMax, if_pos ⟨hlo, hhi⟩]
  · rw [write_yieldGrace, if_pos h]
  · rw [write_editIdle, if_pos ⟨hlo, hhi⟩]
  · rw [write_poolTime, if_pos ⟨hlo, hhi⟩]
  · rw [write_poolRetries, if_pos h]

end

theorem exec_configWrite (p : Port) (tag item index : Byte) (value : Word) (s : State) :
    exec (.configWrite p tag item index value) s =
      .next (s.request p { tag := tag, op := .configWrite item index value } fun t =>
        t.configWrite p { tag := tag, op := .configWrite item index value } item index value) := rfl

/-- Settles O40: the item's number, lock 0 and the range decide; a value written is the only change beside the answer. -/
theorem configWriteAnswers : Obligations.ConfigWriteAnswers := by
  intro p tag item index value s h
  have hanswered : ∀ st body, (s.takenOpen p tag).respond p
      (Request.response { tag := tag, op := .configWrite item index value } st body) = s.answeredNow p
      { code := 0x3D#8, tag := tag, status := st, body := body } := fun _ _ => takenOpen_respond _ h rfl
  have hholds : (s.takenOpen p tag).holds p 0 = s.holds p 0 := rfl
  rw [exec_configWrite, request_ready _ h]
  dsimp only
  refine ⟨fun hno => ?_, fun hlo hhi hlock => ?_, fun hlock hv => ?_, fun config hlock hv => ?_⟩
  · rw [configWrite_no_item hno, hanswered]
  · rw [configWrite_global hlo hhi, writeGlobal_locked (hholds.trans hlock), hanswered]
  · have hitem : 1 ≤ item.toNat ∧ item.toNat ≤ 7 := by
      rcases hv with ⟨rfl, -⟩ | ⟨rfl, -⟩ | ⟨rfl, -⟩ | ⟨rfl, -⟩ | ⟨rfl, -⟩ | ⟨rfl, -⟩ <;> decide
    rw [configWrite_global hitem.1 hitem.2, writeGlobal_outside (hholds.trans hlock) (write_none hv), hanswered]
  · have hitem : 1 ≤ item.toNat ∧ item.toNat ≤ 7 := by
      rcases hv with ⟨rfl, -⟩ | ⟨rfl, -⟩ | ⟨rfl, -⟩ | ⟨rfl, -⟩ | ⟨rfl, -⟩ | ⟨rfl, -⟩ <;> decide
    rw [configWrite_global hitem.1 hitem.2, writeGlobal_inside (hholds.trans hlock) (write_some hv), hanswered]

end Sys2Proof.Machine

/-! # Every step keeps every global item in its range (spec/10 R169, Table 10-7) -/

namespace Sys2Proof.Machine

open Sys2Proof

/-! ## What a command does to the global items

Only a CONFIG_WRITE writes a global item, and a device reset gives every item its default. -/

/-- The global items are as before, or one of them has taken a value in its range (R169). -/
def ConfigEffect (s t : State) : Prop := t.config = s.config ∨ ∃ item v, s.config.write item v = some t.config

section

variable {s t u : State} {p : Port} {r : Request} {item index : Byte} {value : Word}

theorem ConfigEffect.of_config_eq (h : u.config = s.config) (g : ConfigEffect u t) : ConfigEffect s t := by
  unfold ConfigEffect at g
  rwa [h] at g

theorem configEffect_of_device (h : t.device = s.device) : ConfigEffect s t := .inl (device_config h)

theorem configEffect_of_rest (h : t.rest = s.rest) : ConfigEffect s t := configEffect_of_device (rest_device h)

theorem configEffect_next {o : Host.Outcome State Fault Refusal} (h : o = .next t) (ho : o = .next u)
    (g : ConfigEffect s u) : ConfigEffect s t := by
  cases h.symm.trans ho; exact g

/-! ### Requests -/

theorem configEffect_request {go : State → State} (h : ∀ u : State, ConfigEffect u (go u)) :
    ConfigEffect s (s.request p r go) := by
  rcases rest_request_cases s p r go with e | ⟨u, hu, e⟩
  · exact configEffect_of_rest e
  · rw [e]; exact .of_config_eq (device_config (rest_device hu)) (h u)

theorem configEffect_request_rest {go : State → State} (h : ∀ u : State, (go u).rest = u.rest) :
    ConfigEffect s (s.request p r go) :=
  configEffect_request fun u => configEffect_of_rest (h u)

theorem configEffect_writeGlobal : ConfigEffect s (s.writeGlobal p r item index value) := by
  unfold State.writeGlobal
  split
  · exact .inl rfl
  · split
    next c hc => exact .inr ⟨item, value.toNat, hc⟩
    · exact .inl rfl

theorem configEffect_configWrite : ConfigEffect s (s.configWrite p r item index value) := by
  unfold State.configWrite
  split
  · exact configEffect_of_rest (rest_writeSubscribe ..)
  · split
    · exact configEffect_writeGlobal
    · exact .inl rfl

/-! ### Edit requests -/

theorem device_asOwner {go : State → OpenEdit → State} (h : ∀ o, (go s o).device = s.device) :
    (s.asOwner p r go).device = s.device := by
  unfold State.asOwner
  split
  · split
    · exact h _
    · rfl
  · rfl

theorem device_mapOpen (expected : Option Half) : (s.mapOpen p r expected).device = s.device := by
  unfold State.mapOpen
  split
  · split <;> rfl
  · split <;> rfl
  · split <;> rfl

theorem device_stageRow (raw : RawRow) (o : OpenEdit) : (s.stageRow p r raw o).device = s.device := by
  unfold State.stageRow
  split
  · rfl
  · split <;> rfl

theorem device_unstageRow (row : Half) (o : OpenEdit) : (s.unstageRow p r row o).device = s.device := by
  unfold State.unstageRow
  split <;> rfl

theorem device_commitEdit (o : OpenEdit) : (s.commitEdit p r o).device = s.device := by
  unfold State.commitEdit State.startCommit
  dsimp only
  split
  · rfl
  · split
    · exact device_completeCommit _
    · rfl

/-! ### Links and the pool bus -/

theorem device_linkFalls : (s.linkFalls p).device = s.device := by
  unfold State.linkFalls
  split
  · rfl
  · split
    · rfl
    · split
      · exact device_linkLossEvent s p
      · rfl

theorem config_endJob (n : SlotNo) (j : Job) (e : Ending) : (s.endJob n j e).config = s.config :=
  (device_config (device_endPiece (s.releaseSlot n) j e)).trans rfl

theorem config_takeDone (n : SlotNo) (j : Job) (data : List Byte) : (s.takeDone n j data).config = s.config := by
  unfold State.takeDone
  split <;> exact config_endJob ..

theorem config_takeRetry (n : SlotNo) (j : Job) (data : List Byte) : (s.takeRetry n j data).config = s.config := by
  unfold State.takeRetry
  split
  · exact config_endJob ..
  · split
    · rfl
    · exact config_endJob ..

theorem config_takeTimeout (n : SlotNo) : (s.takeTimeout n).config = s.config := by
  unfold State.takeTimeout
  split
  · exact config_endJob ..
  · rfl

theorem config_arbiterRun : s.arbiterRun.config = s.config := by
  unfold State.arbiterRun
  split
  · split
    · split <;> rfl
    · rfl
  · rfl

end

/-! ### Every command -/

/-- The inversion of every command at the global items, device resets apart. -/
theorem exec_configEffect {c : Instr} {s t : State} (hreset : c ≠ .deviceReset) (hsupply : c ≠ .supplyOrRefclkLoss)
    (h : exec c s = .next t) : ConfigEffect s t := by
  cases c with
  | hello p tag a b =>
    refine configEffect_next h rfl (configEffect_of_rest ?_)
    split
    · exact rest_takeHello ..
    · rfl
  | leave p tag =>
    exact configEffect_next h rfl (configEffect_request fun u => configEffect_of_device (device_leaveEvent u p tag))
  | read p tag addr len => exact configEffect_next h rfl (configEffect_request_rest fun u => rest_accepting u p _)
  | write p tag addr len data =>
    exact configEffect_next h rfl (configEffect_request_rest fun u => rest_accepting u p _)
  | mapRead p tag row view =>
    exact configEffect_next h rfl (configEffect_request_rest fun u => rest_mapRead u p _ row view)
  | mapOpen p tag expected =>
    exact configEffect_next h rfl (configEffect_request fun _ => configEffect_of_device (device_mapOpen expected))
  | mapStage p tag raw =>
    exact configEffect_next h rfl (configEffect_request fun _ => configEffect_of_device
      (device_asOwner fun o => device_stageRow raw o))
  | mapUnstage p tag row =>
    exact configEffect_next h rfl (configEffect_request fun _ => configEffect_of_device
      (device_asOwner fun o => device_unstageRow row o))
  | mapAbort p tag =>
    exact configEffect_next h rfl (configEffect_request fun _ => configEffect_of_device
      (device_asOwner fun _ => rfl))
  | mapCommit p tag =>
    exact configEffect_next h rfl (configEffect_request fun _ => configEffect_of_device
      (device_asOwner fun o => device_commitEdit o))
  | lockAcquire p tag lock wait yield owner lease =>
    exact configEffect_next h rfl (configEffect_request_rest fun u => rest_withLock u p _ lock _ fun k =>
      rest_acquire u p _ wait yield owner lease k)
  | lockRelease p tag lock gen =>
    exact configEffect_next h rfl (configEffect_request_rest fun u => rest_withLock u p _ lock _ fun k =>
      rest_asHolder u p _ gen k _ fun _ => rest_endGrant u k p (some tag))
  | lockRenew p tag lock gen lease =>
    exact configEffect_next h rfl (configEffect_request_rest fun u => rest_withLock u p _ lock _ fun k =>
      rest_asHolder u p _ gen k _ fun x => rest_renew u p _ lease k x)
  | lockCancel p tag lock =>
    exact configEffect_next h rfl (configEffect_request_rest fun u => rest_withLock u p _ lock _ fun k =>
      rest_cancel u p _ k)
  | lockQuery p tag lock =>
    exact configEffect_next h rfl (configEffect_request_rest fun u => rest_withLock u p _ lock _ fun _ => rfl)
  | notify p tag target code =>
    exact configEffect_next h rfl (configEffect_request_rest fun u => rest_notify u p _ target code)
  | noticeAck p tag seq => exact configEffect_next h rfl (configEffect_request_rest fun u => rest_acknowledge u p _ seq)
  | faultTake p tag => exact configEffect_next h rfl (configEffect_request_rest fun u => rest_faultTake u p _)
  | configRead p tag item index =>
    exact configEffect_next h rfl (configEffect_request_rest fun u => rest_configRead u p _ item index)
  | configWrite p tag item index v =>
    exact configEffect_next h rfl (configEffect_request fun _ => configEffect_configWrite)
  | configWriteSubscribe p tag index v =>
    exact configEffect_next h rfl (configEffect_request_rest fun u => rest_writeSubscribe u p _ index v)
  | configWriteSlotQuota p tag index v =>
    exact configEffect_next h rfl (configEffect_request fun _ => configEffect_writeGlobal)
  | frameReceipt p bytes =>
    refine configEffect_next h rfl (.inl ?_)
    split
    · split <;> rfl
    · rfl
  | linkUp p => exact configEffect_next h rfl (.inl rfl)
  | linkDown p => exact configEffect_next h rfl (configEffect_of_device device_linkFalls)
  | deviceReset => exact absurd rfl hreset
  | supplyOrRefclkLoss => exact absurd rfl hsupply
  | resetRelease => exact configEffect_next h rfl (.inl rfl)
  | editIdleExpiry =>
    refine configEffect_next h rfl (.inl ?_)
    split <;> rfl
  | leaseExpiry k =>
    refine configEffect_next h rfl (configEffect_of_rest ?_)
    split
    · exact rest_revoke ..
    · rfl
  | yieldDeadlineExpiry k =>
    refine configEffect_next h rfl (configEffect_of_rest ?_)
    split
    · exact rest_revoke ..
    · rfl
  | accessTimerExpiry n => exact configEffect_next h rfl (.inl (config_takeTimeout n))
  | replyDone slot issue data =>
    refine configEffect_next h rfl (.inl ?_)
    split
    · exact config_takeDone ..
    · rfl
  | replyError slot issue data =>
    refine configEffect_next h rfl (.inl ?_)
    split
    · exact config_endJob ..
    · rfl
  | replyRetry slot issue data =>
    refine configEffect_next h rfl (.inl ?_)
    split
    · exact config_takeRetry ..
    · rfl
  | slotArbiterRun =>
    refine configEffect_next h rfl (.inl ?_)
    split
    · exact config_arbiterRun
    · rfl
  | sendResponse p =>
    refine configEffect_next h rfl (.inl ?_)
    split <;> rfl
  | sendEvent p =>
    refine configEffect_next h rfl (.inl ?_)
    split <;> rfl

/-! ## The ranges of Table 10-7 -/

/-- An item that takes a value takes one in its range; the others stay (R169, check 7). -/
theorem inRange_write {c d : ConfigTable} {item : Byte} {v : Nat} (h : c.inRange) (hw : c.write item v = some d) :
    d.inRange := by
  obtain ⟨hlease, hgrace, hidle, htime, hretries, hquota⟩ := h
  unfold ConfigTable.write at hw
  split_ifs at hw with _ hv _ hv _ hv _ hv _ hv _ hv _ hv <;> cases hw
  · exact ⟨hlease, hgrace, hidle, htime, hretries, hquota⟩
  · exact ⟨hv, hgrace, hidle, htime, hretries, hquota⟩
  · exact ⟨hlease, hv, hidle, htime, hretries, hquota⟩
  · exact ⟨hlease, hgrace, hv, htime, hretries, hquota⟩
  · exact ⟨hlease, hgrace, hidle, hv, hretries, hquota⟩
  · exact ⟨hlease, hgrace, hidle, htime, hv, hquota⟩
  · exact ⟨hlease, hgrace, hidle, htime, hretries, hv⟩

theorem ConfigEffect.inRange {s t : State} (h : ConfigEffect s t) (g : s.config.inRange) : t.config.inRange := by
  rcases h with h | ⟨item, v, h⟩
  · rw [h]; exact g
  · exact inRange_write g h

/-- The defaults are in their ranges (Table 10-7). -/
theorem inRange_reset : ConfigTable.reset.inRange := by simp [ConfigTable.inRange, ConfigTable.reset]

theorem exec_keeps_inRange {c : Instr} {s t : State} (g : s.config.inRange) (h : exec c s = .next t) :
    t.config.inRange := by
  by_cases hreset : c = .deviceReset
  · subst hreset; cases h; exact inRange_reset
  · by_cases hsupply : c = .supplyOrRefclkLoss
    · subst hsupply; cases h; exact inRange_reset
    · exact (exec_configEffect hreset hsupply h).inRange g

/-- Settles O55: a command writes an item only with a value in its range, or gives every item its default. -/
theorem stepKeepsConfigInRange : Obligations.StepKeepsConfigInRange := by
  intro s t g h
  unfold step at h
  split at h
  · cases h; exact g
  next c rest _ =>
    have gtaken : ({ s with pending := rest } : State).config.inRange := g
    exact exec_keeps_inRange gtaken h

end Sys2Proof.Machine

/-! # The step and the queue of commands (log 1 to log 4) -/

namespace Sys2Proof.Machine

open Sys2Proof

/-! ## The operations leave the queue alone

Most operations keep `rest` or `device` (Sys2Proof/Laws/Frame.lean), which both hold the queue. The others are a write to
a global item, the end of a piece, and an issue. -/

section

variable {s t : State} {p : Port} {r : Request} {item index : Byte} {value : Word} {n : SlotNo} {j : Job}
  {data : List Byte}

theorem pending_of_rest (h : t.rest = s.rest) : t.pending = s.pending := device_pending (rest_device h)

/-- What happens only under a condition, the state being left as it is otherwise. -/
theorem pending_ite {cond : Prop} [Decidable cond] (h : t.pending = s.pending) :
    (if cond then t else s).pending = s.pending := by
  split
  · exact h
  · rfl

/-! ### Requests -/

/-- Taking a request and checking its session and tag leave the queue to the request's own part. -/
theorem pending_request {go : State → State} (h : ∀ u : State, (go u).pending = u.pending) :
    (s.request p r go).pending = s.pending := by
  rcases rest_request_cases s p r go with hrefused | ⟨u, hu, hgo⟩
  · exact pending_of_rest hrefused
  · rw [hgo]; exact (h u).trans (pending_of_rest hu)

theorem pending_request_rest {go : State → State} (h : ∀ u : State, (go u).rest = u.rest) :
    (s.request p r go).pending = s.pending :=
  pending_request fun u => pending_of_rest (h u)

theorem pending_request_device {go : State → State} (h : ∀ u : State, (go u).device = u.device) :
    (s.request p r go).pending = s.pending :=
  pending_request fun u => device_pending (h u)

theorem pending_request_asOwner {go : State → OpenEdit → State} (h : ∀ u o, (go u o).device = u.device) :
    (s.request p r fun u => u.asOwner p r go).pending = s.pending :=
  pending_request_device fun u => device_asOwner (h u)

theorem pending_request_withLock {lock : Byte} {go : State → Lock → State} (h : ∀ u k, (go u k).rest = u.rest) :
    (s.request p r fun u => u.withLock p r lock go).pending = s.pending :=
  pending_request_rest fun u => rest_withLock u p r lock go (h u)

theorem pending_writeGlobal : (s.writeGlobal p r item index value).pending = s.pending := by
  unfold State.writeGlobal
  split
  · rfl
  · split <;> rfl

theorem pending_configWrite : (s.configWrite p r item index value).pending = s.pending := by
  unfold State.configWrite
  split
  · exact pending_of_rest (rest_writeSubscribe ..)
  · exact pending_ite pending_writeGlobal

/-! ### The pool bus -/

theorem pending_endJob (e : Ending) : (s.endJob n j e).pending = s.pending :=
  (device_pending (device_endPiece (s.releaseSlot n) j e)).trans rfl

theorem pending_takeDone : (s.takeDone n j data).pending = s.pending := by
  unfold State.takeDone
  split <;> exact pending_endJob _

theorem pending_takeRetry : (s.takeRetry n j data).pending = s.pending := by
  unfold State.takeRetry
  split
  · exact pending_endJob _
  · split
    · rfl
    · exact pending_endJob _

theorem pending_takeTimeout : (s.takeTimeout n).pending = s.pending := by
  unfold State.takeTimeout
  split
  · exact pending_endJob _
  · rfl

theorem pending_arbiterRun : s.arbiterRun.pending = s.pending := by
  unfold State.arbiterRun
  split
  · split
    · split <;> rfl
    · rfl
  · rfl

end

/-! ## Every command -/

/-- Settles O2: each command's meaning is a next state, made of operations that leave the queue alone. -/
theorem everyCommandCompletes : Obligations.EveryCommandCompletes := by
  intro c s
  cases c with
  | hello p tag a b =>
    exact ⟨_, rfl, pending_ite (pending_of_rest (rest_takeHello (s.taken p) p _ a b))⟩
  | leave p tag => exact ⟨_, rfl, pending_request_device fun u => device_leaveEvent u p tag⟩
  | read p tag addr len => exact ⟨_, rfl, pending_request_rest fun u => rest_accepting u p _⟩
  | write p tag addr len data => exact ⟨_, rfl, pending_request_rest fun u => rest_accepting u p _⟩
  | mapRead p tag row view => exact ⟨_, rfl, pending_request_rest fun u => rest_mapRead u p _ row view⟩
  | mapOpen p tag expected => exact ⟨_, rfl, pending_request_device fun _ => device_mapOpen expected⟩
  | mapStage p tag raw => exact ⟨_, rfl, pending_request_asOwner fun _ o => device_stageRow raw o⟩
  | mapUnstage p tag row => exact ⟨_, rfl, pending_request_asOwner fun _ o => device_unstageRow row o⟩
  | mapAbort p tag => exact ⟨_, rfl, pending_request_asOwner fun _ _ => rfl⟩
  | mapCommit p tag => exact ⟨_, rfl, pending_request_asOwner fun _ o => device_commitEdit o⟩
  | lockAcquire p tag lock wait yield owner lease =>
    exact ⟨_, rfl, pending_request_withLock fun u k => rest_acquire u p _ wait yield owner lease k⟩
  | lockRelease p tag lock gen =>
    exact ⟨_, rfl, pending_request_withLock fun u k => rest_asHolder u p _ gen k _ fun _ =>
      rest_endGrant u k p (some tag)⟩
  | lockRenew p tag lock gen lease =>
    exact ⟨_, rfl, pending_request_withLock fun u k => rest_asHolder u p _ gen k _ fun x =>
      rest_renew u p _ lease k x⟩
  | lockCancel p tag lock => exact ⟨_, rfl, pending_request_withLock fun u k => rest_cancel u p _ k⟩
  | lockQuery p tag lock => exact ⟨_, rfl, pending_request_withLock fun _ _ => rfl⟩
  | notify p tag target code => exact ⟨_, rfl, pending_request_rest fun u => rest_notify u p _ target code⟩
  | noticeAck p tag seq => exact ⟨_, rfl, pending_request_rest fun u => rest_acknowledge u p _ seq⟩
  | faultTake p tag => exact ⟨_, rfl, pending_request_rest fun u => rest_faultTake u p _⟩
  | configRead p tag item index => exact ⟨_, rfl, pending_request_rest fun u => rest_configRead u p _ item index⟩
  | configWrite p tag item index v => exact ⟨_, rfl, pending_request fun _ => pending_configWrite⟩
  | configWriteSubscribe p tag index v =>
    exact ⟨_, rfl, pending_request_rest fun u => rest_writeSubscribe u p _ index v⟩
  | configWriteSlotQuota p tag index v => exact ⟨_, rfl, pending_request fun _ => pending_writeGlobal⟩
  | linkUp | deviceReset | supplyOrRefclkLoss | resetRelease => exact ⟨_, rfl, rfl⟩
  | linkDown p => exact ⟨_, rfl, device_pending device_linkFalls⟩
  | leaseExpiry k | yieldDeadlineExpiry k => exact ⟨_, rfl, pending_ite (pending_of_rest (rest_revoke s k _))⟩
  | accessTimerExpiry n => exact ⟨_, rfl, pending_takeTimeout⟩
  | slotArbiterRun => exact ⟨_, rfl, pending_ite pending_arbiterRun⟩
  | sendResponse p | sendEvent p => exact ⟨_, rfl, pending_ite (State.pending_onPort s p _)⟩
  | frameReceipt p bytes =>
    refine ⟨_, rfl, ?_⟩
    split
    · exact pending_ite (State.pending_onPort s p _)
    · rfl
  | editIdleExpiry =>
    refine ⟨_, rfl, ?_⟩
    split <;> rfl
  | replyDone slot issue data =>
    refine ⟨_, rfl, ?_⟩
    split
    · exact pending_takeDone
    · rfl
  | replyError slot issue data =>
    refine ⟨_, rfl, ?_⟩
    split
    · exact pending_endJob _
    · rfl
  | replyRetry slot issue data =>
    refine ⟨_, rfl, ?_⟩
    split
    · exact pending_takeRetry
    · rfl

/-! ## The step -/

/-- Settles O1: the queue of the given state is the given one, so the step goes into its branch for a front command. -/
theorem stepRunsFrontCommand : Obligations.StepRunsFrontCommand := by
  intro c rest s
  rw [step]

end Sys2Proof.Machine
